-- ==== Sys2Proof/Word.lean ====
section
/-! DEFINITION. The widths and index ranges of section 0.5: bytes, counts, positions, serials, and the numbers of
lanes, stations, classes and tickets. -/

namespace Sys2Proof

/-- One byte of the host line (R133). -/
abbrev Byte := BitVec 8

/-- A 16-bit count, time or generation (R154). -/
abbrev Half := BitVec 16

/-- A 24-bit offset, span or time (section 0.5, R154). -/
abbrev Triple := BitVec 24

/-- A 32-bit position of a lane's travel; arithmetic wraps modulo 2^32 (section 0.5). -/
abbrev Pos := BitVec 32

/-- A 32-bit serial number of a lane (R42). -/
abbrev Serial := BitVec 32

/-- Lanes are numbered 0 to 3 (section 0.5). -/
abbrev LaneId := Fin 4

/-- Stations are numbered 0 to 5 within a lane (section 0.5). -/
abbrev StationId := Fin 6

/-- Classes are numbered 0 to 7 (section 0.5). -/
abbrev ClassId := Fin 8

/-- Tickets are numbered 0 to 63 within the pool (section 0.5). -/
abbrev TicketIndex := Fin 64

end Sys2Proof
end

