-- ==== Sys2Proof/Syntax.lean ====
section
/-! DEFINITION. The commands of the block: one constructor of `Instr` for each row of spec/opcode_table.json, with the
operands the row's rule gives it. A request carries its sequence byte and its raw payload, so that a payload of a wrong
length and a field out of range are commands too (R155 to R157). -/

namespace Sys2Proof

/-- The four positions of the rate switch (R133). -/
inductive LineRate where
  | baud115200 | baud230400 | baud460800 | baud921600
  deriving DecidableEq, Repr, Inhabited

/-- The levels of one lane's input lines; true is energised (section 0.2). -/
structure LaneInputs where
  entry : Bool
  confirm : Bool
  encoderA : Bool
  encoderB : Bool
  deriving DecidableEq, Repr

/-- Every input of the module other than the host line: the guard line, the rate switch and the lanes' lines. -/
structure Inputs where
  /-- true while the guard input is energised (R116) -/
  guardLine : Bool
  rateSwitch : LineRate
  lanes : Vector LaneInputs 4
  deriving DecidableEq, Repr

/-- The commands. `seq` is a frame's sequence byte and `payload` its payload bytes. -/
inductive Instr where
  /-- power-on, with the levels then on the inputs (R21, R144) -/
  | powerOn (levels : Inputs)
  /-- an assertion of the reset input, with the levels then on the inputs (R144) -/
  | resetInput (levels : Inputs)
  /-- a valid HELLO frame completes (R146) -/
  | hello (seq : Byte) (payload : List Byte)
  /-- a valid PING frame completes (R162) -/
  | ping (seq : Byte) (payload : List Byte)
  /-- a valid LINK_STATUS frame completes (R163) -/
  | linkStatus (seq : Byte) (payload : List Byte)
  /-- a valid RESTART frame completes (R151) -/
  | restart (seq : Byte) (payload : List Byte)
  /-- a valid ACK frame completes; its sequence byte is a report number (R178) -/
  | ack (number : Byte) (payload : List Byte)
  /-- a valid LANE_CONFIG frame completes (R3) -/
  | laneConfig (seq : Byte) (payload : List Byte)
  /-- a valid ENABLE frame completes (R5) -/
  | enable (seq : Byte) (payload : List Byte)
  /-- a valid DISABLE frame completes (R7) -/
  | disable (seq : Byte) (payload : List Byte)
  /-- a valid CLEAR_STOP frame completes (R132) -/
  | clearStop (seq : Byte) (payload : List Byte)
  /-- a valid FORCE frame completes (R114) -/
  | force (seq : Byte) (payload : List Byte)
  /-- a valid STAGE_LANE frame completes (R63) -/
  | stageLane (seq : Byte) (payload : List Byte)
  /-- a valid STAGE_STATION frame completes (R64) -/
  | stageStation (seq : Byte) (payload : List Byte)
  /-- a valid DISCARD_STAGED frame completes (R65) -/
  | discardStaged (seq : Byte) (payload : List Byte)
  /-- a valid COMMIT frame completes (R66) -/
  | commit (seq : Byte) (payload : List Byte)
  /-- a valid CANCEL_COMMIT frame completes (R76) -/
  | cancelCommit (seq : Byte) (payload : List Byte)
  /-- a valid VERDICT frame completes (R83) -/
  | verdict (seq : Byte) (payload : List Byte)
  /-- a valid QUERY_LANE frame completes (R164) -/
  | queryLane (seq : Byte) (payload : List Byte)
  /-- a valid QUERY_TICKET frame completes (R167) -/
  | queryTicket (seq : Byte) (payload : List Byte)
  /-- a valid QUERY_PROFILE frame completes (R168) -/
  | queryProfile (seq : Byte) (payload : List Byte)
  /-- a valid frame completes whose kind is neither a request kind nor ACK (R139) -/
  | unknownKindRequest (kind : Byte) (seq : Byte) (payload : List Byte)
  /-- a length byte of 97 to 255 is taken (R135) -/
  | frameOversize (length : Byte)
  /-- a complete frame fails its CRC (R137) -/
  | frameCrcFail
  /-- the inter-byte gap timer expires (R136) -/
  | gapTimeout
  /-- the link timer runs out (R149) -/
  | linkTimeout
  /-- the report timer runs out (R181) -/
  | reportTimeout
  /-- the transmitter has sent the last byte of its frame (R141) -/
  | transmitComplete
  /-- encoder A or B of a lane changes; the new levels (R18) -/
  | encoderChange (lane : LaneId) (a b : Bool)
  /-- the tick timer of a lane expires (R20) -/
  | clockTick (lane : LaneId)
  /-- the entry-sensor line of a lane takes a level (R24) -/
  | entrySensorEdge (lane : LaneId) (present : Bool)
  /-- the confirm-sensor line of a lane takes a level (R121) -/
  | confirmSensorEdge (lane : LaneId) (present : Bool)
  /-- the guard input takes a level; energised is released (R116) -/
  | guardChange (energised : Bool)
  /-- the pulse timer of a station runs out in PULSING (R100) -/
  | pulseEnd (lane : LaneId) (station : StationId)
  /-- the pulse timer of a station runs out in REARM (R100) -/
  | rearmEnd (lane : LaneId) (station : StationId)
  /-- one character arrives on the host line (R134) -/
  | characterReceived (byte : Byte)
  deriving DecidableEq, Repr

end Sys2Proof
end

