-- ==== Sys2Proof/Config.lean ====
section
/-! DEFINITION. The free values of the model: the order of acts that the manual leaves open, and the position of the rate
switch at the end of a RESTART. -/

namespace Sys2Proof

/-- Where several acts fall on one event and the manual says that "either may be taken first" (R17, R41, R57 and the
rules they name), the n-th such choice of a run is coded by `Config.order n`. It has no body: nothing can be proved of
its values, so a claim that is proved holds for every order (assumption log 3). -/
opaque Config.order : Nat → Nat

/-- The position in which the reset at the end of a RESTART finds the rate switch (R133): the switch can be moved at any
time and no command tells of it, so the n-th free value of a run is `Config.rateSwitch n`. It has no body: a claim that is
proved holds for every position (assumption log 2). -/
opaque Config.rateSwitch : Nat → LineRate

end Sys2Proof
end

