-- ==== Sys2Proof/Machine/State.lean ====
section
/-! DEFINITION. The state of the module as plain data, its value after power-on, and the reasons a step can stop.
Every piece of state is listed with its rule in INVENTORY.md. -/

namespace Sys2Proof.Machine

/-! ## Lane front end -/

/-- The lane state (R1). -/
inductive LaneState where
  | disabled | running | draining | halted
  deriving DecidableEq, Repr

/-- Where travel comes from (R2). -/
inductive TravelSource where
  | encoder | clock
  deriving DecidableEq, Repr

/-- A drop policy or a confirm policy (R2). -/
inductive Policy where
  | report | stop | halt
  deriving DecidableEq, Repr

/-- A link-loss policy (R2). -/
inductive LinkPolicy where
  | continue_ | stop | drain
  deriving DecidableEq, Repr

/-- The lane configuration record (R2). -/
structure LaneConfig where
  source : TravelSource
  swap : Bool
  /-- clock tick interval in microseconds -/
  tickInterval : Half
  /-- reverse limit in counts -/
  reverseLimit : Half
  reserve : Byte
  limit : Byte
  dropPolicy : Policy
  confirmPolicy : Policy
  linkPolicy : LinkPolicy
  maskEntry : Bool
  maskFate : Bool
  maskGlitch : Bool
  deriving DecidableEq, Repr

/-- A level pair of encoder A and B (R18). -/
structure EncoderPair where
  a : Bool
  b : Bool
  deriving DecidableEq, Repr

/-! ## Entry detector -/

/-- The item limits latched for the item being measured (R26). -/
structure Limits where
  lmin : Half
  lmax : Half
  gap : Half
  deriving DecidableEq, Repr

/-- The detector state with the positions and limits that are present in it (R22). -/
inductive Detector where
  | clear
  | inItem (leading : Pos) (limits : Limits)
  | gapWait (leading trailing : Pos) (limits : Limits)
  | blocked (leading : Pos) (limits : Limits)
  deriving DecidableEq, Repr

/-! ## Profiles -/

/-- What a busy PULSE station does with a ticket at its due point (R60). -/
inductive BusyPolicy where
  | defer (tolerance : Half)
  | drop
  deriving DecidableEq, Repr

/-- Which tickets a station acts for (R60). -/
inductive StationRule where
  | always
  | onClass (mask : Byte)
  deriving DecidableEq, Repr

/-- A station's kind with the fields that the kind uses; the others are absent (R60). -/
inductive StationAct where
  | off
  | pulse (on width rearm : Triple) (busy : BusyPolicy) (rule : StationRule) (flush : Bool)
  | span (on off : Triple) (rule : StationRule) (flush : Bool)
  deriving DecidableEq, Repr

/-- Window start and end, present exactly with confirm yes (R60). -/
structure ConfirmSpan where
  start : Half
  stop : Half
  deriving DecidableEq, Repr

/-- One station record (R60). -/
structure StationRecord where
  act : StationAct
  confirm : Option ConfirmSpan
  deriving DecidableEq, Repr

/-- The lane-level fields that STAGE_LANE writes (R59, R63). -/
structure LaneFields where
  lmin : Half
  lmax : Half
  gap : Half
  verdictMargin : Half
  defaultClass : ClassId
  flushMargin : Half
  deriving DecidableEq, Repr

/-- What a staged profile holds: the lane-level fields and six station records (R59). -/
structure ProfileBody where
  fields : LaneFields
  stations : Vector StationRecord 6
  deriving DecidableEq, Repr

/-- The derived values of a validated profile (R61, R62). -/
structure Derived where
  decisionOffset : Triple
  retireSpan : Triple
  deriving DecidableEq, Repr

/-- An active or retiring profile (R59). -/
structure Profile where
  generation : Half
  body : ProfileBody
  derived : Derived
  deriving DecidableEq, Repr

/-- The boundary of a commit (R66). -/
inductive Boundary where
  | now
  | whenClear
  | atSerial (serial : Serial)
  deriving DecidableEq, Repr

/-- A commit state other than NONE; a PENDING commit holds its boundary (R58). -/
inductive Commit where
  | pending (boundary : Boundary)
  | held
  deriving DecidableEq, Repr

/-- The staging status with the staged profile and the commit state that go with it: the status is COMMITTING exactly
while the commit state is PENDING or HELD, and a staged profile exists exactly in EDITING and COMMITTING (R58). -/
inductive Staging where
  | absent
  | editing (body : ProfileBody)
  | committing (body : ProfileBody) (derived : Derived) (commit : Commit)
  deriving DecidableEq, Repr

/-- Why a COMMIT is refused with PROFILE_INVALID (R67). -/
inductive InvalidReason where
  | lengths | tooClose | spanOrder | windowOrder | twoConfirm | confirmKind | margin | spanLimit
  deriving DecidableEq, Repr

/-! ## Tickets -/

/-- Who gave a final class (R77). -/
inductive Source where
  | host | default
  deriving DecidableEq, Repr

/-- The decision state with the class, source and tag present in it (R77). -/
inductive Decision where
  /-- OPEN -/
  | undecided
  | decided (cls : ClassId) (tag : Option Half)
  | final (cls : ClassId) (source : Source) (tag : Option Half)
  deriving DecidableEq, Repr

/-- Why an outcome is MISSED (R37). -/
inductive MissReason where
  | guard | busy | late
  deriving DecidableEq, Repr

/-- A ticket's outcome at a station (R37). -/
inductive Outcome where
  | pending | deferred | fired | passed
  | missed (reason : MissReason)
  deriving DecidableEq, Repr

/-- A ticket's confirm state (R118). -/
inductive ConfirmState where
  | notFired | waiting | confirmed | unconfirmed | notDue
  deriving DecidableEq, Repr

/-- A ticket record in use (R36). -/
structure Ticket where
  index : TicketIndex
  lane : LaneId
  serial : Serial
  generation : Half
  entry : Pos
  length : Half
  long : Bool
  decision : Decision
  /-- one entry per station in use, in station order (R37) -/
  outcomes : List (StationId × Outcome)
  /-- absent when the generation has no confirm station -/
  confirm : Option ConfirmState
  deriving DecidableEq, Repr

/-- A blind interval; an absent end is open (R54). -/
structure Interval where
  start : Pos
  stop : Option Pos
  deriving DecidableEq, Repr

/-! ## Stations, confirm monitor, stop control -/

/-- The pulse state, with the pulse timer's time left in microseconds and the latched rearm time (R94). -/
inductive Pulse where
  | idle
  | pulsing (left : Nat) (rearm : Triple)
  | rearming (left : Nat)
  deriving DecidableEq, Repr

/-- An entry of a deferred list (R94, R101). -/
structure Deferred where
  serial : Serial
  toleranceEnd : Pos
  deriving DecidableEq, Repr

/-- The record of a station scheduler (R94). -/
structure Station where
  pulse : Pulse
  deferred : List Deferred
  spanEnd : Option Pos
  /-- forced level: true is ACTIVE -/
  forced : Bool
  deriving DecidableEq, Repr

/-- An open confirm window [start, stop) of a WAITING ticket and the station that fired (R118, R125). -/
structure Window where
  serial : Serial
  station : StationId
  start : Pos
  stop : Pos
  deriving DecidableEq, Repr

/-- The stop-reason set (R128). -/
structure StopReasons where
  halt : Bool
  confirm : Bool
  drop : Bool
  link : Bool
  deriving DecidableEq, Repr

/-- Everything the module holds once per lane (section 0.4). -/
structure Lane where
  state : LaneState
  config : LaneConfig
  position : Pos
  reach : Pos
  encoder : EncoderPair
  /-- tick timer: stopped, or the microseconds left (R20) -/
  tickTimer : Option Nat
  detector : Detector
  /-- the entry-sensor level the detector last took (R22) -/
  entryLevel : Bool
  glitchCount : Half
  queue : List Ticket
  nextSerial : Serial
  wrapped : Bool
  dropCount : Half
  blind : List Interval
  active : Profile
  retiring : Option Profile
  staging : Staging
  stations : Vector Station 6
  /-- the confirm-sensor level the monitor last took (R118) -/
  confirmLevel : Bool
  windows : List Window
  stops : StopReasons
  deriving DecidableEq, Repr

/-! ## Host link -/

/-- The request kinds of R152. -/
inductive RequestKind where
  | hello | ping | linkStatus | restart
  | laneConfig | enable | disable | clearStop | force
  | stageLane | stageStation | discardStaged | commit | cancelCommit
  | verdict
  | queryLane | queryTicket | queryProfile
  deriving DecidableEq, Repr

/-- A message on the line: kind, sequence byte and payload (R133). -/
structure Message where
  kind : Byte
  seq : Byte
  payload : List Byte
  deriving DecidableEq, Repr

/-- The receiver state with the bytes of the frame taken so far (R134). -/
inductive Receiver where
  | hunt
  | length
  | kind (len : Byte)
  | seq (len kind : Byte)
  | payload (len kind seq : Byte) (taken : List Byte)
  | crcHi (len kind seq : Byte) (taken : List Byte)
  | crcLo (len kind seq : Byte) (taken : List Byte) (hi : Byte)
  deriving DecidableEq, Repr

/-- The five link counters (R138). -/
structure Counters where
  oversize : Half
  gap : Half
  crc : Half
  overrun : Half
  badAck : Half
  deriving DecidableEq, Repr

/-- An entry of the reply history: the sequence byte is the reply's own (R142). -/
structure HistoryEntry where
  seq : Byte
  reply : Message
  deriving DecidableEq, Repr

/-- The frame the transmitter is sending (R141). -/
structure Transmission where
  message : Message
  /-- true for a reply, which still holds its place in the reply queue (R140) -/
  isReply : Bool
  /-- millionths of a bit time still to send -/
  left : Nat
  deriving DecidableEq, Repr

/-- The session state (R144). -/
inductive SessionState where
  | closed | opened | lost
  deriving DecidableEq, Repr

/-- The kind of the last reset (R144). -/
inductive BootReason where
  | power | pin | restart
  deriving DecidableEq, Repr

/-- The session record (R144). -/
structure Session where
  state : SessionState
  id : Option Byte
  /-- milliseconds -/
  linkTimeout : Half
  /-- milliseconds -/
  reportTimeout : Half
  window : Byte
  bootReason : BootReason
  deriving DecidableEq, Repr

/-- The host link's state (chapter 8). -/
structure Link where
  /-- the rate switch as read at the last reset (R133) -/
  lineRate : LineRate
  receiver : Receiver
  /-- gap timer: stopped, or the microseconds left (R136) -/
  gapTimer : Option Nat
  counters : Counters
  replies : List Message
  transmitter : Option Transmission
  history : List HistoryEntry
  session : Session
  /-- link timer: stopped, or the microseconds left (R149) -/
  linkTimer : Option Nat
  /-- a RESTART has been taken and its reply is not yet sent (R151) -/
  restarting : Bool
  deriving DecidableEq, Repr

/-! ## Reports -/

/-- Why an admission is refused (R45). -/
inductive DropReason where
  | limit | pool | draining
  deriving DecidableEq, Repr

/-- Why a lane halts (R12). -/
inductive HaltReason where
  | reverse | encoder | confirm | drop
  deriving DecidableEq, Repr

/-- A report kind with its fields (R170). -/
inductive Report where
  | entry (lane : LaneId) (serial : Serial) (index : TicketIndex) (position : Pos) (length : Half) (long : Bool)
      (generation : Half)
  | fate (lane : LaneId) (serial : Serial) (cls : ClassId) (source : Source) (tag : Option Half)
      (outcomes : List (StationId × Outcome)) (confirm : Option ConfirmState)
  | glitch (lane : LaneId) (leading : Pos) (length : Half)
  | dropped (lane : LaneId) (serial : Serial) (position : Pos) (reason : DropReason)
  | missed (lane : LaneId) (station : StationId) (serial : Serial) (reason : MissReason)
  | unconfirmed (lane : LaneId) (serial : Serial) (station : StationId)
  | stray (lane : LaneId) (position : Pos)
  | committed (lane : LaneId) (generation : Half) (firstSerial : Serial)
  | drained (lane : LaneId)
  | halted (lane : LaneId) (reason : HaltReason) (count : Byte)
  | guard (asserted : Bool)
  | gap (lost : Half)
  | abandoned (lane : LaneId) (count : Byte) (first last : Serial)
  deriving DecidableEq, Repr

/-- A report in the store (R173). -/
structure StoredReport where
  report : Report
  /-- the report clock when the report was appended (R169) -/
  timestamp : BitVec 32
  /-- present while the report is in flight -/
  number : Option Byte
  resendDue : Bool
  deriving DecidableEq, Repr

/-- The report store (R173). -/
structure Store where
  /-- oldest first -/
  reports : List StoredReport
  nextNumber : Byte
  lost : Half
  retry : Nat
  /-- report timer: stopped, or the microseconds left (R180) -/
  timer : Option Nat
  deriving DecidableEq, Repr

/-! ## The machine -/

/-- The state of the module, the queue of commands that wait for it, and the model's own fields. -/
structure State where
  /-- commands waiting, first in first out (the model's own) -/
  pending : List Instr
  /-- the levels now on the input lines, and the position in which the last reset found the rate switch (R133) -/
  inputs : Inputs
  lanes : Vector Lane 4
  /-- the guard level the module holds (R116) -/
  guardAsserted : Bool
  link : Link
  store : Store
  /-- the report clock in milliseconds (R169) -/
  clock : BitVec 32
  /-- microseconds since the report clock last moved (the model's own) -/
  clockPhase : Nat
  /-- how many free values have been taken so far (the model's own; Config.order and Config.rateSwitch are applied to
  it) -/
  freeIndex : Nat
  deriving DecidableEq, Repr

/-- Nothing the manual describes stops the module, so there is no fault. -/
inductive Fault where
  deriving DecidableEq, Repr

/-- Why a command gets no meaning. -/
inductive Refusal where
  /-- Raised by exec for a row that has no meaning yet (none is left). Safe: the step stops. -/
  | notModelled (mnemonic : String)
  /-- Raised by a meaning for operands that no command of its row has: a payload of more than 96 bytes, which no frame
  can carry (R133), a length byte of 0 to 96 given as oversize (R135), a known kind given as unknown (R139). Safe: the
  step stops, and the outside world cannot send such a command. -/
  | illFormed
  deriving DecidableEq, Repr

/-! ## After reset -/

/-- The defaults of R2. -/
def LaneConfig.reset : LaneConfig where
  source := .encoder
  swap := false
  tickInterval := 100
  reverseLimit := 64
  reserve := 4
  limit := 16
  dropPolicy := .report
  confirmPolicy := .report
  linkPolicy := .continue_
  maskEntry := true
  maskFate := true
  maskGlitch := true

/-- An OFF station with confirm no (R59). -/
def StationRecord.reset : StationRecord := ⟨.off, none⟩

/-- The power-on profile, generation 0 (R59). -/
def Profile.reset : Profile where
  generation := 0
  body :=
    { fields :=
        { lmin := 4, lmax := 1000, gap := 20, verdictMargin := 0, defaultClass := 0, flushMargin := 0 }
      stations :=
        #v[StationRecord.reset, StationRecord.reset, StationRecord.reset, StationRecord.reset, StationRecord.reset,
          StationRecord.reset] }
  derived := { decisionOffset := 1021, retireSpan := 1021 }

/-- A station scheduler after reset (R94). -/
def Station.reset : Station := { pulse := .idle, deferred := [], spanEnd := none, forced := false }

/-- The empty stop-reason set (R128). -/
def StopReasons.none : StopReasons := ⟨false, false, false, false⟩

/-- A lane after reset, with the levels then on its inputs (R21, R22, R42, R45, R48, R54, R58, R94, R118, R128). -/
def Lane.reset (levels : LaneInputs) : Lane where
  state := .disabled
  config := LaneConfig.reset
  position := 0
  reach := 0
  encoder := ⟨levels.encoderA, levels.encoderB⟩
  tickTimer := none
  detector := .clear
  entryLevel := levels.entry
  glitchCount := 0
  queue := []
  nextSerial := 1
  wrapped := false
  dropCount := 0
  blind := []
  active := Profile.reset
  retiring := none
  staging := .absent
  stations := #v[Station.reset, Station.reset, Station.reset, Station.reset, Station.reset, Station.reset]
  confirmLevel := levels.confirm
  windows := []
  stops := StopReasons.none

/-- The host link after a reset (section 8.11). -/
def Link.reset (rate : LineRate) (boot : BootReason) : Link where
  lineRate := rate
  receiver := .hunt
  gapTimer := none
  counters := ⟨0, 0, 0, 0, 0⟩
  replies := []
  transmitter := none
  history := []
  session :=
    { state := .closed, id := none, linkTimeout := 2000, reportTimeout := 200, window := 4, bootReason := boot }
  linkTimer := none
  restarting := false

/-- The report store after a reset (R173). -/
def Store.reset : Store := { reports := [], nextNumber := 0, lost := 0, retry := 0, timer := none }

/-- Every input line de-energised and the rate switch at 115,200 baud (DESIGN CHOICE, assumption log 1). -/
def Inputs.deenergised : Inputs where
  guardLine := false
  rateSwitch := .baud115200
  lanes :=
    #v[⟨false, false, false, false⟩, ⟨false, false, false, false⟩, ⟨false, false, false, false⟩,
      ⟨false, false, false, false⟩]

/-- The machine right after power-on with every input de-energised, so that the guard is asserted (R116). -/
def State.reset : State where
  pending := []
  inputs := Inputs.deenergised
  lanes :=
    #v[Lane.reset Inputs.deenergised.lanes[0], Lane.reset Inputs.deenergised.lanes[1],
      Lane.reset Inputs.deenergised.lanes[2], Lane.reset Inputs.deenergised.lanes[3]]
  guardAsserted := true
  link := Link.reset .baud115200 .power
  store := Store.reset
  clock := 0
  clockPhase := 0
  freeIndex := 0

end Sys2Proof.Machine
end

