-- ==== Sys2Proof/Machine/Ops.lean ====
section
/-! DEFINITION. The named operations over the state that every block shares: access to a lane, a station, a ticket;
counters that stop; serial arithmetic (R43); open orders; the report store's append (R174, R175); resets (R144). -/

namespace Sys2Proof.Machine

/-! ## Numbers of the manual -/

/-- Records of the ticket pool (R36). -/
def poolSize : Nat := 64
/-- Intervals a blind list holds (R54). -/
def blindCapacity : Nat := 4
/-- Replies the reply queue holds (R140). -/
def replyCapacity : Nat := 4
/-- Entries the reply history holds (R142). -/
def historyCapacity : Nat := 8
/-- Reports the store holds (R173). -/
def storeCapacity : Nat := 48
/-- Resends before the session is given up (R181). -/
def retryLimit : Nat := 4
/-- Longest payload of a frame (R133). -/
def maxPayload : Nat := 96
/-- Largest reverse depth (R16). -/
def maxDepth : Nat := 65536
/-- The inter-byte gap in microseconds (R136). -/
def gapMicroseconds : Nat := 2000
/-- Half of the position range: a position is past another when the difference is below it (R57, R109, R120). -/
def halfRange : Nat := 2147483648

/-- The lanes in order. -/
def allLanes : List LaneId := [0, 1, 2, 3]
/-- The stations of a lane in order. -/
def allStations : List StationId := [0, 1, 2, 3, 4, 5]

/-- A 16-bit count that rises by 1 and stops at 65535 (R22, R45, R138, R174). -/
def saturatingSucc (n : Half) : Half := if n = 65535 then n else n + 1

/-- Milliseconds as microseconds. -/
def milliseconds (n : Half) : Nat := n.toNat * 1000

/-! ## Lanes -/

/-- Lane l. -/
def State.lane (s : State) (l : LaneId) : Lane := s.lanes[l]

/-- Lane l replaced. -/
def State.setLane (s : State) (l : LaneId) (x : Lane) : State := { s with lanes := s.lanes.set l x }

/-- Lane l changed by f. -/
def State.updLane (s : State) (l : LaneId) (f : Lane → Lane) : State := s.setLane l (f (s.lane l))

/-- The levels on lane l's input lines. -/
def State.laneInputs (s : State) (l : LaneId) : LaneInputs := s.inputs.lanes[l]

/-- The levels on lane l's input lines replaced. -/
def State.setLaneInputs (s : State) (l : LaneId) (x : LaneInputs) : State :=
  { s with inputs := { s.inputs with lanes := s.inputs.lanes.set l x } }

/-- Station k of a lane. -/
def Lane.station (L : Lane) (k : StationId) : Station := L.stations[k]

/-- Station k of a lane replaced. -/
def Lane.setStation (L : Lane) (k : StationId) (x : Station) : Lane := { L with stations := L.stations.set k x }

/-- Station k of lane l changed by f. -/
def State.updStation (s : State) (l : LaneId) (k : StationId) (f : Station → Station) : State :=
  s.updLane l fun L => L.setStation k (f (L.station k))

/-- Every lane changed by f. -/
def State.mapLanes (s : State) (f : Lane → Lane) : State :=
  { s with lanes := #v[f (s.lane 0), f (s.lane 1), f (s.lane 2), f (s.lane 3)] }

/-- RUNNING or DRAINING: the states in which the lane tracks (R1, section 1.7). -/
def Lane.tracking (L : Lane) : Bool := L.state == .running || L.state == .draining

/-- The reverse depth: the reach minus the position, modulo 2^32 (R14). -/
def Lane.depth (L : Lane) : Pos := L.reach - L.position

/-! ## Open orders -/

/-- Takes the head of the i-th of a list of groups. -/
def popGroup {α : Type} : Nat → List (List α) → Option (α × List (List α))
  | _, [] => none
  | 0, g :: gs =>
    match g with
    | [] => none
    | a :: g' => some (a, if g'.isEmpty then gs else g' :: gs)
  | i + 1, g :: gs =>
    match popGroup i gs with
    | none => none
    | some (a, gs') => some (a, g :: gs')

/-- Merges the groups into one list that keeps each group's own order; `code` says, one digit at a time, whose turn it
is. The first argument bounds the length. -/
def interleave {α : Type} : Nat → Nat → List (List α) → List α
  | 0, _, gs => gs.flatten
  | _ + 1, _, [] => []
  | _ + 1, _, [g] => g
  | n + 1, code, g :: h :: gs =>
    match popGroup (code % (gs.length + 2)) (g :: h :: gs) with
    | none => (g :: h :: gs).flatten
    | some (a, rest) => a :: interleave n (code / (gs.length + 2)) rest

/-- The acts of several groups in an order the manual leaves open: with at most one group that has an act the order is
the group's own; otherwise a fresh free value merges them (assumption log 3). -/
def State.ordered {α : Type} (s : State) (groups : List (List α)) : List α × State :=
  match groups.filter (fun g => !g.isEmpty) with
  | [] => ([], s)
  | [g] => (g, s)
  | gs => (interleave gs.flatten.length (Config.order s.freeIndex) gs, { s with freeIndex := s.freeIndex + 1 })

/-! ## Serials -/

/-- How many serials there are before they repeat: 1 to 4,294,967,295 (R42). -/
def serialPeriod : Nat := 4294967295

/-- How many serials before the next serial s was issued, in the order of issue that skips 0 (R43). -/
def serialsBack (next s : Serial) : Nat := (next.toNat + serialPeriod - s.toNat) % serialPeriod

/-- How many serials s lies ahead of the next serial (R69). -/
def serialsAhead (next s : Serial) : Nat := (s.toNat + serialPeriod - next.toNat) % serialPeriod

/-- A serial counts as issued when it is behind the next serial (R43). -/
def countsAsIssued (next : Serial) (wrapped : Bool) (s : Serial) : Bool :=
  s != 0 && decide (1 ≤ serialsBack next s) && decide (serialsBack next s ≤ 2147483648)
    && (wrapped || decide (s.toNat < next.toNat))

/-- The next serial and the wrap flag after one admission request (R42). -/
def Lane.advanceSerial (L : Lane) : Lane :=
  if L.nextSerial = 4294967295 then { L with nextSerial := 1, wrapped := true }
  else { L with nextSerial := L.nextSerial + 1 }

/-- Inserts x, whose serial is n, before the first entry that was issued later (R101, R118). -/
def insertBySerial {α : Type} (next : Serial) (serialOf : α → Serial) (x : α) : List α → List α
  | [] => [x]
  | y :: ys =>
    if serialsBack next (serialOf y) < serialsBack next (serialOf x) then x :: y :: ys
    else y :: insertBySerial next serialOf x ys

/-! ## Tickets -/

/-- The ticket of the queue that carries a serial (R84). -/
def Lane.findTicket (L : Lane) (n : Serial) : Option Ticket := L.queue.find? (fun t => t.serial == n)

/-- The ticket that carries a serial, changed by f. -/
def Lane.updTicket (L : Lane) (n : Serial) (f : Ticket → Ticket) : Lane :=
  { L with queue := L.queue.map fun t => if t.serial = n then f t else t }

/-- The ticket of lane l that carries a serial, changed by f. -/
def State.updTicket (s : State) (l : LaneId) (n : Serial) (f : Ticket → Ticket) : State :=
  s.updLane l fun L => L.updTicket n f

/-- The profile of a generation of the lane: the retiring profile if the generation is its own, else the active one
(R37, R73). -/
def Lane.profileOf (L : Lane) (generation : Half) : Profile :=
  match L.retiring with
  | some p => if p.generation = generation then p else L.active
  | none => L.active

/-- The station record of a profile (R59). -/
def Profile.station (p : Profile) (k : StationId) : StationRecord := p.body.stations[k]

/-- The ticket's outcome entry for a station (R37). -/
def Ticket.outcome (t : Ticket) (k : StationId) : Option Outcome :=
  (t.outcomes.find? fun e => e.1 == k).map fun e => e.2

/-- The ticket with its outcome entry for a station set. -/
def Ticket.setOutcome (t : Ticket) (k : StationId) (o : Outcome) : Ticket :=
  { t with outcomes := t.outcomes.map fun e => if e.1 = k then (k, o) else e }

/-! ## Stop reasons -/

/-- The stop-reason set of lane l changed by f (R128). -/
def State.updStops (s : State) (l : LaneId) (f : StopReasons → StopReasons) : State :=
  s.updLane l fun L => { L with stops := f L.stops }

/-! ## Report store -/

/-- The class of a report kind: true is ROUTINE (R171). -/
def Report.isRoutine : Report → Bool
  | .entry .. => true
  | .fate .. => true
  | .glitch .. => true
  | _ => false

/-- The newest element that satisfies p removed. -/
def removeNewest {α : Type} (p : α → Bool) (xs : List α) : List α := (xs.reverse.eraseP p).reverse

/-- An unsent ROUTINE report (R174). -/
def StoredReport.expendable (r : StoredReport) : Bool := r.number.isNone && r.report.isRoutine

/-- A report produced: appended, or at a full store it fares by its class (R174). -/
def Store.append (st : Store) (now : BitVec 32) (r : Report) : Store :=
  let new : StoredReport := { report := r, timestamp := now, number := none, resendDue := false }
  if st.reports.length < storeCapacity then { st with reports := st.reports ++ [new] }
  else if !r.isRoutine && st.reports.any StoredReport.expendable then
    { st with reports := removeNewest StoredReport.expendable st.reports ++ [new], lost := saturatingSucc st.lost }
  else { st with lost := saturatingSucc st.lost }

/-- A block produces a report; its timestamp is the report clock (R169, R174). -/
def State.produce (s : State) (r : Report) : State := { s with store := s.store.append s.clock r }

/-- A ROUTINE report of lane l is produced only if the lane's mask lets it through (R172). -/
def State.produceIf (s : State) (flag : Bool) (r : Report) : State := if flag then s.produce r else s

/-- The GAP report, when the store has room again after losing reports (R175). -/
def Store.tellGap (st : Store) (now : BitVec 32) : Store :=
  if st.lost ≠ 0 ∧ st.reports.length < storeCapacity then { (st.append now (.gap st.lost)) with lost := 0 } else st

/-- The number of reports in flight (R173). -/
def Store.inFlight (st : Store) : Nat := st.reports.countP fun r => r.number.isSome

/-! ## Host link record -/

/-- The session record changed by f. -/
def State.updSession (s : State) (f : Session → Session) : State :=
  { s with link := { s.link with session := f s.link.session } }

/-- The link counters changed by f (R138). -/
def State.updCounters (s : State) (f : Counters → Counters) : State :=
  { s with link := { s.link with counters := f s.link.counters } }

/-! ## Resets -/

/-- The module after a reset with the given boot reason and the levels then on the inputs: every block at its reset
values (R144, section 0.5). The queue of commands and the count of free values, which are the model's own, stay. -/
def State.afterReset (s : State) (boot : BootReason) (levels : Inputs) : State where
  pending := s.pending
  inputs := levels
  lanes :=
    #v[Lane.reset levels.lanes[0], Lane.reset levels.lanes[1], Lane.reset levels.lanes[2], Lane.reset levels.lanes[3]]
  guardAsserted := !levels.guardLine
  link := Link.reset levels.rateSwitch boot
  store := Store.reset
  clock := 0
  clockPhase := 0
  freeIndex := s.freeIndex

end Sys2Proof.Machine
end

