-- ==== Sys2Proof/Machine/Flags.lean ====
section
/-! DEFINITION. The levels and counts that the manual computes from the state: pool counts (R38, R39), points of a ticket
(R37), flush holds (R109), output levels (R111), the stop-request output (R128). -/

namespace Sys2Proof.Machine

/-- A number of 0 to 255 as a byte. -/
def natByte (n : Nat) : Byte := BitVec.ofNat 8 n

/-- A lane number as a byte. -/
def laneByte (l : LaneId) : Byte := natByte l.val

/-- A station number as a byte. -/
def stationByte (k : StationId) : Byte := natByte k.val

/-! ## Pool counts -/

/-- The in-use count of a lane, which equals the length of its tracking queue (R38). -/
def Lane.inUse (L : Lane) : Nat := L.queue.length

/-- The indices of the records in use (R38). -/
def State.usedIndices (s : State) : List TicketIndex := allLanes.flatMap fun l => (s.lane l).queue.map Ticket.index

/-- The ticket indices from the highest down (R40). -/
def indicesDown : List TicketIndex := (List.range poolSize).reverse.map fun i => Fin.ofNat 64 i

/-- The free set, highest index first (R38, R40). -/
def State.freeIndices (s : State) : List TicketIndex := indicesDown.filter fun i => !s.usedIndices.contains i

/-- The number of free records (R38). -/
def State.freeCount (s : State) : Nat := poolSize - (allLanes.map fun l => (s.lane l).inUse).sum

/-- The amount by which a lane's reserve exceeds its in-use count (R39). -/
def Lane.shortfall (L : Lane) : Nat := L.config.reserve.toNat - L.inUse

/-- The shared free count (R39). -/
def State.sharedFree (s : State) : Nat := s.freeCount - (allLanes.map fun l => (s.lane l).shortfall).sum

/-! ## Station records -/

/-- The on offset of a station in use (R60). -/
def StationAct.on? : StationAct → Option Triple
  | .off => none
  | .pulse on _ _ _ _ _ => some on
  | .span on _ _ _ => some on

/-- The off offset of a SPAN station, or the on offset of a PULSE station (R109). -/
def StationAct.off? : StationAct → Option Triple
  | .off => none
  | .pulse on _ _ _ _ _ => some on
  | .span _ off' _ _ => some off'

/-- The rule of a station in use (R60). -/
def StationAct.rule? : StationAct → Option StationRule
  | .off => none
  | .pulse _ _ _ _ rule _ => some rule
  | .span _ _ rule _ => some rule

/-- The flush attribute (R60). -/
def StationAct.flush : StationAct → Bool
  | .off => false
  | .pulse _ _ _ _ _ flush => flush
  | .span _ _ _ flush => flush

/-- A station whose kind is not OFF is in use (R60). -/
def StationRecord.inUse (r : StationRecord) : Bool := r.act.on?.isSome

/-- A station in use with rule CLASS (R60). -/
def StationRecord.isClass (r : StationRecord) : Bool :=
  match r.act.rule? with
  | some (.onClass _) => true
  | _ => false

/-- The confirm station of a profile: the station with confirm yes (R60, R119). -/
def ProfileBody.confirmStation (b : ProfileBody) : Option StationId :=
  allStations.find? fun k => (b.stations[k]).confirm.isSome

/-- Class c is in a mask when the bit of value 2^c is 1 (R154). -/
def inMask (mask : Byte) (c : ClassId) : Bool := mask.getLsbD c.val

/-! ## Points of a ticket -/

/-- A distance as a difference of positions. -/
def Triple.pos (n : Triple) : Pos := n.setWidth 32

/-- A 16-bit distance as a difference of positions. -/
def Half.pos (n : Half) : Pos := n.setWidth 32

/-- The deadline: entry plus the decision offset of the ticket's generation (R78). -/
def Ticket.deadline (t : Ticket) (p : Profile) : Pos := t.entry + Triple.pos p.derived.decisionOffset

/-- The retire point: entry plus the retire span of the ticket's generation (R49). -/
def Ticket.retirePoint (t : Ticket) (p : Profile) : Pos := t.entry + Triple.pos p.derived.retireSpan

/-- The due point at a station in use: entry plus its on offset (R95). -/
def Ticket.duePoint (t : Ticket) (p : Profile) (k : StationId) : Option Pos :=
  (p.station k).act.on?.map fun on => t.entry + Triple.pos on

/-! ## Flush holds and outputs -/

/-- The reach lies in the hold range of an interval (R109). -/
def inHold (reach lo : Pos) (hi : Option Pos) : Bool :=
  match hi with
  | some b => decide (reach - lo < b - lo)
  | none => decide ((reach - lo).toNat < halfRange)

/-- The flush hold of station k is in force (R109). -/
def Lane.flushHold (L : Lane) (k : StationId) : Bool :=
  let act := (L.active.station k).act
  let margin := Half.pos L.active.body.fields.flushMargin
  match act.on?, act.off? with
  | some on, some off =>
    act.flush && L.blind.any fun i =>
      inHold L.reach (i.start + Triple.pos on - margin) (i.stop.map fun e => e + Triple.pos off + margin)
  | _, _ => false

/-- The pulse state is PULSING (R94). -/
def Pulse.isPulsing : Pulse → Bool
  | .pulsing _ _ => true
  | _ => false

/-- The level of station output l×6+k: true is active (R111). -/
def State.outputLevel (s : State) (l : LaneId) (k : StationId) : Bool :=
  let L := s.lane l
  let S := L.station k
  !s.guardAsserted && (S.forced || S.pulse.isPulsing || S.spanEnd.isSome || L.flushHold k)

/-- The stop-request output: asserted exactly when the stop-reason set is non-empty (R128). -/
def StopReasons.any (r : StopReasons) : Bool := r.halt || r.confirm || r.drop || r.link

/-- The stop-request output of lane l (R128). -/
def State.stopOutput (s : State) (l : LaneId) : Bool := (s.lane l).stops.any

/-- The removal distance of a profile: retire span plus flush margin (R57). -/
def Profile.removalDistance (p : Profile) : Nat := p.derived.retireSpan.toNat + p.body.fields.flushMargin.toNat

/-- A closed interval that the reach has passed by the removal distance or more (R57). -/
def Lane.removable (L : Lane) (i : Interval) : Bool :=
  match i.stop with
  | some e => decide ((L.reach - e).toNat < halfRange) && decide (L.active.removalDistance ≤ (L.reach - e).toNat)
  | none => false

end Sys2Proof.Machine
end

