-- ==== Sys2Proof/Machine/Operands.lean ====
section
/-! DEFINITION. Field encoding (R154), the request payloads and their range checks (R156, R157, R159 to R161), replies
(R158) and report payloads (R170). -/

namespace Sys2Proof.Machine

/-! ## Bytes -/

/-- A 16-bit field, most significant byte first (R154). -/
def be16 (x : BitVec 16) : List Byte := [x.extractLsb' 8 8, x.extractLsb' 0 8]

/-- A 24-bit field, most significant byte first (R154). -/
def be24 (x : BitVec 24) : List Byte := [x.extractLsb' 16 8, x.extractLsb' 8 8, x.extractLsb' 0 8]

/-- A 32-bit field, most significant byte first (R154). -/
def be32 (x : BitVec 32) : List Byte :=
  [x.extractLsb' 24 8, x.extractLsb' 16 8, x.extractLsb' 8 8, x.extractLsb' 0 8]

/-- Byte i of a payload. -/
def byteAt (p : List Byte) (i : Nat) : Byte := p.getD i 0

/-- The 16-bit field at byte i. -/
def half (p : List Byte) (i : Nat) : BitVec 16 := byteAt p i ++ byteAt p (i + 1)

/-- The 24-bit field at byte i. -/
def triple (p : List Byte) (i : Nat) : BitVec 24 := half p i ++ byteAt p (i + 2)

/-- The 32-bit field at byte i. -/
def word (p : List Byte) (i : Nat) : BitVec 32 := half p i ++ half p (i + 2)

/-- A yes/no field: 0 for no, 1 for yes (R154). -/
def boolByte (b : Bool) : Byte := if b then 1 else 0

/-! ## Codes -/

/-- The kind byte of each request (R152). -/
def RequestKind.code : RequestKind → Byte
  | .hello => 0x01
  | .ping => 0x02
  | .linkStatus => 0x03
  | .restart => 0x04
  | .laneConfig => 0x10
  | .enable => 0x11
  | .disable => 0x12
  | .clearStop => 0x13
  | .force => 0x14
  | .stageLane => 0x20
  | .stageStation => 0x21
  | .discardStaged => 0x22
  | .commit => 0x23
  | .cancelCommit => 0x24
  | .verdict => 0x30
  | .queryLane => 0x40
  | .queryTicket => 0x41
  | .queryProfile => 0x42

/-- The request kinds in the order of R152. -/
def allRequestKinds : List RequestKind :=
  [.hello, .ping, .linkStatus, .restart, .laneConfig, .enable, .disable, .clearStop, .force, .stageLane, .stageStation,
    .discardStaged, .commit, .cancelCommit, .verdict, .queryLane, .queryTicket, .queryProfile]

/-- The request kind that a kind byte names (R152). -/
def RequestKind.ofCode (b : Byte) : Option RequestKind := allRequestKinds.find? fun k => k.code == b

/-- The kind byte of an ACK (R139). -/
def ackKind : Byte := 0x0F

def LaneState.code : LaneState → Byte
  | .disabled => 0
  | .running => 1
  | .draining => 2
  | .halted => 3

def TravelSource.code : TravelSource → Byte
  | .encoder => 0
  | .clock => 1

def Policy.code : Policy → Byte
  | .report => 0
  | .stop => 1
  | .halt => 2

def LinkPolicy.code : LinkPolicy → Byte
  | .continue_ => 0
  | .stop => 1
  | .drain => 2

def Detector.code : Detector → Byte
  | .clear => 0
  | .inItem .. => 1
  | .gapWait .. => 2
  | .blocked .. => 3

def Pulse.code : Pulse → Byte
  | .idle => 0
  | .pulsing .. => 1
  | .rearming .. => 2

def Staging.code : Staging → Byte
  | .absent => 0
  | .editing .. => 1
  | .committing .. => 2

def Staging.commitCode : Staging → Byte
  | .committing _ _ (.pending _) => 1
  | .committing _ _ .held => 2
  | _ => 0

def Boundary.code : Boundary → Byte
  | .now => 0
  | .whenClear => 1
  | .atSerial _ => 2

/-- The boundary byte: 0xFF when no commit is PENDING (R154). -/
def Staging.boundaryCode : Staging → Byte
  | .committing _ _ (.pending b) => b.code
  | _ => 0xFF

/-- The boundary serial: s for a PENDING AT_SERIAL commit, else 0 (R165). -/
def Staging.boundarySerial : Staging → Serial
  | .committing _ _ (.pending (.atSerial n)) => n
  | _ => 0

def StationAct.code : StationAct → Byte
  | .off => 0
  | .pulse .. => 1
  | .span .. => 2

def Decision.code : Decision → Byte
  | .undecided => 0
  | .decided .. => 1
  | .final .. => 2

def Source.code : Source → Byte
  | .host => 0
  | .default => 1

def Outcome.code : Outcome → Byte
  | .pending => 0
  | .deferred => 1
  | .fired => 2
  | .passed => 3
  | .missed _ => 4

def MissReason.code : MissReason → Byte
  | .guard => 1
  | .busy => 2
  | .late => 3

/-- The miss reason byte of an outcome: 0 for none (R154). -/
def Outcome.reasonCode : Outcome → Byte
  | .missed r => r.code
  | _ => 0

def ConfirmState.code : ConfirmState → Byte
  | .notFired => 0
  | .waiting => 1
  | .confirmed => 2
  | .unconfirmed => 3
  | .notDue => 4

/-- The confirm byte: 0xFF when absent (R154). -/
def confirmCode : Option ConfirmState → Byte
  | some c => c.code
  | none => 0xFF

def DropReason.code : DropReason → Byte
  | .limit => 1
  | .pool => 2
  | .draining => 3

def HaltReason.code : HaltReason → Byte
  | .reverse => 1
  | .encoder => 2
  | .confirm => 3
  | .drop => 4

def InvalidReason.code : InvalidReason → Byte
  | .lengths => 1
  | .tooClose => 2
  | .spanOrder => 3
  | .windowOrder => 4
  | .twoConfirm => 5
  | .confirmKind => 6
  | .margin => 7
  | .spanLimit => 8

def SessionState.code : SessionState → Byte
  | .closed => 0
  | .opened => 1
  | .lost => 2

def BootReason.code : BootReason → Byte
  | .power => 0
  | .pin => 1
  | .restart => 2

/-- The mode of a DISABLE (R7). -/
inductive DisableMode where
  | drain | abort
  deriving DecidableEq, Repr

/-- A copy of the profile store that QUERY_PROFILE names (R168). -/
inductive ProfileCopy where
  | active | retiring | staged
  deriving DecidableEq, Repr

/-- A part that QUERY_LANE names (R164). -/
inductive LanePart where
  | lane | stations | blind
  deriving DecidableEq, Repr

def DisableMode.code : DisableMode → Byte
  | .drain => 0
  | .abort => 1

def ProfileCopy.code : ProfileCopy → Byte
  | .active => 0
  | .retiring => 1
  | .staged => 2

def LanePart.code : LanePart → Byte
  | .lane => 0
  | .stations => 1
  | .blind => 2

/-! ## Range checks -/

/-- A field of a request: its value, or BAD_FIELD naming its number (R157). -/
def field {α : Type} (number : Byte) (value : Option α) : Except Byte α :=
  match value with
  | some x => .ok x
  | none => .error number

/-- A number within a range, both ends included. -/
def within {w : Nat} (lo hi : Nat) (x : BitVec w) : Option (BitVec w) :=
  if lo ≤ x.toNat ∧ x.toNat ≤ hi then some x else none

/-- A byte that numbers one of n things from 0. -/
def finOf (n : Nat) (b : Byte) : Option (Fin n) := if h : b.toNat < n then some ⟨b.toNat, h⟩ else none

/-- A code that is in a field's list (R154). -/
def ofCode {α : Type} (all : List α) (code : α → Byte) (b : Byte) : Option α := all.find? fun x => code x == b

/-- A yes/no field (R154). -/
def boolOf (b : Byte) : Option Bool := ofCode [false, true] boolByte b

def sourceOf : Byte → Option TravelSource := ofCode [.encoder, .clock] TravelSource.code
def policyOf : Byte → Option Policy := ofCode [.report, .stop, .halt] Policy.code
def linkPolicyOf : Byte → Option LinkPolicy := ofCode [.continue_, .stop, .drain] LinkPolicy.code
def modeOf : Byte → Option DisableMode := ofCode [.drain, .abort] DisableMode.code
def copyOf : Byte → Option ProfileCopy := ofCode [.active, .retiring, .staged] ProfileCopy.code
def partOf : Byte → Option LanePart := ofCode [.lane, .stations, .blind] LanePart.code

/-! ## Request payloads -/

/-- HELLO's fields (R146, R159). -/
structure Hello where
  id : Byte
  linkTimeout : Half
  reportTimeout : Half
  window : Byte
  deriving DecidableEq, Repr

def parseHello (p : List Byte) : Except Byte Hello := do
  let id ← field 1 (within 1 255 (byteAt p 0))
  let linkTimeout ← field 2 (within 100 60000 (half p 1))
  let reportTimeout ← field 3 (within 20 5000 (half p 3))
  let window ← field 4 (within 1 8 (byteAt p 5))
  return { id, linkTimeout, reportTimeout, window }

/-- LANE_CONFIG's fields; the limit is also checked against the reserve of the same request (R3, R159). -/
def parseLaneConfig (p : List Byte) : Except Byte (LaneId × LaneConfig) := do
  let lane ← field 1 (finOf 4 (byteAt p 0))
  let source ← field 2 (sourceOf (byteAt p 1))
  let swap ← field 3 (boolOf (byteAt p 2))
  let tickInterval ← field 4 (within 4 65535 (half p 3))
  let reverseLimit ← field 5 (within 0 65535 (half p 5))
  let reserve ← field 6 (within 0 16 (byteAt p 7))
  let limit ← field 7 (within (Nat.max 1 reserve.toNat) 64 (byteAt p 8))
  let dropPolicy ← field 8 (policyOf (byteAt p 9))
  let confirmPolicy ← field 9 (policyOf (byteAt p 10))
  let linkPolicy ← field 10 (linkPolicyOf (byteAt p 11))
  let maskEntry ← field 11 (boolOf (byteAt p 12))
  let maskFate ← field 12 (boolOf (byteAt p 13))
  let maskGlitch ← field 13 (boolOf (byteAt p 14))
  return (lane,
    { source, swap, tickInterval, reverseLimit, reserve, limit, dropPolicy, confirmPolicy, linkPolicy, maskEntry,
      maskFate, maskGlitch })

/-- ENABLE: lane and belt-clear flag (R159). -/
def parseEnable (p : List Byte) : Except Byte (LaneId × Bool) := do
  let lane ← field 1 (finOf 4 (byteAt p 0))
  let beltClear ← field 2 (boolOf (byteAt p 1))
  return (lane, beltClear)

/-- DISABLE: lane and mode (R159). -/
def parseDisable (p : List Byte) : Except Byte (LaneId × DisableMode) := do
  let lane ← field 1 (finOf 4 (byteAt p 0))
  let mode ← field 2 (modeOf (byteAt p 1))
  return (lane, mode)

/-- CLEAR_STOP, DISCARD_STAGED and CANCEL_COMMIT: a lane (R159, R160). -/
def parseLane (p : List Byte) : Except Byte LaneId := field 1 (finOf 4 (byteAt p 0))

/-- FORCE: lane, station and level, true for ACTIVE (R159). -/
def parseForce (p : List Byte) : Except Byte (LaneId × StationId × Bool) := do
  let lane ← field 1 (finOf 4 (byteAt p 0))
  let station ← field 2 (finOf 6 (byteAt p 1))
  let level ← field 3 (boolOf (byteAt p 2))
  return (lane, station, level)

/-- STAGE_LANE: lane and lane-level fields (R63, R160). -/
def parseStageLane (p : List Byte) : Except Byte (LaneId × LaneFields) := do
  let lane ← field 1 (finOf 4 (byteAt p 0))
  let lmin ← field 2 (within 1 65535 (half p 1))
  let lmax ← field 3 (within 1 65535 (half p 3))
  let gap ← field 4 (within 0 65535 (half p 5))
  let verdictMargin ← field 5 (within 0 65535 (half p 7))
  let defaultClass ← field 6 (finOf 8 (byteAt p 9))
  let flushMargin ← field 7 (within 0 65535 (half p 10))
  return (lane, { lmin, lmax, gap, verdictMargin, defaultClass, flushMargin })

/-- The rule code of a station record (R154): 0 ALWAYS, 1 CLASS with the class mask that follows it. -/
def ruleOf (code mask : Byte) : Option StationRule :=
  if code = 0 then some .always else if code = 1 then some (.onClass mask) else none

/-- The busy policy code (R154): 0 DEFER with the tolerance that follows it, 1 DROP. -/
def busyOf (code : Byte) (tolerance : Half) : Option BusyPolicy :=
  if code = 0 then some (.defer tolerance) else if code = 1 then some .drop else none

/-- The kind of a station record with the fields that the kind uses; the record begins at byte 2 of STAGE_STATION's
payload (R60, R64, R157, R160). -/
def parseStationAct (p : List Byte) : Except Byte StationAct := do
  if byteAt p 2 = 0 then return .off
  else if byteAt p 2 = 1 then
    let on ← field 4 (within 1 16777215 (triple p 3))
    let width ← field 6 (within 100 1000000 (triple p 9))
    let rearm ← field 7 (within 0 1000000 (triple p 12))
    let busy ← field 8 (busyOf (byteAt p 15) (half p 16))
    let rule ← field 10 (ruleOf (byteAt p 18) (byteAt p 19))
    let flush ← field 12 (boolOf (byteAt p 20))
    return .pulse on width rearm busy rule flush
  else if byteAt p 2 = 2 then
    let on ← field 4 (within 1 16777215 (triple p 3))
    let off ← field 5 (within 1 16777215 (triple p 6))
    let rule ← field 10 (ruleOf (byteAt p 18) (byteAt p 19))
    let flush ← field 12 (boolOf (byteAt p 20))
    return .span on off rule flush
  else throw 3

/-- STAGE_STATION: lane, station and station record (R64, R160). -/
def parseStageStation (p : List Byte) : Except Byte (LaneId × StationId × StationRecord) := do
  let lane ← field 1 (finOf 4 (byteAt p 0))
  let station ← field 2 (finOf 6 (byteAt p 1))
  let act ← parseStationAct p
  let confirm ← field 13 (boolOf (byteAt p 21))
  return (lane, station, ⟨act, if confirm then some ⟨half p 22, half p 24⟩ else none⟩)

/-- A serial that an AT_SERIAL boundary may name: 1 to 2,147,483,646 ahead of the next serial (R69). -/
def boundarySerialOf (next n : Serial) : Option Serial :=
  if n ≠ 0 ∧ 1 ≤ serialsAhead next n ∧ serialsAhead next n ≤ 2147483646 then some n else none

/-- COMMIT: lane and boundary; the serial is checked for AT_SERIAL only, against the lane's next serial (R66, R69,
R160). -/
def parseCommit (nextSerial : LaneId → Serial) (p : List Byte) : Except Byte (LaneId × Boundary) := do
  let lane ← field 1 (finOf 4 (byteAt p 0))
  if byteAt p 1 = 0 then return (lane, .now)
  else if byteAt p 1 = 1 then return (lane, .whenClear)
  else if byteAt p 1 = 2 then
    let n ← field 3 (boundarySerialOf (nextSerial lane) (word p 2))
    return (lane, .atSerial n)
  else throw 2

/-- VERDICT's fields (R83, R161). -/
structure Verdict where
  lane : LaneId
  serial : Serial
  cls : ClassId
  tag : Option Half
  deriving DecidableEq, Repr

/-- VERDICT: the tag is present in the 8-byte layout (R83, R161). -/
def parseVerdict (p : List Byte) : Except Byte Verdict := do
  let lane ← field 1 (finOf 4 (byteAt p 0))
  let serial ← field 2 (within 1 4294967295 (word p 1))
  let cls ← field 3 (finOf 8 (byteAt p 5))
  return { lane, serial, cls, tag := if p.length = 8 then some (half p 6) else none }

/-- QUERY_LANE: lane and part (R161). -/
def parseQueryLane (p : List Byte) : Except Byte (LaneId × LanePart) := do
  let lane ← field 1 (finOf 4 (byteAt p 0))
  let part ← field 2 (partOf (byteAt p 1))
  return (lane, part)

/-- QUERY_TICKET: lane and serial (R161). -/
def parseQueryTicket (p : List Byte) : Except Byte (LaneId × Serial) := do
  let lane ← field 1 (finOf 4 (byteAt p 0))
  let serial ← field 2 (within 1 4294967295 (word p 1))
  return (lane, serial)

/-- QUERY_PROFILE: lane, copy and item; item 6 is the lane-level fields (R161). -/
def parseQueryProfile (p : List Byte) : Except Byte (LaneId × ProfileCopy × Fin 7) := do
  let lane ← field 1 (finOf 4 (byteAt p 0))
  let copy ← field 2 (copyOf (byteAt p 1))
  let item ← field 3 (finOf 7 (byteAt p 2))
  return (lane, copy, item)

/-! ## Replies -/

/-- What a reply says: its status and the fields that follow it (R158). -/
inductive Answer where
  | ok (fields : List Byte)
  | revised
  | accepted
  | noSession
  | badLength
  | badField (number : Byte)
  | unknownKind
  | laneState
  | late (cls : ClassId) (source : Source)
  | gone
  | unknownSerial
  | stagingBusy
  | nothingStaged
  | profileInvalid (reason : InvalidReason) (station : Byte)
  | noCommit
  | reserveExceeded
  | stopHeld
  deriving DecidableEq, Repr

/-- A class as a byte. -/
def classByte (c : ClassId) : Byte := natByte c.val

/-- The payload of a reply (R158). -/
def Answer.payload : Answer → List Byte
  | .ok fields => 0x00 :: fields
  | .revised => [0x01]
  | .accepted => [0x02]
  | .noSession => [0x10]
  | .badLength => [0x11]
  | .badField n => [0x12, n]
  | .unknownKind => [0x13]
  | .laneState => [0x14]
  | .late c src => [0x15, classByte c, src.code]
  | .gone => [0x16]
  | .unknownSerial => [0x17]
  | .stagingBusy => [0x18]
  | .nothingStaged => [0x19]
  | .profileInvalid r k => [0x1A, r.code, k]
  | .noCommit => [0x1B]
  | .reserveExceeded => [0x1C]
  | .stopHeld => [0x1D]

/-- The request was taken (R158). -/
def Answer.taken : Answer → Bool
  | .ok _ => true
  | .revised => true
  | .accepted => true
  | .stopHeld => true
  | _ => false

/-! ## Report payloads -/

/-- An outcome entry: station, outcome code, miss reason code (R167, R170). -/
def outcomeBytes (e : StationId × Outcome) : List Byte := [stationByte e.1, e.2.code, e.2.reasonCode]

/-- A tag: present flag and value, 0 when absent (R167, R170). -/
def tagBytes (tag : Option Half) : List Byte := boolByte tag.isSome :: be16 (tag.getD 0)

/-- The kind code of a report (R170). -/
def Report.code : Report → Byte
  | .entry .. => 0xC0
  | .fate .. => 0xC1
  | .glitch .. => 0xC2
  | .dropped .. => 0xC8
  | .missed .. => 0xC9
  | .unconfirmed .. => 0xCA
  | .stray .. => 0xCB
  | .committed .. => 0xCC
  | .drained .. => 0xCD
  | .halted .. => 0xCE
  | .guard .. => 0xCF
  | .gap .. => 0xD0
  | .abandoned .. => 0xD1

/-- The fields of a report after the timestamp (R170). -/
def Report.fields : Report → List Byte
  | .entry l n i e len long g =>
    [laneByte l] ++ be32 n ++ [natByte i.val] ++ be32 e ++ be16 len ++ [boolByte long] ++ be16 g
  | .fate l n c src tag outs conf =>
    [laneByte l] ++ be32 n ++ [classByte c, src.code] ++ tagBytes tag ++ [natByte outs.length] ++
      outs.flatMap outcomeBytes ++ [confirmCode conf]
  | .glitch l p len => [laneByte l] ++ be32 p ++ be16 len
  | .dropped l n e r => [laneByte l] ++ be32 n ++ be32 e ++ [r.code]
  | .missed l k n r => [laneByte l, stationByte k] ++ be32 n ++ [r.code]
  | .unconfirmed l n k => [laneByte l] ++ be32 n ++ [stationByte k]
  | .stray l p => [laneByte l] ++ be32 p
  | .committed l g n => [laneByte l] ++ be16 g ++ be32 n
  | .drained l => [laneByte l]
  | .halted l r n => [laneByte l, r.code, n]
  | .guard a => [boolByte a]
  | .gap n => be16 n
  | .abandoned l c a b => [laneByte l, c] ++ be32 a ++ be32 b

/-- The message of a report under a number: the timestamp comes first in the payload (R169, R170). -/
def StoredReport.message (r : StoredReport) (number : Byte) : Message where
  kind := r.report.code
  seq := number
  payload := be32 r.timestamp ++ r.report.fields

end Sys2Proof.Machine
end

