-- ==== Sys2Proof/Machine/Profiles.lean ====
section
/-! DEFINITION. The profile store (chapter 4): derived values, validation, boundaries, installation; and the completion
of a drain (R9), which an installation can bring about by the blind list's check (R57, R71). -/

namespace Sys2Proof.Machine

/-! ## Derived values -/

/-- Lmax + G, in full (R61). -/
def LaneFields.nearest (f : LaneFields) : Nat := f.lmax.toNat + f.gap.toNat

/-- The end points of a station: its own and, for the confirm station, its window's (R61). -/
def StationRecord.endPoints (r : StationRecord) : List Nat :=
  match r.act with
  | .off => []
  | .pulse on _ _ busy _ _ =>
    (match busy with
      | .drop => on.toNat
      | .defer tolerance => on.toNat + tolerance.toNat) ::
      (match r.confirm with
        | some w => [on.toNat + w.stop.toNat]
        | none => [])
  | .span on off _ _ =>
    off.toNat ::
      (match r.confirm with
        | some w => [on.toNat + w.stop.toNat]
        | none => [])

/-- The largest of a list of numbers, 0 for none. -/
def largest (xs : List Nat) : Nat := xs.foldr Nat.max 0

/-- The largest end point of all (R61). -/
def ProfileBody.lastPoint (b : ProfileBody) : Nat :=
  Nat.max b.fields.nearest (largest (allStations.flatMap fun k => (b.stations[k]).endPoints))

/-- The retire span, in full (R61). -/
def ProfileBody.retireSpan (b : ProfileBody) : Nat := b.lastPoint + 1

/-- For each CLASS station its on offset minus the verdict margin, as a signed number (R62). -/
def ProfileBody.margins (b : ProfileBody) : List (StationId × Int) :=
  allStations.filterMap fun k =>
    let r := b.stations[k]
    match r.isClass, r.act.on? with
    | true, some on => some (k, (on.toNat : Int) - (b.fields.verdictMargin.toNat : Int))
    | _, _ => none

/-- The first pair with the smallest second part. -/
def smallest : List (StationId × Int) → Option (StationId × Int)
  | [] => none
  | x :: xs =>
    match smallest xs with
    | none => some x
    | some y => if y.2 < x.2 then some y else some x

/-- The decision offset as a signed number (R62). -/
def ProfileBody.decisionOffset (b : ProfileBody) : Int :=
  match smallest b.margins with
  | some x => x.2
  | none => (b.retireSpan : Int)

/-! ## Validation -/

/-- The first station that satisfies a test, from station 0 on (R67). -/
def ProfileBody.firstStation (b : ProfileBody) (test : StationRecord → Bool) : Option StationId :=
  allStations.find? fun k => test b.stations[k]

/-- The first condition of R67 found true: a condition, its reason and the station named. -/
def ProfileBody.invalid (b : ProfileBody) : Option (InvalidReason × Byte) :=
  let near := b.fields.nearest
  let confirming := allStations.filter fun k => (b.stations[k]).confirm.isSome
  if b.fields.lmax < b.fields.lmin then some (.lengths, 255)
  else match b.firstStation (fun r => match r.act.on? with
      | some on => decide (on.toNat ≤ near)
      | none => false) with
  | some k => some (.tooClose, stationByte k)
  | none =>
  match b.firstStation (fun r => match r.act with
      | .span on off _ _ => decide (off ≤ on)
      | _ => false) with
  | some k => some (.spanOrder, stationByte k)
  | none =>
  match b.firstStation (fun r => match r.confirm with
      | some w => decide (w.stop ≤ w.start)
      | none => false) with
  | some k => some (.windowOrder, stationByte k)
  | none =>
  match confirming[1]? with
  | some k => some (.twoConfirm, stationByte k)
  | none =>
  match b.firstStation (fun r => r.confirm.isSome && !r.inUse) with
  | some k => some (.confirmKind, stationByte k)
  | none =>
  match (smallest b.margins).filter (fun x => decide (x.2 ≤ (near : Int))) with
  | some x => some (.margin, stationByte x.1)
  | none =>
  if 16777215 < b.retireSpan then
    match b.firstStation (fun r => r.endPoints.contains b.lastPoint) with
    | some k => some (.spanLimit, stationByte k)
    | none => some (.spanLimit, 255)
  else none

/-- The derived values kept with a profile that passes validation (R61, R62). -/
def ProfileBody.derive (b : ProfileBody) : Derived where
  decisionOffset := BitVec.ofInt 24 b.decisionOffset
  retireSpan := BitVec.ofNat 24 b.retireSpan

/-! ## Installation -/

/-- The blind list's check: every interval passed by the removal distance is removed (R57). -/
def Lane.checkBlind (L : Lane) : Lane := { L with blind := L.blind.filter fun i => !L.removable i }

/-- The lane after the staged profile has become active: steps 1 to 3 and 5 of R71, R72. -/
def Lane.install (L : Lane) (body : ProfileBody) (derived : Derived) : Lane :=
  Lane.checkBlind
    { L with
      retiring := if L.queue.any (fun t => t.generation == L.active.generation) then some L.active else none
      active := { generation := L.active.generation + 1, body := body, derived := derived }
      staging := .absent }

/-- The installation of a committed profile, with its COMMITTED report (R71). -/
def State.install (s : State) (l : LaneId) : State :=
  match (s.lane l).staging with
  | .committing body derived _ =>
    let L := (s.lane l).install body derived
    (s.setLane l L).produce (.committed l L.active.generation L.nextSerial)
  | _ => s

/-- The detector is CLEAR (R22). -/
def Detector.isClear : Detector → Bool
  | .clear => true
  | _ => false

/-- The three conditions of a drain's completion, with the lane DRAINING (R9). -/
def Lane.drainDone (L : Lane) : Bool :=
  L.state == .draining && L.queue.isEmpty && L.blind.isEmpty && L.detector.isClear

/-- A DRAINING lane whose three conditions hold becomes DISABLED with a DRAINED report, and a pending boundary counts as
reached (R9, R75). -/
def State.testDrain (s : State) (l : LaneId) : State :=
  if (s.lane l).drainDone then
    ((s.updLane l fun L => { L with state := .disabled }).produce (.drained l)).install l
  else s

/-- A PENDING commit whose boundary is reached: HELD while a retiring profile exists, else installed (R70). An
installation's blind check can complete a drain (R57). -/
def State.reachBoundary (s : State) (l : LaneId) : State :=
  match (s.lane l).staging with
  | .committing body derived (.pending _) =>
    if (s.lane l).retiring.isSome then
      s.updLane l fun L => { L with staging := .committing body derived .held }
    else (s.install l).testDrain l
  | _ => s

/-- A pending WHEN_CLEAR boundary is reached when the queue is empty and the detector is CLEAR (R68). -/
def Lane.clearBoundary (L : Lane) : Bool :=
  match L.staging with
  | .committing _ _ (.pending .whenClear) => L.queue.isEmpty && L.detector.isClear
  | _ => false

/-- The test of a pending WHEN_CLEAR boundary (R68). -/
def State.testWhenClear (s : State) (l : LaneId) : State :=
  if (s.lane l).clearBoundary then s.reachBoundary l else s

/-- The profile store is told that the next serial has advanced: an AT_SERIAL boundary that names the new next serial is
reached (R44, R45, R68). -/
def State.serialAdvanced (s : State) (l : LaneId) : State :=
  match (s.lane l).staging with
  | .committing _ _ (.pending (.atSerial n)) => if n = (s.lane l).nextSerial then s.reachBoundary l else s
  | _ => s

/-- The retiring profile is discarded once no ticket references its generation, and a HELD commit installs (R51 step 1,
R73, R74). -/
def State.testRetiring (s : State) (l : LaneId) : State :=
  match (s.lane l).retiring with
  | some p =>
    if (s.lane l).queue.any (fun t => t.generation == p.generation) then s
    else
      let s' := s.updLane l fun L => { L with retiring := none }
      match (s'.lane l).staging with
      | .committing _ _ .held => s'.install l
      | _ => s'
  | none => s

end Sys2Proof.Machine
end

