-- ==== Sys2Proof/Machine/Tracking.lean ====
section
/-! DEFINITION. The ticket pool, the tracking queue and the blind list (chapter 3), and the ends of a lane's run:
abandonment (R53), abort (R10) and halt (R12). -/

namespace Sys2Proof.Machine

/-! ## Abandonment and halting -/

/-- What an abandonment does to a station scheduler: everything ends but the forced level (R112). -/
def Station.abandon (S : Station) : Station := { S with pulse := .idle, deferred := [], spanEnd := none }

/-- Every station of a lane changed by f. -/
def Lane.mapStations (L : Lane) (f : Station → Station) : Lane :=
  { L with
    stations :=
      #v[f L.stations[0], f L.stations[1], f L.stations[2], f L.stations[3], f L.stations[4], f L.stations[5]] }

/-- What a lane loses when it abandons its tickets: queue, blind list, measured item, pulses and spans, open windows and
the retiring profile (R10, R12, R53, R112, R127). -/
def Lane.abandon (L : Lane) : Lane :=
  { L.mapStations Station.abandon with queue := [], blind := [], detector := .clear, windows := [], retiring := none }

/-- A lane in RUNNING or DRAINING enters HALTED: its tickets are abandoned, a pending boundary counts as reached, HALT
joins the stop-reason set and a HALTED report closes the event (R12, R75, R129). -/
def State.haltLane (s : State) (l : LaneId) (reason : HaltReason) : State :=
  if (s.lane l).tracking then
    let count := (s.lane l).queue.length
    let s := (s.updLane l fun L => { L.abandon with state := .halted }).install l
    (s.updStops l fun r => { r with halt := true }).produce (.halted l reason (natByte count))
  else s

/-- The ABANDONED report of an abort with at least one abandoned ticket (R53). -/
def abandonedReport (l : LaneId) (queue : List Ticket) : Option Report :=
  match queue.head?, queue.getLast? with
  | some a, some b => some (.abandoned l (natByte queue.length) a.serial b.serial)
  | _, _ => none

/-- A lane in RUNNING or DRAINING enters DISABLED by an abort (R10, R75). -/
def State.abortLane (s : State) (l : LaneId) : State :=
  let report := abandonedReport l (s.lane l).queue
  let s := s.updLane l fun L => { L.abandon with state := .disabled }
  (match report with
    | some r => s.produce r
    | none => s).install l

/-! ## The blind list -/

/-- The newest interval's end replaced (R55). -/
def extendNewest (stop : Option Pos) : List Interval → List Interval
  | [] => []
  | [i] => [{ i with stop := stop }]
  | i :: is => i :: extendNewest stop is

/-- A new interval: appended, or with a full list the newest interval takes its end (R55). -/
def addInterval (is : List Interval) (new : Interval) : List Interval :=
  if is.length < blindCapacity then is ++ [new] else extendNewest new.stop is

/-- The open interval is closed at a position (R56). -/
def closeInterval (stop : Pos) (is : List Interval) : List Interval :=
  is.map fun i => if i.stop.isNone then { i with stop := some stop } else i

/-! ## Decisions made final -/

/-- A decision made FINAL as the deadline does: the default class of the ticket's generation, or the host's last verdict
(R79, R80, R81). -/
def Decision.finalise (defaultClass : ClassId) : Decision → Decision
  | .undecided => .final defaultClass .default none
  | .decided cls tag => .final cls .host tag
  | .final cls source tag => .final cls source tag

/-- The ticket with its decision made FINAL under its generation's profile (R79 to R81). -/
def Ticket.finalise (t : Ticket) (p : Profile) : Ticket :=
  { t with decision := t.decision.finalise p.body.fields.defaultClass }

/-! ## Admission -/

/-- The answer of the ticket pool to an admission request (R39). -/
def State.admissionTest (s : State) (l : LaneId) : Option DropReason :=
  let L := s.lane l
  if L.state = .draining then some .draining
  else if L.inUse = L.config.limit.toNat then some .limit
  else if L.inUse < L.config.reserve.toNat then none
  else if 0 < s.sharedFree then none
  else some .pool

/-- The outcome list of a new ticket: PENDING for each station in use, in station order (R37). -/
def ProfileBody.freshOutcomes (b : ProfileBody) : List (StationId × Outcome) :=
  (allStations.filter fun k => (b.stations[k]).inUse).map fun k => (k, .pending)

/-- The record of a granted admission (R36, R37, R40). -/
def Lane.newTicket (L : Lane) (l : LaneId) (index : TicketIndex) (entry : Pos) (length : Half) (long : Bool) :
    Ticket where
  index := index
  lane := l
  serial := L.nextSerial
  generation := L.active.generation
  entry := entry
  length := length
  long := long
  decision := .undecided
  outcomes := L.active.body.freshOutcomes
  confirm := if L.active.body.confirmStation.isSome then some .notFired else none

/-- A granted admission: the ticket joins the tail of the queue, the ENTRY report, the advance of the next serial (R44). -/
def State.grant (s : State) (l : LaneId) (index : TicketIndex) (entry : Pos) (length : Half) (long : Bool) : State :=
  let t := (s.lane l).newTicket l index entry length long
  let s := s.updLane l fun L => { L with queue := L.queue ++ [t] }
  let s := s.produceIf (s.lane l).config.maskEntry (.entry l t.serial index entry length long t.generation)
  (s.updLane l Lane.advanceSerial).serialAdvanced l

/-- The interval of a drop: its end is open for a LONG item (R46). -/
def dropInterval (entry : Pos) (length gap : Half) (long : Bool) : Interval where
  start := entry
  stop := if long then none else some (entry + Half.pos length + Half.pos gap)

/-- The drop policy applied to a drop (R47). -/
def State.dropPolicy (s : State) (l : LaneId) : State :=
  match (s.lane l).config.dropPolicy with
  | .report => s
  | .stop => s.updStops l fun r => { r with drop := true }
  | .halt => s.haltLane l .drop

/-- A refused admission (R45). -/
def State.drop (s : State) (l : LaneId) (entry : Pos) (length gap : Half) (long : Bool) (reason : DropReason) : State :=
  let n := (s.lane l).nextSerial
  let s := s.updLane l fun L =>
    { L.advanceSerial with
      dropCount := saturatingSucc L.dropCount
      blind := addInterval L.blind (dropInterval entry length gap long) }
  ((s.produce (.dropped l n entry reason)).serialAdvanced l).dropPolicy l

/-- An admission request answered by the pool (R34, R39, R40). The pool always has a free record for a request that
passes the test (R39); with none it would refuse. -/
def State.askPool (s : State) (l : LaneId) (entry : Pos) (length gap : Half) (long : Bool) : State :=
  match s.admissionTest l with
  | some reason => s.drop l entry length gap long reason
  | none =>
    match s.freeIndices with
    | index :: _ => s.grant l index entry length long
    | [] => s.drop l entry length gap long .pool

/-! ## Retirement -/

/-- The FATE report of a ticket whose decision is FINAL (R50). -/
def Ticket.fate (t : Ticket) : Option Report :=
  match t.decision with
  | .final cls source tag => some (.fate t.lane t.serial cls source tag t.outcomes t.confirm)
  | _ => none

/-- A retirement: the ticket leaves the queue, its FATE report is built with the decision made FINAL, and the queue acts
on what is left: retiring profile, WHEN_CLEAR boundary, drain (R49, R50, R51). -/
def State.retire (s : State) (l : LaneId) (t : Ticket) : State :=
  let p := (s.lane l).profileOf t.generation
  let s := s.updLane l fun L => { L with queue := L.queue.filter fun u => u.serial != t.serial }
  let s :=
    match (t.finalise p).fate with
    | some r => s.produceIf (s.lane l).config.maskFate r
    | none => s
  (((s.testRetiring l).testWhenClear l).testDrain l)

end Sys2Proof.Machine
end

