-- ==== Sys2Proof/Machine/Confirm.lean ====
section
/-! DEFINITION. The confirm monitor (section 7.2 to 7.4): windows opened at a fire, edges attributed to the oldest window,
window ends and the confirm policy. -/

namespace Sys2Proof.Machine

/-- The confirm field of a ticket set. -/
def State.setConfirm (s : State) (l : LaneId) (n : Serial) (c : ConfirmState) : State :=
  s.updTicket l n fun t => { t with confirm := some c }

/-- The confirm policy applied to an UNCONFIRMED outcome (R126). -/
def State.confirmPolicy (s : State) (l : LaneId) : State :=
  match (s.lane l).config.confirmPolicy with
  | .report => s
  | .stop => s.updStops l fun r => { r with confirm := true }
  | .halt => s.haltLane l .confirm

/-- An UNCONFIRMED outcome: the ticket's confirm state, the report, the policy (R125). -/
def State.unconfirmed (s : State) (l : LaneId) (n : Serial) (k : StationId) : State :=
  ((s.setConfirm l n .unconfirmed).produce (.unconfirmed l n k)).confirmPolicy l

/-- The window of a ticket fired at its confirm station (R120). -/
def Ticket.window (t : Ticket) (due : Pos) (k : StationId) (w : ConfirmSpan) : Window where
  serial := t.serial
  station := k
  start := due + Half.pos w.start
  stop := due + Half.pos w.stop

/-- The monitor is told that the confirm station has fired: the window opens, or is over before it opens (R120). -/
def State.openWindow (s : State) (l : LaneId) (w : Window) : State :=
  if ((s.lane l).reach - w.stop).toNat < halfRange then s.unconfirmed l w.serial w.station
  else
    (s.setConfirm l w.serial .waiting).updLane l fun L =>
      { L with windows := insertBySerial L.nextSerial Window.serial w L.windows }

/-- The confirm span of station k if it is the confirm station of a profile (R119). -/
def Profile.confirmSpan (p : Profile) (k : StationId) : Option ConfirmSpan :=
  if p.body.confirmStation = some k then (p.station k).confirm else none

/-- The scheduler tells the monitor that station k has fired for a ticket (R98, R119). -/
def State.tellFired (s : State) (l : LaneId) (k : StationId) (t : Ticket) : State :=
  let p := (s.lane l).profileOf t.generation
  match p.confirmSpan k, t.duePoint p k with
  | some w, some due => s.openWindow l (t.window due k w)
  | _, _ => s

/-- The scheduler tells the monitor that station k has PASSED or MISSED a ticket (R98, R119). -/
def State.tellNotDue (s : State) (l : LaneId) (k : StationId) (t : Ticket) : State :=
  let p := (s.lane l).profileOf t.generation
  if (p.confirmSpan k).isSome then s.setConfirm l t.serial .notDue else s

/-- A window [start, stop) contains a position (R123). -/
def Window.contains (w : Window) (x : Pos) : Bool := decide (x - w.start < w.stop - w.start)

/-- A flush hold is in force on a confirm station of the active or the retiring profile (R122). -/
def Lane.confirmHeld (L : Lane) : Bool :=
  let held (p : Profile) : Bool :=
    match p.body.confirmStation with
    | some k => L.flushHold k
    | none => false
  held L.active || (match L.retiring with
    | some p => held p
    | none => false)

/-- A presence edge at the confirm sensor: ignored under a flush hold, attributed to the oldest window that contains the
reach, or a stray (R122 to R124). -/
def State.confirmPresence (s : State) (l : LaneId) : State :=
  let L := s.lane l
  if L.confirmHeld then s
  else
    match L.windows.find? (fun w => w.contains L.reach) with
    | some w =>
      (s.setConfirm l w.serial .confirmed).updLane l fun L =>
        { L with windows := L.windows.filter fun v => v.serial != w.serial }
    | none => s.produce (.stray l L.reach)

/-- A change of the confirm-sensor line as the monitor takes it (R121). -/
def State.confirmEdge (s : State) (l : LaneId) (present : Bool) : State :=
  let L := s.lane l
  if !L.tracking then s.updLane l fun L => { L with confirmLevel := present }
  else if L.depth ≠ 0 then s
  else
    let s' := s.updLane l fun L => { L with confirmLevel := present }
    if present && !L.confirmLevel then s'.confirmPresence l else s'

/-- The reach attains the end of an open window: the ticket is UNCONFIRMED (R125). -/
def State.windowEnd (s : State) (l : LaneId) (w : Window) : State :=
  (s.updLane l fun L => { L with windows := L.windows.filter fun v => v.serial != w.serial }).unconfirmed l w.serial
    w.station

end Sys2Proof.Machine
end

