-- ==== Sys2Proof/Machine/Stations.lean ====
section
/-! DEFINITION. The station schedulers (chapter 6): due points, fires, busy policies, deferred fires, tolerance ends, span
ends, and the guard at the stations. -/

namespace Sys2Proof.Machine

/-- The outcome of ticket n at station k of lane l set. -/
def State.setOutcome (s : State) (l : LaneId) (k : StationId) (n : Serial) (o : Outcome) : State :=
  s.updTicket l n fun t => t.setOutcome k o

/-- An outcome set to MISSED: the MISSED report, then the confirm monitor is told (R98). -/
def State.miss (s : State) (l : LaneId) (k : StationId) (t : Ticket) (reason : MissReason) : State :=
  ((s.setOutcome l k t.serial (.missed reason)).produce (.missed l k t.serial reason)).tellNotDue l k t

/-- The reason of a miss at a tolerance end (R103). -/
def State.toleranceReason (s : State) : MissReason := if s.guardAsserted then .guard else .late

/-- An IDLE station fires a pulse for a ticket (R99). -/
def State.firePulse (s : State) (l : LaneId) (k : StationId) (t : Ticket) (width rearm : Triple) : State :=
  let s := s.updStation l k fun S => { S with pulse := .pulsing width.toNat rearm }
  (s.setOutcome l k t.serial .fired).tellFired l k t

/-- A ticket that finds a DEFER station busy at its due point is deferred (R101). With tolerance 0 its tolerance end is
attained at the same advance, and it is missed at once (R103). -/
def State.deferTicket (s : State) (l : LaneId) (k : StationId) (t : Ticket) (due : Pos) (tolerance : Half) : State :=
  if tolerance = 0 then s.miss l k t s.toleranceReason
  else
    let next := (s.lane l).nextSerial
    let d : Deferred := { serial := t.serial, toleranceEnd := due + Half.pos tolerance }
    (s.updStation l k fun S => { S with deferred := insertBySerial next Deferred.serial d S.deferred }).setOutcome l k
      t.serial .deferred

/-- Of the present span end and a new off point, the one further ahead of the reach (R105). -/
def furtherAhead (reach : Pos) (present : Option Pos) (off : Pos) : Pos :=
  match present with
  | some e => if off - reach > e - reach then off else e
  | none => off

/-- A SPAN station fires for a ticket and sets or extends the span end (R105). -/
def State.fireSpan (s : State) (l : LaneId) (k : StationId) (t : Ticket) (off : Pos) : State :=
  let reach := (s.lane l).reach
  let s := s.updStation l k fun S => { S with spanEnd := some (furtherAhead reach S.spanEnd off) }
  (s.setOutcome l k t.serial .fired).tellFired l k t

/-- A ticket that the station is to serve at its due point, with the guard released (R97, R99 to R101, R105). -/
def State.serveTicket (s : State) (l : LaneId) (k : StationId) (t : Ticket) (act : StationAct) (due : Pos) : State :=
  match act with
  | .off => s
  | .pulse _ width rearm busy _ _ =>
    match ((s.lane l).station k).pulse with
    | .idle => s.firePulse l k t width rearm
    | _ =>
      match busy with
      | .drop => s.miss l k t .busy
      | .defer tolerance => s.deferTicket l k t due tolerance
  | .span _ off _ _ => s.fireSpan l k t (t.entry + Triple.pos off)

/-- The guard test of a ticket that has passed the class test (R97). -/
def State.guardTest (s : State) (l : LaneId) (k : StationId) (t : Ticket) (act : StationAct) (due : Pos) : State :=
  if s.guardAsserted then s.miss l k t .guard else s.serveTicket l k t act due

/-- The class of a FINAL decision. -/
def Decision.finalClass : Decision → Option ClassId
  | .final cls _ _ => some cls
  | _ => none

/-- A ticket's due point at a CLASS station: its decision is made FINAL, then its class is tested (R96). -/
def State.classTest (s : State) (l : LaneId) (k : StationId) (t : Ticket) (act : StationAct) (due : Pos) (mask : Byte) :
    State :=
  let p := (s.lane l).profileOf t.generation
  let t' := t.finalise p
  let s := s.updTicket l t.serial fun u => u.finalise p
  match t'.decision.finalClass with
  | some c =>
    if inMask mask c then s.guardTest l k t' act due else (s.setOutcome l k t.serial .passed).tellNotDue l k t'
  | none => s

/-- The due point of a ticket at station k is attained (R95 to R97). -/
def State.duePoint (s : State) (l : LaneId) (k : StationId) (t : Ticket) : State :=
  let p := (s.lane l).profileOf t.generation
  let act := (p.station k).act
  match t.duePoint p k, act.rule? with
  | some due, some .always => s.guardTest l k t act due
  | some due, some (.onClass mask) => s.classTest l k t act due mask
  | _, _ => s

/-- The tolerance end of a deferred ticket is attained: it leaves the deferred list and is missed (R103). -/
def State.toleranceEnd (s : State) (l : LaneId) (k : StationId) (t : Ticket) : State :=
  let s := s.updStation l k fun S => { S with deferred := S.deferred.filter fun d => d.serial != t.serial }
  s.miss l k t s.toleranceReason

/-- A deferred fire: the oldest deferred ticket leaves the list and the station fires for it, with the width and rearm
time of the ticket's own generation (R102). -/
def State.deferredFire (s : State) (l : LaneId) (k : StationId) : State :=
  match ((s.lane l).station k).deferred with
  | [] => s
  | d :: rest =>
    let s := s.updStation l k fun S => { S with deferred := rest }
    match (s.lane l).findTicket d.serial with
    | none => s
    | some t =>
      match (((s.lane l).profileOf t.generation).station k).act with
      | .pulse _ width rearm _ _ _ => s.firePulse l k t width rearm
      | _ => s

/-- The pulse state becomes IDLE: with the guard released the oldest deferred ticket fires (R100, R102). -/
def State.becomeIdle (s : State) (l : LaneId) (k : StationId) : State :=
  let s := s.updStation l k fun S => { S with pulse := .idle }
  if s.guardAsserted then s else s.deferredFire l k

/-- The pulse timer runs out in PULSING (R100). In another pulse state it is not measuring a width. -/
def State.pulseEnd (s : State) (l : LaneId) (k : StationId) : State :=
  match ((s.lane l).station k).pulse with
  | .pulsing _ rearm =>
    if rearm = 0 then s.becomeIdle l k
    else s.updStation l k fun S => { S with pulse := .rearming rearm.toNat }
  | _ => s

/-- The pulse timer runs out in REARM (R100). In another pulse state it is not measuring a rearm time. -/
def State.rearmEnd (s : State) (l : LaneId) (k : StationId) : State :=
  match ((s.lane l).station k).pulse with
  | .rearming _ => s.becomeIdle l k
  | _ => s

/-- The guard is asserted: a running pulse is cut and the rearm time starts in full (R107). -/
def Station.cut (S : Station) : Station :=
  match S.pulse with
  | .pulsing _ rearm => { S with pulse := if rearm = 0 then .idle else .rearming rearm.toNat }
  | _ => S

/-- The guard is asserted at every station (R107, R117). -/
def State.cutPulses (s : State) : State := s.mapLanes fun L => L.mapStations Station.cut

/-- A station makes a deferred fire when the guard is released (R108). -/
def Station.firesOnRelease (S : Station) : Bool := S.pulse == .idle && !S.deferred.isEmpty

/-- The deferred fire of station k opens no window that is already over (R120), so it produces no report. -/
def Lane.quietFire (L : Lane) (k : StationId) : Bool :=
  match (L.station k).deferred with
  | [] => true
  | d :: _ =>
    match L.findTicket d.serial with
    | none => true
    | some t =>
      let p := L.profileOf t.generation
      match p.confirmSpan k, t.duePoint p k with
      | some w, some due => decide (halfRange ≤ (L.reach - (t.window due k w).stop).toNat)
      | _, _ => true

/-- The stations that fire at a release, with or without a report. -/
def State.releasing (s : State) (quiet : Bool) : List (LaneId × StationId) :=
  allLanes.flatMap fun l =>
    (allStations.filter fun k => ((s.lane l).station k).firesOnRelease && (s.lane l).quietFire k == quiet).map
      fun k => (l, k)

/-- A station acts on the release, if it still has reason to (R108). -/
def State.releaseStation (s : State) (lk : LaneId × StationId) : State :=
  if ((s.lane lk.1).station lk.2).firesOnRelease then s.deferredFire lk.1 lk.2 else s

/-- The guard is released at every station. The manual gives the stations no order; fires that produce no report act on
state of their own and are taken first (R108, R117, assumption log 3). -/
def State.releasePulses (s : State) : State :=
  let quiet := s.releasing true
  let (acts, s) := s.ordered ((s.releasing false).map fun x => [x])
  (quiet ++ acts).foldl State.releaseStation s

/-- A change of the guard input: the level, the GUARD report, the stations (R116, R117). An input that keeps its level
is no change. -/
def State.guardChange (s : State) (energised : Bool) : State :=
  let s := { s with inputs := { s.inputs with guardLine := energised } }
  if s.guardAsserted = !energised then s
  else
    let s := { s with guardAsserted := !energised }.produce (.guard (!energised))
    if energised then s.releasePulses else s.cutPulses

end Sys2Proof.Machine
end

