-- ==== Sys2Proof/Machine/Detection.lean ====
section
/-! DEFINITION. The entry detector (chapter 2): edges, glitches, gaps and merging, LONG items, the admission request. -/

namespace Sys2Proof.Machine

/-- The limits latched from the active profile (R26). -/
def Lane.latchLimits (L : Lane) : Limits where
  lmin := L.active.body.fields.lmin
  lmax := L.active.body.fields.lmax
  gap := L.active.body.fields.gap

/-- The detector of lane l set. -/
def State.setDetector (s : State) (l : LaneId) (d : Detector) : State := s.updLane l fun L => { L with detector := d }

/-- The two mechanisms that read the detector's return to CLEAR (R35). -/
inductive ClearReader where
  | whenClear | drain
  deriving DecidableEq, Repr

/-- One of them acts, if its condition holds (R9, R68). -/
def State.readClear (l : LaneId) (s : State) : ClearReader → State
  | .whenClear => s.testWhenClear l
  | .drain => s.testDrain l

/-- The detector has returned to CLEAR: a WHEN_CLEAR boundary may be reached and a drain may complete; where both hold
the manual gives them no order (R35, R75). -/
def State.detectorCleared (s : State) (l : LaneId) : State :=
  let L := s.lane l
  let (acts, s) := s.ordered
    [if L.clearBoundary then [ClearReader.whenClear] else [], if L.drainDone then [ClearReader.drain] else []]
  acts.foldl (State.readClear l) s

/-- The detector hands on a measured item and returns to CLEAR (R29, R32, R34). -/
def State.admitMeasured (s : State) (l : LaneId) (leading trailing : Pos) (lim : Limits) : State :=
  let s := s.askPool l leading ((trailing - leading).setWidth 16) lim.gap false
  if (s.lane l).tracking then (s.setDetector l .clear).detectorCleared l else s

/-- The detector hands on a LONG item and enters BLOCKED, unless the drop policy has halted the lane (R30, R31, R47). -/
def State.admitLong (s : State) (l : LaneId) (leading : Pos) (lim : Limits) : State :=
  let s := s.askPool l leading lim.lmax lim.gap true
  if (s.lane l).tracking then s.setDetector l (.blocked leading lim) else s

/-- An interruption shorter than Lmin: the detector returns to CLEAR, the glitch count rises, a GLITCH report (R28).

DESIGN CHOICE (unsafe, assumption log 13): where the same return to CLEAR reaches a WHEN_CLEAR boundary, the GLITCH report is
appended before the COMMITTED report. R9 puts DRAINED after the GLITCH report; no rule orders these two. -/
def State.glitch (s : State) (l : LaneId) (leading q : Pos) : State :=
  let s := s.updLane l fun L => { L with detector := .clear, glitchCount := saturatingSucc L.glitchCount }
  (s.produceIf (s.lane l).config.maskGlitch (.glitch l leading ((q - leading).setWidth 16))).detectorCleared l

/-- A presence edge at the lane's position (R27, R31). -/
def State.presenceEdge (s : State) (l : LaneId) : State :=
  let L := s.lane l
  match L.detector with
  | .clear => s.setDetector l (.inItem L.position L.latchLimits)
  | .gapWait leading _ lim =>
    if (L.position - leading).toNat < lim.lmax.toNat then s.setDetector l (.inItem leading lim)
    else s.admitLong l leading lim
  | _ => s

/-- A clearing edge at the lane's position (R27 to R29, R33, R56). -/
def State.clearingEdge (s : State) (l : LaneId) : State :=
  let L := s.lane l
  match L.detector with
  | .inItem leading lim =>
    if (L.position - leading).toNat < lim.lmin.toNat then s.glitch l leading L.position
    else if lim.gap = 0 then s.admitMeasured l leading L.position lim
    else s.setDetector l (.gapWait leading L.position lim)
  | .blocked _ lim =>
    let s := s.updLane l fun L =>
      { L with detector := .clear, blind := closeInterval (L.position + Half.pos lim.gap) L.blind }
    s.detectorCleared l
  | _ => s

/-- A level of the entry sensor that the detector takes: an edge if it differs from the level last taken (R24). -/
def State.takeEntryLevel (s : State) (l : LaneId) (present : Bool) : State :=
  if (s.lane l).entryLevel = present then s
  else
    let s := s.updLane l fun L => { L with entryLevel := present }
    if present then s.presenceEdge l else s.clearingEdge l

/-- A change of the entry-sensor line: taken while the lane tracks and its reverse depth is 0 (R23 to R25). -/
def State.entryEdge (s : State) (l : LaneId) (present : Bool) : State :=
  if (s.lane l).tracking ∧ (s.lane l).depth = 0 then s.takeEntryLevel l present else s

/-- The detector has something to do at the reach (R30, R32). -/
def Detector.due (d : Detector) (reach : Pos) : Bool :=
  match d with
  | .inItem leading lim => reach == leading + Half.pos lim.lmax
  | .gapWait _ trailing lim => reach == trailing + Half.pos lim.gap
  | _ => false

/-- The reach attains leading + Lmax in IN_ITEM, or trailing + G in GAP_WAIT (R30, R32). -/
def State.detectorAdvance (s : State) (l : LaneId) : State :=
  match (s.lane l).detector with
  | .inItem leading lim => s.admitLong l leading lim
  | .gapWait leading trailing lim => s.admitMeasured l leading trailing lim
  | _ => s

end Sys2Proof.Machine
end

