-- ==== Sys2Proof/Machine/Travel.lean ====
section
/-! DEFINITION. Travel (chapter 1): steps, the acts of the lane blocks at an advance of the reach (R17), the quadrature
decoder and the tick timer. -/

namespace Sys2Proof.Machine

/-! ## The acts at an advance of the reach -/

/-- One act of a lane block at the new reach (R17). -/
inductive BeltAct where
  | detector
  | retire (serial : Serial)
  | blind
  | deadline (serial : Serial)
  | due (station : StationId) (serial : Serial)
  | tolerance (station : StationId) (serial : Serial)
  | spanEnd (station : StationId)
  | windowEnd (serial : Serial)
  deriving DecidableEq, Repr

/-- The due point of a ticket at station k is attained and its outcome there is PENDING (R95). -/
def Lane.dueAt (L : Lane) (k : StationId) (t : Ticket) : Bool :=
  t.duePoint (L.profileOf t.generation) k == some L.reach && t.outcome k == some .pending

/-- The lane has reason for an act at its present reach. -/
def Lane.calls (L : Lane) : BeltAct → Bool
  | .detector => L.detector.due L.reach
  | .retire n => L.queue.any fun t => t.serial == n && t.retirePoint (L.profileOf t.generation) == L.reach
  | .blind => L.blind.any L.removable
  | .deadline n => L.queue.any fun t => t.serial == n && t.deadline (L.profileOf t.generation) == L.reach
  | .due k n => L.queue.any fun t => t.serial == n && L.dueAt k t
  | .tolerance k n => (L.station k).deferred.any fun d => d.serial == n && d.toleranceEnd == L.reach
  | .spanEnd k => (L.station k).spanEnd == some L.reach
  | .windowEnd n => L.windows.any fun w => w.serial == n && w.stop == L.reach

/-- The acts of one block that the lane calls for, in the block's own order: due points, window ends and retirements go
in serial order (R52, R104, R125). -/
def Lane.called (L : Lane) (acts : List BeltAct) : List BeltAct := acts.filter L.calls

/-- A due point at station k that produces no report: the class test fails, a SPAN or IDLE station fires, or a busy DEFER
station takes the ticket on its deferred list (R96 to R101, R105). -/
def Lane.quietDue (L : Lane) (guard : Bool) (k : StationId) (t : Ticket) : Bool :=
  let p := L.profileOf t.generation
  let act := (p.station k).act
  let passes : Bool :=
    match act.rule?, (t.finalise p).decision.finalClass with
    | some (.onClass mask), some c => !inMask mask c
    | _, _ => false
  let served : Bool :=
    match act, (L.station k).pulse with
    | .pulse .., .idle => true
    | .pulse _ _ _ (.defer tolerance) _ _, _ => tolerance != 0
    | .span .., _ => true
    | _, _ => false
  passes || (!guard && served)

/-- The tickets whose due point at station k is the present reach, in serial order (R95, R104). -/
def Lane.dueTickets (L : Lane) (k : StationId) : List Ticket := L.queue.filter (L.dueAt k)

/-- Station k meets one due point at this advance and it produces no report. -/
def Lane.quietStation (L : Lane) (guard : Bool) (k : StationId) : Bool :=
  match L.dueTickets k with
  | [t] => L.quietDue guard k t
  | _ => false

/-- The due points that station k meets at this advance. -/
def Lane.dueActs (L : Lane) (k : StationId) : List BeltAct := (L.dueTickets k).map fun t => .due k t.serial

/-- The acts at an advance whose order the manual makes immaterial (R17, R50, R81, R106): deadlines, span ends, and due
points that produce no report. Each acts on state that no other act at the advance reads (assumption log 3). -/
def Lane.quietActs (L : Lane) (guard : Bool) : List BeltAct :=
  L.called (L.queue.map fun t => .deadline t.serial) ++ L.called (allStations.map .spanEnd) ++
    (allStations.filter (L.quietStation guard)).flatMap L.dueActs

/-- The groups of the other acts at an advance. Only tickets, intervals and windows that are there at the advance are met:
a point of a ticket that the advance itself creates counts as behind the reach (R44). -/
def Lane.beltGroups (L : Lane) (guard : Bool) : List (List BeltAct) :=
  [L.called [.detector], L.called (L.queue.map fun t => .retire t.serial), L.called [.blind],
    L.called (L.windows.map fun w => .windowEnd w.serial)] ++
  (allStations.filter fun k => !L.quietStation guard k).map L.dueActs ++
  allStations.map fun k => L.called ((L.station k).deferred.map fun d => .tolerance k d.serial)

/-- One act of a block of lane l, if the lane still has reason for it. -/
def State.runAct (l : LaneId) (s : State) (act : BeltAct) : State :=
  let L := s.lane l
  if !L.calls act then s
  else
    match act with
    | .detector => s.detectorAdvance l
    | .retire n =>
      match L.findTicket n with
      | some t => s.retire l t
      | none => s
    | .blind => (s.updLane l Lane.checkBlind).testDrain l
    | .deadline n => s.updTicket l n fun t => t.finalise (L.profileOf t.generation)
    | .due k n =>
      match L.findTicket n with
      | some t => s.duePoint l k t
      | none => s
    | .tolerance k n =>
      match L.findTicket n with
      | some t => s.toleranceEnd l k t
      | none => s
    | .spanEnd k => s.updStation l k fun S => { S with spanEnd := none }
    | .windowEnd n =>
      match L.windows.find? (fun w => w.serial == n) with
      | some w => s.windowEnd l w
      | none => s

/-- The reach has advanced: every block of the lane acts at the new reach; where the order of acts can show, it is one the
manual leaves open (R17). -/
def State.advance (s : State) (l : LaneId) : State :=
  let L := s.lane l
  let (acts, s) := s.ordered (L.beltGroups s.guardAsserted)
  (L.quietActs s.guardAsserted ++ acts).foldl (State.runAct l) s

/-! ## Steps -/

/-- The depth has come back to 0: the monitor takes the present sensor level, and the detector reads its sensor again
and takes a difference as one edge at the reach (R25, R121). -/
def State.rereadSensors (s : State) (l : LaneId) : State :=
  let levels := s.laneInputs l
  (s.updLane l fun L => { L with confirmLevel := levels.confirm }).entryEdge l levels.entry

/-- A forward step (R14). -/
def State.forwardStep (s : State) (l : LaneId) : State :=
  let L := s.lane l
  if L.depth = 0 then
    (s.setLane l { L with position := L.position + 1, reach := L.position + 1 }).advance l
  else
    let s := s.setLane l { L with position := L.position + 1 }
    if (s.lane l).depth = 0 then s.rereadSensors l else s

/-- A reverse step; the reverse limit is checked in RUNNING and DRAINING (R14 to R16). -/
def State.reverseStep (s : State) (l : LaneId) : State :=
  let L := s.lane l
  let s :=
    if L.depth.toNat = maxDepth then s.setLane l { L with position := L.position - 1, reach := L.reach - 1 }
    else s.setLane l { L with position := L.position - 1 }
  let M := s.lane l
  if M.tracking ∧ M.config.reverseLimit.toNat < M.depth.toNat then s.haltLane l .reverse else s

/-! ## Quadrature decoding -/

/-- What a new level pair means (R18). -/
inductive QuadStep where
  | none | forward | reverse | illegal
  deriving DecidableEq, Repr

/-- The place of a level pair in the forward cycle 00, 10, 11, 01 (R18). -/
def EncoderPair.phase (p : EncoderPair) : Nat :=
  match p.a, p.b with
  | false, false => 0
  | true, false => 1
  | true, true => 2
  | false, true => 3

/-- The table of R18 with direction swap no. The pair already held is no row of it and no step (DEDUCED, assumption log 6). -/
def EncoderPair.step (held new : EncoderPair) : QuadStep :=
  match (new.phase + 4 - held.phase) % 4 with
  | 0 => .none
  | 1 => .forward
  | 2 => .illegal
  | _ => .reverse

/-- The direction swap (R18, R19). -/
def QuadStep.swap : QuadStep → QuadStep
  | .none => .none
  | .forward => .reverse
  | .reverse => .forward
  | .illegal => .illegal

/-- The decoder takes a new level pair of an ENCODER lane (R18). -/
def State.decodePair (s : State) (l : LaneId) (new : EncoderPair) : State :=
  let L := s.lane l
  let step := if L.config.swap then (L.encoder.step new).swap else L.encoder.step new
  let s := s.setLane l { L with encoder := new }
  match step with
  | .none => s
  | .forward => s.forwardStep l
  | .reverse => s.reverseStep l
  | .illegal => s.haltLane l .encoder

/-- A change of the encoder lines: the decoder acts on an ENCODER lane only (R18). -/
def State.encoderChange (s : State) (l : LaneId) (a b : Bool) : State :=
  let s := s.setLaneInputs l { s.laneInputs l with encoderA := a, encoderB := b }
  match (s.lane l).config.source with
  | .encoder => s.decodePair l ⟨a, b⟩
  | .clock => s

/-! ## Clock lanes -/

/-- The tick interval of a lane in microseconds (R20). -/
def LaneConfig.tickMicroseconds (c : LaneConfig) : Nat := c.tickInterval.toNat

/-- The tick timer of a lane expires: the next interval starts and the lane takes a forward step (R20). A stopped timer
does not expire. -/
def State.clockTick (s : State) (l : LaneId) : State :=
  let L := s.lane l
  match L.tickTimer with
  | some _ => (s.setLane l { L with tickTimer := some L.config.tickMicroseconds }).forwardStep l
  | none => s

end Sys2Proof.Machine
end

