-- ==== Sys2Proof/Machine/Line.lean ====
section
/-! DEFINITION. The host line: CRC and frames (R133, R137), the transmitter's choice of its next frame (R141, R176), the
report store's sessions and ACKs (R177 to R184), the loss of a session (R150). -/

namespace Sys2Proof.Machine

/-! ## CRC and frames -/

/-- One bit step of the CRC with polynomial 0x1021 (R137). -/
def crcBit (c : BitVec 16) : BitVec 16 := if c.msb then (c <<< 1) ^^^ 0x1021#16 else c <<< 1

/-- n bit steps of the CRC. -/
def crcBits : Nat → BitVec 16 → BitVec 16
  | 0, c => c
  | n + 1, c => crcBits n (crcBit c)

/-- One byte enters the CRC, most significant bit first (R137). -/
def crcByte (c : BitVec 16) (b : Byte) : BitVec 16 := crcBits 8 (c ^^^ (b ++ 0#8))

/-- The CRC of a list of bytes, initial value 0xFFFF, result not inverted (R137). -/
def crc16 (bytes : List Byte) : BitVec 16 := bytes.foldl crcByte 0xFFFF#16

/-- The bytes that the CRC covers: length, kind, sequence byte, payload (R137). -/
def crcCover (len kind seq : Byte) (payload : List Byte) : List Byte := len :: kind :: seq :: payload

/-- The start byte (R133). -/
def startByte : Byte := 0xC5

/-- The bytes of a frame on the line (R133, section 9.1). -/
def Message.frame (m : Message) : List Byte :=
  let cover := crcCover (natByte m.payload.length) m.kind m.seq m.payload
  startByte :: cover ++ be16 (crc16 cover)

/-- Bits per second of a rate (R133). -/
def bitsPerSecond : LineRate → Nat
  | .baud115200 => 115200
  | .baud230400 => 230400
  | .baud460800 => 460800
  | .baud921600 => 921600

/-- The time a frame takes: 10 bit times a character, 6 characters and the payload, in millionths of a bit time
(R133). -/
def Message.lineTime (m : Message) : Nat := (6 + m.payload.length) * 10 * 1000000

/-! ## The transmitter -/

/-- The first element that satisfies p, after f, with the list in which it is replaced. -/
def updateFirst {α : Type} (p : α → Bool) (f : α → α) : List α → Option (α × List α)
  | [] => none
  | a :: as =>
    if p a then some (f a, f a :: as)
    else
      match updateFirst p f as with
      | none => none
      | some (b, bs) => some (b, a :: bs)

/-- The number of the oldest report in flight (R173). -/
def Store.oldestNumber (st : Store) : Option Byte := st.reports.findSome? StoredReport.number

/-- The report timer's full time for a session (R180). -/
def Session.reportTime (se : Session) : Nat := milliseconds se.reportTimeout

/-- The store offers its oldest report that is due for resending; sending the oldest in flight restarts the report timer
(R176 step 1, R180). -/
def Store.offerResend (st : Store) (se : Session) : Option (Message × Store) :=
  match updateFirst (fun r => r.number.isSome && r.resendDue) (fun r => { r with resendDue := false }) st.reports with
  | none => none
  | some (r, rs) =>
    let timer := if r.number = st.oldestNumber then some se.reportTime else st.timer
    some (r.message (r.number.getD 0), { st with reports := rs, timer := timer })

/-- The store offers its oldest unsent report within the window: it receives the next number, and the report timer starts
if none was in flight (R176 step 2, R180). -/
def Store.offerUnsent (st : Store) (se : Session) : Option (Message × Store) :=
  if st.inFlight < se.window.toNat then
    match updateFirst (fun r => r.number.isNone) (fun r => { r with number := some st.nextNumber }) st.reports with
    | none => none
    | some (r, rs) =>
      let timer := if st.inFlight = 0 then some se.reportTime else st.timer
      some (r.message st.nextNumber, { st with reports := rs, nextNumber := st.nextNumber + 1, timer := timer })
  else none

/-- What the store offers: a resend before an unsent report (R176). -/
def Store.offer (st : Store) (se : Session) : Option (Message × Store) :=
  match st.offerResend se with
  | some x => some x
  | none => st.offerUnsent se

/-- The transmitter begins a message. -/
def Link.begin (k : Link) (m : Message) (isReply : Bool) : Link :=
  { k with transmitter := some { message := m, isReply := isReply, left := m.lineTime } }

/-- A free transmitter takes its next frame: the oldest reply, else a report that the store offers while the session is
OPEN and no RESTART waits (R141, R151, R176). -/
def State.transmitNext (s : State) : State :=
  match s.link.transmitter with
  | some _ => s
  | none =>
    match s.link.replies with
    | m :: _ => { s with link := s.link.begin m true }
    | [] =>
      if s.link.session.state = .opened ∧ s.link.restarting = false then
        match s.store.offer s.link.session with
        | some (m, st) => { s with link := s.link.begin m false, store := st }
        | none => s
      else s

/-- The reset at the end of a RESTART: the input lines have the levels last told of, and the rate switch is read anew; its
position then is a free value (R133, R144, R151, assumption log 2). -/
def State.restartReset (s : State) : State :=
  { s with freeIndex := s.freeIndex + 1 }.afterReset .restart
    { s.inputs with rateSwitch := Config.rateSwitch s.freeIndex }

/-- The transmitter has sent the last byte of its frame. A reply leaves the queue; with a RESTART waiting and no reply
left the module resets (R140, R141, R151). -/
def State.transmitComplete (s : State) : State :=
  match s.link.transmitter with
  | none => s
  | some t =>
    if t.isReply then
      let rest := s.link.replies.tail
      let s := { s with link := { s.link with transmitter := none, replies := rest } }
      if s.link.restarting ∧ rest = [] then s.restartReset else s.transmitNext
    else { s with link := { s.link with transmitter := none } }.transmitNext

/-! ## Replies -/

/-- A reply appended to the reply queue (R140). -/
def State.queueReply (s : State) (m : Message) : State :=
  { s with link := { s.link with replies := s.link.replies ++ [m] } }

/-- A new history entry; with 8 held the oldest goes first (R142). -/
def addEntry (h : List HistoryEntry) (e : HistoryEntry) : List HistoryEntry :=
  (if historyCapacity ≤ h.length then h.tail else h) ++ [e]

/-- The reply to a request put together, entered in the reply history and queued (R139, R142, R152). -/
def State.reply (s : State) (kind seq : Byte) (a : Answer) : State :=
  let m : Message := { kind := kind + 0x80, seq := seq, payload := a.payload }
  { s with link := { s.link with history := addEntry s.link.history { seq := seq, reply := m } } }.queueReply m

/-! ## Sessions at the report store -/

/-- A report returned to unsent (R177, R183). -/
def StoredReport.unsend (r : StoredReport) : StoredReport := { r with number := none, resendDue := false }

/-- A new session at the report store (R183). -/
def Store.newSession (st : Store) : Store :=
  { st with reports := st.reports.map StoredReport.unsend, nextNumber := 0, retry := 0, timer := none }

/-- The first w reports in flight stay so; those beyond return to unsent (R177). -/
def keepWindow : Nat → List StoredReport → List StoredReport
  | _, [] => []
  | w, r :: rs =>
    if r.number.isSome then
      match w with
      | 0 => r.unsend :: keepWindow 0 rs
      | w + 1 => r :: keepWindow w rs
    else r :: keepWindow w rs

/-- A report in flight marked for resending (R181, R184). -/
def StoredReport.markDue (r : StoredReport) : StoredReport := { r with resendDue := r.number.isSome }

/-- A resumed session at the report store, with the window of the HELLO (R177, R184). -/
def Store.resume (st : Store) (window : Byte) : Store :=
  { st with
    reports := (keepWindow window.toNat st.reports).map StoredReport.markDue
    nextNumber :=
      if window.toNat < st.inFlight then
        (match st.oldestNumber with
          | some n => n + window
          | none => st.nextNumber)
      else st.nextNumber
    retry := 0 }

/-! ## ACKs -/

/-- The reports newer than the one in flight that holds a number (R178). -/
def ackThrough (n : Byte) : List StoredReport → Option (List StoredReport)
  | [] => none
  | r :: rs => if r.number = some n then some rs else ackThrough n rs

/-- An ACK handed to the report store (R178); a number that no report in flight holds is a BAD_ACK (R139). -/
def State.takeAck (s : State) (n : Byte) : State :=
  match ackThrough n s.store.reports with
  | none => s.updCounters fun c => { c with badAck := saturatingSucc c.badAck }
  | some rs =>
    let st := { s.store with reports := rs, retry := 0 }
    let timer :=
      if st.inFlight ≠ 0 ∧ s.link.session.state = .opened then some s.link.session.reportTime else none
    { s with store := { st with timer := timer }.tellGap s.clock }

/-! ## Loss of the session -/

/-- A lane's link-loss policy applied at the loss (R8, R131, R150). -/
def Lane.linkLoss (L : Lane) : Lane :=
  match L.config.linkPolicy with
  | .continue_ => L
  | .stop => { L with stops := { L.stops with link := true } }
  | .drain => if L.state = .running then { L with state := .draining } else L

/-- The session becomes LOST: timers stop and each lane's policy is applied. A drain whose conditions already hold is
complete at once; the lanes need no order among themselves (R9, R150, R182). -/
def State.loseSession (s : State) : State :=
  let s := s.updSession fun se => { se with state := .lost }
  let s := { s with link := { s.link with linkTimer := none }, store := { s.store with timer := none } }
  let s := s.mapLanes Lane.linkLoss
  let (drains, s) := s.ordered ((allLanes.filter fun l => (s.lane l).drainDone).map fun l => [l])
  drains.foldl State.testDrain s

/-- The link timer runs out in OPEN (R149). A stopped timer does not run out. -/
def State.linkTimeout (s : State) : State :=
  if s.link.session.state = .opened ∧ s.link.linkTimer.isSome then s.loseSession else s

/-- The report timer runs out in OPEN: a resend, or the loss of the session after four (R181). A stopped timer does not
run out. -/
def State.reportTimeout (s : State) : State :=
  if s.link.session.state = .opened ∧ s.store.timer.isSome then
    if s.store.retry < retryLimit then
      { s with
        store :=
          { s.store with
            reports := s.store.reports.map StoredReport.markDue, retry := s.store.retry + 1, timer := none } }
    else s.loseSession
  else s

end Sys2Proof.Machine
end

