-- ==== Sys2Proof/Machine/LinkRequests.lean ====
section
/-! DEFINITION. The requests of the host link: HELLO, PING, LINK_STATUS and RESTART. Each meaning answers the checked
payload with a reply and the state after the request. -/

namespace Sys2Proof.Machine

/-- A request whose length and fields have been checked in that order (R155 steps 5 and 6); the state checks and the effect
are `act`'s. -/
def checked {α : Type} (s : State) (goodLength : Bool) (fields : Except Byte α) (act : α → Answer × State) :
    Answer × State :=
  if goodLength then
    match fields with
    | .ok x => act x
    | .error n => (.badField n, s)
  else (.badLength, s)

/-- The family code of the JW-424 (R159). -/
def familyCode : BitVec 16 := 0x0424
/-- The revision of the modules of the manual (R159). -/
def revision : Byte := 1

/-- The session record set by a HELLO (R146 step 2). -/
def Session.hello (se : Session) (h : Hello) : Session :=
  { se with
    state := .opened, id := some h.id, linkTimeout := h.linkTimeout, reportTimeout := h.reportTimeout,
    window := h.window }

/-- HELLO: a resume when the record holds the same id, else a new session (R146 to R148, R131). -/
def State.performHello (s : State) (h : Hello) : Answer × State :=
  let resumed : Bool := s.link.session.id = some h.id
  let store := if resumed then s.store.resume h.window else s.store.newSession
  let link :=
    { s.link with
      history := if resumed then s.link.history else []
      session := s.link.session.hello h
      linkTimer := some (milliseconds h.linkTimeout) }
  let s' := { s with store := store, link := link }.mapLanes fun L => { L with stops := { L.stops with link := false } }
  (.ok (be16 familyCode ++ [revision, s.link.session.bootReason.code, boolByte resumed]), s')

def serveHello (p : List Byte) (s : State) : Answer × State :=
  checked s (p.length == 6) (parseHello p) s.performHello

/-- PING (R162). -/
def servePing (p : List Byte) (s : State) : Answer × State :=
  checked s (p.length == 0) (.ok ()) fun _ => (.ok [], s)

/-- The fields of a LINK_STATUS reply (R163). -/
def State.linkStatusFields (s : State) : List Byte :=
  let se := s.link.session
  let c := s.link.counters
  [se.state.code, se.id.getD 0] ++ be16 se.linkTimeout ++ be16 se.reportTimeout ++ [se.window, se.bootReason.code] ++
    be16 c.oversize ++ be16 c.gap ++ be16 c.crc ++ be16 c.overrun ++ be16 c.badAck ++
    [natByte s.store.reports.length, natByte s.store.inFlight] ++ be16 s.store.lost ++
    [natByte s.store.retry, natByte s.link.history.length]

/-- LINK_STATUS (R163). -/
def serveLinkStatus (p : List Byte) (s : State) : Answer × State :=
  checked s (p.length == 0) (.ok ()) fun _ => (.ok s.linkStatusFields, s)

/-- RESTART: the link timer stops and no further report is offered; the reset follows the reply's last byte (R151). -/
def serveRestart (p : List Byte) (s : State) : Answer × State :=
  checked s (p.length == 0) (.ok ()) fun _ =>
    (.ok [], { s with link := { s.link with linkTimer := none, restarting := true } })

end Sys2Proof.Machine
end

