-- ==== Sys2Proof/Machine/LaneRequests.lean ====
section
/-! DEFINITION. The requests that act on a lane: LANE_CONFIG, ENABLE, DISABLE, CLEAR_STOP and FORCE. -/

namespace Sys2Proof.Machine

/-- The reserve check of R4: the new reserve of lane l and, for each other lane, the larger of its reserve and its in-use
count. -/
def State.reserveTotal (s : State) (l : LaneId) (reserve : Nat) : Nat :=
  (allLanes.map fun j =>
    if j = l then reserve else Nat.max (s.lane j).config.reserve.toNat (s.lane j).inUse).sum

/-- The lane after a LANE_CONFIG that is taken, with the levels then on its encoder lines (R3). -/
def Lane.configure (L : Lane) (c : LaneConfig) (levels : LaneInputs) : Lane :=
  match c.source with
  | .encoder =>
    { L with config := c, reach := L.position, encoder := ⟨levels.encoderA, levels.encoderB⟩, tickTimer := none }
  | .clock => { L with config := c, reach := L.position, tickTimer := some c.tickMicroseconds }

/-- LANE_CONFIG's state checks and effect (R3, R4). -/
def State.performLaneConfig (s : State) (x : LaneId × LaneConfig) : Answer × State :=
  if (s.lane x.1).state ≠ .disabled then (.laneState, s)
  else if poolSize < s.reserveTotal x.1 x.2.reserve.toNat then (.reserveExceeded, s)
  else (.ok [], s.updLane x.1 fun L => L.configure x.2 (s.laneInputs x.1))

def serveLaneConfig (p : List Byte) (s : State) : Answer × State :=
  checked s (p.length == 15) (parseLaneConfig p) s.performLaneConfig

/-- The interval that ENABLE creates without the belt-clear flag (R6). -/
def Lane.enableInterval (L : Lane) : Interval where
  start := L.position - Triple.pos L.active.derived.retireSpan
  stop := some L.position

/-- The lane after an ENABLE that is taken, with the levels then on its sensors (R6, R23, R121). -/
def Lane.enable (L : Lane) (beltClear : Bool) (levels : LaneInputs) : Lane :=
  { L.mapStations fun S => { S with forced := false } with
    state := .running
    reach := L.position
    blind := if beltClear then L.blind else addInterval L.blind L.enableInterval
    detector := .clear
    entryLevel := levels.entry
    confirmLevel := levels.confirm }

/-- ENABLE's state check and effect (R5, R6). -/
def State.performEnable (s : State) (x : LaneId × Bool) : Answer × State :=
  if (s.lane x.1).state ≠ .disabled then (.laneState, s)
  else (.ok [], s.updLane x.1 fun L => L.enable x.2 (s.laneInputs x.1))

def serveEnable (p : List Byte) (s : State) : Answer × State :=
  checked s (p.length == 2) (parseEnable p) s.performEnable

/-- DISABLE by lane state and mode (R7, R9 to R11). -/
def State.performDisable (s : State) (x : LaneId × DisableMode) : Answer × State :=
  match (s.lane x.1).state, x.2 with
  | .disabled, _ => (.laneState, s)
  | .halted, _ =>
    (.ok [], s.updLane x.1 fun L => { L with state := .disabled, stops := { L.stops with halt := false } })
  | .running, .drain => (.accepted, (s.updLane x.1 fun L => { L with state := .draining }).testDrain x.1)
  | .draining, .drain => (.accepted, s)
  | .running, .abort => (.ok [], s.abortLane x.1)
  | .draining, .abort => (.ok [], s.abortLane x.1)

def serveDisable (p : List Byte) (s : State) : Answer × State :=
  checked s (p.length == 2) (parseDisable p) s.performDisable

/-- CLEAR_STOP: the CONFIRM, DROP and LINK reasons leave the set (R132). -/
def State.performClearStop (s : State) (l : LaneId) : Answer × State :=
  let s' := s.updStops l fun r => { r with confirm := false, drop := false, link := false }
  (if (s.lane l).state = .halted then .stopHeld else .ok [], s')

def serveClearStop (p : List Byte) (s : State) : Answer × State :=
  checked s (p.length == 1) (parseLane p) s.performClearStop

/-- FORCE's state check and effect (R114). -/
def State.performForce (s : State) (x : LaneId × StationId × Bool) : Answer × State :=
  if (s.lane x.1).state ≠ .disabled then (.laneState, s)
  else (.ok [], s.updStation x.1 x.2.1 fun S => { S with forced := x.2.2 })

def serveForce (p : List Byte) (s : State) : Answer × State :=
  checked s (p.length == 3) (parseForce p) s.performForce

end Sys2Proof.Machine
end

