-- ==== Sys2Proof/Machine/ProfileRequests.lean ====
section
/-! DEFINITION. The requests that act on a profile store: STAGE_LANE, STAGE_STATION, DISCARD_STAGED, COMMIT and
CANCEL_COMMIT. -/

namespace Sys2Proof.Machine

/-- The staging status of lane l set. -/
def State.setStaging (s : State) (l : LaneId) (st : Staging) : State := s.updLane l fun L => { L with staging := st }

/-- A staging request: in ABSENT the staged copy is first made from the active profile; in COMMITTING it is refused
(R63, R64). -/
def State.stage (s : State) (l : LaneId) (f : ProfileBody → ProfileBody) : Answer × State :=
  match (s.lane l).staging with
  | .absent => (.ok [], s.setStaging l (.editing (f (s.lane l).active.body)))
  | .editing b => (.ok [], s.setStaging l (.editing (f b)))
  | .committing .. => (.stagingBusy, s)

def serveStageLane (p : List Byte) (s : State) : Answer × State :=
  checked s (p.length == 12) (parseStageLane p) fun x => s.stage x.1 fun b => { b with fields := x.2 }

def serveStageStation (p : List Byte) (s : State) : Answer × State :=
  checked s (p.length == 26) (parseStageStation p) fun x =>
    s.stage x.1 fun b => { b with stations := b.stations.set x.2.1 x.2.2 }

/-- DISCARD_STAGED by staging status (R65). -/
def State.performDiscard (s : State) (l : LaneId) : Answer × State :=
  match (s.lane l).staging with
  | .absent => (.nothingStaged, s)
  | .editing _ => (.ok [], s.setStaging l .absent)
  | .committing .. => (.stagingBusy, s)

def serveDiscardStaged (p : List Byte) (s : State) : Answer × State :=
  checked s (p.length == 1) (parseLane p) s.performDiscard

/-- The boundary of a commit is reached as the COMMIT is taken: NOW, a WHEN_CLEAR condition that holds, or a lane that is
DISABLED or HALTED (R66, R68, R75). -/
def Lane.reachedAtOnce (L : Lane) (b : Boundary) : Bool :=
  !L.tracking ||
    (match b with
      | .now => true
      | .whenClear => L.queue.isEmpty && L.detector.isClear
      | .atSerial _ => false)

/-- COMMIT's state checks and effect (R66, R67, R70). -/
def State.performCommit (s : State) (x : LaneId × Boundary) : Answer × State :=
  match (s.lane x.1).staging with
  | .absent => (.nothingStaged, s)
  | .committing .. => (.stagingBusy, s)
  | .editing body =>
    match body.invalid with
    | some (reason, station) => (.profileInvalid reason station, s)
    | none =>
      let s' := s.setStaging x.1 (.committing body body.derive (.pending x.2))
      if (s.lane x.1).reachedAtOnce x.2 then
        (if (s.lane x.1).retiring.isSome then .accepted else .ok [], s'.reachBoundary x.1)
      else (.accepted, s')

def serveCommit (p : List Byte) (s : State) : Answer × State :=
  checked s (p.length == 6) (parseCommit (fun l => (s.lane l).nextSerial) p) s.performCommit

/-- CANCEL_COMMIT by commit state (R76). -/
def State.performCancel (s : State) (l : LaneId) : Answer × State :=
  match (s.lane l).staging with
  | .committing body _ _ => (.ok [], s.setStaging l (.editing body))
  | _ => (.noCommit, s)

def serveCancelCommit (p : List Byte) (s : State) : Answer × State :=
  checked s (p.length == 1) (parseLane p) s.performCancel

end Sys2Proof.Machine
end

