-- ==== Sys2Proof/Machine/TicketRequests.lean ====
section
/-! DEFINITION. The requests that name or read state: VERDICT, QUERY_LANE, QUERY_TICKET and QUERY_PROFILE. -/

namespace Sys2Proof.Machine

/-- The answer for a serial that is not in the queue (R88, R167). -/
def Lane.missingSerial (L : Lane) (n : Serial) : Answer :=
  if countsAsIssued L.nextSerial L.wrapped n then .gone else .unknownSerial

/-- The class and tag of a verdict bound to the ticket (R85, R86). -/
def State.bindVerdict (s : State) (v : Verdict) : State :=
  s.updTicket v.lane v.serial fun t => { t with decision := .decided v.cls v.tag }

/-- VERDICT's state checks and effect (R84 to R88). -/
def State.performVerdict (s : State) (v : Verdict) : Answer × State :=
  let L := s.lane v.lane
  if !L.tracking then (.laneState, s)
  else
    match L.findTicket v.serial with
    | none => (L.missingSerial v.serial, s)
    | some t =>
      match t.decision with
      | .undecided => (.ok [], s.bindVerdict v)
      | .decided _ _ => (.revised, s.bindVerdict v)
      | .final c source _ => (.late c source, s)

def serveVerdict (p : List Byte) (s : State) : Answer × State :=
  checked s (p.length == 6 || p.length == 8) (parseVerdict p) s.performVerdict

/-! ## QUERY_LANE -/

/-- The leading position, 0 in CLEAR (R165). -/
def Detector.leading : Detector → Pos
  | .clear => 0
  | .inItem p _ => p
  | .gapWait p _ _ => p
  | .blocked p _ => p

/-- The serial of a ticket at an end of the queue, 0 when there is none (R165). -/
def serialOr0 (t : Option Ticket) : Serial :=
  match t with
  | some t => t.serial
  | none => 0

/-- The generation of a retiring profile, 0 when there is none (R165). -/
def generationOr0 (p : Option Profile) : Half :=
  match p with
  | some p => p.generation
  | none => 0

/-- Part LANE (R165). -/
def State.lanePart (s : State) (l : LaneId) : List Byte :=
  let L := s.lane l
  List.flatten
    [[L.state.code], be32 L.position, be32 L.reach, be32 L.depth, [L.detector.code], be32 L.detector.leading,
      be16 L.glitchCount, [natByte L.queue.length], be32 (serialOr0 L.queue.head?), be32 (serialOr0 L.queue.getLast?),
      be32 L.nextSerial, [boolByte L.wrapped], be16 L.dropCount, [natByte s.freeCount, natByte s.sharedFree],
      [L.staging.code, L.staging.commitCode, L.staging.boundaryCode], be32 L.staging.boundarySerial,
      be16 L.active.generation, [boolByte L.retiring.isSome], be16 (generationOr0 L.retiring),
      [natByte L.blind.length], [boolByte L.stops.halt, boolByte L.stops.confirm, boolByte L.stops.drop,
        boolByte L.stops.link], [boolByte L.stops.any, boolByte s.guardAsserted]]

/-- One station entry of part STATIONS (R166). -/
def State.stationEntry (s : State) (l : LaneId) (k : StationId) : List Byte :=
  let L := s.lane l
  let S := L.station k
  [S.pulse.code, natByte S.deferred.length, boolByte S.spanEnd.isSome] ++ be32 (S.spanEnd.getD 0) ++
    [boolByte (L.flushHold k), boolByte S.forced, boolByte (s.outputLevel l k)]

/-- One entry of part BLIND: an open end is sent as 0 with the open flag yes (R166). -/
def intervalEntry (i : Interval) : List Byte := be32 i.start ++ be32 (i.stop.getD 0) ++ [boolByte i.stop.isNone]

/-- The fields of a QUERY_LANE reply: lane and part, then the part (R164 to R166). -/
def State.queryLaneFields (s : State) (l : LaneId) (part : LanePart) : List Byte :=
  [laneByte l, part.code] ++
    (match part with
      | .lane => s.lanePart l
      | .stations => allStations.flatMap (s.stationEntry l)
      | .blind => natByte (s.lane l).blind.length :: (s.lane l).blind.flatMap intervalEntry)

def serveQueryLane (p : List Byte) (s : State) : Answer × State :=
  checked s (p.length == 2) (parseQueryLane p) fun x => (.ok (s.queryLaneFields x.1 x.2), s)

/-! ## QUERY_TICKET -/

/-- Class, source and tag of a decision (R154, R167). -/
def Decision.bytes : Decision → List Byte
  | .undecided => [0xFF, 0xFF] ++ tagBytes none
  | .decided c tag => [classByte c, 0xFF] ++ tagBytes tag
  | .final c source tag => [classByte c, source.code] ++ tagBytes tag

/-- The ticket record as QUERY_TICKET sends it (R167). -/
def Ticket.bytes (t : Ticket) (l : LaneId) : List Byte :=
  [laneByte l] ++ be32 t.serial ++ [natByte t.index.val] ++ be16 t.generation ++ be32 t.entry ++ be16 t.length ++
    [boolByte t.long, t.decision.code] ++ t.decision.bytes ++ [natByte t.outcomes.length] ++
    t.outcomes.flatMap outcomeBytes ++ [confirmCode t.confirm]

/-- QUERY_TICKET (R167). -/
def State.performQueryTicket (s : State) (x : LaneId × Serial) : Answer × State :=
  let L := s.lane x.1
  match L.findTicket x.2 with
  | some t => (.ok (t.bytes x.1), s)
  | none => (L.missingSerial x.2, s)

def serveQueryTicket (p : List Byte) (s : State) : Answer × State :=
  checked s (p.length == 5) (parseQueryTicket p) s.performQueryTicket

/-! ## QUERY_PROFILE -/

/-- The lane-level fields of a profile copy (R168). -/
def laneFieldBytes (generation : Half) (f : LaneFields) (d : Derived) : List Byte :=
  be16 generation ++ be16 f.lmin ++ be16 f.lmax ++ be16 f.gap ++ be16 f.verdictMargin ++ [classByte f.defaultClass] ++
    be16 f.flushMargin ++ be24 d.decisionOffset ++ be24 d.retireSpan

/-- Rule code and class mask (R154, R160). -/
def StationRule.bytes : StationRule → List Byte
  | .always => [0, 0]
  | .onClass mask => [1, mask]

/-- Busy policy code and defer tolerance (R154, R160). -/
def BusyPolicy.bytes : BusyPolicy → List Byte
  | .defer tolerance => 0 :: be16 tolerance
  | .drop => 1 :: be16 0

/-- Kind to flush of a station record; an absent field is sent as 0 (R160, R168). -/
def StationAct.bytes : StationAct → List Byte
  | .off => 0 :: be24 0 ++ be24 0 ++ be24 0 ++ be24 0 ++ (0 :: be16 0) ++ [0, 0, 0]
  | .pulse on width rearm busy rule flush =>
    1 :: be24 on ++ be24 0 ++ be24 width ++ be24 rearm ++ busy.bytes ++ rule.bytes ++ [boolByte flush]
  | .span on off' rule flush =>
    2 :: be24 on ++ be24 off' ++ be24 0 ++ be24 0 ++ (0 :: be16 0) ++ rule.bytes ++ [boolByte flush]

/-- The confirm attribute with its window (R160, R168). -/
def confirmBytes : Option ConfirmSpan → List Byte
  | some w => 1 :: be16 w.start ++ be16 w.stop
  | none => 0 :: be16 0 ++ be16 0

/-- The 24-byte layout of a station record (R160). -/
def StationRecord.bytes (r : StationRecord) : List Byte := r.act.bytes ++ confirmBytes r.confirm

/-- A copy of the profile store as QUERY_PROFILE reads it: presence byte, generation, fields and derived values
(R168). -/
def Lane.profileCopy (L : Lane) : ProfileCopy → Option (Byte × Half × ProfileBody × Derived)
  | .active => some (2, L.active.generation, L.active.body, L.active.derived)
  | .retiring =>
    match L.retiring with
    | some p => some (2, p.generation, p.body, p.derived)
    | none => none
  | .staged =>
    match L.staging with
    | .absent => none
    | .editing b => some (1, 0, b, ⟨0, 0⟩)
    | .committing b d _ => some (2, 0, b, d)

/-- The item of a profile copy: a station record, or the lane-level fields for item 6 (R168). -/
def profileItem (generation : Half) (b : ProfileBody) (d : Derived) (item : Fin 7) : List Byte :=
  if h : item.val < 6 then (b.stations[item.val]).bytes else laneFieldBytes generation b.fields d

/-- QUERY_PROFILE (R168). -/
def State.performQueryProfile (s : State) (x : LaneId × ProfileCopy × Fin 7) : Answer × State :=
  let head : List Byte := [laneByte x.1, x.2.1.code, natByte x.2.2.val]
  match (s.lane x.1).profileCopy x.2.1 with
  | none => (.ok (head ++ [0]), s)
  | some (presence, g, b, d) => (.ok (head ++ [presence] ++ profileItem g b d x.2.2), s)

def serveQueryProfile (p : List Byte) (s : State) : Answer × State :=
  checked s (p.length == 3) (parseQueryProfile p) s.performQueryProfile

end Sys2Proof.Machine
end

