-- ==== Sys2Proof/Machine/Frames.lean ====
section
/-! DEFINITION. The frame receiver (R134 to R138), the dispatch of a valid frame (R137, R139) and the common validation
order (R155). -/

namespace Sys2Proof.Machine

/-! ## Dispatch -/

/-- The length, field and state checks of a request kind and its effect (R155 steps 5 to 7). -/
def serve : RequestKind → List Byte → State → Answer × State
  | .hello => serveHello
  | .ping => servePing
  | .linkStatus => serveLinkStatus
  | .restart => serveRestart
  | .laneConfig => serveLaneConfig
  | .enable => serveEnable
  | .disable => serveDisable
  | .clearStop => serveClearStop
  | .force => serveForce
  | .stageLane => serveStageLane
  | .stageStation => serveStageStation
  | .discardStaged => serveDiscardStaged
  | .commit => serveCommit
  | .cancelCommit => serveCancelCommit
  | .verdict => serveVerdict
  | .queryLane => serveQueryLane
  | .queryTicket => serveQueryTicket
  | .queryProfile => serveQueryProfile

/-- HELLO and LINK_STATUS pass the session check in every session state (R145). -/
def RequestKind.anySession : RequestKind → Bool
  | .hello => true
  | .linkStatus => true
  | _ => false

/-- The kind and session checks, then the request itself (R155 steps 3 to 7). -/
def State.answer (s : State) (kind : Byte) (payload : List Byte) : Answer × State :=
  match RequestKind.ofCode kind with
  | none => (.unknownKind, s)
  | some k => if s.link.session.state = .opened ∨ k.anySession then serve k payload s else (.noSession, s)

/-- A valid request: discarded at a full reply queue, answered from the history, or checked and executed (R139, R142,
R143, R155). -/
def State.takeRequest (s : State) (kind seq : Byte) (payload : List Byte) : State :=
  if replyCapacity ≤ s.link.replies.length then s.updCounters fun c => { c with overrun := saturatingSucc c.overrun }
  else
    match s.link.history.find? (fun e => e.seq == seq) with
    | some e => s.queueReply e.reply
    | none => (s.answer kind payload).2.reply kind seq (s.answer kind payload).1

/-- The receiver back in HUNT with no bytes held and the gap timer stopped (R134, R137). -/
def State.toHunt (s : State) : State := { s with link := { s.link with receiver := .hunt, gapTimer := none } }

/-- The link timer restarted by a valid frame; it runs only in OPEN (R137, R145, R149). -/
def State.restartLinkTimer (s : State) : State :=
  if s.link.session.state = .opened then
    { s with link := { s.link with linkTimer := some (milliseconds s.link.session.linkTimeout) } }
  else s

/-- A valid frame completes (R137, R139). While a RESTART waits it is discarded without effect (R151). -/
def State.validFrame (s : State) (kind seq : Byte) (payload : List Byte) : State :=
  let s := s.toHunt
  if s.link.restarting then s
  else
    let s := s.restartLinkTimer
    (if kind = ackKind then s.takeAck seq else s.takeRequest kind seq payload).transmitNext

/-! ## Discards -/

/-- A frame discarded as oversize (R135). -/
def State.discardOversize (s : State) : State :=
  s.toHunt.updCounters fun c => { c with oversize := saturatingSucc c.oversize }

/-- A complete frame that fails its CRC (R137). While a RESTART waits it raises no counter (R151). -/
def State.discardCrc (s : State) : State :=
  if s.link.restarting then s.toHunt
  else s.toHunt.updCounters fun c => { c with crc := saturatingSucc c.crc }

/-- The gap timer expires in any state but HUNT (R136). -/
def State.gapTimeout (s : State) : State :=
  match s.link.receiver with
  | .hunt => s
  | _ => s.toHunt.updCounters fun c => { c with gap := saturatingSucc c.gap }

/-! ## The receiver -/

/-- The receiver in a state within a frame; the byte taken restarts the gap timer (R134). -/
def State.inFrame (s : State) (r : Receiver) : State :=
  { s with link := { s.link with receiver := r, gapTimer := some gapMicroseconds } }

/-- The receiver takes one byte (R134). -/
def State.receive (s : State) (b : Byte) : State :=
  match s.link.receiver with
  | .hunt => if b = startByte then s.inFrame .length else s
  | .length => if b.toNat ≤ maxPayload then s.inFrame (.kind b) else s.discardOversize
  | .kind len => s.inFrame (.seq len b)
  | .seq len kind => if len = 0 then s.inFrame (.crcHi len kind b []) else s.inFrame (.payload len kind b [])
  | .payload len kind seq taken =>
    if len.toNat ≤ taken.length + 1 then s.inFrame (.crcHi len kind seq (taken ++ [b]))
    else s.inFrame (.payload len kind seq (taken ++ [b]))
  | .crcHi len kind seq taken => s.inFrame (.crcLo len kind seq taken b)
  | .crcLo len kind seq taken hi =>
    if crc16 (crcCover len kind seq taken) = hi ++ b then s.validFrame kind seq taken else s.discardCrc

end Sys2Proof.Machine
end

