-- ==== Sys2Proof/Machine/Clock.lean ====
section
/-! DEFINITION. What happens while no command waits (assumption log 4): a timer that has run out puts its event into the
queue; with none run out one microsecond passes, and the report clock and every running timer move (R20, R94, R100, R136,
R149, R169, R180). -/

namespace Sys2Proof.Machine

/-- A timer one microsecond later. -/
def countDown (t : Option Nat) : Option Nat := t.map fun n => n - 1

/-- A pulse timer one microsecond later (R94). -/
def Pulse.countDown : Pulse → Pulse
  | .idle => .idle
  | .pulsing n rearm => .pulsing (n - 1) rearm
  | .rearming n => .rearming (n - 1)

/-- A lane's timers one microsecond later: the tick timer and the pulse timers. -/
def Lane.countDown (L : Lane) : Lane :=
  { L.mapStations (fun S => { S with pulse := S.pulse.countDown }) with tickTimer := Machine.countDown L.tickTimer }

/-- The transmitter one microsecond later, at the line rate (R133). -/
def Transmission.countDown (rate : LineRate) (t : Transmission) : Transmission :=
  { t with left := t.left - bitsPerSecond rate }

/-- The report clock one microsecond later (R169). -/
def State.tickClock (s : State) : State :=
  if s.clockPhase + 1 < 1000 then { s with clockPhase := s.clockPhase + 1 }
  else { s with clockPhase := 0, clock := s.clock + 1 }

/-- Every timer one microsecond later. -/
def State.countDown (s : State) : State :=
  { s.mapLanes Lane.countDown with
    link :=
      { s.link with
        gapTimer := Machine.countDown s.link.gapTimer
        linkTimer := Machine.countDown s.link.linkTimer
        transmitter := s.link.transmitter.map (Transmission.countDown s.link.lineRate) }
    store := { s.store with timer := Machine.countDown s.store.timer } }

/-- The event of a timer that has run out. -/
def expired (t : Option Nat) (event : Instr) : List Instr := if t = some 0 then [event] else []

/-- The event of a station's pulse timer that has run out (R100). -/
def Pulse.expired (l : LaneId) (k : StationId) : Pulse → List Instr
  | .idle => []
  | .pulsing n _ => if n = 0 then [.pulseEnd l k] else []
  | .rearming n => if n = 0 then [.rearmEnd l k] else []

/-- The events of the timers that have run out, each a group of its own. -/
def State.expiries (s : State) : List (List Instr) :=
  [expired s.link.gapTimer .gapTimeout, expired s.link.linkTimer .linkTimeout, expired s.store.timer .reportTimeout,
    expired (s.link.transmitter.map Transmission.left) .transmitComplete] ++
  allLanes.flatMap fun l =>
    expired (s.lane l).tickTimer (.clockTick l) ::
      allStations.map fun k => Pulse.expired l k ((s.lane l).station k).pulse

/-- One microsecond passes. -/
def State.microsecond (s : State) : State := s.tickClock.countDown

/-- The module with no command waiting. Of the timers that have run out, one gives its event; the manual leaves the order
of several open, and a timer that the first event restarts no longer gives its own. With none run out, time passes. -/
def State.elapse (s : State) : State :=
  match s.ordered s.expiries with
  | ([], _) => s.microsecond
  | (event :: _, s') => { s' with pending := s'.pending ++ [event] }

end Sys2Proof.Machine
end

