-- ==== Sys2Proof/WellFormed.lean ====
section
/-! DEFINITION. Which commands can reach the module: a frame's payload has at most 96 bytes (R133), an unknown kind is no
request kind and no ACK (R139), an oversize length is 97 to 255 (R135). The other operands are bounded by their types. -/

namespace Sys2Proof

/-- A payload that a frame can carry (R133). -/
def payloadOk (p : List Byte) : Bool := decide (p.length ≤ Machine.maxPayload)

/-- A kind that is neither a request kind nor ACK (R139). -/
def kindUnknown (k : Byte) : Bool := (Machine.RequestKind.ofCode k).isNone && k != Machine.ackKind

/-- A length byte that discards its frame (R135). -/
def lengthOversize (n : Byte) : Bool := decide (Machine.maxPayload < n.toNat)

/-- The command can reach the module. -/
def Instr.wf : Instr → Bool
  | .powerOn _ => true
  | .resetInput _ => true
  | .hello _ p => payloadOk p
  | .ping _ p => payloadOk p
  | .linkStatus _ p => payloadOk p
  | .restart _ p => payloadOk p
  | .ack _ p => payloadOk p
  | .laneConfig _ p => payloadOk p
  | .enable _ p => payloadOk p
  | .disable _ p => payloadOk p
  | .clearStop _ p => payloadOk p
  | .force _ p => payloadOk p
  | .stageLane _ p => payloadOk p
  | .stageStation _ p => payloadOk p
  | .discardStaged _ p => payloadOk p
  | .commit _ p => payloadOk p
  | .cancelCommit _ p => payloadOk p
  | .verdict _ p => payloadOk p
  | .queryLane _ p => payloadOk p
  | .queryTicket _ p => payloadOk p
  | .queryProfile _ p => payloadOk p
  | .unknownKindRequest k _ p => kindUnknown k && payloadOk p
  | .frameOversize n => lengthOversize n
  | .frameCrcFail => true
  | .gapTimeout => true
  | .linkTimeout => true
  | .reportTimeout => true
  | .transmitComplete => true
  | .encoderChange _ _ _ => true
  | .clockTick _ => true
  | .entrySensorEdge _ _ => true
  | .confirmSensorEdge _ _ => true
  | .guardChange _ => true
  | .pulseEnd _ _ => true
  | .rearmEnd _ _ => true
  | .characterReceived _ => true

end Sys2Proof
end

