-- ==== Sys2Proof/Machine/LinkCommands.lean ====
section
/-! DEFINITION. The meanings of the commands of the host line: each request kind's valid frame, ACK, unknown kinds, and the
events of the receiver, the timers and the transmitter. -/

namespace Sys2Proof.Machine

/-- What a meaning answers. -/
abbrev Result := Host.Outcome State Fault Refusal

/-- A valid frame of a kind completes; a payload that no frame can carry is no command (R133, R137, R139). -/
def frameCommand (kind seq : Byte) (payload : List Byte) (s : State) : Result :=
  if payloadOk payload then .next (s.validFrame kind seq payload) else .refused .illFormed

/-- A valid request frame of one of the request kinds completes (R152, R155). -/
def requestCommand (k : RequestKind) (seq : Byte) (payload : List Byte) (s : State) : Result :=
  frameCommand k.code seq payload s

/-- HELLO (R146). -/
def execHello (seq : Byte) (payload : List Byte) (s : State) : Result := requestCommand .hello seq payload s
/-- PING (R162). -/
def execPing (seq : Byte) (payload : List Byte) (s : State) : Result := requestCommand .ping seq payload s
/-- LINK_STATUS (R163). -/
def execLinkStatus (seq : Byte) (payload : List Byte) (s : State) : Result := requestCommand .linkStatus seq payload s
/-- RESTART (R151). -/
def execRestart (seq : Byte) (payload : List Byte) (s : State) : Result := requestCommand .restart seq payload s
/-- ACK: the sequence byte is a report number and the payload is ignored (R139, R178). -/
def execAck (number : Byte) (payload : List Byte) (s : State) : Result := frameCommand ackKind number payload s
/-- LANE_CONFIG (R3). -/
def execLaneConfig (seq : Byte) (payload : List Byte) (s : State) : Result := requestCommand .laneConfig seq payload s
/-- ENABLE (R5). -/
def execEnable (seq : Byte) (payload : List Byte) (s : State) : Result := requestCommand .enable seq payload s
/-- DISABLE (R7). -/
def execDisable (seq : Byte) (payload : List Byte) (s : State) : Result := requestCommand .disable seq payload s
/-- CLEAR_STOP (R132). -/
def execClearStop (seq : Byte) (payload : List Byte) (s : State) : Result := requestCommand .clearStop seq payload s
/-- FORCE (R114). -/
def execForce (seq : Byte) (payload : List Byte) (s : State) : Result := requestCommand .force seq payload s
/-- STAGE_LANE (R63). -/
def execStageLane (seq : Byte) (payload : List Byte) (s : State) : Result := requestCommand .stageLane seq payload s
/-- STAGE_STATION (R64). -/
def execStageStation (seq : Byte) (payload : List Byte) (s : State) : Result :=
  requestCommand .stageStation seq payload s
/-- DISCARD_STAGED (R65). -/
def execDiscardStaged (seq : Byte) (payload : List Byte) (s : State) : Result :=
  requestCommand .discardStaged seq payload s
/-- COMMIT (R66). -/
def execCommit (seq : Byte) (payload : List Byte) (s : State) : Result := requestCommand .commit seq payload s
/-- CANCEL_COMMIT (R76). -/
def execCancelCommit (seq : Byte) (payload : List Byte) (s : State) : Result :=
  requestCommand .cancelCommit seq payload s
/-- VERDICT (R83). -/
def execVerdict (seq : Byte) (payload : List Byte) (s : State) : Result := requestCommand .verdict seq payload s
/-- QUERY_LANE (R164). -/
def execQueryLane (seq : Byte) (payload : List Byte) (s : State) : Result := requestCommand .queryLane seq payload s
/-- QUERY_TICKET (R167). -/
def execQueryTicket (seq : Byte) (payload : List Byte) (s : State) : Result := requestCommand .queryTicket seq payload s
/-- QUERY_PROFILE (R168). -/
def execQueryProfile (seq : Byte) (payload : List Byte) (s : State) : Result :=
  requestCommand .queryProfile seq payload s

/-- A valid frame whose kind is neither a request kind nor ACK (R139). -/
def execUnknownKindRequest (kind seq : Byte) (payload : List Byte) (s : State) : Result :=
  if kindUnknown kind then frameCommand kind seq payload s else .refused .illFormed

/-- A length byte of 97 to 255 (R135). -/
def execFrameOversize (length : Byte) (s : State) : Result :=
  if lengthOversize length then .next s.discardOversize else .refused .illFormed

/-- A complete frame fails its CRC (R137). -/
def execFrameCrcFail (s : State) : Result := .next s.discardCrc

/-- The inter-byte gap timer expires (R136). -/
def execGapTimeout (s : State) : Result := .next s.gapTimeout

/-- The link timer runs out (R149). -/
def execLinkTimeout (s : State) : Result := .next s.linkTimeout.transmitNext

/-- The report timer runs out (R181). -/
def execReportTimeout (s : State) : Result := .next s.reportTimeout.transmitNext

/-- The transmitter has sent the last byte of its frame (R141). -/
def execTransmitComplete (s : State) : Result := .next s.transmitComplete

/-- One character arrives on the host line (R134). -/
def execCharacterReceived (b : Byte) (s : State) : Result := .next (s.receive b)

end Sys2Proof.Machine
end

