-- ==== Sys2Proof/Machine/BeltCommands.lean ====
section
/-! DEFINITION. The meanings of the resets and of the events on the discrete lines and the lanes' timers. After an event the
transmitter, if free, takes a report that the event produced (R141). -/

namespace Sys2Proof.Machine

/-- Power-on (R21, R144, section 0.5). -/
def execPowerOn (levels : Inputs) (s : State) : Result := .next (s.afterReset .power levels)

/-- An assertion of the reset input (R144, section 0.5). -/
def execResetInput (levels : Inputs) (s : State) : Result := .next (s.afterReset .pin levels)

/-- A change of encoder A or B (R18). -/
def execEncoderChange (l : LaneId) (a b : Bool) (s : State) : Result := .next (s.encoderChange l a b).transmitNext

/-- The tick timer of a lane expires (R20). -/
def execClockTick (l : LaneId) (s : State) : Result := .next (s.clockTick l).transmitNext

/-- A change of the entry-sensor line (R24). -/
def execEntrySensorEdge (l : LaneId) (present : Bool) (s : State) : Result :=
  let s := s.setLaneInputs l { s.laneInputs l with entry := present }
  .next (s.entryEdge l present).transmitNext

/-- A change of the confirm-sensor line (R121). -/
def execConfirmSensorEdge (l : LaneId) (present : Bool) (s : State) : Result :=
  let s := s.setLaneInputs l { s.laneInputs l with confirm := present }
  .next (s.confirmEdge l present).transmitNext

/-- A change of the guard input (R116). -/
def execGuardChange (energised : Bool) (s : State) : Result := .next (s.guardChange energised).transmitNext

/-- The pulse timer of a station runs out in PULSING (R100). -/
def execPulseEnd (l : LaneId) (k : StationId) (s : State) : Result := .next (s.pulseEnd l k).transmitNext

/-- The pulse timer of a station runs out in REARM (R100). -/
def execRearmEnd (l : LaneId) (k : StationId) (s : State) : Result := .next (s.rearmEnd l k).transmitNext

end Sys2Proof.Machine
end

