-- ==== Sys2Proof/Machine/Dispatch.lean ====
section
/-! DEFINITION. One arm per command: each calls the meaning of its row. -/

namespace Sys2Proof.Machine

/-- A command's effect on everything but the queue. -/
def exec (i : Instr) (s : State) : Host.Outcome State Fault Refusal :=
  match i with
  | .powerOn levels => Sys2Proof.Machine.execPowerOn levels s
  | .resetInput levels => Sys2Proof.Machine.execResetInput levels s
  | .hello seq payload => Sys2Proof.Machine.execHello seq payload s
  | .ping seq payload => Sys2Proof.Machine.execPing seq payload s
  | .linkStatus seq payload => Sys2Proof.Machine.execLinkStatus seq payload s
  | .restart seq payload => Sys2Proof.Machine.execRestart seq payload s
  | .ack number payload => Sys2Proof.Machine.execAck number payload s
  | .laneConfig seq payload => Sys2Proof.Machine.execLaneConfig seq payload s
  | .enable seq payload => Sys2Proof.Machine.execEnable seq payload s
  | .disable seq payload => Sys2Proof.Machine.execDisable seq payload s
  | .clearStop seq payload => Sys2Proof.Machine.execClearStop seq payload s
  | .force seq payload => Sys2Proof.Machine.execForce seq payload s
  | .stageLane seq payload => Sys2Proof.Machine.execStageLane seq payload s
  | .stageStation seq payload => Sys2Proof.Machine.execStageStation seq payload s
  | .discardStaged seq payload => Sys2Proof.Machine.execDiscardStaged seq payload s
  | .commit seq payload => Sys2Proof.Machine.execCommit seq payload s
  | .cancelCommit seq payload => Sys2Proof.Machine.execCancelCommit seq payload s
  | .verdict seq payload => Sys2Proof.Machine.execVerdict seq payload s
  | .queryLane seq payload => Sys2Proof.Machine.execQueryLane seq payload s
  | .queryTicket seq payload => Sys2Proof.Machine.execQueryTicket seq payload s
  | .queryProfile seq payload => Sys2Proof.Machine.execQueryProfile seq payload s
  | .unknownKindRequest kind seq payload => Sys2Proof.Machine.execUnknownKindRequest kind seq payload s
  | .frameOversize length => Sys2Proof.Machine.execFrameOversize length s
  | .frameCrcFail => Sys2Proof.Machine.execFrameCrcFail s
  | .gapTimeout => Sys2Proof.Machine.execGapTimeout s
  | .linkTimeout => Sys2Proof.Machine.execLinkTimeout s
  | .reportTimeout => Sys2Proof.Machine.execReportTimeout s
  | .transmitComplete => Sys2Proof.Machine.execTransmitComplete s
  | .encoderChange lane a b => Sys2Proof.Machine.execEncoderChange lane a b s
  | .clockTick lane => Sys2Proof.Machine.execClockTick lane s
  | .entrySensorEdge lane present => Sys2Proof.Machine.execEntrySensorEdge lane present s
  | .confirmSensorEdge lane present => Sys2Proof.Machine.execConfirmSensorEdge lane present s
  | .guardChange energised => Sys2Proof.Machine.execGuardChange energised s
  | .pulseEnd lane station => Sys2Proof.Machine.execPulseEnd lane station s
  | .rearmEnd lane station => Sys2Proof.Machine.execRearmEnd lane station s
  | .characterReceived byte => Sys2Proof.Machine.execCharacterReceived byte s

end Sys2Proof.Machine
end

