-- ==== Sys2Proof/Safety.lean ====
section
/-! DEFINITION. The terms in which statements speak of the module: what a taken, refused or repeated request does to the
host link, the value of every piece of state after a reset, and the laws that every step keeps. -/

namespace Sys2Proof.Machine

/-! ## Requests on the host link -/

/-- A request with this sequence byte goes on to its checks: no RESTART waits, the reply queue has room, and the reply
history does not hold the sequence byte (R139, R142, R151, R155 steps 1 and 2). -/
def State.admits (s : State) (seq : Byte) : Prop :=
  s.link.restarting = false ∧ s.link.replies.length < 4 ∧ ∀ e ∈ s.link.history, e.seq ≠ seq

/-- The session is OPEN (R144). -/
def State.inSession (s : State) : Prop := s.link.session.state = .opened

/-- What every valid frame does to the link before its dispatch: the receiver returns to HUNT with its gap timer stopped,
and in OPEN the link timer restarts (R137, R145, R149). -/
def Link.heard (k : Link) : Link :=
  { k with
    receiver := .hunt
    gapTimer := none
    linkTimer :=
      if k.session.state = .opened then some (k.session.linkTimeout.toNat * 1000) else k.linkTimer }

/-- A valid frame has been heard and nothing has been done yet (R137, R149). -/
def State.heard (s : State) : State := { s with link := s.link.heard }

/-- A free transmitter begins the oldest reply; `m` is the one just appended (R140, R141). -/
def Link.sending (k : Link) (m : Message) : Option Transmission :=
  match k.transmitter with
  | some t => some t
  | none =>
    let first := k.replies.headD m
    some { message := first, isReply := true, left := (6 + first.payload.length) * 10 * 1000000 }

/-- A reply is appended to the reply queue (R140, R143). -/
def State.repeated (s : State) (m : Message) : State :=
  { s with link := { s.link.heard with replies := s.link.replies ++ [m], transmitter := s.link.sending m } }

/-- A request is answered: the reply, of the request's kind plus 0x80, is appended to the reply queue and enters the reply
history, whose oldest entry leaves it when it holds 8 (R139, R140, R142, R152). -/
def State.answered (s : State) (kind seq : Byte) (payload : List Byte) : State :=
  let m : Message := { kind := kind + 0x80, seq := seq, payload := payload }
  { s with
    link :=
      { s.link.heard with
        replies := s.link.replies ++ [m]
        transmitter := s.link.sending m
        history :=
          (if s.link.history.length < 8 then s.link.history else s.link.history.tail) ++ [{ seq := seq, reply := m }] } }

/-- The command that a valid frame of a kind is. -/
def frameInstr (kind seq : Byte) (payload : List Byte) : Instr :=
  if kind = ackKind then .ack seq payload
  else
    match RequestKind.ofCode kind with
    | some .hello => .hello seq payload
    | some .ping => .ping seq payload
    | some .linkStatus => .linkStatus seq payload
    | some .restart => .restart seq payload
    | some .laneConfig => .laneConfig seq payload
    | some .enable => .enable seq payload
    | some .disable => .disable seq payload
    | some .clearStop => .clearStop seq payload
    | some .force => .force seq payload
    | some .stageLane => .stageLane seq payload
    | some .stageStation => .stageStation seq payload
    | some .discardStaged => .discardStaged seq payload
    | some .commit => .commit seq payload
    | some .cancelCommit => .cancelCommit seq payload
    | some .verdict => .verdict seq payload
    | some .queryLane => .queryLane seq payload
    | some .queryTicket => .queryTicket seq payload
    | some .queryProfile => .queryProfile seq payload
    | none => .unknownKindRequest kind seq payload

/-- The payload lengths that a request kind has (R156). -/
def RequestKind.lengths : RequestKind → List Nat
  | .ping => [0]
  | .linkStatus => [0]
  | .restart => [0]
  | .clearStop => [1]
  | .discardStaged => [1]
  | .cancelCommit => [1]
  | .enable => [2]
  | .disable => [2]
  | .queryLane => [2]
  | .force => [3]
  | .queryProfile => [3]
  | .queryTicket => [5]
  | .hello => [6]
  | .commit => [6]
  | .verdict => [6, 8]
  | .stageLane => [12]
  | .laneConfig => [15]
  | .stageStation => [26]

/-- The request kinds whose first field is a lane number (R159 to R161). -/
def RequestKind.namesLane : RequestKind → Bool
  | .hello => false
  | .ping => false
  | .linkStatus => false
  | .restart => false
  | _ => true

/-- The bytes of the line taken one after another, each as a CHARACTER_RECEIVED command. -/
def receiveAll : List Byte → State → Host.Outcome State Fault Refusal
  | [], s => .next s
  | b :: bs, s =>
    match exec (.characterReceived b) s with
    | .next t => receiveAll bs t
    | .fault f => .fault f
    | .refused r => .refused r

/-! ## Fields on the line -/

/-- A number in n bytes, most significant byte first (R154). -/
def bigEndian (n x : Nat) : List Byte := (List.range n).map fun i => BitVec.ofNat 8 (x / 256 ^ (n - 1 - i))

/-- The number in the n bytes of a payload from byte i on, most significant byte first (R154). -/
def fieldAt (p : List Byte) (i n : Nat) : Nat := ((p.drop i).take n).foldl (fun x b => 256 * x + b.toNat) 0

/-- The field in the n bytes from byte i on lies from `lo` to `hi`. -/
def ranges (i n lo hi : Nat) (p : List Byte) : Bool := decide (lo ≤ fieldAt p i n) && decide (fieldAt p i n ≤ hi)

/-- The fields of a request that have a range, in payload order: the number that BAD_FIELD names, and when the field is in
range. A field whose use depends on an earlier one is in range where it is not used. The serial of COMMIT, whose range
depends on the lane's next serial, is not in the table (R3, R64, R69, R83, R146, R154, R157, R159 to R161). -/
def RequestKind.fields : RequestKind → List (Byte × (List Byte → Bool))
  | .hello => [(1, ranges 0 1 1 255), (2, ranges 1 2 100 60000), (3, ranges 3 2 20 5000), (4, ranges 5 1 1 8)]
  | .ping => []
  | .linkStatus => []
  | .restart => []
  | .laneConfig =>
    [(1, ranges 0 1 0 3), (2, ranges 1 1 0 1), (3, ranges 2 1 0 1), (4, ranges 3 2 4 65535), (6, ranges 7 1 0 16),
      (7, fun p => ranges 8 1 1 64 p && decide (fieldAt p 7 1 ≤ fieldAt p 8 1)), (8, ranges 9 1 0 2),
      (9, ranges 10 1 0 2), (10, ranges 11 1 0 2), (11, ranges 12 1 0 1), (12, ranges 13 1 0 1), (13, ranges 14 1 0 1)]
  | .enable => [(1, ranges 0 1 0 3), (2, ranges 1 1 0 1)]
  | .disable => [(1, ranges 0 1 0 3), (2, ranges 1 1 0 1)]
  | .clearStop => [(1, ranges 0 1 0 3)]
  | .force => [(1, ranges 0 1 0 3), (2, ranges 1 1 0 5), (3, ranges 2 1 0 1)]
  | .stageLane =>
    [(1, ranges 0 1 0 3), (2, ranges 1 2 1 65535), (3, ranges 3 2 1 65535), (6, ranges 9 1 0 7)]
  | .stageStation =>
    let isPulse : List Byte → Bool := ranges 2 1 1 1
    let isSpan : List Byte → Bool := ranges 2 1 2 2
    let used : List Byte → Bool := ranges 2 1 1 2
    [(1, ranges 0 1 0 3), (2, ranges 1 1 0 5), (3, ranges 2 1 0 2), (4, fun p => !used p || ranges 3 3 1 16777215 p),
      (5, fun p => !isSpan p || ranges 6 3 1 16777215 p), (6, fun p => !isPulse p || ranges 9 3 100 1000000 p),
      (7, fun p => !isPulse p || ranges 12 3 0 1000000 p), (8, fun p => !isPulse p || ranges 15 1 0 1 p),
      (10, fun p => !used p || ranges 18 1 0 1 p), (12, fun p => !used p || ranges 20 1 0 1 p), (13, ranges 21 1 0 1)]
  | .discardStaged => [(1, ranges 0 1 0 3)]
  | .commit => [(1, ranges 0 1 0 3), (2, ranges 1 1 0 2)]
  | .cancelCommit => [(1, ranges 0 1 0 3)]
  | .verdict => [(1, ranges 0 1 0 3), (2, ranges 1 4 1 4294967295), (3, ranges 5 1 0 7)]
  | .queryLane => [(1, ranges 0 1 0 3), (2, ranges 1 1 0 2)]
  | .queryTicket => [(1, ranges 0 1 0 3), (2, ranges 1 4 1 4294967295)]
  | .queryProfile => [(1, ranges 0 1 0 3), (2, ranges 1 1 0 2), (3, ranges 2 1 0 6)]

/-- The outcome code and the miss reason code of an outcome entry (R154). -/
def Outcome.layout : Outcome → List Byte
  | .pending => [0, 0]
  | .deferred => [1, 0]
  | .fired => [2, 0]
  | .passed => [3, 0]
  | .missed .guard => [4, 1]
  | .missed .busy => [4, 2]
  | .missed .late => [4, 3]

/-- The kind byte of a report and its fields after the timestamp (R154, R170). -/
def Report.layout : Report → Byte × List Byte
  | .entry l serial index position length long generation =>
    (0xC0, bigEndian 1 l.val ++ bigEndian 4 serial.toNat ++ bigEndian 1 index.val ++ bigEndian 4 position.toNat ++
      bigEndian 2 length.toNat ++ [if long then 1 else 0] ++ bigEndian 2 generation.toNat)
  | .fate l serial cls source tag outcomes confirm =>
    (0xC1, bigEndian 1 l.val ++ bigEndian 4 serial.toNat ++ bigEndian 1 cls.val ++
      [match source with
        | .host => 0
        | .default => 1] ++
      (match tag with
        | none => [0, 0, 0]
        | some x => 1 :: bigEndian 2 x.toNat) ++
      bigEndian 1 outcomes.length ++
      outcomes.flatMap (fun e => bigEndian 1 e.1.val ++ e.2.layout) ++
      [match confirm with
        | none => 0xFF
        | some .notFired => 0
        | some .waiting => 1
        | some .confirmed => 2
        | some .unconfirmed => 3
        | some .notDue => 4])
  | .glitch l leading length => (0xC2, bigEndian 1 l.val ++ bigEndian 4 leading.toNat ++ bigEndian 2 length.toNat)
  | .dropped l serial position reason =>
    (0xC8, bigEndian 1 l.val ++ bigEndian 4 serial.toNat ++ bigEndian 4 position.toNat ++
      [match reason with
        | .limit => 1
        | .pool => 2
        | .draining => 3])
  | .missed l k serial reason =>
    (0xC9, bigEndian 1 l.val ++ bigEndian 1 k.val ++ bigEndian 4 serial.toNat ++
      [match reason with
        | .guard => 1
        | .busy => 2
        | .late => 3])
  | .unconfirmed l serial k => (0xCA, bigEndian 1 l.val ++ bigEndian 4 serial.toNat ++ bigEndian 1 k.val)
  | .stray l position => (0xCB, bigEndian 1 l.val ++ bigEndian 4 position.toNat)
  | .committed l generation serial =>
    (0xCC, bigEndian 1 l.val ++ bigEndian 2 generation.toNat ++ bigEndian 4 serial.toNat)
  | .drained l => (0xCD, bigEndian 1 l.val)
  | .halted l reason count =>
    (0xCE, bigEndian 1 l.val ++
      [match reason with
        | .reverse => 1
        | .encoder => 2
        | .confirm => 3
        | .drop => 4] ++ [count])
  | .guard asserted => (0xCF, [if asserted then 1 else 0])
  | .gap lost => (0xD0, bigEndian 2 lost.toNat)
  | .abandoned l count first last =>
    (0xD1, bigEndian 1 l.val ++ [count] ++ bigEndian 4 first.toNat ++ bigEndian 4 last.toNat)

/-! ## Profiles -/

/-- A station in use has this on offset (R60). -/
def StationRecord.OnAt (r : StationRecord) (on : Triple) : Prop :=
  match r.act with
  | .off => False
  | .pulse o _ _ _ _ _ => o = on
  | .span o _ _ _ => o = on

/-- A CLASS station has this on offset (R60, R62). -/
def StationRecord.ClassAt (r : StationRecord) (on : Triple) : Prop :=
  match r.act with
  | .pulse o _ _ _ (.onClass _) _ => o = on
  | .span o _ (.onClass _) _ => o = on
  | _ => False

/-- A station has this end point: the off offset of a SPAN station, the on offset of a PULSE station that drops and with the
tolerance added of one that defers, and for the confirm station its on offset plus its window end (R61). -/
def StationRecord.EndsAt (r : StationRecord) (e : Nat) : Prop :=
  (match r.act with
    | .off => False
    | .span _ off _ _ => e = off.toNat
    | .pulse on _ _ .drop _ _ => e = on.toNat
    | .pulse on _ _ (.defer tolerance) _ _ => e = on.toNat + tolerance.toNat) ∨
  ∃ on w, r.OnAt on ∧ r.confirm = some w ∧ e = on.toNat + w.stop.toNat

/-- The byte names the first station, from station 0 on, of which this holds (R67). -/
def namesFirst (P : StationId → Prop) (station : Byte) : Prop :=
  ∃ k, station = BitVec.ofNat 8 k.val ∧ P k ∧ ∀ j, j < k → ¬ P j

/-- A condition of R67 holds of a profile, and names this station. -/
def ProfileBody.Fails (b : ProfileBody) (reason : InvalidReason) (station : Byte) : Prop :=
  let near := b.fields.lmax.toNat + b.fields.gap.toNat
  let margin := b.fields.verdictMargin.toNat
  match reason with
  | .lengths => b.fields.lmax.toNat < b.fields.lmin.toNat ∧ station = 255
  | .tooClose => namesFirst (fun k => ∃ on, (b.stations[k]).OnAt on ∧ on.toNat ≤ near) station
  | .spanOrder =>
    namesFirst (fun k => ∃ on off rule flush, (b.stations[k]).act = .span on off rule flush ∧ off.toNat ≤ on.toNat) station
  | .windowOrder => namesFirst (fun k => ∃ w, (b.stations[k]).confirm = some w ∧ w.stop.toNat ≤ w.start.toNat) station
  | .twoConfirm =>
    namesFirst (fun k => (b.stations[k]).confirm.isSome ∧ ∃ j, j < k ∧ (b.stations[j]).confirm.isSome) station
  | .confirmKind => namesFirst (fun k => (b.stations[k]).confirm.isSome ∧ (b.stations[k]).act = .off) station
  | .margin =>
    namesFirst (fun k => ∃ on, (b.stations[k]).ClassAt on ∧ (on.toNat : Int) - margin ≤ near ∧
      ∀ (j : StationId) o, (b.stations[j]).ClassAt o → (on.toNat : Int) - margin ≤ (o.toNat : Int) - margin) station
  | .spanLimit =>
    namesFirst (fun k => ∃ e, (b.stations[k]).EndsAt e ∧ 16777215 < e + 1 ∧
      ∀ (j : StationId) e', (b.stations[j]).EndsAt e' → e' ≤ e) station

/-! ## Serials -/

/-- The serial issued before a serial: 1 follows 4,294,967,295 and 0 is skipped (R42). -/
def previousSerial (n : Serial) : Serial := if n = 1 then 4294967295 else n - 1

/-! ## Quadrature -/

/-- The table of R18 for direction swap no, row by row; a pair that is kept is no step. -/
def quadratureTable (held new : Bool × Bool) : QuadStep :=
  match held, new with
  | (false, false), (true, false) => .forward
  | (true, false), (true, true) => .forward
  | (true, true), (false, true) => .forward
  | (false, true), (false, false) => .forward
  | (false, false), (false, true) => .reverse
  | (false, true), (true, true) => .reverse
  | (true, true), (true, false) => .reverse
  | (true, false), (false, false) => .reverse
  | (false, false), (true, true) => .illegal
  | (true, true), (false, false) => .illegal
  | (true, false), (false, true) => .illegal
  | (false, true), (true, false) => .illegal
  | _, _ => .none

/-! ## Blind intervals -/

/-- An interval added to a blind list: appended below 4, else the newest interval takes its end (R55). -/
def withInterval (is : List Interval) (i : Interval) : List Interval :=
  if is.length < 4 then is ++ [i] else is.dropLast ++ (is.getLast?.map fun j => { j with stop := i.stop }).toList

/-- The reach has passed the end of a closed interval by a distance or more (R57). -/
def Interval.passed (i : Interval) (reach : Pos) (distance : Nat) : Bool :=
  match i.stop with
  | some e => decide ((reach - e).toNat < 2147483648) && decide (distance ≤ (reach - e).toNat)
  | none => false

/-! ## Acts at an advance of the reach -/

/-- The condition under which the lane makes an act at its reach: the detector's gap or maximum length (R30, R32), a retire
point (R49), a closed interval passed by the removal distance (R57), a deadline (R78), a due point of a PENDING outcome
(R95), a tolerance end (R103), the span end (R106), the end of an open window (R125). -/
def Lane.Holds (L : Lane) : BeltAct → Prop
  | .detector =>
    (∃ leading lim, L.detector = .inItem leading lim ∧ L.reach = leading + lim.lmax.setWidth 32) ∨
      ∃ leading trailing lim, L.detector = .gapWait leading trailing lim ∧ L.reach = trailing + lim.gap.setWidth 32
  | .retire n =>
    ∃ t ∈ L.queue, t.serial = n ∧ L.reach = t.entry + (L.profileOf t.generation).derived.retireSpan.setWidth 32
  | .blind =>
    ∃ i ∈ L.blind, i.passed L.reach (L.active.derived.retireSpan.toNat + L.active.body.fields.flushMargin.toNat) = true
  | .deadline n =>
    ∃ t ∈ L.queue, t.serial = n ∧ L.reach = t.entry + (L.profileOf t.generation).derived.decisionOffset.setWidth 32
  | .due k n =>
    ∃ t ∈ L.queue, t.serial = n ∧ t.outcomes.find? (fun e => e.1 == k) = some (k, .pending) ∧
      ∃ on, ((L.profileOf t.generation).station k).act.on? = some on ∧ L.reach = t.entry + on.setWidth 32
  | .tolerance k n => ∃ d ∈ (L.station k).deferred, d.serial = n ∧ d.toleranceEnd = L.reach
  | .spanEnd k => (L.station k).spanEnd = some L.reach
  | .windowEnd n => ∃ w ∈ L.windows, w.serial = n ∧ w.stop = L.reach

/-- The acts that each block can have, in the block's own order: one for the detector, the blind list's check and a span
end, one for each entry of a queue or list, oldest first (R52, R104, R125). -/
def Lane.blocks (L : Lane) : List (List BeltAct) :=
  [[.detector], L.queue.map fun t => .retire t.serial, [.blind], L.queue.map fun t => .deadline t.serial,
    L.windows.map fun w => .windowEnd w.serial] ++
  allStations.flatMap fun k =>
    [L.queue.map fun t => .due k t.serial, (L.station k).deferred.map fun d => .tolerance k d.serial, [.spanEnd k]]

/-! ## Abandonment -/

/-- A lane whose tickets are abandoned, in the state it enters (R10, R12, R53, R112, R127). -/
def Lane.abandoned (L : Lane) (state : LaneState) : Lane :=
  { L with
    state := state
    queue := []
    blind := []
    detector := .clear
    windows := []
    retiring := none
    stations := L.stations.map fun S => { S with pulse := .idle, deferred := [], spanEnd := none } }

/-- No commit waits (R58). -/
def Lane.noCommit (L : Lane) : Prop := ∀ body derived c, L.staging ≠ .committing body derived c

/-! ## After a reset -/

/-- A lane holds the reset values, with these levels on its lines at the reset (R2, R21, R22, R42, R45, R48, R54, R58, R59,
R94, R118, R128). -/
def Lane.Fresh (levels : LaneInputs) (L : Lane) : Prop :=
  L.state = .disabled ∧
  L.config = ⟨.encoder, false, 100, 64, 4, 16, .report, .report, .continue_, true, true, true⟩ ∧
  L.position = 0 ∧ L.reach = 0 ∧ L.encoder = ⟨levels.encoderA, levels.encoderB⟩ ∧ L.tickTimer = none ∧
  L.detector = .clear ∧ L.entryLevel = levels.entry ∧ L.glitchCount = 0 ∧
  L.queue = [] ∧ L.nextSerial = 1 ∧ L.wrapped = false ∧ L.dropCount = 0 ∧ L.blind = [] ∧
  L.active.generation = 0 ∧ L.active.body.fields = ⟨4, 1000, 20, 0, 0, 0⟩ ∧
  (∀ k : StationId, L.active.body.stations[k] = ⟨.off, none⟩) ∧ L.active.derived = ⟨1021, 1021⟩ ∧
  L.retiring = none ∧ L.staging = .absent ∧
  (∀ k : StationId, L.stations[k] = ⟨.idle, [], none, false⟩) ∧
  L.confirmLevel = levels.confirm ∧ L.windows = [] ∧ L.stops = ⟨false, false, false, false⟩

/-- The module holds the reset values after a reset of this kind with these levels on its inputs (section 0.5, R116, R133,
R134, R138, R140 to R142, R144, R149, R169, R173, R185; section 8.11). -/
def State.Fresh (boot : BootReason) (levels : Inputs) (t : State) : Prop :=
  t.inputs = levels ∧ (∀ l : LaneId, Lane.Fresh levels.lanes[l] t.lanes[l]) ∧ t.guardAsserted = !levels.guardLine ∧
  t.link.lineRate = levels.rateSwitch ∧ t.link.receiver = .hunt ∧ t.link.gapTimer = none ∧
  t.link.counters = ⟨0, 0, 0, 0, 0⟩ ∧ t.link.replies = [] ∧ t.link.transmitter = none ∧ t.link.history = [] ∧
  t.link.session = ⟨.closed, none, 2000, 200, 4, boot⟩ ∧ t.link.linkTimer = none ∧ t.link.restarting = false ∧
  t.store = ⟨[], 0, 0, 0, none⟩ ∧ t.clock = 0

/-! ## Laws of the state -/

/-- The reply queue holds at most 4 replies; the history at most 8 entries, no two with one sequence byte (R140, R142). -/
def State.LinkLaw (s : State) : Prop :=
  s.link.replies.length ≤ 4 ∧ s.link.history.length ≤ 8 ∧ (s.link.history.map HistoryEntry.seq).Nodup

/-- The reports in flight are the oldest, carry consecutive numbers that end before the next number, and are no more than
the window of 1 to 8; the store holds at most 48 reports, has lost reports only while it is full, and has resent at most
4 times (R173, R174, R176, R181). -/
def State.StoreLaw (s : State) : Prop :=
  (∃ flying waiting : List StoredReport,
    s.store.reports = flying ++ waiting ∧ (∀ r ∈ waiting, r.number = none) ∧
    flying.length ≤ s.link.session.window.toNat ∧
    ∀ i : Nat, ∀ h : i < flying.length,
      flying[i].number = some (s.store.nextNumber - BitVec.ofNat 8 (flying.length - i))) ∧
  1 ≤ s.link.session.window.toNat ∧ s.link.session.window.toNat ≤ 8 ∧ s.store.reports.length ≤ 48 ∧
  (s.store.lost ≠ 0 → s.store.reports.length = 48) ∧ s.store.retry ≤ 4

/-- The travel of a lane: the depth stays within 65,536, and within the reverse limit while the lane tracks; on a CLOCK
lane it is 0 and the tick timer runs, on an ENCODER lane the tick timer is stopped (R14 to R16, R20). -/
def Lane.TravelLaw (L : Lane) : Prop :=
  L.depth.toNat ≤ 65536 ∧ (L.tracking = true → L.depth.toNat ≤ L.config.reverseLimit.toNat) ∧
  (L.config.source = .clock → L.depth = 0 ∧ L.tickTimer.isSome) ∧ (L.config.source = .encoder → L.tickTimer = none)

/-- Every lane keeps the law of travel. -/
def State.TravelLaw (s : State) : Prop := ∀ l : LaneId, (s.lane l).TravelLaw

/-- What a lane that does not track holds nothing of, when HALT is a stop reason, and which profiles and commits can stand
side by side (R23, R48, R54, R58, R70, R73, R75, R129). -/
def Lane.LaneLaw (L : Lane) : Prop :=
  (L.tracking = false → L.queue = [] ∧ L.blind = [] ∧ L.detector = .clear ∧ L.noCommit) ∧
  (L.stops.halt = true ↔ L.state = .halted) ∧
  (∀ t ∈ L.queue, t.generation = L.active.generation ∨ ∃ p, L.retiring = some p ∧ t.generation = p.generation) ∧
  (∀ p, L.retiring = some p →
    p.generation + 1 = L.active.generation ∧ ∃ t ∈ L.queue, t.generation = p.generation) ∧
  (∀ body derived, L.staging = .committing body derived .held → L.retiring.isSome)

/-- Every lane keeps the law of the lane. -/
def State.LaneLaw (s : State) : Prop := ∀ l : LaneId, (s.lane l).LaneLaw

/-- The blind list holds at most 4 intervals, and only its newest can be open, while the detector is BLOCKED (R54). -/
def Lane.BlindLaw (L : Lane) : Prop :=
  L.blind.length ≤ 4 ∧ (∀ i ∈ L.blind.dropLast, i.stop.isSome) ∧
  ((∃ i ∈ L.blind, i.stop = none) → ∃ leading lim, L.detector = .blocked leading lim)

/-- Every lane keeps the law of the blind list. -/
def State.BlindLaw (s : State) : Prop := ∀ l : LaneId, (s.lane l).BlindLaw

/-- The pool: no record holds two tickets, every ticket is in the queue of the lane it names, the reserves and the tickets
held beyond them fit the 64 records, and no queue is longer than its lane's limit (R4, R36, R38, R39). -/
def State.PoolLaw (s : State) : Prop :=
  s.usedIndices.Nodup ∧ (∀ l : LaneId, ∀ t ∈ (s.lane l).queue, t.lane = l) ∧
  (allLanes.map fun l => Nat.max (s.lane l).config.reserve.toNat (s.lane l).queue.length).sum ≤ 64 ∧
  ∀ l : LaneId, (s.lane l).queue.length ≤ (s.lane l).config.limit.toNat

end Sys2Proof.Machine
end

