-- ==== Sys2Proof/Certificates/Slice0/Obligations.lean ====
section
/-! DEFINITION. The statements for the provers. Each docstring names the rules it rests on; where a clause is the model's
choice it names the log entry. Throughout, the command of a request or an ACK is the completion of a valid frame,
whatever the receiver held, and leaves the receiver in HUNT (assumption log 5), and a free transmitter takes its next
frame as the last act of a command (assumption log 7). -/

open Sys2Proof Sys2Proof.Machine

/-! ## The queue of commands -/

/-- A step takes the command at the front of the queue and runs it on the state with the queue's rest. -/
def Obligations.StepTakesFront : Prop :=
  ∀ (c : Instr) (rest : List Instr) (s : State),
    s.pending = c :: rest → step s = exec c { s with pending := rest }

/-- With no command waiting and no timer run out, a step lets one microsecond pass: every running timer and the
transmitter's time move, the report clock counts a millisecond after a thousand of them, and nothing else changes. With
timers run out it puts the event of one of them into the queue and, unless it has had to choose among several, changes
nothing else. The model's choice: assumption logs 3 and 4. -/
def Obligations.IdleStep : Prop :=
  ∀ s : State, s.pending = [] →
    let runOut (e : Instr) : Prop :=
      (e = .gapTimeout ∧ s.link.gapTimer = some 0) ∨ (e = .linkTimeout ∧ s.link.linkTimer = some 0) ∨
        (e = .reportTimeout ∧ s.store.timer = some 0) ∨
        (e = .transmitComplete ∧ ∃ x, s.link.transmitter = some x ∧ x.left = 0) ∨
        (∃ l : LaneId, e = .clockTick l ∧ (s.lane l).tickTimer = some 0) ∨
        (∃ (l : LaneId) (k : StationId) (rearm : Triple),
          e = .pulseEnd l k ∧ ((s.lane l).station k).pulse = .pulsing 0 rearm) ∨
        ∃ (l : LaneId) (k : StationId), e = .rearmEnd l k ∧ ((s.lane l).station k).pulse = .rearming 0
    let later (n : Option Nat) : Option Nat := n.map (· - 1)
    let sent : Nat :=
      match s.link.lineRate with
      | .baud115200 => 115200
      | .baud230400 => 230400
      | .baud460800 => 460800
      | .baud921600 => 921600
    ((∀ e, ¬ runOut e) →
      step s = .next
        { s.mapLanes fun L =>
            { L with
              tickTimer := later L.tickTimer
              stations := L.stations.map fun S =>
                { S with
                  pulse :=
                    match S.pulse with
                    | .idle => .idle
                    | .pulsing left rearm => .pulsing (left - 1) rearm
                    | .rearming left => .rearming (left - 1) } } with
          clock := if s.clockPhase + 1 < 1000 then s.clock else s.clock + 1
          clockPhase := if s.clockPhase + 1 < 1000 then s.clockPhase + 1 else 0
          link :=
            { s.link with
              gapTimer := later s.link.gapTimer
              linkTimer := later s.link.linkTimer
              transmitter := s.link.transmitter.map fun x => { x with left := x.left - sent } }
          store := { s.store with timer := later s.store.timer } }) ∧
    ((∃ e, runOut e) →
      ∃ e taken, runOut e ∧ step s = .next { s with pending := [e], freeIndex := taken } ∧
        (taken = s.freeIndex ∨ taken = s.freeIndex + 1 ∧ ∃ e', runOut e' ∧ e' ≠ e))

/-- Every command that can reach the module is executed in every state and leaves the queue of commands behind it as it
was; the others are refused by name. The queue is the model's own field and the refusal the model's choice: assumption
log 12. -/
def Obligations.CommandsComplete : Prop :=
  ∀ (c : Instr) (s : State),
    (c.wf = true → ∃ t, exec c s = .next t ∧ t.pending = s.pending) ∧ (c.wf = false → exec c s = .refused .illFormed)

/-! ## Resets -/

/-- The three resets have the same effect and differ in the boot reason (section 0.5): power-on, the reset input, and
the end of a RESTART reply as its last byte is sent (R21, R144, R151 step 5). Each reads the rate switch (R133). A
RESTART finds the levels that the input lines then have, and the switch in any position, which is a free value:
assumption log 2. -/
def Obligations.ThreeResets : Prop :=
  (∀ (levels : Inputs) (s : State), ∃ t, exec (.powerOn levels) s = .next t ∧ t.Fresh .power levels) ∧
  (∀ (levels : Inputs) (s : State), ∃ t, exec (.resetInput levels) s = .next t ∧ t.Fresh .pin levels) ∧
  (∀ (s : State) (x : Transmission) (m : Message),
    s.link.transmitter = some x → x.isReply = true → s.link.restarting = true → s.link.replies = [m] →
    ∃ t, exec .transmitComplete s = .next t ∧
      t.Fresh .restart { s.inputs with rateSwitch := Config.rateSwitch s.freeIndex })

/-- The state that the model starts from is the one right after power-on with every input line de-energised and the rate
switch at 115,200 baud, with no command waiting, and it keeps every law. The input levels are the model's choice:
assumption log 1. -/
def Obligations.ResetState : Prop :=
  State.reset.Fresh .power Inputs.deenergised ∧ State.reset.pending = [] ∧ State.reset.LinkLaw ∧ State.reset.StoreLaw ∧
    State.reset.TravelLaw ∧ State.reset.LaneLaw ∧ State.reset.BlindLaw ∧ State.reset.PoolLaw

/-! ## Requests to the host link -/

/-- PING: OK in OPEN, NO_SESSION in CLOSED and LOST, and the stored reply for a sequence byte of the history; nothing
but the link's reply, history and timer changes (R162). -/
def Obligations.PingAnswers : Prop :=
  ∀ (s : State) (seq : Byte),
    (s.admits seq → s.inSession → exec (.ping seq []) s = .next (s.answered 0x02 seq [0x00])) ∧
    (s.admits seq → ¬ s.inSession → exec (.ping seq []) s = .next (s.answered 0x02 seq [0x10])) ∧
    (∀ e, s.link.restarting = false → s.link.replies.length < 4 →
      s.link.history.find? (fun x => x.seq == seq) = some e → exec (.ping seq []) s = .next (s.repeated e.reply))

/-- LINK_STATUS is answered in every session state with the 25 bytes of R163, and clears nothing (R163). -/
def Obligations.LinkStatusAnswers : Prop :=
  ∀ (s : State) (seq : Byte), s.admits seq →
    exec (.linkStatus seq []) s = .next (s.answered 0x03 seq
      (0x00 :: [s.link.session.state.code, s.link.session.id.getD 0] ++ be16 s.link.session.linkTimeout ++
        be16 s.link.session.reportTimeout ++ [s.link.session.window, s.link.session.bootReason.code] ++
        be16 s.link.counters.oversize ++ be16 s.link.counters.gap ++ be16 s.link.counters.crc ++
        be16 s.link.counters.overrun ++ be16 s.link.counters.badAck ++
        [natByte s.store.reports.length, natByte s.store.inFlight] ++ be16 s.store.lost ++
        [natByte s.store.retry, natByte s.link.history.length]))

/-- A HELLO with another id than the record's opens a new session: the history is emptied, every report returns to
unsent, the numbering restarts at 0, the session record is set, and the LINK reason leaves every lane (R146, R147, R183,
R131). -/
def Obligations.HelloOpens : Prop :=
  ∀ (s : State) (seq id window : Byte) (link report : Half),
    s.admits seq → id ≠ 0 → 100 ≤ link.toNat → link.toNat ≤ 60000 → 20 ≤ report.toNat → report.toNat ≤ 5000 →
    1 ≤ window.toNat → window.toNat ≤ 8 → s.link.session.id ≠ some id →
    exec (.hello seq ([id] ++ be16 link ++ be16 report ++ [window])) s = .next
      (State.answered
        { s.mapLanes (fun L => { L with stops := { L.stops with link := false } }) with
          store :=
            { s.store with
              reports := s.store.reports.map fun r => { r with number := none, resendDue := false }
              nextNumber := 0
              retry := 0
              timer := none }
          link :=
            { s.link with
              history := []
              session := ⟨.opened, some id, link, report, window, s.link.session.bootReason⟩ } }
        0x01 seq [0x00, 0x04, 0x24, 0x01, s.link.session.bootReason.code, 0x00])

/-- A HELLO with the record's id resumes the session: the history is kept, the oldest reports in flight keep their
numbers up to the new window and are due for resending, the others return to unsent, and the next number follows the
window that shrank (R146, R148, R177, R184, R131). That the report timer runs on until the resend is the model's
reading: assumption log 11. -/
def Obligations.HelloResumes : Prop :=
  ∀ (s : State) (seq id window : Byte) (link report : Half) (flying waiting : List StoredReport),
    s.admits seq → id ≠ 0 → 100 ≤ link.toNat → link.toNat ≤ 60000 → 20 ≤ report.toNat → report.toNat ≤ 5000 →
    1 ≤ window.toNat → window.toNat ≤ 8 → s.link.session.id = some id →
    s.store.reports = flying ++ waiting → (∀ r ∈ flying, r.number.isSome) →
    (∀ r ∈ waiting, r.number = none ∧ r.resendDue = false) →
    exec (.hello seq ([id] ++ be16 link ++ be16 report ++ [window])) s = .next
      (State.answered
        { s.mapLanes (fun L => { L with stops := { L.stops with link := false } }) with
          store :=
            { s.store with
              reports :=
                (flying.take window.toNat).map (fun r => { r with resendDue := true }) ++
                (flying.drop window.toNat).map (fun r => { r with number := none, resendDue := false }) ++ waiting
              nextNumber :=
                if window.toNat < flying.length then ((flying.head?.bind StoredReport.number).getD 0) + window
                else s.store.nextNumber
              retry := 0 }
          link :=
            { s.link with session := ⟨.opened, some id, link, report, window, s.link.session.bootReason⟩ } }
        0x01 seq [0x00, 0x04, 0x24, 0x01, s.link.session.bootReason.code, 0x01])

/-- A RESTART in OPEN is answered OK, stops the link timer and waits for its reply to be sent; while it waits every
complete frame is discarded without effect and the store offers no report (R151 steps 1 to 3, R185). Frames with a
failed CRC are discarded silently too: assumption log 9. -/
def Obligations.RestartWaits : Prop :=
  (∀ (s : State) (seq : Byte), s.admits seq → s.inSession →
    exec (.restart seq []) s = .next
      { s with link := { (s.answered 0x04 seq [0x00]).link with linkTimer := none, restarting := true } }) ∧
  (∀ (s : State) (kind seq : Byte) (payload : List Byte), s.link.restarting = true → payload.length ≤ 96 →
    exec (frameInstr kind seq payload) s = .next { s with link := { s.link with receiver := .hunt, gapTimer := none } }) ∧
  (∀ s : State, s.link.restarting = true →
    exec .frameCrcFail s = .next { s with link := { s.link with receiver := .hunt, gapTimer := none } }) ∧
  (∀ s : State, s.link.restarting = true → s.link.replies = [] → s.transmitNext = s)

/-- A request whose sequence byte the history holds is answered with the stored reply whatever its kind and payload and
whatever the session state, and is not executed; with a full reply queue it is discarded and counted as OVERRUN, makes
no match and appends nothing (R143). -/
def Obligations.HistoryAnswers : Prop :=
  ∀ (s : State) (kind seq : Byte) (payload : List Byte),
    kind ≠ 0x0F → payload.length ≤ 96 → s.link.restarting = false →
    (∀ e, s.link.replies.length < 4 → s.link.history.find? (fun x => x.seq == seq) = some e →
      exec (frameInstr kind seq payload) s = .next (s.repeated e.reply)) ∧
    (∀ m rest, s.link.replies = m :: rest → 4 ≤ s.link.replies.length →
      exec (frameInstr kind seq payload) s = .next
        { s with
          link :=
            { s.link.heard with
              transmitter := s.link.sending m
              counters := { s.link.counters with overrun := saturatingSucc s.link.counters.overrun } } })

/-- A payload length that the kind does not have is refused with BAD_LENGTH, and one that it has is not (R156). -/
def Obligations.PayloadLengths : Prop :=
  ∀ (s : State) (k : RequestKind) (seq : Byte) (payload : List Byte),
    payload.length ≤ 96 → s.admits seq → s.inSession →
    (payload.length ∉ k.lengths →
      exec (frameInstr k.code seq payload) s = .next (s.answered k.code seq [0x11])) ∧
    (payload.length ∈ k.lengths →
      ∃ t m, exec (frameInstr k.code seq payload) s = .next t ∧ t.link.replies = s.link.replies ++ [m] ∧
        m.kind = k.code + 0x80 ∧ m.seq = seq ∧ m.payload ≠ [0x11])

/-- The checks before the request itself: outside OPEN every request but HELLO and LINK_STATUS is refused with NO_SESSION
whatever its payload; a kind that is neither a request kind nor ACK is refused with UNKNOWN_KIND in every session state;
the first field out of its range, in payload order, is named in a BAD_FIELD refusal, whatever the lane's state and the
fields after it, so a lane number above 3 is field 1 of every request that names a lane. The range of COMMIT's serial is
stated in CommitOutcomes (R139, R145, R152, R155, R157, R159 to R161). -/
def Obligations.EarlyRefusals : Prop :=
  (∀ (s : State) (k : RequestKind) (seq : Byte) (payload : List Byte),
    k ≠ .hello → k ≠ .linkStatus → payload.length ≤ 96 → s.admits seq → ¬ s.inSession →
    exec (frameInstr k.code seq payload) s = .next (s.answered k.code seq [0x10])) ∧
  (∀ (s : State) (kind seq : Byte) (payload : List Byte),
    (∀ k : RequestKind, k.code ≠ kind) → kind ≠ 0x0F → payload.length ≤ 96 → s.admits seq →
    exec (.unknownKindRequest kind seq payload) s = .next (s.answered kind seq [0x13])) ∧
  (∀ (s : State) (k : RequestKind) (seq lane : Byte) (rest : List Byte),
    k.namesLane = true → rest.length + 1 ∈ k.lengths → 4 ≤ lane.toNat → s.admits seq → s.inSession →
    exec (frameInstr k.code seq (lane :: rest)) s = .next (s.answered k.code seq [0x12, 0x01])) ∧
  (∀ (s : State) (k : RequestKind) (seq n : Byte) (payload : List Byte),
    (k.fields.find? fun f => !f.2 payload).map Prod.fst = some n → payload.length ∈ k.lengths → s.admits seq →
    (s.inSession ∨ k = .hello) →
    exec (frameInstr k.code seq payload) s = .next (s.answered k.code seq [0x12, n]))

/-- An ACK removes the report in flight that it names and every older one, sets the retry count to 0, restarts or stops
the report timer, and with room and a lost count above 0 a GAP report with that count follows; an ACK that names no
report in flight raises BAD_ACK and changes nothing at the store. The transmitter then takes its next frame if it is
free (R139, R175, R178). -/
def Obligations.AckRemoves : Prop :=
  ∀ (s : State) (n : Byte) (payload : List Byte), payload.length ≤ 96 → s.link.restarting = false →
    (∀ (older newer : List StoredReport) (r : StoredReport),
      s.store.reports = older ++ r :: newer → r.number = some n →
      (∀ x ∈ older, x.number.isSome ∧ x.number ≠ some n) → s.store.reports.length ≤ 48 →
      exec (.ack n payload) s = .next (State.transmitNext
        { s with
          link := s.link.heard
          store :=
            { s.store with
              reports :=
                if s.store.lost = 0 then newer
                else newer ++
                  [{ report := .gap s.store.lost, timestamp := s.clock, number := none, resendDue := false }]
              lost := 0
              retry := 0
              timer :=
                if (∃ x ∈ newer, x.number.isSome) ∧ s.link.session.state = .opened then
                  some (s.link.session.reportTimeout.toNat * 1000)
                else none } })) ∧
    ((∀ x ∈ s.store.reports, x.number ≠ some n) →
      exec (.ack n payload) s = .next (State.transmitNext
        { s with
          link :=
            { s.link.heard with
              counters := { s.link.counters with badAck := saturatingSucc s.link.counters.badAck } } }))

/-! ## The receiver, the timers and the transmitter -/

/-- A length byte of 97 to 255 discards the frame: OVERSIZE rises, and the receiver is in HUNT, where every byte but
0xC5 is ignored. The length byte itself, 0xC5 included, starts no frame (R135). -/
def Obligations.OversizeDiscards : Prop :=
  (∀ (s : State) (n : Byte), 97 ≤ n.toNat →
    exec (.frameOversize n) s = .next
      { s with
        link :=
          { s.link with
            receiver := .hunt
            gapTimer := none
            counters := { s.link.counters with oversize := saturatingSucc s.link.counters.oversize } } } ∧
    (s.link.receiver = .length → exec (.characterReceived n) s = exec (.frameOversize n) s)) ∧
  (∀ (s : State) (b : Byte), s.link.receiver = .hunt → b ≠ 0xC5 → exec (.characterReceived b) s = .next s)

/-- A failed CRC and a gap within a frame each discard the frame and raise their counter; in HUNT there is no frame,
and a gap has no effect (R136, R137). That a failed CRC acts so whatever the receiver held, and that a gap has no
effect in HUNT, is the model's reading: assumption log 5 and 6. -/
def Obligations.DiscardsCount : Prop :=
  ∀ s : State,
    (s.link.restarting = false →
      exec .frameCrcFail s = .next
        { s with
          link :=
            { s.link with
              receiver := .hunt
              gapTimer := none
              counters := { s.link.counters with crc := saturatingSucc s.link.counters.crc } } }) ∧
    (s.link.receiver ≠ .hunt →
      exec .gapTimeout s = .next
        { s with
          link :=
            { s.link with
              receiver := .hunt
              gapTimer := none
              counters := { s.link.counters with gap := saturatingSucc s.link.counters.gap } } }) ∧
    (s.link.receiver = .hunt → exec .gapTimeout s = .next s)

/-- The receiver's table row by row, up to the byte before the last; every byte taken in a frame restarts the 2 ms gap
timer (R134, R136). -/
def Obligations.ReceiverTable : Prop :=
  ∀ (s : State) (b len kind seq hi : Byte) (taken : List Byte),
    let goes (r : Receiver) : Prop :=
      exec (.characterReceived b) s = .next { s with link := { s.link with receiver := r, gapTimer := some 2000 } }
    (s.link.receiver = .hunt → b = 0xC5 → goes .length) ∧
    (s.link.receiver = .length → b.toNat ≤ 96 → goes (.kind b)) ∧
    (s.link.receiver = .kind len → goes (.seq len b)) ∧
    (s.link.receiver = .seq len kind → len = 0 → goes (.crcHi len kind b [])) ∧
    (s.link.receiver = .seq len kind → len ≠ 0 → goes (.payload len kind b [])) ∧
    (s.link.receiver = .payload len kind seq taken → taken.length + 1 < len.toNat →
      goes (.payload len kind seq (taken ++ [b]))) ∧
    (s.link.receiver = .payload len kind seq taken → taken.length + 1 = len.toNat →
      goes (.crcHi len kind seq (taken ++ [b]))) ∧
    (s.link.receiver = .crcHi len kind seq taken → goes (.crcLo len kind seq taken b)) ∧
    (s.link.receiver = .crcLo len kind seq taken hi →
      ∃ t, exec (.characterReceived b) s = .next t ∧ t.link.receiver = .hunt ∧ t.link.gapTimer = none)

/-- From HUNT, the bytes of a frame taken one by one do what the frame's command does, for every kind, sequence byte and
payload; with any other CRC bytes they do what a failed CRC does (R133, R134, R137, R152). -/
def Obligations.FrameBytesAreTheCommand : Prop :=
  ∀ (s : State) (kind seq : Byte) (payload : List Byte), s.link.receiver = .hunt → payload.length ≤ 96 →
    (receiveAll (Message.frame ⟨kind, seq, payload⟩) s = exec (frameInstr kind seq payload) s) ∧
    (∀ hi lo : Byte, hi ++ lo ≠ crc16 (natByte payload.length :: kind :: seq :: payload) →
      receiveAll (0xC5 :: natByte payload.length :: kind :: seq :: (payload ++ [hi, lo])) s = exec .frameCrcFail s)

/-- The link timer and the report timer run out in OPEN. Below the retry limit the report timer makes every report in
flight due for resending, raises the retry count and waits for the resend. At the limit, and by the link timer, the
session becomes LOST: both timers stop and each lane's policy is applied once; the lanes that thereby drain and hold
nothing complete their drains, in an open order (assumption log 3), each with its DRAINED report and any commit that
waits (R8, R9, R75, R131, R149, R150, R181, R182). That such a drain completes at once is the model's reading:
assumption log 8. That a timer's event acts while the timer runs, whatever time it has left, is the model's choice:
assumption log 4. -/
def Obligations.TimersRunOut : Prop :=
  (∀ s : State, s.inSession → s.store.timer.isSome → s.store.retry < 4 →
    exec .reportTimeout s = .next (State.transmitNext
      { s with
        store :=
          { s.store with
            reports := s.store.reports.map fun r => { r with resendDue := r.number.isSome }
            retry := s.store.retry + 1
            timer := none } })) ∧
  (∀ (s : State) (c : Instr), s.inSession →
    (c = .linkTimeout ∧ s.link.linkTimer.isSome ∨ c = .reportTimeout ∧ s.store.timer.isSome ∧ 4 ≤ s.store.retry) →
    let loss (L : Lane) : Lane :=
      match L.config.linkPolicy with
      | .continue_ => L
      | .stop => { L with stops := { L.stops with link := true } }
      | .drain => { L with state := if L.state = .running then .draining else L.state }
    let lost : State :=
      { s.mapLanes loss with
        link := { s.link with session := { s.link.session with state := .lost }, linkTimer := none }
        store := { s.store with timer := none } }
    let drained (l : LaneId) : Prop :=
      (lost.lane l).state = .draining ∧ (lost.lane l).queue = [] ∧ (lost.lane l).blind = [] ∧
        (lost.lane l).detector = .clear
    ((∀ l : LaneId, ¬ drained l) → exec c s = .next lost.transmitNext) ∧
    (∀ l : LaneId, drained l → (∀ j : LaneId, j ≠ l → ¬ drained j) → (lost.lane l).noCommit →
      exec c s = .next
        ((lost.setLane l { lost.lane l with state := .disabled }).produce (.drained l)).transmitNext) ∧
    (∃ (order : List LaneId) (taken : Nat), order.Nodup ∧ (∀ l, l ∈ order ↔ drained l) ∧
      (taken = s.freeIndex ∨ taken = s.freeIndex + 1 ∧ 2 ≤ order.length) ∧
      exec c s = .next (order.foldl State.testDrain { lost with freeIndex := taken }).transmitNext))

/-- The transmitter ends its frame. A reply leaves the queue. The next frame is the oldest reply; without one, in OPEN,
the oldest report in flight that is due for resending; without one, within the window, the oldest unsent report under
the next number; otherwise the transmitter stays free. A report goes out under its kind's code and its number, its
timestamp first and then the fields of its kind (R140, R141, R169, R170, R176, R180). -/
def Obligations.TransmitterTakes : Prop :=
  (∀ (r : StoredReport) (number : Byte), r.message number =
    { kind := r.report.layout.1
      seq := number
      payload := bigEndian 4 r.timestamp.toNat ++ r.report.layout.2 }) ∧
  ∀ (s : State) (x : Transmission), s.link.transmitter = some x →
    let left : List Message := if x.isReply then s.link.replies.tail else s.link.replies
    let begins (m : Message) (isReply : Bool) (st : Store) : State :=
      { s with
        link :=
          { s.link with
            replies := left
            transmitter := some
              { message := m, isReply := isReply, left := (6 + m.payload.length) * 10 * 1000000 } }
        store := st }
    (∀ m rest, left = m :: rest → exec .transmitComplete s = .next (begins m true s.store)) ∧
    (left = [] → s.inSession → s.link.restarting = false →
      (∀ before r after number, s.store.reports = before ++ r :: after →
        (∀ y ∈ before, y.number.isSome → y.resendDue = false) → r.number = some number → r.resendDue = true →
        exec .transmitComplete s = .next (begins (r.message number) false
          { s.store with
            reports := before ++ { r with resendDue := false } :: after
            timer :=
              if s.store.oldestNumber = some number then some (s.link.session.reportTimeout.toNat * 1000)
              else s.store.timer })) ∧
      (∀ flying r waiting, s.store.reports = flying ++ r :: waiting →
        (∀ y ∈ flying, y.number.isSome ∧ y.resendDue = false) → (∀ y ∈ r :: waiting, y.number = none) →
        flying.length < s.link.session.window.toNat →
        exec .transmitComplete s = .next (begins (r.message s.store.nextNumber) false
          { s.store with
            reports := flying ++ { r with number := some s.store.nextNumber } :: waiting
            nextNumber := s.store.nextNumber + 1
            timer :=
              if flying = [] then some (s.link.session.reportTimeout.toNat * 1000) else s.store.timer })) ∧
      (∀ flying waiting, s.store.reports = flying ++ waiting →
        (∀ y ∈ flying, y.number.isSome ∧ y.resendDue = false) → (∀ y ∈ waiting, y.number = none) →
        waiting = [] ∨ s.link.session.window.toNat ≤ flying.length →
        exec .transmitComplete s = .next { s with link := { s.link with replies := [], transmitter := none } })) ∧
    (left = [] → ¬ s.inSession → s.link.restarting = false →
      exec .transmitComplete s = .next { s with link := { s.link with replies := [], transmitter := none } })

/-- A report produced: appended while the store has room; at a full store a ROUTINE report is lost, a NOTICE takes the
place of the newest unsent ROUTINE report if there is one, and the lost count rises (R174). -/
def Obligations.FullStore : Prop :=
  ∀ (s : State) (r : Report),
    let new : StoredReport := { report := r, timestamp := s.clock, number := none, resendDue := false }
    (s.store.reports.length < 48 →
      s.produce r = { s with store := { s.store with reports := s.store.reports ++ [new] } }) ∧
    (48 ≤ s.store.reports.length → r.isRoutine = true →
      s.produce r = { s with store := { s.store with lost := saturatingSucc s.store.lost } }) ∧
    (∀ before x after, s.store.reports = before ++ x :: after → 48 ≤ s.store.reports.length → r.isRoutine = false →
      x.number = none → x.report.isRoutine = true → (∀ y ∈ after, y.number = none → y.report.isRoutine = false) →
      s.produce r =
        { s with
          store :=
            { s.store with reports := before ++ after ++ [new], lost := saturatingSucc s.store.lost } }) ∧
    (48 ≤ s.store.reports.length → (∀ y ∈ s.store.reports, y.number = none → y.report.isRoutine = false) →
      s.produce r = { s with store := { s.store with lost := saturatingSucc s.store.lost } })

/-! ## Requests to a lane -/

/-- LANE_CONFIG on a DISABLED lane: with the reserves and the tickets of the other lanes beyond 64 it is refused with
RESERVE_EXCEEDED; otherwise the record is replaced whole, the reach becomes the position, and the decoder takes the
levels of its lines or the tick timer restarts (R3, R4, R20, R159). -/
def Obligations.LaneConfigReplaces : Prop :=
  ∀ (s : State) (seq : Byte) (l : LaneId) (c : LaneConfig),
    s.admits seq → s.inSession → (s.lane l).state = .disabled →
    4 ≤ c.tickInterval.toNat → c.reserve.toNat ≤ 16 → 1 ≤ c.limit.toNat → c.limit.toNat ≤ 64 →
    c.reserve.toNat ≤ c.limit.toNat →
    let payload : List Byte :=
      [laneByte l, c.source.code, boolByte c.swap] ++ be16 c.tickInterval ++ be16 c.reverseLimit ++
        [c.reserve, c.limit, c.dropPolicy.code, c.confirmPolicy.code, c.linkPolicy.code, boolByte c.maskEntry,
          boolByte c.maskFate, boolByte c.maskGlitch]
    let others : Nat :=
      ((allLanes.filter fun j => j ≠ l).map fun j =>
        Nat.max (s.lane j).config.reserve.toNat (s.lane j).queue.length).sum
    (64 < c.reserve.toNat + others →
      exec (.laneConfig seq payload) s = .next (s.answered 0x10 seq [0x1C])) ∧
    (c.reserve.toNat + others ≤ 64 →
      exec (.laneConfig seq payload) s = .next ((s.setLane l
        { s.lane l with
          config := c
          reach := (s.lane l).position
          encoder :=
            if c.source = .encoder then ⟨(s.laneInputs l).encoderA, (s.laneInputs l).encoderB⟩
            else (s.lane l).encoder
          tickTimer := if c.source = .clock then some c.tickInterval.toNat else none }).answered 0x10 seq [0x00]))

/-- ENABLE on a DISABLED lane: it becomes RUNNING with its reach at the position, its forced levels released, the
present sensor levels taken, and without the belt-clear flag a blind interval of the retire span behind the reach;
nothing else of the lane changes (R5, R6, R23, R55, R121). -/
def Obligations.EnableStarts : Prop :=
  ∀ (s : State) (seq : Byte) (l : LaneId) (clear : Bool),
    s.admits seq → s.inSession → (s.lane l).state = .disabled →
    let interval : Interval :=
      { start := (s.lane l).position - (s.lane l).active.derived.retireSpan.setWidth 32
        stop := some (s.lane l).position }
    exec (.enable seq [laneByte l, boolByte clear]) s = .next ((s.setLane l
      { s.lane l with
        state := .running
        reach := (s.lane l).position
        stations := (s.lane l).stations.map fun S => { S with forced := false }
        blind := if clear then (s.lane l).blind else withInterval (s.lane l).blind interval
        detector := .clear
        entryLevel := (s.laneInputs l).entry
        confirmLevel := (s.laneInputs l).confirm }).answered 0x11 seq [0x00])

/-- The lane states in which a lane's requests are refused with LANE_STATE and change nothing: ENABLE, LANE_CONFIG and
FORCE outside DISABLED, DISABLE in DISABLED, VERDICT in DISABLED and HALTED (R3, R5, R7, R84, R114; section 1.7). -/
def Obligations.LaneStateRefuses : Prop :=
  ∀ (s : State) (seq : Byte) (l : LaneId), s.admits seq → s.inSession →
    ((s.lane l).state ≠ .disabled →
      (∀ clear : Bool, exec (.enable seq [laneByte l, boolByte clear]) s = .next (s.answered 0x11 seq [0x14])) ∧
      (∀ payload x, payload.length = 15 → parseLaneConfig payload = .ok (l, x) →
        exec (.laneConfig seq payload) s = .next (s.answered 0x10 seq [0x14])) ∧
      (∀ (k : StationId) (level : Bool),
        exec (.force seq [laneByte l, stationByte k, boolByte level]) s = .next (s.answered 0x14 seq [0x14]))) ∧
    ((s.lane l).state = .disabled →
      ∀ mode : DisableMode, exec (.disable seq [laneByte l, mode.code]) s = .next (s.answered 0x12 seq [0x14])) ∧
    ((s.lane l).state = .disabled ∨ (s.lane l).state = .halted →
      (∀ (n : Serial) (c : ClassId), n ≠ 0 →
        exec (.verdict seq ([laneByte l] ++ be32 n ++ [classByte c])) s = .next (s.answered 0x30 seq [0x14])))

/-- DISABLE of a lane that tracks. With mode DRAIN a RUNNING lane becomes DRAINING, or with queue and blind list empty
and the detector CLEAR becomes DISABLED with its DRAINED report, after which a commit installs; a DRAINING lane goes on;
the reply is ACCEPTED. With mode ABORT the lane is DISABLED with its tickets abandoned, told by an ABANDONED report if
there was one, a pending or held commit installs on the empty lane with its COMMITTED report, and the reply is OK (R7 to
R10, R53, R71, R75, R112, R127). -/
def Obligations.DisableEnds : Prop :=
  (∀ (s : State) (seq : Byte) (l : LaneId), s.admits seq → s.inSession →
    let holds : Prop := (s.lane l).queue = [] ∧ (s.lane l).blind = [] ∧ (s.lane l).detector = .clear
    ((s.lane l).state = .running → ¬ holds →
      exec (.disable seq [laneByte l, 0]) s = .next
        ((s.setLane l { s.lane l with state := .draining }).answered 0x12 seq [0x02])) ∧
    ((s.lane l).state = .running → holds → (s.lane l).noCommit →
      exec (.disable seq [laneByte l, 0]) s = .next
        (((s.setLane l { s.lane l with state := .disabled }).produce (.drained l)).answered 0x12 seq [0x02])) ∧
    (∀ body derived c, (s.lane l).state = .running → holds → (s.lane l).staging = .committing body derived c →
      exec (.disable seq [laneByte l, 0]) s = .next
        ((((s.setLane l
          { s.lane l with
            state := .disabled
            retiring := none
            active := { generation := (s.lane l).active.generation + 1, body := body, derived := derived }
            staging := .absent }).produce (.drained l)).produce
          (.committed l ((s.lane l).active.generation + 1) (s.lane l).nextSerial)).answered 0x12 seq [0x02])) ∧
    ((s.lane l).state = .draining → exec (.disable seq [laneByte l, 0]) s = .next (s.answered 0x12 seq [0x02]))) ∧
  (∀ (s : State) (seq : Byte) (l : LaneId), s.admits seq → s.inSession → (s.lane l).tracking = true →
    let L := (s.lane l).abandoned .disabled
    let told (t : State) : State :=
      match (s.lane l).queue.head?, (s.lane l).queue.getLast? with
      | some first, some last =>
        t.produce (.abandoned l (natByte (s.lane l).queue.length) first.serial last.serial)
      | _, _ => t
    ((s.lane l).noCommit →
      exec (.disable seq [laneByte l, 1]) s = .next ((told (s.setLane l L)).answered 0x12 seq [0x00])) ∧
    (∀ body derived c, (s.lane l).staging = .committing body derived c →
      exec (.disable seq [laneByte l, 1]) s = .next
        (((told (s.setLane l
          { L with
            active := { generation := L.active.generation + 1, body := body, derived := derived }
            staging := .absent })).produce
          (.committed l (L.active.generation + 1) L.nextSerial)).answered 0x12 seq [0x00])))

/-- DISABLE of either mode in HALTED: the lane becomes DISABLED, only the HALT reason leaves its stop-reason set,
nothing is abandoned and no report is produced (R11). -/
def Obligations.DisableLeavesHalted : Prop :=
  ∀ (s : State) (seq : Byte) (l : LaneId) (mode : DisableMode),
    s.admits seq → s.inSession → (s.lane l).state = .halted →
    exec (.disable seq [laneByte l, mode.code]) s = .next ((s.setLane l
      { s.lane l with state := .disabled, stops := { (s.lane l).stops with halt := false } }).answered 0x12 seq [0x00])

/-- CLEAR_STOP in every lane state: the CONFIRM, DROP and LINK reasons leave the set and nothing else changes; the reply
is STOP_HELD in HALTED and OK elsewhere. The stop output is asserted exactly while the set holds a reason; so, with HALT
in the set exactly in HALTED, after CLEAR_STOP exactly in HALTED (R128, R132). -/
def Obligations.ClearStopClears : Prop :=
  ∀ (s : State) (l : LaneId),
    let L := s.lane l
    (s.stopOutput l = true ↔
      L.stops.halt = true ∨ L.stops.confirm = true ∨ L.stops.drop = true ∨ L.stops.link = true) ∧
    (∀ seq : Byte, s.admits seq → s.inSession →
      let t := s.setLane l { L with stops := ⟨L.stops.halt, false, false, false⟩ }
      exec (.clearStop seq [laneByte l]) s = .next (t.answered 0x13 seq [if L.state = .halted then 0x1D else 0x00]) ∧
      (L.LaneLaw → (t.stopOutput l = true ↔ L.state = .halted)))

/-- FORCE in DISABLED sets the forced level of one station and nothing else. In every state a station output is active
exactly while the guard is released and the forced level is ACTIVE, the pulse state is PULSING, the span end is present
or the flush hold is in force; and the flush hold is in force exactly while the active profile's record of the station is
in use with flush yes and the reach lies in the hold range of an interval of the blind list (R109, R111, R114). -/
def Obligations.ForceSets : Prop :=
  ∀ (s : State) (l : LaneId) (k : StationId),
    let L := s.lane l
    let S := L.station k
    let holds (i : Interval) (on off : Triple) : Prop :=
      let margin : Pos := L.active.body.fields.flushMargin.setWidth 32
      let lo : Pos := i.start + on.setWidth 32 - margin
      match i.stop with
      | some e => L.reach - lo < (e + off.setWidth 32 + margin) - lo
      | none => (L.reach - lo).toNat < 2147483648
    let held : Prop :=
      ∃ i ∈ L.blind,
        (∃ on width rearm busy rule, (L.active.body.stations[k]).act = .pulse on width rearm busy rule true ∧
          holds i on on) ∨
        ∃ on off rule, (L.active.body.stations[k]).act = .span on off rule true ∧ holds i on off
    (L.flushHold k = true ↔ held) ∧
    (s.outputLevel l k = true ↔
      s.guardAsserted = false ∧
        (S.forced = true ∨ (∃ left rearm, S.pulse = .pulsing left rearm) ∨ S.spanEnd.isSome ∨ held)) ∧
    (∀ (seq : Byte) (level : Bool), s.admits seq → s.inSession → L.state = .disabled →
      let t := s.setLane l { L with stations := L.stations.set k { S with forced := level } }
      exec (.force seq [laneByte l, stationByte k, boolByte level]) s = .next (t.answered 0x14 seq [0x00]) ∧
      (level = true → t.outputLevel l k = !s.guardAsserted))

/-! ## Requests to a profile store -/

/-- STAGE_LANE and STAGE_STATION: in ABSENT the staged copy is made from the active profile and then changed, in EDITING
it is changed, in COMMITTING the request is refused; the active profile is not touched (R63, R64). -/
def Obligations.StagingEdits : Prop :=
  ∀ (s : State) (seq : Byte) (l : LaneId) (p : List Byte) (c : Instr) (kind : Byte) (edit : ProfileBody → ProfileBody),
    s.admits seq → s.inSession →
    ((∃ f : LaneFields, c = .stageLane seq p ∧ kind = 0x20 ∧ p.length = 12 ∧ parseStageLane p = .ok (l, f) ∧
        edit = fun b => { b with fields := f }) ∨
      (∃ (k : StationId) (r : StationRecord), c = .stageStation seq p ∧ kind = 0x21 ∧ p.length = 26 ∧
        parseStageStation p = .ok (l, k, r) ∧ edit = fun b => { b with stations := b.stations.set k r })) →
    ((s.lane l).staging = .absent →
      exec c s = .next
        ((s.setLane l { s.lane l with staging := .editing (edit (s.lane l).active.body) }).answered kind seq [0x00])) ∧
    (∀ body, (s.lane l).staging = .editing body →
      exec c s = .next ((s.setLane l { s.lane l with staging := .editing (edit body) }).answered kind seq [0x00])) ∧
    (∀ body derived commit, (s.lane l).staging = .committing body derived commit →
      exec c s = .next (s.answered kind seq [0x18]))

/-- The encoding of fields: numbers of 2, 3 and 4 bytes go most significant byte first, a named value takes the code of
the table, and a station record takes its 24 bytes by kind. A STAGE_LANE payload written from fields within their ranges,
and a STAGE_STATION payload written from a record within its ranges, are read back as they were written (R154, R157,
R160). -/
def Obligations.StagingLayouts : Prop :=
  ((∀ x : BitVec 16, be16 x = bigEndian 2 x.toNat) ∧ (∀ x : BitVec 24, be24 x = bigEndian 3 x.toNat) ∧
    (∀ x : BitVec 32, be32 x = bigEndian 4 x.toNat)) ∧
  ([LaneState.disabled, .running, .draining, .halted].map LaneState.code = [0, 1, 2, 3] ∧
    [TravelSource.encoder, .clock].map TravelSource.code = [0, 1] ∧
    [Policy.report, .stop, .halt].map Policy.code = [0, 1, 2] ∧
    [LinkPolicy.continue_, .stop, .drain].map LinkPolicy.code = [0, 1, 2] ∧
    [DisableMode.drain, .abort].map DisableMode.code = [0, 1] ∧
    [ProfileCopy.active, .retiring, .staged].map ProfileCopy.code = [0, 1, 2] ∧
    [SessionState.closed, .opened, .lost].map SessionState.code = [0, 1, 2] ∧
    [BootReason.power, .pin, .restart].map BootReason.code = [0, 1, 2] ∧
    [Source.host, .default].map Source.code = [0, 1] ∧
    [Outcome.pending, .deferred, .fired, .passed].map Outcome.code = [0, 1, 2, 3] ∧
    [Outcome.pending, .deferred, .fired, .passed].map Outcome.reasonCode = [0, 0, 0, 0] ∧
    [MissReason.guard, .busy, .late].map (fun r => ((Outcome.missed r).code, (Outcome.missed r).reasonCode)) =
      [(4, 1), (4, 2), (4, 3)] ∧
    [none, some ConfirmState.notFired, some .waiting, some .confirmed, some .unconfirmed, some .notDue].map confirmCode =
      [0xFF, 0, 1, 2, 3, 4]) ∧
  (∀ (leading trailing : Pos) (lim : Limits) (left : Nat) (rearm : Triple),
    [Detector.clear, .inItem leading lim, .gapWait leading trailing lim, .blocked leading lim].map Detector.code =
      [0, 1, 2, 3] ∧
    [Pulse.idle, .pulsing left rearm, .rearming left].map Pulse.code = [0, 1, 2]) ∧
  (∀ (body : ProfileBody) (derived : Derived) (n : Serial),
    [Staging.absent, .editing body, .committing body derived .held, .committing body derived (.pending .now),
        .committing body derived (.pending .whenClear), .committing body derived (.pending (.atSerial n))].map
      (fun x => (x.code, x.commitCode, x.boundaryCode, x.boundarySerial)) =
      [(0, 0, 0xFF, 0), (1, 0, 0xFF, 0), (2, 2, 0xFF, 0), (2, 1, 0, 0), (2, 1, 1, 0), (2, 1, 2, n)]) ∧
  (∀ r : StationRecord,
    let rule : StationRule → List Byte
      | .always => [0, 0]
      | .onClass mask => [1, mask]
    let flag (b : Bool) : Byte := if b then 1 else 0
    let record : List Byte :=
      match r.act with
      | .off => List.replicate 19 0
      | .pulse on width rearm busy x flush =>
        [1] ++ bigEndian 3 on.toNat ++ [0, 0, 0] ++ bigEndian 3 width.toNat ++ bigEndian 3 rearm.toNat ++
          (match busy with
            | .defer tolerance => 0 :: bigEndian 2 tolerance.toNat
            | .drop => [1, 0, 0]) ++ rule x ++ [flag flush]
      | .span on off x flush =>
        [2] ++ bigEndian 3 on.toNat ++ bigEndian 3 off.toNat ++ List.replicate 9 0 ++ rule x ++ [flag flush]
    r.bytes = record ++
      match r.confirm with
      | none => [0, 0, 0, 0, 0]
      | some w => 1 :: (bigEndian 2 w.start.toNat ++ bigEndian 2 w.stop.toNat)) ∧
  (∀ (l : LaneId) (f : LaneFields), 1 ≤ f.lmin.toNat → 1 ≤ f.lmax.toNat →
    parseStageLane ([laneByte l] ++ be16 f.lmin ++ be16 f.lmax ++ be16 f.gap ++ be16 f.verdictMargin ++
      [classByte f.defaultClass] ++ be16 f.flushMargin) = .ok (l, f)) ∧
  (∀ (l : LaneId) (k : StationId) (r : StationRecord),
    (∀ on width rearm busy rule flush, r.act = .pulse on width rearm busy rule flush →
      1 ≤ on.toNat ∧ 100 ≤ width.toNat ∧ width.toNat ≤ 1000000 ∧ rearm.toNat ≤ 1000000) →
    (∀ on off rule flush, r.act = .span on off rule flush → 1 ≤ on.toNat ∧ 1 ≤ off.toNat) →
    r.bytes.length = 24 ∧ parseStageStation ([laneByte l, stationByte k] ++ r.bytes) = .ok (l, k, r))

/-- DISCARD_STAGED: in EDITING the staged profile is gone and the reply is OK, in ABSENT the reply is NOTHING_STAGED, in
COMMITTING it is STAGING_BUSY; it is taken in every lane state (R65). -/
def Obligations.DiscardStaged : Prop :=
  ∀ (s : State) (seq : Byte) (l : LaneId), s.admits seq → s.inSession →
    (∀ body, (s.lane l).staging = .editing body →
      exec (.discardStaged seq [laneByte l]) s = .next
        ((s.setLane l { s.lane l with staging := .absent }).answered 0x22 seq [0x00])) ∧
    ((s.lane l).staging = .absent →
      exec (.discardStaged seq [laneByte l]) s = .next (s.answered 0x22 seq [0x19])) ∧
    (∀ body derived c, (s.lane l).staging = .committing body derived c →
      exec (.discardStaged seq [laneByte l]) s = .next (s.answered 0x22 seq [0x18]))

/-- COMMIT. A boundary that is none of the three, and for AT_SERIAL a serial that is not 1 to 2,147,483,646 serials
ahead of the next serial, are refused with BAD_FIELD in every staging status and lane state; then the request is refused
with NOTHING_STAGED in ABSENT and with STAGING_BUSY in COMMITTING. In EDITING a profile that fails validation is refused
and stays; one that passes waits PENDING at a boundary that is not reached, becomes HELD at a boundary that is reached
beside a retiring profile, and otherwise is installed at once with the next generation and a COMMITTED report. A
boundary is reached at once when it is NOW, when it is WHEN_CLEAR on an empty lane, and in DISABLED and HALTED (R57,
R66, R68 to R72, R75). That the blind check of an installation can complete a drain is the model's reading: assumption
log 11. -/
def Obligations.CommitOutcomes : Prop :=
  ∀ (s : State) (seq : Byte) (l : LaneId) (n : Serial), s.admits seq → s.inSession →
    let L := s.lane l
    let ahead : Prop := n ≠ 0 ∧ ∃ j : Nat, 1 ≤ j ∧ j ≤ 2147483646 ∧ previousSerial^[j] n = L.nextSerial
    let request (boundary : Byte) : Instr := .commit seq ([laneByte l, boundary] ++ be32 n)
    (∀ boundary : Byte, 3 ≤ boundary.toNat → exec (request boundary) s = .next (s.answered 0x23 seq [0x12, 0x02])) ∧
    (L.nextSerial ≠ 0 → ¬ ahead → exec (request 2) s = .next (s.answered 0x23 seq [0x12, 0x03])) ∧
    (∀ b : Boundary, (∀ m, b = .atSerial m → n = m ∧ L.nextSerial ≠ 0 ∧ ahead) →
      let c : Instr := request b.code
      let reached : Prop :=
        L.state = .disabled ∨ L.state = .halted ∨ b = .now ∨ b = .whenClear ∧ L.queue = [] ∧ L.detector = .clear
      (L.staging = .absent → exec c s = .next (s.answered 0x23 seq [0x19])) ∧
      (∀ body derived commit, L.staging = .committing body derived commit →
        exec c s = .next (s.answered 0x23 seq [0x18])) ∧
      (∀ body, L.staging = .editing body →
        let installed : Lane :=
          { L with
            retiring := if (∃ t ∈ L.queue, t.generation = L.active.generation) then some L.active else none
            active := { generation := L.active.generation + 1, body := body, derived := body.derive }
            staging := .absent
            blind := L.blind.filter fun i =>
              !i.passed L.reach (body.derive.retireSpan.toNat + body.fields.flushMargin.toNat) }
        (∀ reason station, body.invalid = some (reason, station) →
          exec c s = .next (s.answered 0x23 seq [0x1A, reason.code, station])) ∧
        (body.invalid = none → ¬ reached →
          exec c s = .next ((s.setLane l
            { L with staging := .committing body body.derive (.pending b) }).answered 0x23 seq [0x02])) ∧
        (body.invalid = none → reached → L.retiring.isSome →
          exec c s = .next ((s.setLane l
            { L with staging := .committing body body.derive .held }).answered 0x23 seq [0x02])) ∧
        (body.invalid = none → reached → L.retiring = none →
          exec c s = .next
            ((((s.setLane l installed).produce
              (.committed l (L.active.generation + 1) L.nextSerial)).testDrain l).answered 0x23 seq [0x00]))))

/-- A profile passes validation exactly when none of the eight conditions of the table holds. Otherwise the first that
holds, in the order of the table, gives the reason, whose codes follow that order, and the station named with it (R61,
R62, R67, R154). -/
def Obligations.ValidationConditions : Prop :=
  let order : List InvalidReason :=
    [.lengths, .tooClose, .spanOrder, .windowOrder, .twoConfirm, .confirmKind, .margin, .spanLimit]
  order.map InvalidReason.code = [1, 2, 3, 4, 5, 6, 7, 8] ∧
  ∀ b : ProfileBody,
    let near := b.fields.lmax.toNat + b.fields.gap.toNat
    (b.invalid = none ↔
      b.fields.lmin.toNat ≤ b.fields.lmax.toNat ∧
      (∀ (k : StationId) on, (b.stations[k]).OnAt on → near < on.toNat) ∧
      (∀ (k : StationId) on off rule flush, (b.stations[k]).act = .span on off rule flush → on.toNat < off.toNat) ∧
      (∀ (k : StationId) w, (b.stations[k]).confirm = some w → w.start.toNat < w.stop.toNat) ∧
      (∀ j k : StationId, (b.stations[j]).confirm.isSome → (b.stations[k]).confirm.isSome → j = k) ∧
      (∀ k : StationId, (b.stations[k]).confirm.isSome → (b.stations[k]).act ≠ .off) ∧
      (∀ (k : StationId) on, (b.stations[k]).ClassAt on → near + b.fields.verdictMargin.toNat < on.toNat) ∧
      (∀ (k : StationId) e, (b.stations[k]).EndsAt e → e + 1 ≤ 16777215)) ∧
    (∀ (reason : InvalidReason) (station : Byte), b.invalid = some (reason, station) ↔
      b.Fails reason station ∧
        ∀ earlier ∈ order.takeWhile (fun r => r != reason), ∀ k : Byte, ¬ b.Fails earlier k)

/-- The derived values of a profile that passes validation: the retire span is one more than the largest of Lmax + G and
the end points of its stations, and the decision offset is the smallest on offset less the verdict margin among the
CLASS stations, or the retire span when there is none (R61, R62). -/
def Obligations.DerivedValues : Prop :=
  ∀ b : ProfileBody, b.invalid = none →
    let near := b.fields.lmax.toNat + b.fields.gap.toNat
    let ends (e : Nat) : Prop :=
      e = near ∨ ∃ k : StationId,
        (∃ on off rule flush, (b.stations[k]).act = .span on off rule flush ∧
          (e = off.toNat ∨ ∃ w, (b.stations[k]).confirm = some w ∧ e = on.toNat + w.stop.toNat)) ∨
        ∃ on width rearm busy rule flush, (b.stations[k]).act = .pulse on width rearm busy rule flush ∧
          (busy = .drop ∧ e = on.toNat ∨ (∃ tolerance, busy = .defer tolerance ∧ e = on.toNat + tolerance.toNat) ∨
            ∃ w, (b.stations[k]).confirm = some w ∧ e = on.toNat + w.stop.toNat)
    let offsets (o : Int) : Prop :=
      ∃ (k : StationId) (on : Triple) (mask : Byte), o = (on.toNat : Int) - b.fields.verdictMargin.toNat ∧
        ((∃ off flush, (b.stations[k]).act = .span on off (.onClass mask) flush) ∨
          ∃ width rearm busy flush, (b.stations[k]).act = .pulse on width rearm busy (.onClass mask) flush)
    (∀ e, ends e → e < b.derive.retireSpan.toNat) ∧ (∃ e, ends e ∧ b.derive.retireSpan.toNat = e + 1) ∧
    (∀ o, offsets o → (b.derive.decisionOffset.toNat : Int) ≤ o) ∧
    ((∃ o, offsets o) → offsets b.derive.decisionOffset.toNat) ∧
    ((∀ o, ¬ offsets o) → b.derive.decisionOffset = b.derive.retireSpan) ∧
    near < b.derive.decisionOffset.toNat

/-- CANCEL_COMMIT: a PENDING or HELD commit is withdrawn and its profile is EDITING again, without derived values; with
no commit the reply is NO_COMMIT (R76). -/
def Obligations.CancelWithdraws : Prop :=
  ∀ (s : State) (seq : Byte) (l : LaneId), s.admits seq → s.inSession →
    (∀ body derived c, (s.lane l).staging = .committing body derived c →
      exec (.cancelCommit seq [laneByte l]) s = .next
        ((s.setLane l { s.lane l with staging := .editing body }).answered 0x24 seq [0x00])) ∧
    ((s.lane l).noCommit → exec (.cancelCommit seq [laneByte l]) s = .next (s.answered 0x24 seq [0x1B]))

/-! ## Requests about tickets and queries -/

/-- VERDICT for a ticket in the queue of a lane that tracks: OPEN is bound with OK, DECIDED is revised with REVISED,
class and tag together, FINAL is refused with LATE, its class and its source; no other ticket changes (R84 to R87,
R161). -/
def Obligations.VerdictBinds : Prop :=
  ∀ (s : State) (seq : Byte) (l : LaneId) (n : Serial) (c : ClassId) (tag : Option Half) (t : Ticket),
    s.admits seq → s.inSession → (s.lane l).tracking = true → n ≠ 0 →
    (s.lane l).queue.find? (fun u => u.serial == n) = some t →
    let v : Instr := .verdict seq ([laneByte l] ++ be32 n ++ [classByte c] ++
      (match tag with
        | some x => be16 x
        | none => []))
    let bound : State := s.setLane l
      { s.lane l with
        queue := (s.lane l).queue.map fun u => if u.serial = n then { u with decision := .decided c tag } else u }
    (t.decision = .undecided → exec v s = .next (bound.answered 0x30 seq [0x00])) ∧
    (∀ c' tag', t.decision = .decided c' tag' → exec v s = .next (bound.answered 0x30 seq [0x01])) ∧
    (∀ c' source tag', t.decision = .final c' source tag' →
      exec v s = .next (s.answered 0x30 seq [0x15, classByte c', source.code]))

/-- A serial that is not in the queue is answered GONE when it was issued and UNKNOWN_SERIAL otherwise, by VERDICT on a
lane that tracks and by QUERY_TICKET on every lane. It was issued when it is one of the 2,147,483,648 serials issued
last before the next serial, counted back with 0 skipped, and before the wrap also below it (R43, R88, R167). -/
def Obligations.MissingSerial : Prop :=
  ∀ (s : State) (seq : Byte) (l : LaneId) (n : Serial),
    s.admits seq → s.inSession → n ≠ 0 → (s.lane l).nextSerial ≠ 0 → (∀ u ∈ (s.lane l).queue, u.serial ≠ n) →
    let issued : Prop :=
      (∃ k : Nat, 1 ≤ k ∧ k ≤ 2147483648 ∧ previousSerial^[k] (s.lane l).nextSerial = n) ∧
        ((s.lane l).wrapped = true ∨ n.toNat < (s.lane l).nextSerial.toNat)
    let q : Instr := .queryTicket seq ([laneByte l] ++ be32 n)
    (issued → exec q s = .next (s.answered 0x41 seq [0x16])) ∧
    (¬ issued → exec q s = .next (s.answered 0x41 seq [0x17])) ∧
    ((s.lane l).tracking = true →
      ∀ c : ClassId,
        let v : Instr := .verdict seq ([laneByte l] ++ be32 n ++ [classByte c])
        (issued → exec v s = .next (s.answered 0x30 seq [0x16])) ∧
        (¬ issued → exec v s = .next (s.answered 0x30 seq [0x17])))

/-- QUERY_TICKET for a ticket in the queue replies with its record, of 24 bytes and 3 more for each outcome entry, and
changes no state (R167). -/
def Obligations.QueryTicketReads : Prop :=
  ∀ (s : State) (seq : Byte) (l : LaneId) (n : Serial) (t : Ticket),
    s.admits seq → s.inSession → n ≠ 0 → (s.lane l).queue.find? (fun u => u.serial == n) = some t →
    let decision : List Byte :=
      match t.decision with
      | .undecided => [0, 0xFF, 0xFF]
      | .decided c _ => [1, classByte c, 0xFF]
      | .final c source _ => [2, classByte c, source.code]
    let tag : Option Half :=
      match t.decision with
      | .undecided => none
      | .decided _ tag => tag
      | .final _ _ tag => tag
    let record : List Byte :=
      [0x00, laneByte l] ++ be32 n ++ [natByte t.index.val] ++ be16 t.generation ++ be32 t.entry ++ be16 t.length ++
        [boolByte t.long] ++ decision ++ [boolByte tag.isSome] ++ be16 (tag.getD 0) ++ [natByte t.outcomes.length] ++
        t.outcomes.flatMap (fun e => [stationByte e.1, e.2.code, e.2.reasonCode]) ++ [confirmCode t.confirm]
    exec (.queryTicket seq ([laneByte l] ++ be32 n)) s = .next (s.answered 0x41 seq record) ∧
    record.length = 24 + 3 * t.outcomes.length

/-- QUERY_LANE replies with the part named, in every lane state, and changes no state: 60 bytes for LANE, 63 for
STATIONS, and 4 with 9 for each interval for BLIND (R164, R165, R166). -/
def Obligations.QueryLaneReads : Prop :=
  ∀ (s : State) (seq : Byte) (l : LaneId), s.admits seq → s.inSession →
    let L := s.lane l
    let free : Nat := 64 - (allLanes.map fun j => (s.lane j).queue.length).sum
    let shared : Nat :=
      free - (allLanes.map fun j => (s.lane j).config.reserve.toNat - (s.lane j).queue.length).sum
    let lane : List Byte :=
      [0x00, laneByte l, 0] ++ List.flatten
        [[L.state.code], be32 L.position, be32 L.reach, be32 (L.reach - L.position), [L.detector.code],
          be32 L.detector.leading, be16 L.glitchCount, [natByte L.queue.length],
          be32 ((L.queue.head?.map Ticket.serial).getD 0), be32 ((L.queue.getLast?.map Ticket.serial).getD 0),
          be32 L.nextSerial, [boolByte L.wrapped], be16 L.dropCount, [BitVec.ofNat 8 free, BitVec.ofNat 8 shared],
          [L.staging.code, L.staging.commitCode, L.staging.boundaryCode], be32 L.staging.boundarySerial,
          be16 L.active.generation, [boolByte L.retiring.isSome], be16 ((L.retiring.map Profile.generation).getD 0),
          [natByte L.blind.length], [boolByte L.stops.halt, boolByte L.stops.confirm, boolByte L.stops.drop,
            boolByte L.stops.link], [boolByte (s.stopOutput l), boolByte s.guardAsserted]]
    let stations : List Byte :=
      [0x00, laneByte l, 1] ++ allStations.flatMap fun k =>
        [(L.station k).pulse.code, natByte (L.station k).deferred.length, boolByte (L.station k).spanEnd.isSome] ++
          be32 ((L.station k).spanEnd.getD 0) ++
          [boolByte (L.flushHold k), boolByte (L.station k).forced, boolByte (s.outputLevel l k)]
    let blind : List Byte :=
      [0x00, laneByte l, 2, natByte L.blind.length] ++ L.blind.flatMap fun i =>
        be32 i.start ++ be32 (i.stop.getD 0) ++ [boolByte i.stop.isNone]
    exec (.queryLane seq [laneByte l, 0]) s = .next (s.answered 0x40 seq lane) ∧ lane.length = 60 ∧
    exec (.queryLane seq [laneByte l, 1]) s = .next (s.answered 0x40 seq stations) ∧ stations.length = 63 ∧
    exec (.queryLane seq [laneByte l, 2]) s = .next (s.answered 0x40 seq blind) ∧
    blind.length = 4 + 9 * L.blind.length

/-- QUERY_PROFILE replies with the item of the copy named, and with presence 0 alone when the copy does not exist; it
changes no state (R168). -/
def Obligations.QueryProfileReads : Prop :=
  ∀ (s : State) (seq : Byte) (l : LaneId) (copy : ProfileCopy) (item : Fin 7), s.admits seq → s.inSession →
    let L := s.lane l
    let content (g : Half) (b : ProfileBody) (d : Derived) : List Byte :=
      if h : item.val < 6 then (b.stations[item.val]).bytes
      else
        be16 g ++ be16 b.fields.lmin ++ be16 b.fields.lmax ++ be16 b.fields.gap ++ be16 b.fields.verdictMargin ++
          [classByte b.fields.defaultClass] ++ be16 b.fields.flushMargin ++ be24 d.decisionOffset ++ be24 d.retireSpan
    let answers (rest : List Byte) : Prop :=
      exec (.queryProfile seq [laneByte l, copy.code, natByte item.val]) s = .next
        (s.answered 0x42 seq ([0x00, laneByte l, copy.code, natByte item.val] ++ rest))
    (copy = .active → answers (2 :: content L.active.generation L.active.body L.active.derived)) ∧
    (∀ p, copy = .retiring → L.retiring = some p → answers (2 :: content p.generation p.body p.derived)) ∧
    (copy = .retiring → L.retiring = none → answers [0]) ∧
    (copy = .staged → L.staging = .absent → answers [0]) ∧
    (∀ b, copy = .staged → L.staging = .editing b → answers (1 :: content 0 b ⟨0, 0⟩)) ∧
    (∀ b d c, copy = .staged → L.staging = .committing b d c → answers (2 :: content 0 b d))

/-! ## Travel -/

/-- A change of the encoder lines, as the table of R18 and the direction swap read it. On an ENCODER lane a forward step
behind the reach and a reverse step within the limits move the position alone, a reverse step at depth 65,536 moves the
reach with it, and a forward step onto the reach takes the confirm sensor's level and no advance, and an entry-sensor
level that differs from the one last taken as one edge at the reach; an illegal transition on a lane that does not track
has no effect but the pair held. On a CLOCK lane the lines have no effect (R14, R16, R18, R19, R25, R121). That a change
to the pair already held has no effect is no row of the table but the model's reading: assumption log 6. -/
def Obligations.EncoderSteps : Prop :=
  ∀ (s : State) (l : LaneId) (a b : Bool),
    let L := s.lane l
    let table := quadratureTable (L.encoder.a, L.encoder.b) (a, b)
    let step : QuadStep :=
      if L.config.swap then
        (match table with
          | .forward => .reverse
          | .reverse => .forward
          | other => other)
      else table
    let heard : State := s.setLaneInputs l { s.laneInputs l with encoderA := a, encoderB := b }
    let K : Lane := { L with encoder := ⟨a, b⟩ }
    let becomes (M : Lane) : Prop := exec (.encoderChange l a b) s = .next (heard.setLane l M).transmitNext
    (L.config.source = .clock → exec (.encoderChange l a b) s = .next heard.transmitNext) ∧
    (L.config.source = .encoder →
      (step = .none → becomes K) ∧
      (step = .illegal → L.tracking = false → becomes K) ∧
      (step = .forward → 2 ≤ L.depth.toNat → becomes { K with position := L.position + 1 }) ∧
      (step = .forward → L.depth = 1 →
        let M : Lane := { K with position := L.position + 1, confirmLevel := (s.laneInputs l).confirm }
        (L.tracking = false ∨ L.entryLevel = (s.laneInputs l).entry → becomes M) ∧
        exec (.encoderChange l a b) s = exec (.entrySensorEdge l (s.laneInputs l).entry) (heard.setLane l M)) ∧
      (step = .reverse → L.depth.toNat < 65536 →
        L.tracking = false ∨ L.depth.toNat + 1 ≤ L.config.reverseLimit.toNat →
        becomes { K with position := L.position - 1 }) ∧
      (step = .reverse → L.depth.toNat = 65536 → L.tracking = false →
        becomes { K with position := L.position - 1, reach := L.reach - 1 }))

/-- A lane that tracks is halted by a reverse step past its reverse limit, which is counted, and by an illegal
transition, which is not: its tickets are abandoned, HALT joins the stop reasons, a waiting commit installs with its
COMMITTED report and the HALTED report comes last (R12, R15, R18, R53, R75, R112, R129). -/
def Obligations.EncoderHalts : Prop :=
  ∀ (s : State) (l : LaneId) (a b : Bool) (reason : HaltReason) (position : Pos),
    let L := s.lane l
    let table := quadratureTable (L.encoder.a, L.encoder.b) (a, b)
    L.config.source = .encoder → L.tracking = true →
    (reason = .encoder ∧ table = .illegal ∧ position = L.position ∨
      reason = .reverse ∧ table = (if L.config.swap then .forward else .reverse) ∧ L.depth.toNat < 65536 ∧
        L.config.reverseLimit.toNat < L.depth.toNat + 1 ∧ position = L.position - 1) →
    let heard : State := s.setLaneInputs l { s.laneInputs l with encoderA := a, encoderB := b }
    let H : Lane :=
      { ({ L with encoder := ⟨a, b⟩, position := position } : Lane).abandoned .halted with
        stops := { L.stops with halt := true } }
    let last (t : State) : State := (t.produce (.halted l reason (natByte L.queue.length))).transmitNext
    (L.noCommit → exec (.encoderChange l a b) s = .next (last (heard.setLane l H))) ∧
    (∀ body derived c, L.staging = .committing body derived c →
      exec (.encoderChange l a b) s = .next (last
        ((heard.setLane l
          { H with
            active := { generation := L.active.generation + 1, body := body, derived := derived }
            staging := .absent }).produce
          (.committed l (L.active.generation + 1) L.nextSerial))))

/-- An advance of the reach, by a tick of a CLOCK lane or a forward step at depth 0: the reach attains the next
position, and the lane's blocks make exactly the acts whose conditions hold there (`Lane.Holds`), each block its own in
serial order (`Lane.blocks`), the blocks among themselves in an order that the manual leaves open; an act whose
condition has gone when its turn comes has no effect. With no act nothing else changes. A tick starts the next interval;
a stopped timer does not tick (R14, R17, R20, R30, R32, R49, R52, R57, R78, R95, R103, R104, R106, R125). The open
order, at which the count of free values rises by at most 1, and the second look at a condition are the model's:
assumption log 3. That a tick of a stopped timer has no effect is the model's reading: assumption log 6. -/
def Obligations.ReachAdvances : Prop :=
  ∀ (s : State) (l : LaneId),
    let L := s.lane l
    let moves (c : Instr) (base : State) (M : Lane) : Prop :=
      ∃ (acts : List BeltAct) (taken : Nat),
        (∀ act, act ∈ acts ↔ M.Holds act) ∧
        (∀ block ∈ M.blocks, (acts.filter fun act => act ∈ block).Sublist block) ∧
        (taken = s.freeIndex ∨ taken = s.freeIndex + 1 ∧ 2 ≤ acts.length) ∧
        exec c s = .next (State.transmitNext
          (acts.foldl (State.runAct l) { base.setLane l M with freeIndex := taken }))
    (L.tickTimer.isSome → L.depth = 0 →
      moves (.clockTick l) s
        { L with
          tickTimer := some L.config.tickInterval.toNat
          position := L.position + 1
          reach := L.position + 1 }) ∧
    (L.tickTimer = none → exec (.clockTick l) s = .next s.transmitNext) ∧
    (∀ act, ¬ L.Holds act → State.runAct l s act = s) ∧
    (∀ a b : Bool, L.config.source = .encoder → L.depth = 0 →
      quadratureTable (L.encoder.a, L.encoder.b) (a, b) = (if L.config.swap then .reverse else .forward) →
      moves (.encoderChange l a b) (s.setLaneInputs l { s.laneInputs l with encoderA := a, encoderB := b })
        { L with encoder := ⟨a, b⟩, position := L.position + 1, reach := L.position + 1 })

/-! ## Entry detection and admission -/

/-- Entry-sensor edges. Outside RUNNING and DRAINING, above depth 0, and at the level last taken, nothing is taken. A
presence edge in CLEAR latches the leading position and the limits; in GAP_WAIT below Lmax it joins the item, and at
Lmax or more it hands the item on as LONG. A clearing edge below Lmin is a glitch, told if the mask lets it; at Lmin or
more it starts the gap, or with G = 0 hands the item on at once; in BLOCKED it closes the open interval at q + G.
Wherever the detector returns to CLEAR, a waiting commit and a drain may take it up; a lane that the drop policy halted
stays CLEAR. That the GLITCH report comes before the COMMITTED report of a boundary which the same glitch reaches is
the model's choice (assumption log 13) (R23 to R29, R31, R33 to R35, R47, R56). -/
def Obligations.EntryEdges : Prop :=
  ∀ (s : State) (l : LaneId) (present : Bool),
    let L := s.lane l
    let heard : State := s.setLaneInputs l { s.laneInputs l with entry := present }
    let c : Instr := .entrySensorEdge l present
    let taken (M : Lane) : State := heard.setLane l { M with entryLevel := present }
    let becomes (M : Lane) : Prop := exec c s = .next (taken M).transmitNext
    let cleared (t : State) : State := (t.setLane l { t.lane l with detector := .clear }).detectorCleared l
    (L.tracking = false ∨ L.depth ≠ 0 ∨ L.entryLevel = present → exec c s = .next heard.transmitNext) ∧
    (L.tracking = true → L.depth = 0 → L.entryLevel ≠ present → present = true →
      (L.detector = .clear →
        becomes
          { L with
            detector :=
              .inItem L.position
                { lmin := L.active.body.fields.lmin
                  lmax := L.active.body.fields.lmax
                  gap := L.active.body.fields.gap } }) ∧
      (∀ leading trailing lim, L.detector = .gapWait leading trailing lim →
        ((L.position - leading).toNat < lim.lmax.toNat → becomes { L with detector := .inItem leading lim }) ∧
        (lim.lmax.toNat ≤ (L.position - leading).toNat →
          let t := (taken L).askPool l leading lim.lmax lim.gap true
          exec c s = .next (State.transmitNext
            (if (t.lane l).state = .halted then t
            else t.setLane l { t.lane l with detector := .blocked leading lim }))))) ∧
    (L.tracking = true → L.depth = 0 → L.entryLevel ≠ present → present = false →
      (L.detector = .clear → becomes L) ∧
      (∀ leading lim, L.detector = .inItem leading lim → lim.lmin.toNat ≤ (L.position - leading).toNat →
        (lim.gap ≠ 0 → becomes { L with detector := .gapWait leading L.position lim }) ∧
        (lim.gap = 0 →
          let t := (taken L).askPool l leading ((L.position - leading).setWidth 16) 0 false
          exec c s = .next (State.transmitNext (if (t.lane l).state = .halted then t else cleared t)))) ∧
      (∀ leading lim, L.detector = .inItem leading lim → (L.position - leading).toNat < lim.lmin.toNat →
        let t := taken { L with glitchCount := saturatingSucc L.glitchCount }
        exec c s = .next (State.transmitNext (cleared
          (if L.config.maskGlitch then t.produce (.glitch l leading ((L.position - leading).setWidth 16)) else t)))) ∧
      (∀ leading lim, L.detector = .blocked leading lim →
        exec c s = .next (State.transmitNext (cleared
          (taken
            { L with
              blind := L.blind.map fun i =>
                if i.stop = none then { i with stop := some (L.position + lim.gap.setWidth 32) } else i })))))

/-- The detector's acts at an advance: at trailing + G the item is handed to the pool with its measured length and the
detector returns to CLEAR, which a waiting commit and a drain may take up; at leading + Lmax it is handed on as LONG
with length Lmax and the detector enters BLOCKED; a lane that the drop policy halted stays CLEAR (R30, R32, R34, R35,
R47). -/
def Obligations.DetectorAdmits : Prop :=
  ∀ (s : State) (l : LaneId) (leading trailing : Pos) (lim : Limits), (s.lane l).tracking = true →
    ((s.lane l).detector = .gapWait leading trailing lim → (s.lane l).reach = trailing + lim.gap.setWidth 32 →
      let t := s.askPool l leading ((trailing - leading).setWidth 16) lim.gap false
      State.runAct l s .detector =
        if (t.lane l).state = .halted then t
        else (t.setLane l { t.lane l with detector := .clear }).detectorCleared l) ∧
    ((s.lane l).detector = .inItem leading lim → (s.lane l).reach = leading + lim.lmax.setWidth 32 →
      let t := s.askPool l leading lim.lmax lim.gap true
      State.runAct l s .detector =
        if (t.lane l).state = .halted then t else t.setLane l { t.lane l with detector := .blocked leading lim })

/-- The pool's answer to an admission request. It is refused in DRAINING, at the limit, and, at the reserve or above it,
with no shared record; a refusal consumes the serial, counts the drop, adds the interval of the item and its gap
(appended below 4, else the newest interval takes its end) and appends a DROPPED report; the drop policy then adds the
DROP reason or halts the lane. Otherwise the ticket takes the highest free index, joins the tail of the queue under the
active generation with its outcomes PENDING, and an ENTRY report follows the mask. Either way the next serial advances,
and a commit PENDING at that serial has its boundary reached, after the report and before the drop policy (R36, R37,
R39, R40, R42, R44 to R47, R55, R68, R69). -/
def Obligations.PoolAnswers : Prop :=
  ∀ (s : State) (l : LaneId) (entry : Pos) (length gap : Half) (long : Bool),
    let L := s.lane l
    let used := (allLanes.map fun j => (s.lane j).queue.length).sum
    let short := (allLanes.map fun j => (s.lane j).config.reserve.toNat - (s.lane j).queue.length).sum
    let next : Serial := if L.nextSerial = 4294967295 then 1 else L.nextSerial + 1
    let counted : Lane := { L with nextSerial := next, wrapped := L.wrapped || L.nextSerial == 4294967295 }
    let advanced (u : State) : State :=
      match L.staging with
      | .committing _ _ (.pending (.atSerial n)) => if n = next then u.reachBoundary l else u
      | _ => u
    (∀ reason : DropReason,
      (reason = .draining ∧ L.state = .draining ∨
        reason = .limit ∧ L.state = .running ∧ L.queue.length = L.config.limit.toNat ∨
        reason = .pool ∧ L.state = .running ∧ L.queue.length ≠ L.config.limit.toNat ∧
          L.config.reserve.toNat ≤ L.queue.length ∧ 64 - used - short = 0) →
      let interval : Interval :=
        { start := entry
          stop := if long then none else some (entry + length.setWidth 32 + gap.setWidth 32) }
      let dropped : State := advanced
        ((s.setLane l
          { counted with
            dropCount := saturatingSucc L.dropCount
            blind := withInterval L.blind interval }).produce (.dropped l L.nextSerial entry reason))
      (L.config.dropPolicy = .report → s.askPool l entry length gap long = dropped) ∧
      (L.config.dropPolicy = .stop →
        s.askPool l entry length gap long =
          dropped.setLane l { dropped.lane l with stops := { (dropped.lane l).stops with drop := true } }) ∧
      (L.config.dropPolicy = .halt → s.askPool l entry length gap long = dropped.haltLane l .drop)) ∧
    (∀ index : TicketIndex, L.state = .running → L.queue.length ≠ L.config.limit.toNat →
      (L.queue.length < L.config.reserve.toNat ∨ 0 < 64 - used - short) →
      (∀ (j : LaneId), ∀ t ∈ (s.lane j).queue, t.index ≠ index) →
      (∀ higher : TicketIndex, index < higher → ∃ (j : LaneId), ∃ t ∈ (s.lane j).queue, t.index = higher) →
      let ticket : Ticket :=
        { index := index
          lane := l
          serial := L.nextSerial
          generation := L.active.generation
          entry := entry
          length := length
          long := long
          decision := .undecided
          outcomes := (allStations.filter fun k => (L.active.body.stations[k]).act ≠ .off).map fun k => (k, .pending)
          confirm :=
            if (allStations.any fun k => (L.active.body.stations[k]).confirm.isSome) then some .notFired else none }
      let admitted : State := s.setLane l { counted with queue := L.queue ++ [ticket] }
      s.askPool l entry length gap long = advanced
        (if L.config.maskEntry then
          admitted.produce (.entry l L.nextSerial index entry length long L.active.generation)
        else admitted))

/-! ## Tickets on the belt -/

/-- The points of a ticket that its lane attains. At the deadline an OPEN decision becomes FINAL with the default class
of its generation and a DECIDED one FINAL with source HOST. At the retire point the ticket leaves the queue with its
FATE report, its decision made FINAL in the same way. Then, in this order: the last ticket of the retiring generation
takes the retiring profile with it, and a HELD commit installs; an empty queue with the detector CLEAR reaches the
boundary of a commit PENDING at WHEN_CLEAR; a drain that has nothing left is complete. The reach passes closed blind
intervals by the removal distance, retire span plus flush margin of the active profile: they leave the list, and a drain
may be complete (R9, R49 to R51, R57, R68, R73, R74, R79 to R81). -/
def Obligations.DeadlineAndRetirement : Prop :=
  ∀ (s : State) (l : LaneId),
    let L := s.lane l
    (∀ t : Ticket, L.queue.find? (fun u => u.serial == t.serial) = some t →
      let fixed (u : Ticket) : Decision :=
        match u.decision with
        | .undecided => .final (L.profileOf u.generation).body.fields.defaultClass .default none
        | .decided c tag => .final c .host tag
        | .final c source tag => .final c source tag
      let fate : List Report :=
        match fixed t with
        | .final c source tag =>
          if L.config.maskFate then [.fate t.lane t.serial c source tag t.outcomes t.confirm] else []
        | _ => []
      let rest := L.queue.filter fun u => u.serial != t.serial
      let left (M : Lane) : State := fate.foldl State.produce (s.setLane l { M with queue := rest })
      let ends (u : State) : State :=
        State.testDrain
          (match L.staging with
            | .committing _ _ (.pending .whenClear) =>
              if rest = [] ∧ L.detector = .clear then u.reachBoundary l else u
            | _ => u) l
      (L.reach = t.entry + (L.profileOf t.generation).derived.decisionOffset.setWidth 32 →
        State.runAct l s (.deadline t.serial) = s.setLane l
          { L with queue := L.queue.map fun u => if u.serial = t.serial then { u with decision := fixed u } else u }) ∧
      (L.reach = t.entry + (L.profileOf t.generation).derived.retireSpan.setWidth 32 →
        (L.retiring = none ∨ (∃ p, L.retiring = some p ∧ ∃ u ∈ rest, u.generation = p.generation) →
          State.runAct l s (.retire t.serial) = ends (left L)) ∧
        (∀ p, L.retiring = some p → (∀ u ∈ rest, u.generation ≠ p.generation) →
          ((∀ body derived, L.staging ≠ .committing body derived .held) →
            State.runAct l s (.retire t.serial) = ends (left { L with retiring := none })) ∧
          (∀ body derived, L.staging = .committing body derived .held →
            State.runAct l s (.retire t.serial) = ((left { L with retiring := none }).install l).testDrain l)))) ∧
    (let passed (i : Interval) : Bool :=
      i.passed L.reach (L.active.derived.retireSpan.toNat + L.active.body.fields.flushMargin.toNat)
    (∃ i ∈ L.blind, passed i = true) →
      State.runAct l s .blind = (s.setLane l { L with blind := L.blind.filter fun i => !passed i }).testDrain l)

/-- The points of a ticket at a station. At the due point, with the outcome PENDING, a CLASS station first makes the
decision FINAL and passes the ticket when the class is not in its mask; a ticket that rule ALWAYS or the class serves is
MISSED under the guard; otherwise an IDLE PULSE station fires, a busy one misses it under DROP and under tolerance 0,
and else defers it at its place in serial order, and a SPAN station fires and its span ends at the further of the two
off points. A deferred ticket whose tolerance end the reach attains leaves the list and is MISSED, with GUARD under an
asserted guard and else LATE. At a span end the span is over. The confirm monitor is told of each fire, pass and miss
(R95 to R99, R101, R103, R105, R106). -/
def Obligations.DuePoints : Prop :=
  ∀ (s : State) (l : LaneId) (k : StationId) (t : Ticket),
    let L := s.lane l
    let p := L.profileOf t.generation
    let act := (p.station k).act
    let S := L.station k
    let fixed (d : Decision) : Decision :=
      match d with
      | .undecided => .final p.body.fields.defaultClass .default none
      | .decided c tag => .final c .host tag
      | .final c source tag => .final c source tag
    let ruled (d : Decision) : Decision :=
      match act.rule? with
      | some (.onClass _) => fixed d
      | _ => d
    let sets (f : Decision → Decision) (o : Outcome) : List Ticket :=
      L.queue.map fun u =>
        if u.serial = t.serial then
          { u with decision := f u.decision, outcomes := u.outcomes.map fun e => if e.1 = k then (k, o) else e }
        else u
    let becomes (x : Station) (queue : List Ticket) : State :=
      s.setLane l { L with stations := L.stations.set k x, queue := queue }
    let misses (x : Station) (f : Decision → Decision) (reason : MissReason) : State :=
      State.tellNotDue ((becomes x (sets f (.missed reason))).produce (.missed l k t.serial reason)) l k t
    let back (n : Serial) : Nat := (L.nextSerial.toNat + 4294967295 - n.toNat) % 4294967295
    L.queue.find? (fun u => u.serial == t.serial) = some t →
    (∀ on, act.on? = some on → L.reach = t.entry + on.setWidth 32 →
      t.outcomes.find? (fun e => e.1 == k) = some (k, .pending) →
      let after := State.runAct l s (.due k t.serial)
      (∀ mask c source tag, act.rule? = some (.onClass mask) → fixed t.decision = .final c source tag →
        mask.getLsbD c.val = false →
        after = State.tellNotDue (s.setLane l { L with queue := sets fixed .passed }) l k t) ∧
      (act.rule? = some .always ∨
          (∃ mask c source tag, act.rule? = some (.onClass mask) ∧ fixed t.decision = .final c source tag ∧
            mask.getLsbD c.val = true) →
        (s.guardAsserted = true → after = misses S ruled .guard) ∧
        (s.guardAsserted = false →
          (∀ width rearm busy rule flush, act = .pulse on width rearm busy rule flush →
            (S.pulse = .idle →
              after = State.tellFired
                (becomes { S with pulse := .pulsing width.toNat rearm } (sets ruled .fired)) l k t) ∧
            (S.pulse ≠ .idle →
              (busy = .drop → after = misses S ruled .busy) ∧
              (busy = .defer 0 → after = misses S ruled .late) ∧
              (∀ tolerance older newer, busy = .defer tolerance → tolerance ≠ 0 → S.deferred = older ++ newer →
                (∀ d ∈ older, back t.serial ≤ back d.serial) →
                (∀ d rest, newer = d :: rest → back d.serial < back t.serial) →
                after = becomes
                  { S with
                    deferred := older ++
                      { serial := t.serial
                        toleranceEnd := t.entry + on.setWidth 32 + tolerance.setWidth 32 } :: newer }
                  (sets ruled .deferred)))) ∧
          (∀ off rule flush, act = .span on off rule flush →
            let mine := t.entry + off.setWidth 32
            after = State.tellFired
              (becomes
                { S with
                  spanEnd := some
                    (match S.spanEnd with
                      | none => mine
                      | some e => if e - L.reach < mine - L.reach then mine else e) }
                (sets ruled .fired)) l k t)))) ∧
    ((∃ d ∈ S.deferred, d.serial = t.serial ∧ d.toleranceEnd = L.reach) →
      State.runAct l s (.tolerance k t.serial) =
        misses { S with deferred := S.deferred.filter fun d => d.serial != t.serial } id
          (if s.guardAsserted then .guard else .late)) ∧
    (S.spanEnd = some L.reach → State.runAct l s (.spanEnd k) = becomes { S with spanEnd := none } L.queue)

/-! ## Stations, guard and confirmation -/

/-- The pulse timer. A pulse that ends goes to REARM with its latched rearm time, or with none to IDLE; a rearm time
that ends goes to IDLE. At IDLE with the guard released the oldest deferred ticket fires, with the width and rearm time
of its own generation, and the confirm monitor is told; under the guard it waits. In another pulse state the event has
no effect (R98, R100, R102, R107). That last clause is the model's reading: assumption log 6. -/
def Obligations.PulseTimer : Prop :=
  ∀ (s : State) (l : LaneId) (k : StationId) (c : Instr),
    let L := s.lane l
    let S := L.station k
    let becomes (x : Station) : Prop :=
      exec c s = .next (s.setLane l { L with stations := L.stations.set k x }).transmitNext
    let idles : Prop :=
      (∃ left, c = .pulseEnd l k ∧ S.pulse = .pulsing left 0) ∨ (∃ left, c = .rearmEnd l k ∧ S.pulse = .rearming left)
    (∀ left rearm, c = .pulseEnd l k → S.pulse = .pulsing left rearm → rearm ≠ 0 →
      becomes { S with pulse := .rearming rearm.toNat }) ∧
    (idles → s.guardAsserted = true ∨ S.deferred = [] → becomes { S with pulse := .idle }) ∧
    (∀ d rest t on width rearm busy rule flush, idles → s.guardAsserted = false → S.deferred = d :: rest →
      L.queue.find? (fun u => u.serial == d.serial) = some t →
      ((L.profileOf t.generation).station k).act = .pulse on width rearm busy rule flush →
      exec c s = .next (State.transmitNext (State.tellFired (s.setLane l
        { L with
          stations := L.stations.set k { S with pulse := .pulsing width.toNat rearm, deferred := rest }
          queue := L.queue.map fun u =>
            if u.serial = t.serial then
              { u with outcomes := u.outcomes.map fun e => if e.1 = k then (k, .fired) else e }
            else u }) l k t))) ∧
    (c = .pulseEnd l k → (∀ left rearm, S.pulse ≠ .pulsing left rearm) → exec c s = .next s.transmitNext) ∧
    (c = .rearmEnd l k → (∀ left, S.pulse ≠ .rearming left) → exec c s = .next s.transmitNext)

/-- A change of the guard input is told by one GUARD report. An assertion cuts every running pulse and starts its rearm
time in full, and changes nothing else of a lane; a release lets every idle station with deferred tickets make its
deferred fire, in an open order (assumption log 3), unless a halt that another's fire brought about has emptied its list
before its turn. A level that the input already has is no change (R107, R108, R116, R117). That last clause is the
model's reading: assumption log 6. The GUARD report comes before the stations' acts: assumption log 11. -/
def Obligations.GuardChanges : Prop :=
  ∀ s : State,
    let heard (energised : Bool) : State := { s with inputs := { s.inputs with guardLine := energised } }
    let told (energised : Bool) : State :=
      { heard energised with guardAsserted := !energised }.produce (.guard (!energised))
    let fires (l : LaneId) (k : StationId) : Prop :=
      ((s.lane l).station k).pulse = .idle ∧ ((s.lane l).station k).deferred ≠ []
    (∀ energised : Bool, s.guardAsserted = !energised →
      exec (.guardChange energised) s = .next (heard energised).transmitNext) ∧
    (s.guardAsserted = false →
      exec (.guardChange false) s = .next (State.transmitNext ((told false).mapLanes fun L =>
        { L with
          stations := L.stations.map fun S =>
            { S with
              pulse :=
                match S.pulse with
                | .pulsing _ rearm => if rearm = 0 then .idle else .rearming rearm.toNat
                | other => other } }))) ∧
    (s.guardAsserted = true → (∀ l k, ¬ fires l k) → exec (.guardChange true) s = .next (told true).transmitNext) ∧
    (∀ l k, s.guardAsserted = true → fires l k → (∀ l' k', fires l' k' → l' = l ∧ k' = k) →
      exec (.guardChange true) s = .next ((told true).deferredFire l k).transmitNext) ∧
    (s.guardAsserted = true →
      ∃ (order : List (LaneId × StationId)) (taken : Nat),
        order.Nodup ∧ (∀ l k, (l, k) ∈ order ↔ fires l k) ∧
        (taken = s.freeIndex ∨ taken = s.freeIndex + 1 ∧ 2 ≤ order.length) ∧
        exec (.guardChange true) s = .next (State.transmitNext (order.foldl
          (fun t x =>
            if ((t.lane x.1).station x.2).pulse = .idle ∧ ((t.lane x.1).station x.2).deferred ≠ [] then
              t.deferredFire x.1 x.2
            else t)
          { told true with freeIndex := taken })))

/-- Confirm-sensor changes. Outside RUNNING and DRAINING the monitor follows the level; above depth 0 it takes nothing;
a clearing edge, and a presence edge while a confirm station of the active or retiring profile is under a flush hold,
take the level alone. Another presence edge confirms the oldest open window that contains the reach, which leaves the
set, and without one is a STRAY (R121 to R124). That the monitor follows the level at every depth outside RUNNING and
DRAINING is the model's reading: assumption log 11. -/
def Obligations.ConfirmEdges : Prop :=
  ∀ (s : State) (l : LaneId) (present : Bool),
    let L := s.lane l
    let heard : State := s.setLaneInputs l { s.laneInputs l with confirm := present }
    let c : Instr := .confirmSensorEdge l present
    let K : Lane := { L with confirmLevel := present }
    let becomes (M : Lane) : Prop := exec c s = .next (heard.setLane l M).transmitNext
    let held : Prop :=
      ∃ k : StationId, L.flushHold k = true ∧
        (L.active.body.confirmStation = some k ∨ ∃ p, L.retiring = some p ∧ p.body.confirmStation = some k)
    (L.tracking = false → becomes K) ∧
    (L.tracking = true → L.depth ≠ 0 → exec c s = .next heard.transmitNext) ∧
    (L.tracking = true → L.depth = 0 →
      (present = false ∨ L.confirmLevel = true → becomes K) ∧
      (present = true → L.confirmLevel = false →
        (held → becomes K) ∧
        (∀ older w newer, ¬ held → L.windows = older ++ w :: newer →
          (∀ v ∈ older, ¬ L.reach - v.start < v.stop - v.start) → L.reach - w.start < w.stop - w.start →
          becomes
            { K with
              queue := L.queue.map fun u => if u.serial = w.serial then { u with confirm := some .confirmed } else u
              windows := L.windows.filter fun v => v.serial != w.serial }) ∧
        (¬ held → (∀ v ∈ L.windows, ¬ L.reach - v.start < v.stop - v.start) →
          exec c s = .next ((heard.setLane l K).produce (.stray l L.reach)).transmitNext)))

/-- The confirm monitor as it is told of a station's acts. At a station without confirm nothing follows. At the one
confirm station of a ticket's profile a pass and a miss make the ticket NOT_DUE. A fire opens the window [entry + on +
window start, entry + on + window end) at its place in serial order while its end lies ahead of the reach; a window
whose end lies behind it is UNCONFIRMED at once, and so is an open one whose end the reach attains, which leaves the
set. The UNCONFIRMED report names the station, and the confirm policy adds the CONFIRM reason or halts the lane (R98,
R119, R120, R125, R126). -/
def Obligations.ConfirmWindows : Prop :=
  ∀ (s : State) (l : LaneId),
    let L := s.lane l
    let marks (n : Serial) (c : ConfirmState) : List Ticket :=
      L.queue.map fun u => if u.serial = n then { u with confirm := some c } else u
    let failed (n : Serial) (k : StationId) (windows : List Window) : State :=
      let t := (s.setLane l { L with queue := marks n .unconfirmed, windows := windows }).produce (.unconfirmed l n k)
      match L.config.confirmPolicy with
      | .report => t
      | .stop => t.setLane l { t.lane l with stops := { L.stops with confirm := true } }
      | .halt => t.haltLane l .confirm
    let back (n : Serial) : Nat := (L.nextSerial.toNat + 4294967295 - n.toNat) % 4294967295
    (∀ (k : StationId) (t : Ticket),
      let p := L.profileOf t.generation
      ((p.station k).confirm = none → s.tellFired l k t = s ∧ s.tellNotDue l k t = s) ∧
      (∀ w, (p.station k).confirm = some w → (∀ j : StationId, (p.station j).confirm.isSome → j = k) →
        s.tellNotDue l k t = s.setLane l { L with queue := marks t.serial .notDue } ∧
        (∀ on, (p.station k).act.on? = some on →
          let start := t.entry + on.setWidth 32 + w.start.setWidth 32
          let stop := t.entry + on.setWidth 32 + w.stop.setWidth 32
          (∀ older newer, 2147483648 ≤ (L.reach - stop).toNat → L.windows = older ++ newer →
            (∀ v ∈ older, back t.serial ≤ back v.serial) →
            (∀ v rest, newer = v :: rest → back v.serial < back t.serial) →
            s.tellFired l k t = s.setLane l
              { L with
                queue := marks t.serial .waiting
                windows := older ++ { serial := t.serial, station := k, start := start, stop := stop } :: newer }) ∧
          ((L.reach - stop).toNat < 2147483648 → s.tellFired l k t = failed t.serial k L.windows)))) ∧
    (∀ w, L.windows.find? (fun v => v.serial == w.serial) = some w → L.reach = w.stop →
      State.runAct l s (.windowEnd w.serial) =
        failed w.serial w.station (L.windows.filter fun v => v.serial != w.serial))

/-! ## Laws that every step keeps -/

/-- Every step keeps the bounds of the reply queue and of the reply history, and the history's sequence bytes distinct
(R140, R142). -/
def Obligations.LinkLawKept : Prop :=
  ∀ s t : State, s.LinkLaw → step s = .next t → t.LinkLaw

/-- Every step keeps the law of the report store: the reports in flight are the oldest, carry consecutive numbers and
stay within the window; at most 48 reports are held, and reports are lost only at a full store (R173 to R178, R181,
R183, R184). -/
def Obligations.StoreLawKept : Prop :=
  ∀ s t : State, s.StoreLaw → step s = .next t → t.StoreLaw

/-- Every step keeps the law of travel on every lane: the depth stays within 65,536 and, while the lane tracks, within
its reverse limit; a CLOCK lane has depth 0 and a running tick timer, an ENCODER lane a stopped one (R14 to R16,
R20). -/
def Obligations.TravelLawKept : Prop :=
  ∀ s t : State, s.TravelLaw → step s = .next t → t.TravelLaw

/-- Every step keeps the law of the lane: a lane that does not track holds no ticket, no blind interval, no measured
item and no waiting commit; HALT is a stop reason exactly in HALTED; every ticket has the active or the retiring
generation, which follow one another; a retiring profile has a ticket, and a HELD commit a retiring profile (R48, R54,
R58, R70, R73, R75, R129). -/
def Obligations.LaneLawKept : Prop :=
  ∀ s t : State, s.LaneLaw → step s = .next t → t.LaneLaw

/-- Every step keeps the law of the blind list, from a state that keeps the law of the lane (R54 to R57). -/
def Obligations.BlindLawKept : Prop :=
  ∀ s t : State, s.LaneLaw → s.BlindLaw → step s = .next t → t.BlindLaw

/-- Every step keeps the law of the pool, from a state that keeps the law of the lane: no record holds two tickets,
every ticket is in the queue of the lane it names, reserves and tickets fit the 64 records, and no queue passes its
lane's limit (R4, R36, R38, R39). -/
def Obligations.PoolLawKept : Prop :=
  ∀ s t : State, s.LaneLaw → s.PoolLaw → step s = .next t → t.PoolLaw

/-- An event on one lane's lines or timers leaves every other lane, the session, the reply queue and history, the
counters and the guard as they were (section 0.4). -/
def Obligations.LanesAreSeparate : Prop :=
  ∀ (s t : State) (l j : LaneId) (c : Instr),
    ((∃ a b, c = .encoderChange l a b) ∨ c = .clockTick l ∨ (∃ p, c = .entrySensorEdge l p) ∨
      (∃ p, c = .confirmSensorEdge l p) ∨ (∃ k, c = .pulseEnd l k) ∨ (∃ k, c = .rearmEnd l k)) →
    j ≠ l → exec c s = .next t →
    t.lane j = s.lane j ∧ t.laneInputs j = s.laneInputs j ∧ t.guardAsserted = s.guardAsserted ∧
      t.link.session = s.link.session ∧ t.link.replies = s.link.replies ∧ t.link.history = s.link.history ∧
      t.link.counters = s.link.counters ∧ t.link.receiver = s.link.receiver

/-! ## Events inside a lane that several commands lead to -/

/-- The events of a lane that other statements name. A halt of a lane that tracks abandons its tickets, joins HALT to
the stop reasons and closes with the HALTED report; outside RUNNING and DRAINING it has no effect. An installation makes
the active profile retiring while a ticket has its generation, takes the next generation, removes the blind intervals
that the reach has passed by the new removal distance, and is told with COMMITTED. A boundary that is reached makes the
commit HELD beside a retiring profile and else installs it, which can complete a drain. A drain is complete when a
DRAINING lane holds no ticket, no interval and no measured item: DISABLED, DRAINED, and a waiting commit installs. The
detector's return to CLEAR reaches a WHEN_CLEAR boundary on an empty queue and tests the drain, in either order where
both act (R9, R12, R35, R53, R57, R68, R70 to R73, R75, R112, R129). That the blind check of an installation can
complete a drain is the model's reading: assumption log 11; the open order is a free value: assumption log 3. -/
def Obligations.LaneEvents : Prop :=
  ∀ (s : State) (l : LaneId),
    let L := s.lane l
    let drained : Prop := L.state = .draining ∧ L.queue = [] ∧ L.blind = [] ∧ L.detector = .clear
    let clear : Prop :=
      L.queue = [] ∧ L.detector = .clear ∧ ∃ body derived, L.staging = .committing body derived (.pending .whenClear)
    let fills (M : Lane) (body : ProfileBody) (derived : Derived) : Lane :=
      { M with
        active := { generation := L.active.generation + 1, body := body, derived := derived }
        staging := .absent }
    let committed (t : State) : State := t.produce (.committed l (L.active.generation + 1) L.nextSerial)
    (∀ reason : HaltReason,
      let H : Lane := { L.abandoned .halted with stops := { L.stops with halt := true } }
      let told (t : State) : State := t.produce (.halted l reason (natByte L.queue.length))
      (L.tracking = false → s.haltLane l reason = s) ∧
      (L.tracking = true → L.noCommit → s.haltLane l reason = told (s.setLane l H)) ∧
      (∀ body derived c, L.tracking = true → L.staging = .committing body derived c →
        s.haltLane l reason = told (committed (s.setLane l (fills H body derived))))) ∧
    (∀ body derived c, L.staging = .committing body derived c →
      s.install l = committed (s.setLane l (fills
        { L with
          retiring := if (∃ t ∈ L.queue, t.generation = L.active.generation) then some L.active else none
          blind := L.blind.filter fun i =>
            !i.passed L.reach (derived.retireSpan.toNat + body.fields.flushMargin.toNat) }
        body derived))) ∧
    (∀ body derived b, L.staging = .committing body derived (.pending b) →
      (L.retiring.isSome → s.reachBoundary l = s.setLane l { L with staging := .committing body derived .held }) ∧
      (L.retiring = none → s.reachBoundary l = (s.install l).testDrain l)) ∧
    (¬ drained → s.testDrain l = s) ∧
    (drained → L.noCommit → s.testDrain l = (s.setLane l { L with state := .disabled }).produce (.drained l)) ∧
    (∀ body derived c, drained → L.staging = .committing body derived c →
      s.testDrain l = committed
        ((s.setLane l (fills { L with state := .disabled, retiring := none } body derived)).produce (.drained l))) ∧
    (¬ clear → s.detectorCleared l = s.testDrain l) ∧
    (clear → ¬ drained → s.detectorCleared l = s.reachBoundary l) ∧
    (clear → drained →
      let u : State := { s with freeIndex := s.freeIndex + 1 }
      s.detectorCleared l = (u.reachBoundary l).testDrain l ∨ s.detectorCleared l = u.testDrain l)
end

