-- ==== Sys2Proof/Laws/State.lean ====
section
/-! SUPPORT. What each update of the state reads back as: one lemma per field and update, so that no later proof unfolds a
record update. -/

namespace Sys2Proof.Machine

/-! ## One lane -/

@[simp] theorem State.lane_setLane_same (s : State) (l : LaneId) (x : Lane) : (s.setLane l x).lane l = x := by
  simp [State.lane, State.setLane]

theorem State.lane_setLane_ne (s : State) {l j : LaneId} (h : j ≠ l) (x : Lane) :
    (s.setLane l x).lane j = s.lane j := by
  have h' : l.val ≠ j.val := fun e => h (Fin.ext e.symm)
  simp [State.lane, State.setLane, Vector.getElem_set_ne, h']

theorem State.lane_setLane (s : State) (l j : LaneId) (x : Lane) :
    (s.setLane l x).lane j = if j = l then x else s.lane j := by
  by_cases h : j = l
  · subst h; simp
  · simp [h, State.lane_setLane_ne]

@[simp] theorem State.setLane_setLane (s : State) (l : LaneId) (x y : Lane) :
    (s.setLane l x).setLane l y = s.setLane l y := by
  simp [State.setLane, Vector.set_set]

@[simp] theorem State.setLane_self (s : State) (l : LaneId) : s.setLane l (s.lane l) = s := by
  simp [State.setLane, State.lane]

@[simp] theorem State.setLane_pending (s : State) (l : LaneId) (x : Lane) : (s.setLane l x).pending = s.pending := rfl
@[simp] theorem State.setLane_inputs (s : State) (l : LaneId) (x : Lane) : (s.setLane l x).inputs = s.inputs := rfl
@[simp] theorem State.setLane_guardAsserted (s : State) (l : LaneId) (x : Lane) :
    (s.setLane l x).guardAsserted = s.guardAsserted := rfl
@[simp] theorem State.setLane_link (s : State) (l : LaneId) (x : Lane) : (s.setLane l x).link = s.link := rfl
@[simp] theorem State.setLane_store (s : State) (l : LaneId) (x : Lane) : (s.setLane l x).store = s.store := rfl
@[simp] theorem State.setLane_clock (s : State) (l : LaneId) (x : Lane) : (s.setLane l x).clock = s.clock := rfl
@[simp] theorem State.setLane_clockPhase (s : State) (l : LaneId) (x : Lane) :
    (s.setLane l x).clockPhase = s.clockPhase := rfl
@[simp] theorem State.setLane_freeIndex (s : State) (l : LaneId) (x : Lane) :
    (s.setLane l x).freeIndex = s.freeIndex := rfl
@[simp] theorem State.setLane_laneInputs (s : State) (l j : LaneId) (x : Lane) :
    (s.setLane l x).laneInputs j = s.laneInputs j := rfl

theorem State.updLane_eq (s : State) (l : LaneId) (f : Lane → Lane) : s.updLane l f = s.setLane l (f (s.lane l)) := rfl

theorem State.updStation_eq (s : State) (l : LaneId) (k : StationId) (f : Station → Station) :
    s.updStation l k f = s.setLane l ((s.lane l).setStation k (f ((s.lane l).station k))) := rfl

theorem State.updTicket_eq (s : State) (l : LaneId) (n : Serial) (f : Ticket → Ticket) :
    s.updTicket l n f = s.setLane l ((s.lane l).updTicket n f) := rfl

theorem State.updStops_eq (s : State) (l : LaneId) (f : StopReasons → StopReasons) :
    s.updStops l f = s.setLane l { s.lane l with stops := f (s.lane l).stops } := rfl

/-! ## Stations of a lane -/

@[simp] theorem Lane.station_setStation_same (L : Lane) (k : StationId) (x : Station) :
    (L.setStation k x).station k = x := by
  simp [Lane.station, Lane.setStation]

theorem Lane.station_setStation_ne (L : Lane) {k j : StationId} (h : j ≠ k) (x : Station) :
    (L.setStation k x).station j = L.station j := by
  have h' : k.val ≠ j.val := fun e => h (Fin.ext e.symm)
  simp [Lane.station, Lane.setStation, Vector.getElem_set_ne, h']

theorem Lane.mapStations_eq (L : Lane) (f : Station → Station) :
    L.mapStations f = { L with stations := L.stations.map f } := by
  have : #v[f L.stations[0], f L.stations[1], f L.stations[2], f L.stations[3], f L.stations[4], f L.stations[5]] =
      L.stations.map f := by
    apply Vector.ext
    intro i hi
    match i, hi with
    | 0, _ => simp
    | 1, _ => simp
    | 2, _ => simp
    | 3, _ => simp
    | 4, _ => simp
    | 5, _ => simp
  simp only [Lane.mapStations, this]

/-! ## All lanes -/

theorem State.mapLanes_lanes (s : State) (f : Lane → Lane) : (s.mapLanes f).lanes = s.lanes.map f := by
  apply Vector.ext
  intro i hi
  match i, hi with
  | 0, _ => simp [State.mapLanes, State.lane]
  | 1, _ => simp [State.mapLanes, State.lane]
  | 2, _ => simp [State.mapLanes, State.lane]
  | 3, _ => simp [State.mapLanes, State.lane]

@[simp] theorem State.lane_mapLanes (s : State) (f : Lane → Lane) (l : LaneId) :
    (s.mapLanes f).lane l = f (s.lane l) := by
  simp only [State.lane, Fin.getElem_fin, State.mapLanes_lanes, Vector.getElem_map]

@[simp] theorem State.mapLanes_pending (s : State) (f : Lane → Lane) : (s.mapLanes f).pending = s.pending := rfl
@[simp] theorem State.mapLanes_inputs (s : State) (f : Lane → Lane) : (s.mapLanes f).inputs = s.inputs := rfl
@[simp] theorem State.mapLanes_guardAsserted (s : State) (f : Lane → Lane) :
    (s.mapLanes f).guardAsserted = s.guardAsserted := rfl
@[simp] theorem State.mapLanes_link (s : State) (f : Lane → Lane) : (s.mapLanes f).link = s.link := rfl
@[simp] theorem State.mapLanes_store (s : State) (f : Lane → Lane) : (s.mapLanes f).store = s.store := rfl
@[simp] theorem State.mapLanes_clock (s : State) (f : Lane → Lane) : (s.mapLanes f).clock = s.clock := rfl
@[simp] theorem State.mapLanes_clockPhase (s : State) (f : Lane → Lane) :
    (s.mapLanes f).clockPhase = s.clockPhase := rfl
@[simp] theorem State.mapLanes_freeIndex (s : State) (f : Lane → Lane) : (s.mapLanes f).freeIndex = s.freeIndex := rfl

/-! ## Input lines -/

@[simp] theorem State.laneInputs_setLaneInputs_same (s : State) (l : LaneId) (x : LaneInputs) :
    (s.setLaneInputs l x).laneInputs l = x := by
  simp [State.laneInputs, State.setLaneInputs]

theorem State.laneInputs_setLaneInputs_ne (s : State) {l j : LaneId} (h : j ≠ l) (x : LaneInputs) :
    (s.setLaneInputs l x).laneInputs j = s.laneInputs j := by
  have h' : l.val ≠ j.val := fun e => h (Fin.ext e.symm)
  simp [State.laneInputs, State.setLaneInputs, Vector.getElem_set_ne, h']

@[simp] theorem State.lane_setLaneInputs (s : State) (l j : LaneId) (x : LaneInputs) :
    (s.setLaneInputs l x).lane j = s.lane j := rfl
@[simp] theorem State.setLaneInputs_pending (s : State) (l : LaneId) (x : LaneInputs) :
    (s.setLaneInputs l x).pending = s.pending := rfl
@[simp] theorem State.setLaneInputs_guardAsserted (s : State) (l : LaneId) (x : LaneInputs) :
    (s.setLaneInputs l x).guardAsserted = s.guardAsserted := rfl
@[simp] theorem State.setLaneInputs_link (s : State) (l : LaneId) (x : LaneInputs) :
    (s.setLaneInputs l x).link = s.link := rfl
@[simp] theorem State.setLaneInputs_store (s : State) (l : LaneId) (x : LaneInputs) :
    (s.setLaneInputs l x).store = s.store := rfl
@[simp] theorem State.setLaneInputs_clock (s : State) (l : LaneId) (x : LaneInputs) :
    (s.setLaneInputs l x).clock = s.clock := rfl

/-! ## Reports -/

@[simp] theorem State.lane_produce (s : State) (r : Report) (l : LaneId) : (s.produce r).lane l = s.lane l := rfl
@[simp] theorem State.produce_pending (s : State) (r : Report) : (s.produce r).pending = s.pending := rfl
@[simp] theorem State.produce_inputs (s : State) (r : Report) : (s.produce r).inputs = s.inputs := rfl
@[simp] theorem State.produce_laneInputs (s : State) (r : Report) (l : LaneId) :
    (s.produce r).laneInputs l = s.laneInputs l := rfl
@[simp] theorem State.produce_guardAsserted (s : State) (r : Report) : (s.produce r).guardAsserted = s.guardAsserted :=
  rfl
@[simp] theorem State.produce_link (s : State) (r : Report) : (s.produce r).link = s.link := rfl
@[simp] theorem State.produce_clock (s : State) (r : Report) : (s.produce r).clock = s.clock := rfl
@[simp] theorem State.produce_clockPhase (s : State) (r : Report) : (s.produce r).clockPhase = s.clockPhase := rfl
@[simp] theorem State.produce_freeIndex (s : State) (r : Report) : (s.produce r).freeIndex = s.freeIndex := rfl

/-- A report and a change of a lane are made in either order. -/
theorem State.produce_setLane (s : State) (r : Report) (l : LaneId) (x : Lane) :
    (s.setLane l x).produce r = (s.produce r).setLane l x := rfl

@[simp] theorem State.produceIf_true (s : State) (r : Report) : s.produceIf true r = s.produce r := rfl
@[simp] theorem State.produceIf_false (s : State) (r : Report) : s.produceIf false r = s := rfl

@[simp] theorem State.lane_produceIf (s : State) (b : Bool) (r : Report) (l : LaneId) :
    (s.produceIf b r).lane l = s.lane l := by
  cases b <;> rfl

/-! ## The host link -/

@[simp] theorem State.updCounters_lane (s : State) (f : Counters → Counters) (l : LaneId) :
    (s.updCounters f).lane l = s.lane l := rfl
@[simp] theorem State.updCounters_store (s : State) (f : Counters → Counters) : (s.updCounters f).store = s.store := rfl
@[simp] theorem State.updCounters_link (s : State) (f : Counters → Counters) :
    (s.updCounters f).link = { s.link with counters := f s.link.counters } := rfl
@[simp] theorem State.updSession_lane (s : State) (f : Session → Session) (l : LaneId) :
    (s.updSession f).lane l = s.lane l := rfl
@[simp] theorem State.updSession_link (s : State) (f : Session → Session) :
    (s.updSession f).link = { s.link with session := f s.link.session } := rfl

end Sys2Proof.Machine
end

