-- ==== Sys2Proof/Laws/Frame.lean ====
section
/-! SUPPORT. What the acts on one lane can change: that lane, the report store by appended reports, and the count of open
orders. One lemma per operation; a proof about the rest of the state cites these and unfolds none of them. -/

namespace Sys2Proof.Machine

/-! ## The frame -/

/-- The lane's configuration, position, reach and timers stand, and it does not begin to track. -/
structure Lane.Acted (L M : Lane) : Prop where
  config : M.config = L.config
  position : M.position = L.position
  reach : M.reach = L.reach
  encoder : M.encoder = L.encoder
  tickTimer : M.tickTimer = L.tickTimer
  tracking : M.tracking = true → L.tracking = true

/-- `t` differs from `s` in nothing but lane `l`, reports appended to the store, and the count of open orders. -/
structure State.OnLane (l : LaneId) (s t : State) : Prop where
  pending : t.pending = s.pending
  inputs : t.inputs = s.inputs
  guardAsserted : t.guardAsserted = s.guardAsserted
  link : t.link = s.link
  clock : t.clock = s.clock
  clockPhase : t.clockPhase = s.clockPhase
  others : ∀ j, j ≠ l → t.lane j = s.lane j
  store : ∀ P : Store → Prop, (∀ st r, P st → P (st.append s.clock r)) → P s.store → P t.store

/-- An act on lane `l` at the present reach. -/
structure State.Acts (l : LaneId) (s t : State) : Prop extends State.OnLane l s t where
  acted : Lane.Acted (s.lane l) (t.lane l)

theorem Lane.Acted.refl (L : Lane) : Lane.Acted L L := ⟨rfl, rfl, rfl, rfl, rfl, id⟩

theorem Lane.Acted.trans {L M N : Lane} (h : Lane.Acted L M) (k : Lane.Acted M N) : Lane.Acted L N where
  config := k.config.trans h.config
  position := k.position.trans h.position
  reach := k.reach.trans h.reach
  encoder := k.encoder.trans h.encoder
  tickTimer := k.tickTimer.trans h.tickTimer
  tracking := h.tracking ∘ k.tracking

theorem State.OnLane.refl (l : LaneId) (s : State) : State.OnLane l s s :=
  ⟨rfl, rfl, rfl, rfl, rfl, rfl, fun _ _ => rfl, fun _ _ h => h⟩

theorem State.OnLane.trans {l : LaneId} {s t u : State} (h : State.OnLane l s t) (k : State.OnLane l t u) :
    State.OnLane l s u where
  pending := k.pending.trans h.pending
  inputs := k.inputs.trans h.inputs
  guardAsserted := k.guardAsserted.trans h.guardAsserted
  link := k.link.trans h.link
  clock := k.clock.trans h.clock
  clockPhase := k.clockPhase.trans h.clockPhase
  others := fun j hj => (k.others j hj).trans (h.others j hj)
  store := fun P hP hs => k.store P (by rw [h.clock]; exact hP) (h.store P hP hs)

theorem State.Acts.refl (l : LaneId) (s : State) : State.Acts l s s := ⟨.refl l s, .refl _⟩

theorem State.Acts.trans {l : LaneId} {s t u : State} (h : State.Acts l s t) (k : State.Acts l t u) :
    State.Acts l s u := ⟨h.toOnLane.trans k.toOnLane, h.acted.trans k.acted⟩

theorem State.setLane_onLane (s : State) (l : LaneId) (x : Lane) : State.OnLane l s (s.setLane l x) :=
  ⟨rfl, rfl, rfl, rfl, rfl, rfl, fun _ hj => State.lane_setLane_ne s hj x, fun _ _ h => h⟩

theorem State.setLane_acts (s : State) (l : LaneId) {x : Lane} (h : Lane.Acted (s.lane l) x) :
    State.Acts l s (s.setLane l x) := ⟨State.setLane_onLane s l x, by simpa using h⟩

theorem State.updLane_acts (s : State) (l : LaneId) {f : Lane → Lane} (h : ∀ L, Lane.Acted L (f L)) :
    State.Acts l s (s.updLane l f) := State.setLane_acts s l (h _)

theorem State.updStation_acts (s : State) (l : LaneId) (k : StationId) (f : Station → Station) :
    State.Acts l s (s.updStation l k f) := State.updLane_acts s l fun _ => ⟨rfl, rfl, rfl, rfl, rfl, id⟩

theorem State.updTicket_acts (s : State) (l : LaneId) (n : Serial) (f : Ticket → Ticket) :
    State.Acts l s (s.updTicket l n f) := State.updLane_acts s l fun _ => ⟨rfl, rfl, rfl, rfl, rfl, id⟩

theorem State.updStops_acts (s : State) (l : LaneId) (f : StopReasons → StopReasons) :
    State.Acts l s (s.updStops l f) := State.updLane_acts s l fun _ => ⟨rfl, rfl, rfl, rfl, rfl, id⟩

theorem State.setDetector_acts (s : State) (l : LaneId) (d : Detector) : State.Acts l s (s.setDetector l d) :=
  State.updLane_acts s l fun _ => ⟨rfl, rfl, rfl, rfl, rfl, id⟩

theorem State.produce_acts (s : State) (l : LaneId) (r : Report) : State.Acts l s (s.produce r) :=
  ⟨⟨rfl, rfl, rfl, rfl, rfl, rfl, fun _ _ => rfl, fun _ hP h => hP _ _ h⟩, .refl _⟩

theorem State.produceIf_acts (s : State) (l : LaneId) (b : Bool) (r : Report) : State.Acts l s (s.produceIf b r) := by
  cases b
  · exact .refl l s
  · exact s.produce_acts l r

/-! ## Open orders -/

/-- An order taken changes the count of open orders alone. -/
theorem State.ordered_snd {α : Type} (s : State) (gs : List (List α)) :
    (s.ordered gs).2 = s ∨ (s.ordered gs).2 = { s with freeIndex := s.freeIndex + 1 } := by
  simp only [State.ordered]
  split <;> simp

theorem State.ordered_acts {α : Type} (s : State) (l : LaneId) (gs : List (List α)) :
    State.Acts l s (s.ordered gs).2 := by
  rcases s.ordered_snd gs with h | h <;> rw [h]
  · exact .refl l s
  · exact ⟨⟨rfl, rfl, rfl, rfl, rfl, rfl, fun _ _ => rfl, fun _ _ h => h⟩, .refl _⟩

theorem foldl_acts {α : Type} {l : LaneId} {f : State → α → State} (h : ∀ s a, State.Acts l s (f s a)) (as : List α)
    (s : State) : State.Acts l s (as.foldl f s) := by
  induction as generalizing s with
  | nil => exact .refl l s
  | cons a as ih => exact (h s a).trans (ih _)

/-! ## Profiles and drains -/

theorem State.install_acts (s : State) (l : LaneId) : State.Acts l s (s.install l) := by
  unfold State.install
  split
  · refine .trans ?_ (State.produce_acts _ l _)
    exact State.setLane_acts s l ⟨rfl, rfl, rfl, rfl, rfl, id⟩
  · exact .refl l s

theorem State.testDrain_acts (s : State) (l : LaneId) : State.Acts l s (s.testDrain l) := by
  unfold State.testDrain
  split
  · refine .trans (.trans ?_ (State.produce_acts _ l _)) (State.install_acts _ l)
    exact State.updLane_acts s l fun L => ⟨rfl, rfl, rfl, rfl, rfl, fun h => by simp [Lane.tracking] at h⟩
  · exact .refl l s

theorem State.reachBoundary_acts (s : State) (l : LaneId) : State.Acts l s (s.reachBoundary l) := by
  unfold State.reachBoundary
  split
  · split
    · exact State.updLane_acts s l fun _ => ⟨rfl, rfl, rfl, rfl, rfl, id⟩
    · exact (State.install_acts s l).trans (State.testDrain_acts _ l)
  · exact .refl l s

theorem State.testWhenClear_acts (s : State) (l : LaneId) : State.Acts l s (s.testWhenClear l) := by
  unfold State.testWhenClear
  split
  · exact State.reachBoundary_acts s l
  · exact .refl l s

theorem State.serialAdvanced_acts (s : State) (l : LaneId) : State.Acts l s (s.serialAdvanced l) := by
  unfold State.serialAdvanced
  split
  · split
    · exact State.reachBoundary_acts s l
    · exact .refl l s
  · exact .refl l s

theorem State.testRetiring_acts (s : State) (l : LaneId) : State.Acts l s (s.testRetiring l) := by
  unfold State.testRetiring
  split
  · split
    · exact .refl l s
    · have h : State.Acts l s (s.updLane l fun L => { L with retiring := none }) :=
        State.updLane_acts s l fun _ => ⟨rfl, rfl, rfl, rfl, rfl, id⟩
      simp only
      split
      · exact h.trans (State.install_acts _ l)
      · exact h
  · exact .refl l s

/-! ## Tickets -/

theorem State.haltLane_acts (s : State) (l : LaneId) (reason : HaltReason) : State.Acts l s (s.haltLane l reason) := by
  unfold State.haltLane
  split
  · refine .trans (.trans (.trans ?_ (State.install_acts _ l)) (State.updStops_acts _ l _)) (State.produce_acts _ l _)
    exact State.updLane_acts s l fun L => ⟨rfl, rfl, rfl, rfl, rfl, fun h => by simp [Lane.tracking] at h⟩
  · exact .refl l s

theorem State.abortLane_acts (s : State) (l : LaneId) : State.Acts l s (s.abortLane l) := by
  unfold State.abortLane
  have h : State.Acts l s (s.updLane l fun L => { L.abandon with state := .disabled }) :=
    State.updLane_acts s l fun L => ⟨rfl, rfl, rfl, rfl, rfl, fun h => by simp [Lane.tracking] at h⟩
  simp only
  split
  · exact (h.trans (State.produce_acts _ l _)).trans (State.install_acts _ l)
  · exact h.trans (State.install_acts _ l)

theorem Lane.advanceSerial_acted (L : Lane) : Lane.Acted L L.advanceSerial := by
  unfold Lane.advanceSerial
  split <;> exact ⟨rfl, rfl, rfl, rfl, rfl, id⟩

theorem State.grant_acts (s : State) (l : LaneId) (index : TicketIndex) (entry : Pos) (length : Half) (long : Bool) :
    State.Acts l s (s.grant l index entry length long) := by
  unfold State.grant
  refine .trans (.trans (.trans ?_ (State.produceIf_acts _ l _ _)) (State.updLane_acts _ l Lane.advanceSerial_acted))
    (State.serialAdvanced_acts _ l)
  exact State.updLane_acts s l fun _ => ⟨rfl, rfl, rfl, rfl, rfl, id⟩

theorem State.dropPolicy_acts (s : State) (l : LaneId) : State.Acts l s (s.dropPolicy l) := by
  unfold State.dropPolicy
  split
  · exact .refl l s
  · exact State.updStops_acts s l _
  · exact State.haltLane_acts s l _

theorem State.drop_acts (s : State) (l : LaneId) (entry : Pos) (length gap : Half) (long : Bool) (reason : DropReason) :
    State.Acts l s (s.drop l entry length gap long reason) := by
  unfold State.drop
  refine .trans (.trans (.trans ?_ (State.produce_acts _ l _)) (State.serialAdvanced_acts _ l))
    (State.dropPolicy_acts _ l)
  exact State.updLane_acts s l fun L => L.advanceSerial_acted.trans ⟨rfl, rfl, rfl, rfl, rfl, id⟩

theorem State.admit_acts (s : State) (l : LaneId) (entry : Pos) (length gap : Half) (long : Bool) :
    State.Acts l s (s.askPool l entry length gap long) := by
  unfold State.askPool
  split
  · exact State.drop_acts s l ..
  · split
    · exact State.grant_acts s l ..
    · exact State.drop_acts s l ..

theorem State.retire_acts (s : State) (l : LaneId) (t : Ticket) : State.Acts l s (s.retire l t) := by
  unfold State.retire
  have h : State.Acts l s (s.updLane l fun L => { L with queue := L.queue.filter fun u => u.serial != t.serial }) :=
    State.updLane_acts s l fun _ => ⟨rfl, rfl, rfl, rfl, rfl, id⟩
  simp only
  split
  · exact (((h.trans (State.produceIf_acts _ l _ _)).trans (State.testRetiring_acts _ l)).trans
      (State.testWhenClear_acts _ l)).trans (State.testDrain_acts _ l)
  · exact ((h.trans (State.testRetiring_acts _ l)).trans (State.testWhenClear_acts _ l)).trans
      (State.testDrain_acts _ l)

/-! ## Confirm monitor -/

theorem State.setConfirm_acts (s : State) (l : LaneId) (n : Serial) (c : ConfirmState) :
    State.Acts l s (s.setConfirm l n c) := State.updTicket_acts s l n _

theorem State.confirmPolicy_acts (s : State) (l : LaneId) : State.Acts l s (s.confirmPolicy l) := by
  unfold State.confirmPolicy
  split
  · exact .refl l s
  · exact State.updStops_acts s l _
  · exact State.haltLane_acts s l _

theorem State.unconfirmed_acts (s : State) (l : LaneId) (n : Serial) (k : StationId) :
    State.Acts l s (s.unconfirmed l n k) := by
  unfold State.unconfirmed
  exact .trans (.trans (State.setConfirm_acts s l n _) (State.produce_acts _ l _)) (State.confirmPolicy_acts _ l)

theorem State.openWindow_acts (s : State) (l : LaneId) (w : Window) : State.Acts l s (s.openWindow l w) := by
  unfold State.openWindow
  split
  · exact State.unconfirmed_acts s l _ _
  · refine .trans ?_ (State.updLane_acts _ l fun _ => ⟨rfl, rfl, rfl, rfl, rfl, id⟩)
    exact State.setConfirm_acts s l _ _

theorem State.tellFired_acts (s : State) (l : LaneId) (k : StationId) (t : Ticket) :
    State.Acts l s (s.tellFired l k t) := by
  unfold State.tellFired
  simp only
  split
  · exact State.openWindow_acts s l _
  · exact .refl l s

theorem State.tellNotDue_acts (s : State) (l : LaneId) (k : StationId) (t : Ticket) :
    State.Acts l s (s.tellNotDue l k t) := by
  unfold State.tellNotDue
  simp only
  split
  · exact State.setConfirm_acts s l _ _
  · exact .refl l s

theorem State.confirmPresence_acts (s : State) (l : LaneId) : State.Acts l s (s.confirmPresence l) := by
  unfold State.confirmPresence
  simp only
  split
  · exact .refl l s
  · split
    · refine .trans ?_ (State.updLane_acts _ l fun _ => ⟨rfl, rfl, rfl, rfl, rfl, id⟩)
      exact State.setConfirm_acts s l _ _
    · exact State.produce_acts s l _

theorem State.confirmEdge_acts (s : State) (l : LaneId) (present : Bool) :
    State.Acts l s (s.confirmEdge l present) := by
  have h : State.Acts l s (s.updLane l fun L => { L with confirmLevel := present }) :=
    State.updLane_acts s l fun _ => ⟨rfl, rfl, rfl, rfl, rfl, id⟩
  unfold State.confirmEdge
  simp only
  split
  · exact h
  · split
    · exact .refl l s
    · split
      · exact h.trans (State.confirmPresence_acts _ l)
      · exact h

theorem State.windowEnd_acts (s : State) (l : LaneId) (w : Window) : State.Acts l s (s.windowEnd l w) := by
  unfold State.windowEnd
  refine .trans ?_ (State.unconfirmed_acts _ l _ _)
  exact State.updLane_acts s l fun _ => ⟨rfl, rfl, rfl, rfl, rfl, id⟩

/-! ## Stations -/

theorem State.setOutcome_acts (s : State) (l : LaneId) (k : StationId) (n : Serial) (o : Outcome) :
    State.Acts l s (s.setOutcome l k n o) := State.updTicket_acts s l n _

theorem State.miss_acts (s : State) (l : LaneId) (k : StationId) (t : Ticket) (reason : MissReason) :
    State.Acts l s (s.miss l k t reason) := by
  unfold State.miss
  exact .trans (.trans (State.setOutcome_acts s l k _ _) (State.produce_acts _ l _)) (State.tellNotDue_acts _ l k t)

theorem State.firePulse_acts (s : State) (l : LaneId) (k : StationId) (t : Ticket) (width rearm : Triple) :
    State.Acts l s (s.firePulse l k t width rearm) := by
  unfold State.firePulse
  exact .trans (.trans (State.updStation_acts s l k _) (State.setOutcome_acts _ l k _ _)) (State.tellFired_acts _ l k t)

theorem State.deferTicket_acts (s : State) (l : LaneId) (k : StationId) (t : Ticket) (due : Pos) (tolerance : Half) :
    State.Acts l s (s.deferTicket l k t due tolerance) := by
  unfold State.deferTicket
  split
  · exact State.miss_acts s l k t _
  · exact (State.updStation_acts s l k _).trans (State.setOutcome_acts _ l k _ _)

theorem State.fireSpan_acts (s : State) (l : LaneId) (k : StationId) (t : Ticket) (off : Pos) :
    State.Acts l s (s.fireSpan l k t off) := by
  unfold State.fireSpan
  exact .trans (.trans (State.updStation_acts s l k _) (State.setOutcome_acts _ l k _ _)) (State.tellFired_acts _ l k t)

theorem State.serveTicket_acts (s : State) (l : LaneId) (k : StationId) (t : Ticket) (act : StationAct) (due : Pos) :
    State.Acts l s (s.serveTicket l k t act due) := by
  unfold State.serveTicket
  split
  · exact .refl l s
  · split
    · exact State.firePulse_acts s l k t _ _
    · split
      · exact State.miss_acts s l k t _
      · exact State.deferTicket_acts s l k t _ _
  · exact State.fireSpan_acts s l k t _

theorem State.guardTest_acts (s : State) (l : LaneId) (k : StationId) (t : Ticket) (act : StationAct) (due : Pos) :
    State.Acts l s (s.guardTest l k t act due) := by
  unfold State.guardTest
  split
  · exact State.miss_acts s l k t _
  · exact State.serveTicket_acts s l k t _ _

theorem State.classTest_acts (s : State) (l : LaneId) (k : StationId) (t : Ticket) (act : StationAct) (due : Pos)
    (mask : Byte) : State.Acts l s (s.classTest l k t act due mask) := by
  have h := State.updTicket_acts s l t.serial fun u => u.finalise ((s.lane l).profileOf t.generation)
  unfold State.classTest
  simp only
  split
  · split
    · exact h.trans (State.guardTest_acts _ l k _ _ _)
    · exact (h.trans (State.setOutcome_acts _ l k _ _)).trans (State.tellNotDue_acts _ l k _)
  · exact h

theorem State.duePoint_acts (s : State) (l : LaneId) (k : StationId) (t : Ticket) :
    State.Acts l s (s.duePoint l k t) := by
  unfold State.duePoint
  simp only
  split
  · exact State.guardTest_acts s l k t _ _
  · exact State.classTest_acts s l k t _ _ _
  · exact .refl l s

theorem State.toleranceEnd_acts (s : State) (l : LaneId) (k : StationId) (t : Ticket) :
    State.Acts l s (s.toleranceEnd l k t) := by
  unfold State.toleranceEnd
  exact .trans (State.updStation_acts s l k _) (State.miss_acts _ l k t _)

theorem State.deferredFire_acts (s : State) (l : LaneId) (k : StationId) : State.Acts l s (s.deferredFire l k) := by
  unfold State.deferredFire
  split
  · exact .refl l s
  · simp only
    have h := fun f => State.updStation_acts s l k f
    split
    · exact h _
    · split
      · exact (h _).trans (State.firePulse_acts _ l k _ _ _)
      · exact h _

theorem State.becomeIdle_acts (s : State) (l : LaneId) (k : StationId) : State.Acts l s (s.becomeIdle l k) := by
  have h := State.updStation_acts s l k fun S => { S with pulse := .idle }
  unfold State.becomeIdle
  simp only
  split
  · exact h
  · exact h.trans (State.deferredFire_acts _ l k)

theorem State.pulseEnd_acts (s : State) (l : LaneId) (k : StationId) : State.Acts l s (s.pulseEnd l k) := by
  unfold State.pulseEnd
  split
  · split
    · exact State.becomeIdle_acts s l k
    · exact State.updStation_acts s l k _
  · exact .refl l s

theorem State.rearmEnd_acts (s : State) (l : LaneId) (k : StationId) : State.Acts l s (s.rearmEnd l k) := by
  unfold State.rearmEnd
  split
  · exact State.becomeIdle_acts s l k
  · exact .refl l s

/-! ## Detector -/

theorem State.readClear_acts (l : LaneId) (s : State) (r : ClearReader) : State.Acts l s (s.readClear l r) := by
  cases r
  · exact State.testWhenClear_acts s l
  · exact State.testDrain_acts s l

theorem State.detectorCleared_acts (s : State) (l : LaneId) : State.Acts l s (s.detectorCleared l) :=
  (State.ordered_acts s l _).trans (foldl_acts (State.readClear_acts l) _ _)

theorem State.admitMeasured_acts (s : State) (l : LaneId) (leading trailing : Pos) (lim : Limits) :
    State.Acts l s (s.admitMeasured l leading trailing lim) := by
  have h := State.admit_acts s l leading ((trailing - leading).setWidth 16) lim.gap false
  unfold State.admitMeasured
  simp only
  split
  · exact (h.trans (State.setDetector_acts _ l _)).trans (State.detectorCleared_acts _ l)
  · exact h

theorem State.admitLong_acts (s : State) (l : LaneId) (leading : Pos) (lim : Limits) :
    State.Acts l s (s.admitLong l leading lim) := by
  have h := State.admit_acts s l leading lim.lmax lim.gap true
  unfold State.admitLong
  simp only
  split
  · exact h.trans (State.setDetector_acts _ l _)
  · exact h

theorem State.glitch_acts (s : State) (l : LaneId) (leading q : Pos) : State.Acts l s (s.glitch l leading q) := by
  unfold State.glitch
  refine .trans (.trans ?_ (State.produceIf_acts _ l _ _)) (State.detectorCleared_acts _ l)
  exact State.updLane_acts s l fun _ => ⟨rfl, rfl, rfl, rfl, rfl, id⟩

theorem State.presenceEdge_acts (s : State) (l : LaneId) : State.Acts l s (s.presenceEdge l) := by
  unfold State.presenceEdge
  simp only
  split
  · exact State.setDetector_acts s l _
  · split
    · exact State.setDetector_acts s l _
    · exact State.admitLong_acts s l _ _
  · exact .refl l s

theorem State.clearingEdge_acts (s : State) (l : LaneId) : State.Acts l s (s.clearingEdge l) := by
  unfold State.clearingEdge
  simp only
  split
  · split
    · exact State.glitch_acts s l _ _
    · split
      · exact State.admitMeasured_acts s l _ _ _
      · exact State.setDetector_acts s l _
  · refine .trans ?_ (State.detectorCleared_acts _ l)
    exact State.updLane_acts s l fun _ => ⟨rfl, rfl, rfl, rfl, rfl, id⟩
  · exact .refl l s

theorem State.entryEdge_acts (s : State) (l : LaneId) (present : Bool) : State.Acts l s (s.entryEdge l present) := by
  have h : State.Acts l s (s.updLane l fun L => { L with entryLevel := present }) :=
    State.updLane_acts s l fun _ => ⟨rfl, rfl, rfl, rfl, rfl, id⟩
  unfold State.entryEdge State.takeEntryLevel
  simp only
  split
  · split
    · exact .refl l s
    · split
      · exact h.trans (State.presenceEdge_acts _ l)
      · exact h.trans (State.clearingEdge_acts _ l)
  · exact .refl l s

theorem State.detectorAdvance_acts (s : State) (l : LaneId) : State.Acts l s (s.detectorAdvance l) := by
  unfold State.detectorAdvance
  split
  · exact State.admitLong_acts s l _ _
  · exact State.admitMeasured_acts s l _ _ _
  · exact .refl l s

/-! ## Travel -/

theorem State.runAct_acts (l : LaneId) (s : State) (a : BeltAct) : State.Acts l s (State.runAct l s a) := by
  have hr := State.Acts.refl l s
  unfold State.runAct
  simp only
  split
  · exact hr
  · cases a <;> simp only
    · exact State.detectorAdvance_acts s l
    · split
      · exact State.retire_acts s l _
      · exact hr
    · refine .trans ?_ (State.testDrain_acts _ l)
      exact State.updLane_acts s l fun _ => ⟨rfl, rfl, rfl, rfl, rfl, id⟩
    · exact State.updTicket_acts s l _ _
    · split
      · exact State.duePoint_acts s l _ _
      · exact hr
    · split
      · exact State.toleranceEnd_acts s l _ _
      · exact hr
    · exact State.updStation_acts s l _ _
    · split
      · exact State.windowEnd_acts s l _
      · exact hr

theorem State.advance_acts (s : State) (l : LaneId) : State.Acts l s (s.advance l) :=
  (State.ordered_acts s l _).trans (foldl_acts (State.runAct_acts l) _ _)

theorem State.rereadSensors_acts (s : State) (l : LaneId) : State.Acts l s (s.rereadSensors l) := by
  unfold State.rereadSensors
  refine .trans ?_ (State.entryEdge_acts _ l _)
  exact State.updLane_acts s l fun _ => ⟨rfl, rfl, rfl, rfl, rfl, id⟩

/-! ## Steps: the position and the reach move first -/

theorem State.forwardStep_onLane (s : State) (l : LaneId) : State.OnLane l s (s.forwardStep l) := by
  unfold State.forwardStep
  simp only
  split
  · exact (State.setLane_onLane s l _).trans (State.advance_acts _ l).toOnLane
  · split
    · exact (State.setLane_onLane s l _).trans (State.rereadSensors_acts _ l).toOnLane
    · exact State.setLane_onLane s l _

theorem State.reverseStep_onLane (s : State) (l : LaneId) : State.OnLane l s (s.reverseStep l) := by
  unfold State.reverseStep
  simp only
  split <;> split <;>
    first
    | exact (State.setLane_onLane s l _).trans (State.haltLane_acts _ l _).toOnLane
    | exact State.setLane_onLane s l _

theorem State.decodePair_onLane (s : State) (l : LaneId) (new : EncoderPair) :
    State.OnLane l s (s.decodePair l new) := by
  have h := fun x => State.setLane_onLane s l x
  unfold State.decodePair
  simp only
  split
  · exact h _
  · exact (h _).trans (State.forwardStep_onLane _ l)
  · exact (h _).trans (State.reverseStep_onLane _ l)
  · exact (h _).trans (State.haltLane_acts _ l _).toOnLane

theorem State.clockTick_onLane (s : State) (l : LaneId) : State.OnLane l s (s.clockTick l) := by
  unfold State.clockTick
  simp only
  split
  · exact (State.setLane_onLane s l _).trans (State.forwardStep_onLane _ l)
  · exact .refl l s

end Sys2Proof.Machine
end

