-- ==== Sys2Proof/Laws/Keeps.lean ====
section
/-! SUPPORT. The acts on one lane keep the law of the lane, the law of the blind list and the law of the pool: one lemma per
operation. An operation that stands within another one and breaks a law for a moment has no lemma of its own; the one
around it has. -/

namespace Sys2Proof.Machine

/-! ## What is kept -/

/-- The parts of a ticket that the laws speak of. -/
def Ticket.key (t : Ticket) : TicketIndex × LaneId × Half := (t.index, t.lane, t.generation)

/-- The lane `M` keeps the laws of `L` and holds no ticket that `L` does not. -/
structure Lane.Kept (L M : Lane) : Prop where
  law : L.LaneLaw → M.LaneLaw
  blind : L.LaneLaw → L.BlindLaw → M.BlindLaw
  queue : L.LaneLaw → (M.queue.map Ticket.key).Sublist (L.queue.map Ticket.key)

/-- `t`, after an act on lane `l` of `s`, keeps the laws. -/
structure State.Keeps (l : LaneId) (s t : State) : Prop where
  law : (s.lane l).LaneLaw → (t.lane l).LaneLaw
  blind : (s.lane l).LaneLaw → (s.lane l).BlindLaw → (t.lane l).BlindLaw
  pool : (s.lane l).LaneLaw → s.PoolLaw → t.PoolLaw

theorem Lane.Kept.refl (L : Lane) : Lane.Kept L L := ⟨id, fun _ h => h, fun _ => .refl _⟩

theorem Lane.Kept.trans {L M N : Lane} (h : Lane.Kept L M) (k : Lane.Kept M N) : Lane.Kept L N where
  law := k.law ∘ h.law
  blind := fun a b => k.blind (h.law a) (h.blind a b)
  queue := fun a => (k.queue (h.law a)).trans (h.queue a)

/-- A fact may be used that follows from the law of the lane. -/
theorem Lane.Kept.of_law {L M : Lane} (h : L.LaneLaw → Lane.Kept L M) : Lane.Kept L M :=
  ⟨fun a => (h a).law a, fun a => (h a).blind a, fun a => (h a).queue a⟩

theorem State.Keeps.refl (l : LaneId) (s : State) : State.Keeps l s s := ⟨id, fun _ h => h, fun _ h => h⟩

theorem State.Keeps.trans {l : LaneId} {s t u : State} (h : State.Keeps l s t) (k : State.Keeps l t u) :
    State.Keeps l s u where
  law := k.law ∘ h.law
  blind := fun a b => k.blind (h.law a) (h.blind a b)
  pool := fun a b => k.pool (h.law a) (h.pool a b)

theorem State.Keeps.of_law {l : LaneId} {s t : State} (h : (s.lane l).LaneLaw → State.Keeps l s t) :
    State.Keeps l s t :=
  ⟨fun a => (h a).law a, fun a => (h a).blind a, fun a => (h a).pool a⟩

/-! ## Lists -/

theorem sublist_dropLast {α : Type} {xs ys : List α} (h : xs.Sublist ys) : xs.dropLast.Sublist ys.dropLast := by
  have := (List.reverse_sublist.mpr h).tail
  rw [← List.reverse_sublist]
  simpa [List.tail_reverse] using this

theorem laneCases : ∀ l : LaneId, l = 0 ∨ l = 1 ∨ l = 2 ∨ l = 3 := by decide

theorem mem_allLanes (l : LaneId) : l ∈ allLanes := by
  rcases laneCases l with rfl | rfl | rfl | rfl <;> decide

/-- A sum over the lanes is at most another one that is so lane by lane. -/
theorem sum_le_sum {f g : LaneId → Nat} (ls : List LaneId) (h : ∀ l ∈ ls, f l ≤ g l) :
    (ls.map f).sum ≤ (ls.map g).sum := by
  induction ls with
  | nil => simp
  | cons a as ih =>
    have h1 := h a (by simp)
    have h2 := ih fun l hl => h l (by simp [hl])
    simp only [List.map_cons, List.sum_cons]
    omega

theorem flatMap_sublist {f g : LaneId → List TicketIndex} (ls : List LaneId) (h : ∀ l, (f l).Sublist (g l)) :
    (ls.flatMap f).Sublist (ls.flatMap g) := by
  induction ls with
  | nil => simp
  | cons a as ih => simpa using (h a).append ih

theorem Ticket.map_index (q : List Ticket) : q.map Ticket.index = (q.map Ticket.key).map Prod.fst := by
  simp [Ticket.key, Function.comp_def]

/-! ## From a lane to the state -/

/-- The pool's law is kept when no configuration changes and no lane gets a ticket. -/
theorem State.PoolLaw.shrink {s t : State} (h : s.PoolLaw) (hc : ∀ l, (t.lane l).config = (s.lane l).config)
    (hq : ∀ l, ((t.lane l).queue.map Ticket.key).Sublist ((s.lane l).queue.map Ticket.key)) : t.PoolLaw := by
  obtain ⟨h1, h2, h3, h4⟩ := h
  have hlen : ∀ l, (t.lane l).queue.length ≤ (s.lane l).queue.length := fun l => by simpa using (hq l).length_le
  refine ⟨?_, fun l u hu => ?_, le_trans (sum_le_sum allLanes fun l _ => ?_) h3, fun l => ?_⟩
  · refine List.Nodup.sublist (flatMap_sublist allLanes fun l => ?_) h1
    rw [Ticket.map_index, Ticket.map_index]
    exact (hq l).map _
  · have : u.key ∈ (s.lane l).queue.map Ticket.key := (hq l).subset (List.mem_map_of_mem hu)
    obtain ⟨v, hv, e⟩ := List.mem_map.mp this
    have := h2 l v hv
    simp only [Ticket.key, Prod.mk.injEq] at e
    rw [← e.2.1]; exact this
  · have := hlen l
    rw [hc l]
    simp only [Nat.max_def]
    split <;> split <;> omega
  · rw [hc l]
    exact (hlen l).trans (h4 l)

theorem State.Keeps.of_kept {l : LaneId} {s t : State} (a : State.OnLane l s t)
    (hc : (t.lane l).config = (s.lane l).config) (h : Lane.Kept (s.lane l) (t.lane l)) : State.Keeps l s t where
  law := h.law
  blind := h.blind
  pool := fun hl hp => hp.shrink
    (fun j => by
      by_cases e : j = l
      · subst e; exact hc
      · rw [a.others j e])
    (fun j => by
      by_cases e : j = l
      · subst e; exact h.queue hl
      · rw [a.others j e])

theorem State.Keeps.of_acts {l : LaneId} {s t : State} (a : State.Acts l s t) (h : Lane.Kept (s.lane l) (t.lane l)) :
    State.Keeps l s t := .of_kept a.toOnLane a.acted.config h

/-! ## Changes that no law reads -/

/-- A lane whose state, tickets, blind list, detector, profiles, staging and HALT reason stand. -/
theorem Lane.Kept.same {L M : Lane} (hs : M.state = L.state) (hq : M.queue.map Ticket.key = L.queue.map Ticket.key)
    (hb : M.blind = L.blind) (hd : M.detector = L.detector) (hg : M.staging = L.staging) (ha : M.active = L.active)
    (hr : M.retiring = L.retiring) (hh : M.stops.halt = L.stops.halt) : Lane.Kept L M := by
  have hmem : ∀ g : Half, (∃ t ∈ M.queue, t.generation = g) ↔ ∃ t ∈ L.queue, t.generation = g := by
    intro g
    have : ∀ q : List Ticket, (∃ t ∈ q, t.generation = g) ↔ ∃ k ∈ q.map Ticket.key, k.2.2 = g := by
      intro q; simp [Ticket.key]
    rw [this, this, hq]
  have hnil : M.queue = [] ↔ L.queue = [] := by
    have := congrArg List.length hq
    simp only [List.length_map] at this
    rw [← List.length_eq_zero_iff, ← List.length_eq_zero_iff, this]
  have ht : M.tracking = L.tracking := by simp [Lane.tracking, hs]
  refine ⟨fun ⟨h1, h2, h3, h4, h5⟩ => ⟨?_, ?_, ?_, ?_, ?_⟩, fun _ ⟨h1, h2, h3⟩ => ⟨?_, ?_, ?_⟩, fun _ => ?_⟩
  · intro h
    obtain ⟨a, b, c, d⟩ := h1 (ht ▸ h)
    exact ⟨hnil.mpr a, hb ▸ b, hd ▸ c, fun body der com e => d body der com (hg ▸ e)⟩
  · rw [hh, hs]; exact h2
  · intro t hmt
    obtain ⟨u, hu, e⟩ := (hmem t.generation).mp ⟨t, hmt, rfl⟩
    rw [ha, hr, ← e]
    exact h3 u hu
  · intro p hp
    rw [ha, hmem]
    exact h4 p (hr ▸ hp)
  · intro b d e
    rw [hr]
    exact h5 b d (hg ▸ e)
  · rw [hb]; exact h1
  · rw [hb]; exact h2
  · rw [hb, hd]; exact h3
  · rw [hq]

theorem State.produce_kept (s : State) (l : LaneId) (r : Report) : Lane.Kept (s.lane l) ((s.produce r).lane l) := .refl _

theorem State.updStation_kept (s : State) (l : LaneId) (k : StationId) (f : Station → Station) :
    Lane.Kept (s.lane l) ((s.updStation l k f).lane l) := by
  rw [State.updStation_eq, State.lane_setLane_same]
  exact .same rfl rfl rfl rfl rfl rfl rfl rfl

theorem Lane.updTicket_key (L : Lane) (n : Serial) (f : Ticket → Ticket) (h : ∀ t, (f t).key = t.key) :
    (L.updTicket n f).queue.map Ticket.key = L.queue.map Ticket.key := by
  simp only [Lane.updTicket, List.map_map]
  congr 1
  funext t
  simp only [Function.comp]
  split
  · exact h t
  · rfl

theorem State.updTicket_kept (s : State) (l : LaneId) (n : Serial) (f : Ticket → Ticket) (h : ∀ t, (f t).key = t.key) :
    Lane.Kept (s.lane l) ((s.updTicket l n f).lane l) := by
  rw [State.updTicket_eq, State.lane_setLane_same]
  exact .same rfl (Lane.updTicket_key _ n f h) rfl rfl rfl rfl rfl rfl

theorem State.updStops_kept (s : State) (l : LaneId) (f : StopReasons → StopReasons) (h : ∀ r, (f r).halt = r.halt) :
    Lane.Kept (s.lane l) ((s.updStops l f).lane l) := by
  rw [State.updStops_eq, State.lane_setLane_same]
  exact .same rfl rfl rfl rfl rfl rfl rfl (h _)

/-! ## Profiles and drains -/

/-- An installation with no retiring profile; the lane's commit may already be lawless, since it is the one installed. -/
theorem Lane.install_law {L : Lane} (body : ProfileBody) (derived : Derived)
    (ht : L.tracking = false → L.queue = [] ∧ L.blind = [] ∧ L.detector = .clear)
    (hh : L.stops.halt = true ↔ L.state = .halted) (hq : ∀ t ∈ L.queue, t.generation = L.active.generation) :
    (L.install body derived).LaneLaw := by
  refine ⟨fun h => ?_, hh, fun t hm => ?_, fun p hp => ?_, fun b d e => by simp [Lane.install, Lane.checkBlind] at e⟩
  · obtain ⟨a, b, c⟩ := ht h
    refine ⟨a, ?_, c, fun _ _ _ e => by simp [Lane.install, Lane.checkBlind] at e⟩
    simp [Lane.install, Lane.checkBlind, b]
  · have hm' : t ∈ L.queue := hm
    right
    have : L.queue.any (fun t => t.generation == L.active.generation) = true :=
      List.any_eq_true.mpr ⟨t, hm', by simp [hq t hm']⟩
    exact ⟨L.active, by simp [Lane.install, Lane.checkBlind, this], hq t hm'⟩
  · simp only [Lane.install, Lane.checkBlind] at hp
    split at hp
    · rename_i ha
      obtain rfl : L.active = p := by simpa using hp
      obtain ⟨t, hm, e⟩ := List.any_eq_true.mp ha
      exact ⟨rfl, t, hm, by simpa using e⟩
    · cases hp

theorem Lane.BlindLaw.sublist {L M : Lane} (h : L.BlindLaw) (hb : M.blind.Sublist L.blind)
    (hd : M.detector = L.detector) : M.BlindLaw := by
  obtain ⟨h1, h2, h3⟩ := h
  refine ⟨hb.length_le.trans h1, fun i hi => h2 i ((sublist_dropLast hb).subset hi), ?_⟩
  rw [hd]
  rintro ⟨i, hi, e⟩
  exact h3 ⟨i, hb.subset hi, e⟩

theorem Lane.install_blind (L : Lane) (body : ProfileBody) (derived : Derived) :
    (L.install body derived).blind.Sublist L.blind := List.filter_sublist

theorem State.install_lane (s : State) (l : LaneId) :
    (s.install l).lane l =
      match (s.lane l).staging with
      | .committing body derived _ => (s.lane l).install body derived
      | _ => s.lane l := by
  unfold State.install
  split <;> simp_all

/-- With no commit an installation does nothing. -/
theorem State.install_noCommit {s : State} {l : LaneId} (h : (s.lane l).noCommit) : s.install l = s := by
  unfold State.install
  split
  · rename_i e; exact absurd e (h _ _ _)
  · rfl

/-- What an installation keeps where no profile is retiring. -/
theorem State.install_kept (s : State) (l : LaneId) (hr : (s.lane l).retiring = none) :
    Lane.Kept (s.lane l) ((s.install l).lane l) := by
  rw [State.install_lane]
  split
  · rename_i body derived c he
    refine ⟨fun ⟨h1, h2, h3, _, _⟩ => ?_, fun _ hb => hb.sublist (Lane.install_blind ..) rfl, fun _ => .refl _⟩
    refine Lane.install_law body derived (fun h => ⟨(h1 h).1, (h1 h).2.1, (h1 h).2.2.1⟩) h2 fun t hm => ?_
    rcases h3 t hm with h | ⟨p, hp, _⟩
    · exact h
    · rw [hr] at hp; cases hp
  · exact .refl _

/-- A lane that holds nothing and has no commit keeps its law in any state that agrees with its HALT reason. -/
theorem Lane.ended_law {L : Lane} (hq : L.queue = []) (hb : L.blind = []) (hd : L.detector = .clear)
    (hr : L.retiring = none) (hc : L.noCommit) (hh : L.stops.halt = true ↔ L.state = .halted) : L.LaneLaw :=
  ⟨fun _ => ⟨hq, hb, hd, hc⟩, hh, by simp [hq], by simp [hr], fun b d e => absurd e (hc b d _)⟩

/-- What an installation leaves of a lane that holds nothing. -/
theorem State.install_ended {s : State} {l : LaneId} (hq : (s.lane l).queue = []) (hb : (s.lane l).blind = [])
    (hr : (s.lane l).retiring = none) :
    let M := (s.install l).lane l
    M.queue = [] ∧ M.blind = [] ∧ M.detector = (s.lane l).detector ∧ M.retiring = none ∧ M.noCommit ∧
      M.state = (s.lane l).state ∧ M.stops = (s.lane l).stops := by
  simp only [State.install_lane]
  split
  · refine ⟨hq, by simp [Lane.install, Lane.checkBlind, hb], rfl, by simp [Lane.install, Lane.checkBlind, hq], ?_, rfl,
      rfl⟩
    intro b d c e
    simp [Lane.install, Lane.checkBlind] at e
  · rename_i he
    exact ⟨hq, hb, rfl, hr, fun b d c e => he b d c e, rfl, rfl⟩

theorem Lane.BlindLaw.of_nil {L : Lane} (h : L.blind = []) : L.BlindLaw := by
  refine ⟨by simp [h], by simp [h], ?_⟩
  rintro ⟨i, hi, _⟩
  simp [h] at hi

theorem State.install_queue (s : State) (l : LaneId) : ((s.install l).lane l).queue = (s.lane l).queue := by
  rw [State.install_lane]
  split <;> rfl

theorem Lane.drainDone_spec {L : Lane} (h : L.drainDone = true) :
    L.state = .draining ∧ L.queue = [] ∧ L.blind = [] ∧ L.detector = .clear := by
  simp only [Lane.drainDone, Bool.and_eq_true, beq_iff_eq, List.isEmpty_iff] at h
  obtain ⟨⟨⟨h1, h2⟩, h3⟩, h4⟩ := h
  refine ⟨h1, h2, h3, ?_⟩
  revert h4
  cases L.detector <;> simp [Detector.isClear]

theorem State.testDrain_kept (s : State) (l : LaneId) : Lane.Kept (s.lane l) ((s.testDrain l).lane l) := by
  unfold State.testDrain
  split
  · rename_i h
    obtain ⟨h1, h2, h3, h4⟩ := Lane.drainDone_spec h
    refine ⟨fun ⟨_, k2, _, k4, _⟩ => ?_, fun _ _ => ?_, fun _ => ?_⟩
    · have hr : (s.lane l).retiring = none := by
        rcases hr : (s.lane l).retiring with _ | p
        · rfl
        · obtain ⟨_, t, ht, _⟩ := k4 p hr
          simp [h2] at ht
      obtain ⟨a, b, c, d, e, f, g⟩ := State.install_ended
        (s := (s.updLane l fun L => { L with state := .disabled }).produce (.drained l)) (l := l)
        (by simpa [State.updLane_eq] using h2) (by simpa [State.updLane_eq] using h3)
        (by simpa [State.updLane_eq] using hr)
      refine Lane.ended_law a b (c.trans ?_) d e ?_
      · simpa [State.updLane_eq] using h4
      · rw [f, g]
        simpa [State.updLane_eq, h1] using k2
    · refine .of_nil ?_
      rw [State.install_lane]
      split <;> simp [Lane.install, Lane.checkBlind, State.updLane_eq, h3]
    · rw [State.install_queue]
      simp [State.updLane_eq]
  · exact .refl _

theorem State.reachBoundary_kept (s : State) (l : LaneId) : Lane.Kept (s.lane l) ((s.reachBoundary l).lane l) := by
  unfold State.reachBoundary
  split
  · rename_i body derived b he
    split
    · rename_i hr
      rw [State.updLane_eq, State.lane_setLane_same]
      refine ⟨fun ⟨h1, h2, h3, h4, _⟩ => ⟨fun h => ?_, h2, h3, h4, fun _ _ _ => hr⟩, fun _ h => h, fun _ => .refl _⟩
      exact absurd he ((h1 h).2.2.2 _ _ _)
    · rename_i hr
      exact (State.install_kept s l (by simpa using hr)).trans (State.testDrain_kept _ l)
  · exact .refl _

/-- The same where the commit that is reached has just been made, on a lane that need not track. -/
theorem State.reachBoundary_commit {s : State} {l : LaneId} {body : ProfileBody} {derived : Derived} {b : Boundary}
    (he : (s.lane l).staging = .committing body derived (.pending b)) (hr : (s.lane l).retiring = none) :
    Lane.Kept { s.lane l with staging := .absent } ((s.reachBoundary l).lane l) := by
  unfold State.reachBoundary
  rw [he]
  simp only [hr, Option.isSome_none, Bool.false_eq_true, if_false]
  refine .trans ?_ (State.testDrain_kept _ l)
  rw [State.install_lane, he]
  refine ⟨fun ⟨h1, h2, h3, _, _⟩ => ?_, fun _ hb => hb.sublist (Lane.install_blind ..) rfl, fun _ => .refl _⟩
  refine Lane.install_law body derived (fun h => ⟨(h1 h).1, (h1 h).2.1, (h1 h).2.2.1⟩) h2 fun t hm => ?_
  rcases h3 t hm with h | ⟨p, hp, _⟩
  · exact h
  · cases hp

theorem State.testWhenClear_kept (s : State) (l : LaneId) : Lane.Kept (s.lane l) ((s.testWhenClear l).lane l) := by
  unfold State.testWhenClear
  split
  · exact State.reachBoundary_kept s l
  · exact .refl _

theorem State.serialAdvanced_kept (s : State) (l : LaneId) : Lane.Kept (s.lane l) ((s.serialAdvanced l).lane l) := by
  unfold State.serialAdvanced
  split
  · split
    · exact State.reachBoundary_kept s l
    · exact .refl _
  · exact .refl _

/-! ## The ends of a run -/

theorem Lane.abandon_nil (L : Lane) :
    L.abandon.queue = [] ∧ L.abandon.blind = [] ∧ L.abandon.detector = .clear ∧ L.abandon.retiring = none :=
  ⟨rfl, rfl, rfl, rfl⟩

theorem Lane.queue_nil {L M : Lane} (h : M.queue = []) :
    (M.queue.map Ticket.key).Sublist (L.queue.map Ticket.key) := by simp [h]

theorem State.haltLane_kept (s : State) (l : LaneId) (reason : HaltReason) :
    Lane.Kept (s.lane l) ((s.haltLane l reason).lane l) := by
  unfold State.haltLane
  split
  · simp only [State.lane_produce, State.updStops_eq, State.lane_setLane_same]
    have hl : (s.updLane l fun L => { L.abandon with state := .halted }).lane l =
        { (s.lane l).abandon with state := .halted } := by simp [State.updLane_eq]
    obtain ⟨a, b, c, d, e, f, g⟩ := State.install_ended
      (s := s.updLane l fun L => { L.abandon with state := .halted }) (l := l) (by rw [hl]; rfl) (by rw [hl]; rfl)
      (by rw [hl]; rfl)
    rw [hl] at c f
    refine ⟨fun _ => Lane.ended_law a b c d e ?_, fun _ _ => .of_nil b, fun _ => Lane.queue_nil a⟩
    simp [f]
  · exact .refl _

theorem State.abortLane_kept (s : State) (l : LaneId) (ht : (s.lane l).tracking = true) :
    Lane.Kept (s.lane l) ((s.abortLane l).lane l) := by
  have key : ∀ u : State, u.lane l = { (s.lane l).abandon with state := .disabled } →
      Lane.Kept (s.lane l) ((u.install l).lane l) := by
    intro u hl
    obtain ⟨a, b, c, d, e, f, g⟩ := State.install_ended (s := u) (l := l) (by rw [hl]; rfl) (by rw [hl]; rfl)
      (by rw [hl]; rfl)
    rw [hl] at c f g
    refine ⟨fun ⟨_, h2, _⟩ => Lane.ended_law a b c d e ?_, fun _ _ => .of_nil b, fun _ => Lane.queue_nil a⟩
    rw [f, g]
    have : (s.lane l).state ≠ .halted := by
      intro h
      simp [Lane.tracking, h] at ht
    show (s.lane l).stops.halt = true ↔ _
    simpa [this] using h2
  unfold State.abortLane
  simp only
  split <;> exact key _ (by simp [State.updLane_eq])

/-! ## Retirement -/

/-- The law of the lane but for the tickets of a retiring profile, which a retirement may have ended. -/
theorem State.testRetiring_law {s : State} {l : LaneId} (L : Lane) (h : L.LaneLaw)
    (hs : s.lane l = { L with queue := (s.lane l).queue }) (hq : ∀ t ∈ (s.lane l).queue, t ∈ L.queue) :
    ((s.testRetiring l).lane l).LaneLaw ∧ ((s.testRetiring l).lane l).blind.Sublist L.blind ∧
      ((s.testRetiring l).lane l).detector = L.detector ∧ ((s.testRetiring l).lane l).queue = (s.lane l).queue := by
  obtain ⟨h1, h2, h3, h4, h5⟩ := h
  have hnil : L.tracking = false → (s.lane l).queue = [] := fun e => by
    rw [List.eq_nil_iff_forall_not_mem]
    intro t ht
    have := hq t ht
    rw [(h1 e).1] at this
    cases this
  have e1 : (s.lane l).tracking = L.tracking := by rw [hs]; rfl
  have e2 : (s.lane l).blind = L.blind := by rw [hs]
  have e3 : (s.lane l).detector = L.detector := by rw [hs]
  have e4 : (s.lane l).staging = L.staging := by rw [hs]
  have e5 : (s.lane l).stops = L.stops := by rw [hs]
  have e6 : (s.lane l).state = L.state := by rw [hs]
  have e7 : (s.lane l).active = L.active := by rw [hs]
  have e8 : (s.lane l).retiring = L.retiring := by rw [hs]
  unfold State.testRetiring
  split
  · rename_i p hp
    have hp' : L.retiring = some p := by rw [← e8]; exact hp
    split
    · rename_i ha
      obtain ⟨u, hu, eu⟩ := List.any_eq_true.mp ha
      refine ⟨⟨fun ht => ?_, by rw [e5, e6]; exact h2, fun t ht => ?_, fun p' hp'' => ?_, fun b d e => ?_⟩,
        by rw [e2], e3, rfl⟩
      · rw [e1] at ht
        refine ⟨hnil ht, e2 ▸ (h1 ht).2.1, e3 ▸ (h1 ht).2.2.1, fun b d c e => (h1 ht).2.2.2 b d c (e4 ▸ e)⟩
      · rw [e7, e8]; exact h3 t (hq t ht)
      · obtain rfl : p = p' := by rw [hp] at hp''; simpa using hp''
        rw [e7]
        exact ⟨(h4 p hp').1, u, hu, by simpa using eu⟩
      · rw [hp]; rfl
    · rename_i ha
      have hact : ∀ t ∈ (s.lane l).queue, t.generation = L.active.generation := by
        intro t ht
        rcases h3 t (hq t ht) with h | ⟨p', hp'', e⟩
        · exact h
        · obtain rfl : p = p' := by rw [hp'] at hp''; simpa using hp''
          exact absurd (List.any_eq_true.mpr ⟨t, ht, by simpa using e⟩) ha
      simp only [State.updLane_eq, State.lane_setLane_same, e4]
      split
      · rename_i b d hst
        rw [State.install_lane]
        simp only [State.lane_setLane_same, hst]
        refine ⟨Lane.install_law _ _ (fun ht => ?_) ?_ ?_, ?_, e3, rfl⟩
        · have ht' : L.tracking = false := by rw [← e1]; exact ht
          exact ⟨hnil ht', e2 ▸ (h1 ht').2.1, e3 ▸ (h1 ht').2.2.1⟩
        · show (s.lane l).stops.halt = true ↔ (s.lane l).state = .halted
          rw [e5, e6]; exact h2
        · intro t ht
          show t.generation = (s.lane l).active.generation
          rw [e7]; exact hact t ht
        · rw [← e2]
          exact Lane.install_blind ..
      · rename_i hst
        simp only [State.lane_setLane_same]
        refine ⟨⟨fun ht => ?_, ?_, fun t ht => ?_, by simp, fun b d e => ?_⟩, by rw [e2], e3, trivial⟩
        · have ht' : L.tracking = false := by rw [← e1]; exact ht
          refine ⟨hnil ht', e2 ▸ (h1 ht').2.1, e3 ▸ (h1 ht').2.2.1, fun b d c e => (h1 ht').2.2.2 b d c e⟩
        · show (s.lane l).stops.halt = true ↔ (s.lane l).state = .halted
          rw [e5, e6]; exact h2
        · left
          show t.generation = (s.lane l).active.generation
          rw [e7]; exact hact t ht
        · exact absurd e (hst b d)
  · rename_i hp
    have hp' : L.retiring = none := by rw [← e8]; exact hp
    refine ⟨⟨fun ht => ?_, by rw [e5, e6]; exact h2, fun t ht => ?_, by simp [hp], fun b d e => ?_⟩, by rw [e2], e3, rfl⟩
    · rw [e1] at ht
      exact ⟨hnil ht, e2 ▸ (h1 ht).2.1, e3 ▸ (h1 ht).2.2.1, fun b d c e => (h1 ht).2.2.2 b d c (e4 ▸ e)⟩
    · rw [e7, e8]; exact h3 t (hq t ht)
    · rw [e8]; exact h5 b d (e4 ▸ e)

theorem State.retire_kept (s : State) (l : LaneId) (t : Ticket) : Lane.Kept (s.lane l) ((s.retire l t).lane l) := by
  have key : ∀ u : State,
      u.lane l = { s.lane l with queue := (s.lane l).queue.filter fun v => v.serial != t.serial } →
      Lane.Kept (s.lane l) ((((u.testRetiring l).testWhenClear l).testDrain l).lane l) := by
    intro u hu
    refine .trans ?_ (State.testDrain_kept _ l)
    refine .trans ?_ (State.testWhenClear_kept _ l)
    have hq : (u.lane l).queue.Sublist (s.lane l).queue := by rw [hu]; exact List.filter_sublist
    have h := fun hl => State.testRetiring_law (s := u) (l := l) (s.lane l) hl (by rw [hu]) fun v hv => hq.subset hv
    refine ⟨fun hl => (h hl).1, fun hl hb => hb.sublist (h hl).2.1 (h hl).2.2.1, fun hl => ?_⟩
    rw [(h hl).2.2.2]
    exact hq.map _
  unfold State.retire
  simp only
  split <;> exact key _ (by simp [State.updLane_eq])

end Sys2Proof.Machine
end

