-- ==== Sys2Proof/Laws/Acts.lean ====
section
/-! SUPPORT. What the shared operations of a lane do: ends of a run, installations, boundaries, drains, admissions, the two
lists in serial order. One lemma per operation, by its cases. -/

namespace Sys2Proof.Machine

/-! ## Open orders -/

/-- With no act at all nothing is ordered. -/
theorem State.ordered_nil {α : Type} (s : State) (gs : List (List α)) (h : ∀ g ∈ gs, g = []) :
    s.ordered gs = ([], s) := by
  have : gs.filter (fun g => !g.isEmpty) = [] := by
    simp only [List.filter_eq_nil_iff]
    intro g hg; simp [h g hg]
  simp [State.ordered, this]

/-- With one group that has acts the order is the group's own. -/
theorem State.ordered_one {α : Type} (s : State) {gs : List (List α)} {g : List α}
    (h : gs.filter (fun g => !g.isEmpty) = [g]) : s.ordered gs = (g, s) := by
  simp [State.ordered, h]

theorem filter_one_lane (p : LaneId → Bool) (l : LaneId) (hl : p l = true) (hj : ∀ j, j ≠ l → p j = false) :
    allLanes.filter p = [l] := by
  have h0 := hj 0; have h1 := hj 1; have h2 := hj 2; have h3 := hj 3
  rcases laneCases l with rfl | rfl | rfl | rfl <;> simp_all [allLanes]

/-! ## No commit waiting -/

theorem Lane.clearBoundary_noCommit {L : Lane} (h : L.noCommit) : L.clearBoundary = false := by
  unfold Lane.clearBoundary
  split
  · rename_i h'; exact absurd h' (h _ _ _)
  · rfl

theorem State.testWhenClear_noCommit (s : State) (l : LaneId) (h : (s.lane l).noCommit) :
    s.testWhenClear l = s := by
  simp [State.testWhenClear, Lane.clearBoundary_noCommit h]

/-! ## Conditions -/

/-- The intervals passed by the removal distance (R57). -/
theorem Lane.removable_eq (L : Lane) (i : Interval) : L.removable i =
    i.passed L.reach (L.active.derived.retireSpan.toNat + L.active.body.fields.flushMargin.toNat) := rfl

/-- The reach lies in a hold range (R109). -/
theorem inHold_iff (reach lo : Pos) (hi : Option Pos) : inHold reach lo hi = true ↔
    match hi with
    | some b => reach - lo < b - lo
    | none => (reach - lo).toNat < 2147483648 := by
  cases hi <;> exact decide_eq_true_iff

theorem Detector.isClear_iff (d : Detector) : d.isClear = true ↔ d = .clear := by cases d <;> simp [Detector.isClear]

/-- A drain is complete (R9). -/
theorem Lane.drainDone_iff (L : Lane) : L.drainDone = true ↔
    L.state = .draining ∧ L.queue = [] ∧ L.blind = [] ∧ L.detector = .clear := by
  simp [Lane.drainDone, Detector.isClear_iff, and_assoc]

/-- A WHEN_CLEAR boundary is reached (R68). -/
theorem Lane.clearBoundary_iff (L : Lane) : L.clearBoundary = true ↔
    L.queue = [] ∧ L.detector = .clear ∧
      ∃ body derived, L.staging = .committing body derived (.pending .whenClear) := by
  unfold Lane.clearBoundary
  split
  · rename_i e; simp [e, Detector.isClear_iff]
  · rename_i e
    simp only [Bool.false_eq_true, false_iff]
    rintro ⟨_, _, b, d, h⟩
    exact e b d h

/-! ## Ends of a run -/

/-- Outside RUNNING and DRAINING a halt has no effect (R12). -/
theorem State.haltLane_other (s : State) (l : LaneId) (r : HaltReason) (h : (s.lane l).tracking = false) :
    s.haltLane l r = s := by simp [State.haltLane, h]

/-- An installation (R71). -/
theorem State.install_eq (s : State) (l : LaneId) (b : ProfileBody) (d : Derived) (c : Commit)
    (h : (s.lane l).staging = .committing b d c) :
    s.install l = (s.setLane l ((s.lane l).install b d)).produce
      (.committed l ((s.lane l).active.generation + 1) (s.lane l).nextSerial) := by
  simp only [State.install, h]; rfl

/-- After an installation no commit waits (R71). -/
theorem State.install_ends (s : State) (l : LaneId) : ((s.install l).lane l).noCommit := by
  unfold State.install
  split
  · rw [State.lane_produce, State.lane_setLane_same]
    exact nofun
  · rename_i h
    exact h

/-- After a drain's completion no commit waits (R75). -/
theorem State.testDrain_ends (s : State) (l : LaneId) (h : (s.lane l).drainDone = true) :
    ((s.testDrain l).lane l).noCommit := by
  simp only [State.testDrain, h, if_true]
  exact State.install_ends _ l


/-- An installation on an empty lane (R71, R75). -/
theorem State.install_empty (s : State) (l : LaneId) (b : ProfileBody) (d : Derived) (c : Commit)
    (h : (s.lane l).staging = .committing b d c) (hq : (s.lane l).queue = []) (hb : (s.lane l).blind = []) :
    s.install l =
      (s.setLane l
        { s.lane l with
          retiring := none
          active := ⟨(s.lane l).active.generation + 1, b, d⟩
          staging := .absent }).produce
        (.committed l ((s.lane l).active.generation + 1) (s.lane l).nextSerial) := by
  unfold State.install
  rw [h]
  simp only [Lane.install, Lane.checkBlind, hq, hb]
  simp

/-- A lane that tracks is halted (R12, R75). -/
theorem State.haltLane_eq (s : State) (l : LaneId) (r : HaltReason) (h : (s.lane l).tracking = true) :
    let H : Lane := { (s.lane l).abandoned .halted with stops := { (s.lane l).stops with halt := true } }
    let last (t : State) : State := t.produce (.halted l r (natByte (s.lane l).queue.length))
    ((s.lane l).noCommit → s.haltLane l r = last (s.setLane l H)) ∧
    (∀ b d c, (s.lane l).staging = .committing b d c → s.haltLane l r = last ((s.setLane l
      { H with
        active := { generation := (s.lane l).active.generation + 1, body := b, derived := d }
        staging := .absent }).produce
      (.committed l ((s.lane l).active.generation + 1) (s.lane l).nextSerial))) := by
  intro H last
  have hab : ({ (s.lane l).abandon with state := .halted } : Lane) = (s.lane l).abandoned .halted := by
    simp only [Lane.abandon, Lane.abandoned, Lane.mapStations_eq]
    rfl
  have e : s.haltLane l r = last
      (((s.setLane l ((s.lane l).abandoned .halted)).install l).updStops l fun r => { r with halt := true }) := by
    simp only [State.haltLane, h, if_true, State.updLane_eq, hab]
    rfl
  refine ⟨fun hc => ?_, fun b d c hc => ?_⟩
  · rw [e, State.install_noCommit (by rw [State.lane_setLane_same]; exact hc)]
    simp [State.updStops_eq, Lane.abandoned, H]
  · rw [e, State.install_empty _ _ b d c (by rw [State.lane_setLane_same]; exact hc)
      (by rw [State.lane_setLane_same]; rfl) (by rw [State.lane_setLane_same]; rfl)]
    simp [State.updStops_eq, Lane.abandoned, H, ← State.produce_setLane]

/-! ## The return to CLEAR -/

/-- The detector's return to CLEAR, by who reads it. -/
theorem State.detectorCleared_cases (s : State) (l : LaneId) :
    ((s.lane l).clearBoundary = false → s.detectorCleared l = s.testDrain l) ∧
    ((s.lane l).clearBoundary = true → (s.lane l).drainDone = false → s.detectorCleared l = s.reachBoundary l) ∧
    ((s.lane l).clearBoundary = true → (s.lane l).drainDone = true →
      let u : State := { s with freeIndex := s.freeIndex + 1 }
      s.detectorCleared l = (u.reachBoundary l).testDrain l ∨
        s.detectorCleared l = (u.testDrain l).testWhenClear l) := by
  refine ⟨fun h => ?_, fun h h2 => ?_, fun h h2 => ?_⟩
  · rcases hd : (s.lane l).drainDone <;>
      simp [State.detectorCleared, h, hd, State.ordered, State.readClear, State.testDrain]
  · simp [State.detectorCleared, h, h2, State.ordered, State.readClear, State.testWhenClear]
  · intro u
    have hu : u.testWhenClear l = u.reachBoundary l := by
      simp only [State.testWhenClear]; rw [show u.lane l = s.lane l from rfl, h]; rfl
    have e : s.detectorCleared l = (interleave 2 (Config.order s.freeIndex)
        [[ClearReader.whenClear], [ClearReader.drain]]).foldl (State.readClear l) u := by
      simp [State.detectorCleared, h, h2, State.ordered, u]
    have : Config.order s.freeIndex % 2 = 0 ∨ Config.order s.freeIndex % 2 = 1 := by omega
    rcases this with h | h
    · left
      rw [e]; simp [interleave, h, popGroup, State.readClear, hu]
    · right
      rw [e]; simp [interleave, h, popGroup, State.readClear]

/-! ## Encoder -/

theorem EncoderPair.step_table (p q : EncoderPair) : p.step q = quadratureTable (p.a, p.b) (q.a, q.b) := by
  rcases p with ⟨_ | _, _ | _⟩ <;> rcases q with ⟨_ | _, _ | _⟩ <;> rfl

theorem QuadStep.swap_eq (t : QuadStep) : t.swap =
    (match t with
      | .forward => .reverse
      | .reverse => .forward
      | other => other) := by cases t <;> rfl

/-! ## Admissions -/

/-- A new interval is appended, or the newest takes its end (R55). -/
theorem addInterval_eq (is : List Interval) (i : Interval) : addInterval is i = withInterval is i := by
  have h : ∀ js : List Interval, extendNewest i.stop js =
      js.dropLast ++ (js.getLast?.map fun j => { j with stop := i.stop }).toList := by
    intro js
    induction js with
    | nil => rfl
    | cons j js ih =>
      cases js with
      | nil => rfl
      | cons k ks =>
        show j :: extendNewest i.stop (k :: ks) = _
        rw [ih]
        simp
  unfold addInterval withInterval
  rw [h]
  rfl

/-- An installation leaves the lane's state and its detector. -/
theorem State.install_stays (s : State) (l : LaneId) :
    ((s.install l).lane l).state = (s.lane l).state ∧ ((s.install l).lane l).detector = (s.lane l).detector := by
  unfold State.install
  split
  · rw [State.lane_produce, State.lane_setLane_same]; exact ⟨rfl, rfl⟩
  · exact ⟨rfl, rfl⟩

/-- A drain waits for the detector (R9). -/
theorem State.testDrain_busy (s : State) (l : LaneId) (h : (s.lane l).detector ≠ .clear) : s.testDrain l = s := by
  have : ¬ (s.lane l).drainDone = true := fun e => h ((s.lane l).drainDone_iff.mp e).2.2.2
  simp [State.testDrain, this]

/-- While the detector measures an item, an advance of the next serial leaves the lane's state and its detector. -/
theorem State.serialAdvanced_stays (s : State) (l : LaneId) (h : (s.lane l).detector ≠ .clear) :
    ((s.serialAdvanced l).lane l).state = (s.lane l).state ∧
      ((s.serialAdvanced l).lane l).detector = (s.lane l).detector := by
  unfold State.serialAdvanced
  split
  · split
    · unfold State.reachBoundary
      split
      · split
        · rw [State.updLane_eq, State.lane_setLane_same]; exact ⟨rfl, rfl⟩
        · have := State.install_stays s l
          rw [State.testDrain_busy _ _ (by rw [this.2]; exact h)]
          exact this
      · exact ⟨rfl, rfl⟩
    · exact ⟨rfl, rfl⟩
  · exact ⟨rfl, rfl⟩

@[simp] theorem Lane.advanceSerial_state (L : Lane) : L.advanceSerial.state = L.state := by
  unfold Lane.advanceSerial; split <;> rfl
@[simp] theorem Lane.advanceSerial_detector (L : Lane) : L.advanceSerial.detector = L.detector := by
  unfold Lane.advanceSerial; split <;> rfl

/-- While the detector measures an item, an admission request leaves the lane's state, or the drop policy halts the lane
(R34, R47). -/
theorem State.askPool_state (s : State) (l : LaneId) (e : Pos) (len gap : Half) (long : Bool)
    (ht : (s.lane l).tracking = true) (hd : (s.lane l).detector ≠ .clear) :
    ((s.askPool l e len gap long).lane l).state = (s.lane l).state ∨
      ((s.askPool l e len gap long).lane l).state = .halted := by
  have hdrop : ∀ r, ((s.drop l e len gap long r).lane l).state = (s.lane l).state ∨
      ((s.drop l e len gap long r).lane l).state = .halted := by
    intro r
    unfold State.drop
    simp only
    rw [State.updLane_eq]
    generalize hu : State.produce _ _ = u
    have hul : (u.lane l).state = (s.lane l).state ∧ (u.lane l).detector = (s.lane l).detector := by
      rw [← hu, State.lane_produce, State.lane_setLane_same]
      simp
    obtain ⟨h1, h2⟩ := u.serialAdvanced_stays l (by rw [hul.2]; exact hd)
    rw [hul.1] at h1
    generalize u.serialAdvanced l = v at h1
    unfold State.dropPolicy
    split
    · exact .inl h1
    · left; rw [State.updStops_eq, State.lane_setLane_same]; exact h1
    · right
      have hv : (v.lane l).tracking = true := by
        simp only [Lane.tracking, h1]; exact ht
      simp only [State.haltLane, hv, if_true, State.lane_produce, State.updStops_eq, State.lane_setLane_same]
      rw [(State.install_stays _ l).1, State.updLane_eq, State.lane_setLane_same]
  unfold State.askPool
  split
  · exact hdrop _
  · split
    · left
      unfold State.grant
      simp only
      generalize hu : State.updLane _ l Lane.advanceSerial = u
      have hul : (u.lane l).state = (s.lane l).state ∧ (u.lane l).detector = (s.lane l).detector := by
        rw [← hu]
        simp [State.updLane_eq]
      rw [(u.serialAdvanced_stays l (by rw [hul.2]; exact hd)).1, hul.1]
    · exact hdrop _

/-- A measured item handed on by a lane that tracks (R34, R35, R47). -/
theorem State.admitMeasured_eq (s : State) (l : LaneId) (ld tr : Pos) (lim : Limits)
    (ht : (s.lane l).tracking = true) (hd : (s.lane l).detector ≠ .clear) :
    let t := s.askPool l ld ((tr - ld).setWidth 16) lim.gap false
    s.admitMeasured l ld tr lim = if (t.lane l).state = .halted then t
      else (t.setLane l { t.lane l with detector := .clear }).detectorCleared l := by
  intro t
  have ha := s.askPool_state l ld ((tr - ld).setWidth 16) lim.gap false ht hd
  simp only [State.admitMeasured, State.setDetector, State.updLane_eq]
  change (if (t.lane l).tracking = true then _ else t) = _
  change (t.lane l).state = _ ∨ (t.lane l).state = _ at ha
  rcases ha with h | h
  · have h1 : (t.lane l).tracking = true := by simp only [Lane.tracking, h]; exact ht
    rw [if_pos h1, if_neg]
    intro e; rw [Lane.tracking, e] at h1; exact absurd h1 (by decide)
  · rw [if_neg (by simp [Lane.tracking, h]), if_pos h]

/-- A LONG item handed on by a lane that tracks (R30, R31, R47). -/
theorem State.admitLong_eq (s : State) (l : LaneId) (ld : Pos) (lim : Limits) (ht : (s.lane l).tracking = true)
    (hd : (s.lane l).detector ≠ .clear) :
    let t := s.askPool l ld lim.lmax lim.gap true
    s.admitLong l ld lim = if (t.lane l).state = .halted then t
      else t.setLane l { t.lane l with detector := .blocked ld lim } := by
  intro t
  have ha := s.askPool_state l ld lim.lmax lim.gap true ht hd
  simp only [State.admitLong, State.setDetector, State.updLane_eq]
  change (if (t.lane l).tracking = true then _ else t) = _
  change (t.lane l).state = _ ∨ (t.lane l).state = _ at ha
  rcases ha with h | h
  · have h1 : (t.lane l).tracking = true := by simp only [Lane.tracking, h]; exact ht
    rw [if_pos h1, if_neg]
    intro e; rw [Lane.tracking, e] at h1; exact absurd h1 (by decide)
  · rw [if_neg (by simp [Lane.tracking, h]), if_pos h]

/-- The highest index that satisfies a test comes first (R40). -/
theorem indicesDown_filter (p : TicketIndex → Bool) (i : TicketIndex) (hi : p i = true)
    (hh : ∀ j, i < j → p j = false) : ∃ r, indicesDown.filter p = i :: r := by
  have hs : indicesDown.Pairwise (· > ·) := by decide
  have hall : ∀ i, i ∈ indicesDown := by decide
  have hm := hall i
  obtain ⟨a, b, hab⟩ := List.append_of_mem hm
  rw [hab] at hs ⊢
  have ha : a.filter p = [] := by
    simp only [List.filter_eq_nil_iff]
    intro x hx
    have : x > i := by
      rw [List.pairwise_append] at hs
      exact hs.2.2 x hx i (by simp)
    simp [hh x this]
  exact ⟨b.filter p, by simp [List.filter_append, ha, hi]⟩

/-! ## Tickets at a station -/

/-- An entry goes after those issued before it and before the first one issued later (R101, R118). -/
theorem insertBySerial_split {α : Type} (next : Serial) (f : α → Serial) (x : α) (older newer : List α)
    (ho : ∀ y ∈ older, serialsBack next (f x) ≤ serialsBack next (f y))
    (hn : ∀ y rest, newer = y :: rest → serialsBack next (f y) < serialsBack next (f x)) :
    insertBySerial next f x (older ++ newer) = older ++ x :: newer := by
  induction older with
  | nil =>
    cases newer with
    | nil => rfl
    | cons y ys => simp [insertBySerial, hn y ys rfl]
  | cons y ys ih =>
    have h : ¬ serialsBack next (f y) < serialsBack next (f x) := by
      have := ho y (by simp)
      omega
    simp only [List.cons_append, insertBySerial, if_neg h]
    rw [ih fun z hz => ho z (by simp [hz])]

/-- The profile of a generation is that of the active and the retiring profile alone (R37, R73). -/
theorem Lane.profileOf_congr {L M : Lane} (h1 : M.active = L.active) (h2 : M.retiring = L.retiring) (g : Half) :
    M.profileOf g = L.profileOf g := by
  unfold Lane.profileOf
  rw [h1, h2]

/-- The one station with confirm yes is the confirm station (R119). -/
theorem ProfileBody.confirmStation_only (b : ProfileBody) (k : StationId) (h : (b.stations[k]).confirm.isSome)
    (ho : ∀ j : StationId, (b.stations[j]).confirm.isSome → j = k) : b.confirmStation = some k := by
  unfold ProfileBody.confirmStation
  rcases e : allStations.find? fun k => (b.stations[k]).confirm.isSome with _ | j
  · exact absurd h (List.find?_eq_none.mp e k ((by decide : ∀ k : StationId, k ∈ allStations) k))
  · have hj := ho j (by simpa using List.find?_some (p := fun k : StationId => (b.stations[k]).confirm.isSome) e)
    subst hj
    exact e


theorem Ticket.finalise_eq (u : Ticket) (p : Profile) :
    u.finalise p =
      { u with
        decision :=
          (match u.decision with
            | .undecided => .final p.body.fields.defaultClass .default none
            | .decided c tag => .final c .host tag
            | .final c source tag => .final c source tag) } := by
  rcases u with ⟨_, _, _, _, _, _, _, d, _, _⟩
  rcases d <;> rfl

end Sys2Proof.Machine
end

