-- ==== Sys2Proof/Laws/Scheduled.lean ====
section
/-! SUPPORT. The stations and the confirm monitor keep the laws of the lane: one lemma per operation. -/

namespace Sys2Proof.Machine

/-! ## Confirm monitor -/

theorem State.setConfirm_kept (s : State) (l : LaneId) (n : Serial) (c : ConfirmState) :
    Lane.Kept (s.lane l) ((s.setConfirm l n c).lane l) := State.updTicket_kept s l n _ fun _ => rfl

theorem State.confirmPolicy_kept (s : State) (l : LaneId) : Lane.Kept (s.lane l) ((s.confirmPolicy l).lane l) := by
  unfold State.confirmPolicy
  split
  · exact .refl _
  · exact State.updStops_kept s l _ fun _ => rfl
  · exact State.haltLane_kept s l _

theorem State.unconfirmed_kept (s : State) (l : LaneId) (n : Serial) (k : StationId) :
    Lane.Kept (s.lane l) ((s.unconfirmed l n k).lane l) := by
  unfold State.unconfirmed
  exact (State.setConfirm_kept s l n _).trans (State.confirmPolicy_kept ((s.setConfirm l n _).produce _) l)

theorem State.updWindows_kept (s : State) (l : LaneId) (f : Lane → List Window) :
    Lane.Kept (s.lane l) ((s.updLane l fun L => { L with windows := f L }).lane l) := by
  rw [State.updLane_eq, State.lane_setLane_same]
  exact .same rfl rfl rfl rfl rfl rfl rfl rfl

theorem State.openWindow_kept (s : State) (l : LaneId) (w : Window) :
    Lane.Kept (s.lane l) ((s.openWindow l w).lane l) := by
  unfold State.openWindow
  split
  · exact State.unconfirmed_kept s l _ _
  · exact (State.setConfirm_kept s l _ _).trans (State.updWindows_kept _ l _)

theorem State.tellFired_kept (s : State) (l : LaneId) (k : StationId) (t : Ticket) :
    Lane.Kept (s.lane l) ((s.tellFired l k t).lane l) := by
  unfold State.tellFired
  simp only
  split
  · exact State.openWindow_kept s l _
  · exact .refl _

theorem State.tellNotDue_kept (s : State) (l : LaneId) (k : StationId) (t : Ticket) :
    Lane.Kept (s.lane l) ((s.tellNotDue l k t).lane l) := by
  unfold State.tellNotDue
  simp only
  split
  · exact State.setConfirm_kept s l _ _
  · exact .refl _

theorem State.confirmPresence_kept (s : State) (l : LaneId) :
    Lane.Kept (s.lane l) ((s.confirmPresence l).lane l) := by
  unfold State.confirmPresence
  simp only
  split
  · exact .refl _
  · split
    · exact (State.setConfirm_kept s l _ _).trans (State.updWindows_kept _ l _)
    · exact .refl _

theorem State.confirmEdge_kept (s : State) (l : LaneId) (present : Bool) :
    Lane.Kept (s.lane l) ((s.confirmEdge l present).lane l) := by
  have h : Lane.Kept (s.lane l) ((s.updLane l fun L => { L with confirmLevel := present }).lane l) := by
    rw [State.updLane_eq, State.lane_setLane_same]
    exact .same rfl rfl rfl rfl rfl rfl rfl rfl
  unfold State.confirmEdge
  simp only
  split
  · exact h
  · split
    · exact .refl _
    · split
      · exact h.trans (State.confirmPresence_kept _ l)
      · exact h

theorem State.windowEnd_kept (s : State) (l : LaneId) (w : Window) :
    Lane.Kept (s.lane l) ((s.windowEnd l w).lane l) := by
  unfold State.windowEnd
  exact (State.updWindows_kept s l _).trans (State.unconfirmed_kept _ l _ _)

/-! ## Stations -/

theorem State.setOutcome_kept (s : State) (l : LaneId) (k : StationId) (n : Serial) (o : Outcome) :
    Lane.Kept (s.lane l) ((s.setOutcome l k n o).lane l) := State.updTicket_kept s l n _ fun _ => rfl

theorem State.miss_kept (s : State) (l : LaneId) (k : StationId) (t : Ticket) (reason : MissReason) :
    Lane.Kept (s.lane l) ((s.miss l k t reason).lane l) := by
  unfold State.miss
  exact (State.setOutcome_kept s l k t.serial _).trans (State.tellNotDue_kept ((s.setOutcome l k _ _).produce _) l k t)

theorem State.firePulse_kept (s : State) (l : LaneId) (k : StationId) (t : Ticket) (width rearm : Triple) :
    Lane.Kept (s.lane l) ((s.firePulse l k t width rearm).lane l) := by
  unfold State.firePulse
  exact ((State.updStation_kept s l k _).trans (State.setOutcome_kept _ l k _ _)).trans (State.tellFired_kept _ l k t)

theorem State.deferTicket_kept (s : State) (l : LaneId) (k : StationId) (t : Ticket) (due : Pos) (tolerance : Half) :
    Lane.Kept (s.lane l) ((s.deferTicket l k t due tolerance).lane l) := by
  unfold State.deferTicket
  split
  · exact State.miss_kept s l k t _
  · exact (State.updStation_kept s l k _).trans (State.setOutcome_kept _ l k _ _)

theorem State.fireSpan_kept (s : State) (l : LaneId) (k : StationId) (t : Ticket) (off : Pos) :
    Lane.Kept (s.lane l) ((s.fireSpan l k t off).lane l) := by
  unfold State.fireSpan
  exact ((State.updStation_kept s l k _).trans (State.setOutcome_kept _ l k _ _)).trans (State.tellFired_kept _ l k t)

theorem State.serveTicket_kept (s : State) (l : LaneId) (k : StationId) (t : Ticket) (act : StationAct) (due : Pos) :
    Lane.Kept (s.lane l) ((s.serveTicket l k t act due).lane l) := by
  unfold State.serveTicket
  split
  · exact .refl _
  · split
    · exact State.firePulse_kept s l k t _ _
    · split
      · exact State.miss_kept s l k t _
      · exact State.deferTicket_kept s l k t _ _
  · exact State.fireSpan_kept s l k t _

theorem State.guardTest_kept (s : State) (l : LaneId) (k : StationId) (t : Ticket) (act : StationAct) (due : Pos) :
    Lane.Kept (s.lane l) ((s.guardTest l k t act due).lane l) := by
  unfold State.guardTest
  split
  · exact State.miss_kept s l k t _
  · exact State.serveTicket_kept s l k t _ _

theorem State.classTest_kept (s : State) (l : LaneId) (k : StationId) (t : Ticket) (act : StationAct) (due : Pos)
    (mask : Byte) : Lane.Kept (s.lane l) ((s.classTest l k t act due mask).lane l) := by
  have h := State.updTicket_kept s l t.serial (fun u => u.finalise ((s.lane l).profileOf t.generation)) fun _ => rfl
  unfold State.classTest
  simp only
  split
  · split
    · exact h.trans (State.guardTest_kept _ l k _ _ _)
    · exact (h.trans (State.setOutcome_kept _ l k _ _)).trans (State.tellNotDue_kept _ l k _)
  · exact h

theorem State.duePoint_kept (s : State) (l : LaneId) (k : StationId) (t : Ticket) :
    Lane.Kept (s.lane l) ((s.duePoint l k t).lane l) := by
  unfold State.duePoint
  simp only
  split
  · exact State.guardTest_kept s l k t _ _
  · exact State.classTest_kept s l k t _ _ _
  · exact .refl _

theorem State.toleranceEnd_kept (s : State) (l : LaneId) (k : StationId) (t : Ticket) :
    Lane.Kept (s.lane l) ((s.toleranceEnd l k t).lane l) := by
  unfold State.toleranceEnd
  exact (State.updStation_kept s l k _).trans (State.miss_kept _ l k t _)

theorem State.deferredFire_kept (s : State) (l : LaneId) (k : StationId) :
    Lane.Kept (s.lane l) ((s.deferredFire l k).lane l) := by
  unfold State.deferredFire
  split
  · exact .refl _
  · simp only
    have h := fun f => State.updStation_kept s l k f
    split
    · exact h _
    · split
      · exact (h _).trans (State.firePulse_kept _ l k _ _ _)
      · exact h _

theorem State.becomeIdle_kept (s : State) (l : LaneId) (k : StationId) :
    Lane.Kept (s.lane l) ((s.becomeIdle l k).lane l) := by
  have h := State.updStation_kept s l k fun S => { S with pulse := .idle }
  unfold State.becomeIdle
  simp only
  split
  · exact h
  · exact h.trans (State.deferredFire_kept _ l k)

theorem State.pulseEnd_kept (s : State) (l : LaneId) (k : StationId) :
    Lane.Kept (s.lane l) ((s.pulseEnd l k).lane l) := by
  unfold State.pulseEnd
  split
  · split
    · exact State.becomeIdle_kept s l k
    · exact State.updStation_kept s l k _
  · exact .refl _

theorem State.rearmEnd_kept (s : State) (l : LaneId) (k : StationId) :
    Lane.Kept (s.lane l) ((s.rearmEnd l k).lane l) := by
  unfold State.rearmEnd
  split
  · exact State.becomeIdle_kept s l k
  · exact .refl _

end Sys2Proof.Machine
end

