-- ==== Sys2Proof/Laws/Admission.lean ====
section
/-! SUPPORT. Admissions, the entry detector, travel and the guard keep the laws of the lane and of the pool. -/

namespace Sys2Proof.Machine

theorem Lane.Kept.of_eq {L M : Lane} (h : M = L) : Lane.Kept L M := h ▸ .refl L

theorem State.ordered_lane {α : Type} (s : State) (gs : List (List α)) (l : LaneId) :
    (s.ordered gs).2.lane l = s.lane l := by
  rcases s.ordered_snd gs with h | h
  · rw [h]
  · rw [h]; rfl

theorem foldl_keeps {α : Type} {l : LaneId} {f : State → α → State} (h : ∀ s a, State.Keeps l s (f s a)) (as : List α)
    (s : State) : State.Keeps l s (as.foldl f s) := by
  induction as generalizing s with
  | nil => exact .refl l s
  | cons a as ih => exact (h s a).trans (ih _)

theorem foldl_kept {α : Type} {l : LaneId} {f : State → α → State} (h : ∀ s a, Lane.Kept (s.lane l) ((f s a).lane l))
    (as : List α) (s : State) : Lane.Kept (s.lane l) ((as.foldl f s).lane l) := by
  induction as generalizing s with
  | nil => exact .refl _
  | cons a as ih => exact (h s a).trans (ih _)

/-! ## The blind list at an admission -/

/-- At most 4 intervals, and only the newest can be open. -/
def Lane.BlindBounds (L : Lane) : Prop := L.blind.length ≤ 4 ∧ ∀ i ∈ L.blind.dropLast, i.stop.isSome

/-- At most 4 intervals, all closed. -/
def Lane.BlindClosed (L : Lane) : Prop := L.blind.length ≤ 4 ∧ ∀ i ∈ L.blind, i.stop.isSome

theorem Lane.BlindClosed.law {L : Lane} (h : L.BlindClosed) : L.BlindLaw := by
  refine ⟨h.1, fun i hi => h.2 i (List.dropLast_subset _ hi), ?_⟩
  rintro ⟨i, hi, e⟩
  simpa [e] using h.2 i hi

theorem Lane.BlindLaw.closed {L : Lane} (h : L.BlindLaw) (hd : ∀ leading lim, L.detector ≠ .blocked leading lim) :
    L.BlindClosed := by
  refine ⟨h.1, fun i hi => ?_⟩
  rcases e : i.stop with _ | x
  · obtain ⟨a, b, c⟩ := h.2.2 ⟨i, hi, e⟩
    exact absurd c (hd a b)
  · rfl

theorem Lane.BlindBounds.sublist {L M : Lane} (h : L.BlindBounds) (hb : M.blind.Sublist L.blind) : M.BlindBounds :=
  ⟨hb.length_le.trans h.1, fun i hi => h.2 i ((sublist_dropLast hb).subset hi)⟩

theorem Lane.BlindClosed.sublist {L M : Lane} (h : L.BlindClosed) (hb : M.blind.Sublist L.blind) : M.BlindClosed :=
  ⟨hb.length_le.trans h.1, fun i hi => h.2 i (hb.subset hi)⟩

theorem extendNewest_length (stop : Option Pos) (is : List Interval) : (extendNewest stop is).length = is.length := by
  induction is with
  | nil => rfl
  | cons i is ih => cases is <;> simp_all [extendNewest]

theorem extendNewest_closed {stop : Option Pos} {is : List Interval} (h : ∀ i ∈ is, i.stop.isSome) :
    (∀ i ∈ (extendNewest stop is).dropLast, i.stop.isSome) ∧
      (stop.isSome → ∀ i ∈ extendNewest stop is, i.stop.isSome) := by
  induction is with
  | nil => simp [extendNewest]
  | cons i is ih =>
    rcases is with _ | ⟨j, js⟩
    · simp [extendNewest]
    · obtain ⟨h1, h2⟩ := ih fun x hx => h x (by simp [hx])
      have hi := h i (by simp)
      have hne : extendNewest stop (j :: js) ≠ [] := by
        intro e
        have := congrArg List.length e
        simp [extendNewest_length] at this
      simp only [extendNewest]
      rw [List.dropLast_cons_of_ne_nil hne]
      simp only [List.mem_cons, forall_eq_or_imp]
      exact ⟨⟨hi, h1⟩, fun hs => ⟨hi, h2 hs⟩⟩

theorem addInterval_bounds {is : List Interval} (new : Interval) (h : is.length ≤ 4) (hc : ∀ i ∈ is, i.stop.isSome) :
    (addInterval is new).length ≤ 4 ∧ (∀ i ∈ (addInterval is new).dropLast, i.stop.isSome) ∧
      (new.stop.isSome → ∀ i ∈ addInterval is new, i.stop.isSome) := by
  unfold addInterval blindCapacity
  split
  · refine ⟨by simp; omega, by simpa using hc, fun hn i hi => ?_⟩
    simp only [List.mem_append, List.mem_singleton] at hi
    rcases hi with hi | rfl
    · exact hc i hi
    · exact hn
  · obtain ⟨h1, h2⟩ := extendNewest_closed (stop := new.stop) hc
    exact ⟨by rw [extendNewest_length]; exact h, h1, h2⟩

/-! ## The blind list under the acts that follow an admission -/

theorem State.install_blind (s : State) (l : LaneId) : ((s.install l).lane l).blind.Sublist (s.lane l).blind := by
  rw [State.install_lane]
  split
  · exact Lane.install_blind ..
  · exact .refl _

theorem State.testDrain_blind (s : State) (l : LaneId) :
    ((s.testDrain l).lane l).blind.Sublist (s.lane l).blind := by
  unfold State.testDrain
  split
  · refine (State.install_blind _ l).trans ?_
    simp [State.updLane_eq]
  · exact .refl _

theorem State.reachBoundary_blind (s : State) (l : LaneId) :
    ((s.reachBoundary l).lane l).blind.Sublist (s.lane l).blind := by
  unfold State.reachBoundary
  split
  · split
    · simp [State.updLane_eq]
    · exact (State.testDrain_blind _ l).trans (State.install_blind s l)
  · exact .refl _

theorem State.serialAdvanced_blind (s : State) (l : LaneId) :
    ((s.serialAdvanced l).lane l).blind.Sublist (s.lane l).blind := by
  unfold State.serialAdvanced
  split
  · split
    · exact State.reachBoundary_blind s l
    · exact .refl _
  · exact .refl _

theorem State.haltLane_blind (s : State) (l : LaneId) (reason : HaltReason) :
    ((s.haltLane l reason).lane l).blind.Sublist (s.lane l).blind := by
  unfold State.haltLane
  split
  · simp only [State.lane_produce, State.updStops_eq, State.lane_setLane_same]
    refine (State.install_blind _ l).trans ?_
    simp [State.updLane_eq, Lane.abandon]
  · exact .refl _

theorem State.dropPolicy_blind (s : State) (l : LaneId) :
    ((s.dropPolicy l).lane l).blind.Sublist (s.lane l).blind := by
  unfold State.dropPolicy
  split
  · exact .refl _
  · simp [State.updStops_eq]
  · exact State.haltLane_blind s l _

theorem State.dropPolicy_kept (s : State) (l : LaneId) : Lane.Kept (s.lane l) ((s.dropPolicy l).lane l) := by
  unfold State.dropPolicy
  split
  · exact .refl _
  · exact State.updStops_kept s l _ fun _ => rfl
  · exact State.haltLane_kept s l _

/-! ## Admissions -/

theorem Lane.advanceSerial_kept (L : Lane) : Lane.Kept L L.advanceSerial := by
  unfold Lane.advanceSerial
  split <;> exact .same rfl rfl rfl rfl rfl rfl rfl rfl

theorem Lane.LaneLaw.setBlind {L : Lane} (h : L.LaneLaw) (ht : L.tracking = true) (is : List Interval) :
    { L with blind := is }.LaneLaw := by
  obtain ⟨_, h2, h3, h4, h5⟩ := h
  refine ⟨fun e => ?_, h2, h3, h4, h5⟩
  have e' : L.tracking = false := e
  rw [ht] at e'
  cases e'

theorem Lane.LaneLaw.setDetector {L : Lane} (h : L.LaneLaw) (ht : L.tracking = true) (d : Detector) :
    { L with detector := d }.LaneLaw := by
  obtain ⟨_, h2, h3, h4, h5⟩ := h
  refine ⟨fun e => ?_, h2, h3, h4, h5⟩
  have e' : L.tracking = false := e
  rw [ht] at e'
  cases e'

/-- What an admission request does to a tracking lane whose blind list is closed, whatever its detector. -/
structure State.Admits (l : LaneId) (long : Bool) (s t : State) : Prop where
  law : (s.lane l).LaneLaw → (t.lane l).LaneLaw
  bounds : (s.lane l).BlindClosed → (t.lane l).BlindBounds
  closed : long = false → (s.lane l).BlindClosed → (t.lane l).BlindClosed
  pool : (s.lane l).LaneLaw → s.PoolLaw → t.PoolLaw

theorem State.drop_admits (s : State) (l : LaneId) (entry : Pos) (length gap : Half) (long : Bool) (reason : DropReason)
    (ht : (s.lane l).tracking = true) : State.Admits l long s (s.drop l entry length gap long reason) := by
  have hb := fun u : State => (State.dropPolicy_blind (u.serialAdvanced l) l).trans (State.serialAdvanced_blind u l)
  have hk := fun u : State => (State.serialAdvanced_kept u l).trans (State.dropPolicy_kept (u.serialAdvanced l) l)
  have hacts := State.drop_acts s l entry length gap long reason
  unfold State.drop at hacts ⊢
  simp only at hacts ⊢
  set u : State := (s.updLane l fun L => { L.advanceSerial with
      dropCount := saturatingSucc L.dropCount
      blind := addInterval L.blind (dropInterval entry length gap long) }).produce
        (.dropped l (s.lane l).nextSerial entry reason) with hu
  have hl : u.lane l = { (s.lane l).advanceSerial with
      dropCount := saturatingSucc (s.lane l).dropCount
      blind := addInterval (s.lane l).blind (dropInterval entry length gap long) } := by
    simp [hu, State.updLane_eq]
  have hq : (u.lane l).queue = (s.lane l).queue := by
    rw [hl]; unfold Lane.advanceSerial; split <;> rfl
  have hlaw : (s.lane l).LaneLaw → (u.lane l).LaneLaw := by
    intro h
    have h1 := (Lane.Kept.law (L := (s.lane l).advanceSerial)
      (M := { (s.lane l).advanceSerial with dropCount := saturatingSucc (s.lane l).dropCount })
      (.same rfl rfl rfl rfl rfl rfl rfl rfl)) ((Lane.advanceSerial_kept _).law h)
    have h2 := h1.setBlind (by unfold Lane.advanceSerial; split <;> exact ht)
      (addInterval (s.lane l).blind (dropInterval entry length gap long))
    rw [hl]; exact h2
  have hbl : (u.lane l).blind = addInterval (s.lane l).blind (dropInterval entry length gap long) := by rw [hl]
  refine ⟨fun h => (hk u).law (hlaw h), fun h => ?_, fun e h => ?_, fun h hp => ?_⟩
  · obtain ⟨a, b, c⟩ := addInterval_bounds (dropInterval entry length gap long) h.1 h.2
    exact Lane.BlindBounds.sublist (L := u.lane l) ⟨by rw [hbl]; exact a, by rw [hbl]; exact b⟩ (hb u)
  · obtain ⟨a, b, c⟩ := addInterval_bounds (dropInterval entry length gap long) h.1 h.2
    exact Lane.BlindClosed.sublist (L := u.lane l)
      ⟨by rw [hbl]; exact a, by rw [hbl]; exact c (by simp [dropInterval, e])⟩ (hb u)
  · refine hp.shrink (fun j => ?_) fun j => ?_
    · by_cases e : j = l
      · subst e; exact hacts.acted.config
      · rw [hacts.others j e]
    · by_cases e : j = l
      · subst e
        rw [← hq]
        exact (hk u).queue (hlaw h)
      · rw [hacts.others j e]

/-! ## The pool at a grant -/

theorem flatMap_nodup_add {f g : LaneId → List TicketIndex} {x : TicketIndex} {l : LaneId} (ls : List LaneId)
    (hls : ls.Nodup) (hl : g l = f l ++ [x]) (ho : ∀ j, j ≠ l → g j = f j) (h : (ls.flatMap f).Nodup)
    (hx : x ∉ ls.flatMap f) : (ls.flatMap g).Nodup ∧ ∀ y ∈ ls.flatMap g, y = x ∨ y ∈ ls.flatMap f := by
  induction ls with
  | nil => simp
  | cons a as ih =>
    simp only [List.flatMap_cons, List.nodup_append, List.mem_append, not_or] at h hx ⊢
    obtain ⟨h1, h2, h3⟩ := h
    obtain ⟨ih1, ih2⟩ := ih (List.nodup_cons.mp hls).2 h2 hx.2
    by_cases e : a = l
    · subst e
      have hno : ∀ y ∈ as.flatMap g, y ∈ as.flatMap f := by
        intro y hy
        simp only [List.mem_flatMap] at hy ⊢
        obtain ⟨j, hj, hy⟩ := hy
        refine ⟨j, hj, ?_⟩
        rw [← ho j]
        · exact hy
        · rintro rfl
          exact (List.nodup_cons.mp hls).1 hj
      rw [hl]
      refine ⟨⟨?_, ih1, fun y hy z hz => ?_⟩, fun y hy => ?_⟩
      · rw [List.nodup_append]
        exact ⟨h1, by simp, fun y hy z hz => by
          rw [List.mem_singleton] at hz; subst hz; rintro rfl; exact hx.1 hy⟩
      · simp only [List.mem_append, List.mem_singleton] at hy
        rcases hy with hy | rfl
        · exact h3 y hy z (hno z hz)
        · rintro rfl
          exact hx.2 (hno _ hz)
      · simp only [List.mem_append, List.mem_singleton] at hy
        rcases hy with (hy | hy) | hy
        · exact .inr (.inl hy)
        · exact .inl hy
        · exact .inr (.inr (hno y hy))
    · rw [ho a e]
      refine ⟨⟨h1, ih1, fun y hy z hz => ?_⟩, fun y hy => ?_⟩
      · rcases ih2 z hz with rfl | hz'
        · rintro rfl; exact hx.1 hy
        · exact h3 y hy z hz'
      · rcases hy with hy | hy
        · exact .inr (.inl hy)
        · rcases ih2 y hy with h | h
          · exact .inl h
          · exact .inr (.inr h)

theorem State.freeIndices_free {s : State} {i : TicketIndex} {is : List TicketIndex} (h : s.freeIndices = i :: is) :
    i ∉ s.usedIndices := by
  have : i ∈ s.freeIndices := by rw [h]; simp
  simp only [State.freeIndices, List.mem_filter] at this
  simpa using this.2

/-- The sum that R39 keeps within the pool, before and after one more ticket on lane `l`. -/
theorem State.admission_room {s : State} {l : LaneId} (h : s.admissionTest l = none)
    (hp : (allLanes.map fun j => Nat.max (s.lane j).config.reserve.toNat (s.lane j).queue.length).sum ≤ 64) :
    (s.lane l).queue.length ≠ (s.lane l).config.limit.toNat ∧
      (allLanes.map fun j => Nat.max (s.lane j).config.reserve.toNat
        (if j = l then (s.lane j).queue.length + 1 else (s.lane j).queue.length)).sum ≤ 64 := by
  unfold State.admissionTest at h
  simp only at h
  split at h
  · cases h
  split at h
  · cases h
  rename_i hlim
  refine ⟨hlim, ?_⟩
  have hsf : s.sharedFree = poolSize - ((s.lane 0).inUse + ((s.lane 1).inUse + ((s.lane 2).inUse + (s.lane 3).inUse))) -
      ((s.lane 0).shortfall + ((s.lane 1).shortfall + ((s.lane 2).shortfall + (s.lane 3).shortfall))) := by
    simp [State.sharedFree, State.freeCount, allLanes]
  have hm : ∀ a b, Nat.max a b = b + (a - b) := by
    intro a b
    show max a b = _
    omega
  simp only [allLanes, List.map_cons, List.map_nil, List.sum_cons, List.sum_nil, hm] at hp ⊢
  simp only [Lane.shortfall, Lane.inUse, poolSize] at hsf
  split at h
  · rename_i hr
    simp only [Lane.inUse] at hr
    rcases laneCases l with rfl | rfl | rfl | rfl <;> simp at * <;> omega
  split at h
  · rename_i hsh
    rw [hsf] at hsh
    rcases laneCases l with rfl | rfl | rfl | rfl <;> simp at * <;> omega
  · cases h

/-- A granted admission on a tracking lane. -/
theorem State.grant_admits (s : State) (l : LaneId) (index : TicketIndex) (entry : Pos) (length : Half) (long : Bool)
    (ht : (s.lane l).tracking = true) (hi : index ∉ s.usedIndices) (ha : s.admissionTest l = none) :
    State.Admits l long s (s.grant l index entry length long) := by
  have hacts := State.grant_acts s l index entry length long
  unfold State.grant at hacts ⊢
  simp only at hacts ⊢
  generalize hu : (((s.updLane l fun L => { L with queue := L.queue ++ [(s.lane l).newTicket l index entry length long] }).produceIf
    ((s.updLane l fun L => { L with queue := L.queue ++ [(s.lane l).newTicket l index entry length long] }).lane l).config.maskEntry
    (.entry l ((s.lane l).newTicket l index entry length long).serial index entry length long
      ((s.lane l).newTicket l index entry length long).generation)).updLane l Lane.advanceSerial) = u at hacts ⊢
  have hl : u.lane l = Lane.advanceSerial { s.lane l with
      queue := (s.lane l).queue ++ [(s.lane l).newTicket l index entry length long] } := by
    subst hu
    rw [State.updLane_eq, State.lane_setLane_same, State.lane_produceIf, State.updLane_eq, State.lane_setLane_same]
  have ho : ∀ j, j ≠ l → u.lane j = s.lane j := by
    intro j hj
    subst hu
    rw [State.updLane_eq, State.lane_setLane_ne _ hj, State.lane_produceIf, State.updLane_eq,
      State.lane_setLane_ne _ hj]
  have hq : (u.lane l).queue = (s.lane l).queue ++ [(s.lane l).newTicket l index entry length long] := by
    rw [hl]; unfold Lane.advanceSerial; split <;> rfl
  have hcf : (u.lane l).config = (s.lane l).config := by
    rw [hl]; unfold Lane.advanceSerial; split <;> rfl
  have hbl : (u.lane l).blind = (s.lane l).blind := by
    rw [hl]; unfold Lane.advanceSerial; split <;> rfl
  have hlaw : (s.lane l).LaneLaw → (u.lane l).LaneLaw := by
    rintro ⟨_, h2, h3, h4, h5⟩
    rw [hl]
    refine (Lane.advanceSerial_kept _).law ⟨fun e => ?_, h2, fun t hm => ?_, fun p hp => ?_, h5⟩
    · have e' : (s.lane l).tracking = false := e
      rw [ht] at e'
      cases e'
    · rcases List.mem_append.mp hm with hm | hm
      · exact h3 t hm
      · rw [List.mem_singleton] at hm
        subst hm
        exact .inl rfl
    · obtain ⟨a, t, hm, e⟩ := h4 p hp
      exact ⟨a, t, List.mem_append_left _ hm, e⟩
  have hk := State.serialAdvanced_kept u l
  have hb := State.serialAdvanced_blind u l
  have hcl : (s.lane l).BlindClosed → ((u.serialAdvanced l).lane l).BlindClosed := fun h =>
    Lane.BlindClosed.sublist (L := u.lane l) ⟨by rw [hbl]; exact h.1, by rw [hbl]; exact h.2⟩ hb
  refine ⟨fun h => hk.law (hlaw h), fun h => ?_, fun _ h => hcl h, fun h hp => ?_⟩
  · exact ⟨(hcl h).1, fun i hi => (hcl h).2 i (List.dropLast_subset _ hi)⟩
  · have hpu : u.PoolLaw := by
      obtain ⟨h1, h2, h3, h4⟩ := hp
      obtain ⟨r1, r2⟩ := State.admission_room ha h3
      have hnd := flatMap_nodup_add (f := fun j => (s.lane j).queue.map Ticket.index)
        (g := fun j => (u.lane j).queue.map Ticket.index) (x := index) (l := l) allLanes (by decide)
        (by simp [hq, Lane.newTicket]) (fun j hj => by simp [ho j hj]) h1 hi
      refine ⟨hnd.1, fun j t hm => ?_, ?_, fun j => ?_⟩
      · by_cases e : j = l
        · subst e
          rw [hq] at hm
          rcases List.mem_append.mp hm with hm | hm
          · exact h2 j t hm
          · rw [List.mem_singleton] at hm
            subst hm
            rfl
        · rw [ho j e] at hm
          exact h2 j t hm
      · refine le_trans (le_of_eq ?_) r2
        congr 2
        funext j
        by_cases e : j = l
        · subst e
          simp [hq, hcf]
        · simp [ho j e, e]
      · by_cases e : j = l
        · subst e
          have := h4 j
          rw [hq, hcf, List.length_append, List.length_singleton]
          omega
        · rw [ho j e]
          exact h4 j
    have hc2 : ((u.serialAdvanced l).lane l).config = (u.lane l).config := by
      rw [hacts.acted.config, hcf]
    refine hpu.shrink (fun j => ?_) fun j => ?_
    · by_cases e : j = l
      · subst e; exact hc2
      · rw [hacts.others j e, ho j e]
    · by_cases e : j = l
      · subst e
        exact hk.queue (hlaw h)
      · rw [hacts.others j e, ho j e]

theorem State.admit_admits (s : State) (l : LaneId) (entry : Pos) (length gap : Half) (long : Bool)
    (ht : (s.lane l).tracking = true) : State.Admits l long s (s.askPool l entry length gap long) := by
  unfold State.askPool
  split
  · exact State.drop_admits s l _ _ _ _ _ ht
  · rename_i ha
    split
    · rename_i index rest hf
      exact State.grant_admits s l _ _ _ _ ht (State.freeIndices_free hf) ha
    · exact State.drop_admits s l _ _ _ _ _ ht

end Sys2Proof.Machine
end

