-- ==== Sys2Proof/Laws/Advance.lean ====
section
/-! SUPPORT. An advance of the reach (R17): an open order is an order of the groups' acts that keeps each group's own, the
lane calls for the acts whose conditions hold, and the advance makes those. -/

namespace Sys2Proof.Machine

/-! ## Open orders -/

/-- The head of one group is taken. -/
theorem popGroup_eq {α : Type} : ∀ (i : Nat) (gs : List (List α)) (a : α) (rest : List (List α)),
    popGroup i gs = some (a, rest) → ∃ before g after,
      gs = before ++ (a :: g) :: after ∧ rest = before ++ (if g.isEmpty then after else g :: after)
  | _, [], _, _, h => by simp [popGroup] at h
  | 0, g :: gs, a, rest, h => by
    cases g with
    | nil => simp [popGroup] at h
    | cons b g =>
      simp only [popGroup, Option.some.injEq, Prod.mk.injEq] at h
      exact ⟨[], g, gs, by simp [h.1], by simp [← h.2]⟩
  | i + 1, g :: gs, a, rest, h => by
    simp only [popGroup] at h
    split at h
    · cases h
    · rename_i b gs' e
      simp only [Option.some.injEq, Prod.mk.injEq] at h
      obtain ⟨rfl, rfl⟩ := h
      obtain ⟨before, x, after, h1, h2⟩ := popGroup_eq i gs b gs' e
      exact ⟨g :: before, x, after, by simp [h1], by simp [h2]⟩

/-- In a merge the elements of a kind that one group alone has come in that group's order. -/
theorem interleave_filter {α : Type} (p : α → Bool) : ∀ (n code : Nat) (gs : List (List α)),
    gs.Pairwise (fun g h => g.filter p = [] ∨ h.filter p = []) →
    (interleave n code gs).filter p = gs.flatten.filter p
  | 0, _, gs, _ => rfl
  | _ + 1, _, [], _ => rfl
  | _ + 1, _, [g], _ => by simp [interleave]
  | n + 1, code, g :: h :: gs, hp => by
    simp only [interleave]
    split
    · rfl
    · rename_i a rest e
      obtain ⟨before, x, after, h1, h2⟩ := popGroup_eq _ _ _ _ e
      rw [h1] at hp ⊢
      rw [List.pairwise_append, List.pairwise_cons] at hp
      obtain ⟨p1, ⟨p2, p3⟩, p4⟩ := hp
      have hx : (a :: x).filter p = [] → x.filter p = [] := by
        intro h
        rw [List.filter_cons] at h
        split at h
        · cases h
        · exact h
      have hr : rest.Pairwise (fun g h => g.filter p = [] ∨ h.filter p = []) := by
        rw [h2]
        split
        · exact List.pairwise_append.mpr ⟨p1, p3, fun y hy z hz => p4 y hy z (by simp [hz])⟩
        · refine List.pairwise_append.mpr ⟨p1, List.pairwise_cons.mpr ⟨fun z hz => (p2 z hz).imp hx id, p3⟩, ?_⟩
          intro y hy z hz
          rcases List.mem_cons.mp hz with rfl | hz
          · exact (p4 y hy _ (by simp)).imp id hx
          · exact p4 y hy z (by simp [hz])
      have hrest : rest.flatten.filter p = before.flatten.filter p ++ (x.filter p ++ after.flatten.filter p) := by
        rw [h2]
        split
        · rename_i hxe
          rw [List.isEmpty_iff] at hxe
          simp [hxe]
        · simp
      rw [List.filter_cons]
      split
      · rename_i ha
        have hb : before.flatten.filter p = [] := by
          rw [List.filter_eq_nil_iff]
          intro y hy
          obtain ⟨z, hz, hyz⟩ := List.mem_flatten.mp hy
          rcases p4 z hz (a :: x) (by simp) with h | h
          · exact List.filter_eq_nil_iff.mp h y hyz
          · rw [List.filter_cons, if_pos ha] at h; cases h
        rw [interleave_filter p n _ rest hr, hrest]
        simp [hb, ha]
      · rename_i ha
        rw [interleave_filter p n _ rest hr, hrest]
        simp [ha]

/-- A merge is an order of its groups' elements. -/
theorem interleave_perm {α : Type} : ∀ (n code : Nat) (gs : List (List α)), (interleave n code gs).Perm gs.flatten
  | 0, _, _ => .refl _
  | _ + 1, _, [] => .refl _
  | _ + 1, _, [g] => by simp [interleave]
  | n + 1, code, g :: h :: gs => by
    simp only [interleave]
    split
    · exact .refl _
    · rename_i a rest e
      obtain ⟨before, x, after, h1, h2⟩ := popGroup_eq _ _ _ _ e
      have hr : rest.flatten = before.flatten ++ (x ++ after.flatten) := by
        rw [h2]
        split
        · rename_i hx
          rw [List.isEmpty_iff] at hx
          simp [hx]
        · simp
      rw [h1]
      refine ((interleave_perm n _ rest).cons a).trans ?_
      rw [hr]
      simpa using (List.perm_middle (a := a) (l₁ := before.flatten) (l₂ := x ++ after.flatten)).symm

/-- Groups without acts add nothing. -/
theorem flatten_nonempty {α : Type} (gs : List (List α)) : (gs.filter fun g => !g.isEmpty).flatten = gs.flatten := by
  induction gs with
  | nil => rfl
  | cons g gs ih => cases g <;> simp [ih]

/-- An open order of groups takes each of their acts once. -/
theorem State.ordered_perm {α : Type} (s : State) (gs : List (List α)) : (s.ordered gs).1.Perm gs.flatten := by
  rw [← flatten_nonempty gs]
  unfold State.ordered
  split
  · rename_i h; simp [h]
  · rename_i h; simp [h]
  · exact interleave_perm _ _ _

/-- Groups of one act each. -/
theorem flatten_each {α : Type} (xs : List α) : (xs.map fun x => [x]).flatten = xs := by
  induction xs <;> simp_all

/-- What an open order of groups can be: their acts, and each block's in its own order (R17, assumption log 3). -/
theorem State.ordered_spec {α : Type} (s : State) (gs : List (List α)) :
    (∀ a, a ∈ (s.ordered gs).1 ↔ ∃ g ∈ gs, a ∈ g) ∧
    (∀ p : α → Bool, gs.Pairwise (fun g h => g.filter p = [] ∨ h.filter p = []) →
      (s.ordered gs).1.filter p = gs.flatten.filter p) ∧
    ((s.ordered gs).2 = s ∨
      (s.ordered gs).2 = { s with freeIndex := s.freeIndex + 1 } ∧ 2 ≤ (s.ordered gs).1.length) := by
  have hflat := @flatten_nonempty α
  have hperm := s.ordered_perm gs
  refine ⟨fun a => ?_, fun p hp => ?_, ?_⟩
  · rw [hperm.mem_iff, List.mem_flatten]
  · rw [← hflat gs]
    unfold State.ordered
    split
    · rename_i h; simp [h]
    · rename_i h; simp [h]
    · exact interleave_filter p _ _ _ (hp.filter _)
  · have hl := hperm.length_eq
    rw [← hflat gs] at hl
    have hne : ∀ g ∈ gs.filter (fun g => !g.isEmpty), 1 ≤ g.length := by
      intro g hg
      have := (List.mem_filter.mp hg).2
      cases g <;> simp at this ⊢
    revert hl hne
    unfold State.ordered
    split
    · exact fun _ _ => .inl rfl
    · exact fun _ _ => .inl rfl
    · rename_i h1 h2
      intro hl hne
      refine .inr ⟨rfl, ?_⟩
      rw [hl]
      match hgs : gs.filter (fun g => !g.isEmpty) with
      | [] => exact absurd hgs h1
      | [g] => exact absurd hgs (h2 g)
      | g :: h :: r =>
        have := hne g (by rw [hgs]; simp)
        have := hne h (by rw [hgs]; simp)
        rw [hgs]
        simp
        omega

/-! ## The acts at an advance -/

/-- A PENDING outcome entry (R37). -/
theorem Ticket.outcome_pending (t : Ticket) (k : StationId) :
    t.outcome k = some .pending ↔ t.outcomes.find? (fun e => e.1 == k) = some (k, .pending) := by
  unfold Ticket.outcome
  rcases h : t.outcomes.find? fun e => e.1 == k with _ | ⟨j, o⟩
  · simp only [h]; simp
  · have := List.find?_some h
    simp only [beq_iff_eq] at this
    subst this
    simp only [h]; simp

/-- A due point is attained with a PENDING outcome (R95). -/
theorem Lane.dueAt_iff (L : Lane) (k : StationId) (t : Ticket) : L.dueAt k t = true ↔
    t.outcomes.find? (fun e => e.1 == k) = some (k, .pending) ∧
      ∃ on, ((L.profileOf t.generation).station k).act.on? = some on ∧ L.reach = t.entry + on.setWidth 32 := by
  simp only [Lane.dueAt, Bool.and_eq_true, beq_iff_eq, Ticket.duePoint, Option.map_eq_some_iff, Triple.pos,
    Ticket.outcome_pending, @eq_comm _ L.reach]
  exact and_comm

/-- The lane calls for the acts whose conditions hold (R17). -/
theorem Lane.calls_iff (L : Lane) (a : BeltAct) : L.calls a = true ↔ L.Holds a := by
  cases a with
  | detector =>
    simp only [Lane.calls, Lane.Holds, Detector.due]
    cases L.detector <;> simp [Half.pos, and_assoc]
  | blind => simp [Lane.calls, Lane.Holds, Lane.removable_eq]
  | due k n => simp [Lane.calls, Lane.Holds, Lane.dueAt_iff]
  | _ => simp [Lane.calls, Lane.Holds, Ticket.retirePoint, Ticket.deadline, Triple.pos, @eq_comm _ L.reach]

/-- An act whose condition does not hold is none (assumption log 3). -/
theorem State.runAct_idle (s : State) (l : LaneId) (a : BeltAct) (h : ¬ (s.lane l).Holds a) :
    State.runAct l s a = s := by
  have : (s.lane l).calls a = false := by rw [← Bool.not_eq_true, Lane.calls_iff]; exact h
  simp [State.runAct, this]

/-- An act with its serial left out. -/
def BeltAct.kind : BeltAct → BeltAct
  | .retire _ => .retire 0
  | .deadline _ => .deadline 0
  | .due k _ => .due k 0
  | .tolerance k _ => .tolerance k 0
  | .windowEnd _ => .windowEnd 0
  | a => a

/-- The acts of one kind that the lane calls for, in the block's own order. -/
def Lane.actsOf (L : Lane) : BeltAct → List BeltAct
  | .detector => L.called [.detector]
  | .retire _ => L.called (L.queue.map fun t => .retire t.serial)
  | .blind => L.called [.blind]
  | .deadline _ => L.called (L.queue.map fun t => .deadline t.serial)
  | .due k _ => L.dueActs k
  | .tolerance k _ => L.called ((L.station k).deferred.map fun d => .tolerance k d.serial)
  | .spanEnd k => L.called [.spanEnd k]
  | .windowEnd _ => L.called (L.windows.map fun w => .windowEnd w.serial)

/-- The kinds of the acts that are taken first. -/
def Lane.quietKinds (L : Lane) (guard : Bool) : List BeltAct :=
  .deadline 0 :: (allStations.map .spanEnd ++ (allStations.filter (L.quietStation guard)).map (.due · 0))

/-- The kinds of the groups of the other acts. -/
def Lane.beltKinds (L : Lane) (guard : Bool) : List BeltAct :=
  [.detector, .retire 0, .blind, .windowEnd 0] ++
    (allStations.filter fun k => !L.quietStation guard k).map (.due · 0) ++ allStations.map (.tolerance · 0)

theorem flatten_singles {α β : Type} (p : β → Bool) (f : α → β) (xs : List α) :
    (xs.map fun x => [f x].filter p).flatten = (xs.map f).filter p := by
  induction xs with
  | nil => rfl
  | cons x xs ih => rw [List.map_cons, List.flatten_cons, ih, List.map_cons, ← List.filter_append]; rfl

theorem Lane.quietActs_eq (L : Lane) (guard : Bool) :
    L.quietActs guard = ((L.quietKinds guard).map L.actsOf).flatten := by
  simp only [Lane.quietActs, Lane.quietKinds, List.map_cons, List.map_append, List.map_map, List.flatten_cons,
    List.flatten_append, List.append_assoc, ← List.flatMap_def]
  congr 2
  exact (flatten_singles L.calls BeltAct.spanEnd allStations).symm

theorem Lane.beltGroups_eq (L : Lane) (guard : Bool) : L.beltGroups guard = (L.beltKinds guard).map L.actsOf := by
  simp only [Lane.beltGroups, Lane.beltKinds, List.map_append, List.map_map, List.map_cons, List.map_nil]
  rfl

theorem Lane.kind_of_mem (L : Lane) (x a : BeltAct) (h : a ∈ L.actsOf x) : a.kind = x.kind := by
  cases x <;> simp [Lane.actsOf, Lane.called, Lane.dueActs] at h
  case detector | blind | spanEnd => rw [h.1]
  case due =>
    obtain ⟨t, _, rfl⟩ := h
    rfl
  all_goals
    obtain ⟨⟨t, _, rfl⟩, _⟩ := h
    rfl

/-- The acts of a kind are those that the lane calls for. -/
theorem Lane.mem_actsOf (L : Lane) (a : BeltAct) : a ∈ L.actsOf a.kind ↔ L.Holds a := by
  rw [← Lane.calls_iff]
  have key : ∀ as : List BeltAct, (L.calls a = true → a ∈ as) → (a ∈ L.called as ↔ L.calls a = true) := fun as h => by
    simp only [Lane.called, List.mem_filter]
    exact ⟨fun x => x.2, fun x => ⟨h x, x⟩⟩
  cases a with
  | detector => exact key _ fun _ => by simp
  | blind => exact key _ fun _ => by simp
  | spanEnd k => exact key _ fun _ => by simp
  | due k n => simp [BeltAct.kind, Lane.actsOf, Lane.dueActs, Lane.dueTickets, Lane.calls, and_left_comm, and_comm]
  | retire n =>
    refine key _ fun h => ?_
    obtain ⟨t, ht, h⟩ := List.any_eq_true.mp h
    exact List.mem_map.mpr ⟨t, ht, by simp at h; rw [h.1]⟩
  | deadline n =>
    refine key _ fun h => ?_
    obtain ⟨t, ht, h⟩ := List.any_eq_true.mp h
    exact List.mem_map.mpr ⟨t, ht, by simp at h; rw [h.1]⟩
  | tolerance k n =>
    refine key _ fun h => ?_
    obtain ⟨t, ht, h⟩ := List.any_eq_true.mp h
    exact List.mem_map.mpr ⟨t, ht, by simp at h; rw [h.1]⟩
  | windowEnd n =>
    refine key _ fun h => ?_
    obtain ⟨t, ht, h⟩ := List.any_eq_true.mp h
    exact List.mem_map.mpr ⟨t, ht, by simp at h; rw [h.1]⟩

/-- The kinds of an advance are all the kinds, each once. -/
theorem Lane.kinds_perm (L : Lane) (guard : Bool) : (L.quietKinds guard ++ L.beltKinds guard).Perm
    (.deadline 0 :: (allStations.map .spanEnd ++ [.detector, .retire 0, .blind, .windowEnd 0] ++
      allStations.map (.due · 0) ++ allStations.map (.tolerance · 0))) := by
  have h := (List.filter_append_perm (L.quietStation guard) allStations).map (BeltAct.due · 0)
  rw [List.map_append] at h
  rw [List.perm_iff_count]
  intro x
  have h := h.count_eq x
  simp only [Lane.quietKinds, Lane.beltKinds, List.cons_append, List.count_cons, List.count_append] at h ⊢
  omega

/-- What the acts at an advance can be: those whose conditions hold, each block's in its own order (R17). -/
theorem State.advance_spec (s : State) (l : LaneId) : ∃ (acts : List BeltAct) (taken : Nat),
    (∀ act, act ∈ acts ↔ (s.lane l).Holds act) ∧
    (∀ block ∈ (s.lane l).blocks, (acts.filter fun act => act ∈ block).Sublist block) ∧
    (taken = s.freeIndex ∨ taken = s.freeIndex + 1 ∧ 2 ≤ acts.length) ∧
    s.advance l = acts.foldl (State.runAct l) { s with freeIndex := taken } := by
  set L := s.lane l with hL
  obtain ⟨h1, h2, h3⟩ := s.ordered_spec (L.beltGroups s.guardAsserted)
  set o := s.ordered (L.beltGroups s.guardAsserted) with ho
  have hperm := L.kinds_perm s.guardAsserted
  have hnd : (L.quietKinds s.guardAsserted ++ L.beltKinds s.guardAsserted).Nodup := hperm.nodup_iff.mpr (by decide)
  have hkind : ∀ x ∈ L.quietKinds s.guardAsserted ++ L.beltKinds s.guardAsserted, x.kind = x := fun x hx =>
    (show ∀ x ∈ _, x.kind = x by decide) x (hperm.mem_iff.mp hx)
  have hall : ∀ a : BeltAct, a.kind ∈ L.quietKinds s.guardAsserted ++ L.beltKinds s.guardAsserted := fun a => by
    rw [hperm.mem_iff]
    cases a with
    | due k n => show BeltAct.due k 0 ∈ _; revert k; decide
    | tolerance k n => show BeltAct.tolerance k 0 ∈ _; revert k; decide
    | spanEnd k => show BeltAct.spanEnd k ∈ _; revert k; decide
    | _ => simp [BeltAct.kind]
  have hflat : ∀ (xs : List BeltAct) (x : BeltAct), xs.Nodup → (∀ y ∈ xs, y.kind = y) →
      (xs.map L.actsOf).flatten.filter (fun a => a.kind == x) = if x ∈ xs then L.actsOf x else [] := by
    intro xs x hn hk
    induction xs with
    | nil => rfl
    | cons y ys ih =>
      have hy := hk y (by simp)
      rw [List.nodup_cons] at hn
      rw [List.map_cons, List.flatten_cons, List.filter_append, ih hn.2 fun z hz => hk z (by simp [hz])]
      by_cases e : x = y
      · subst e
        rw [if_neg hn.1, if_pos (by simp), List.append_nil, List.filter_eq_self]
        intro a ha
        simp [L.kind_of_mem x a ha, hy]
      · have : (L.actsOf y).filter (fun a => a.kind == x) = [] := by
          rw [List.filter_eq_nil_iff]
          intro a ha
          simp [L.kind_of_mem y a ha, hy, Ne.symm e]
        rw [this, List.nil_append]
        simp [e]
  have hfil : ∀ x : BeltAct, x.kind = x →
      (L.quietActs s.guardAsserted ++ o.1).filter (fun a => a.kind == x) = L.actsOf x := by
    intro x hx
    rw [List.filter_append, h2, ← List.filter_append, L.quietActs_eq, L.beltGroups_eq, ← List.flatten_append,
      ← List.map_append, hflat _ x hnd hkind, if_pos (hx ▸ hall x)]
    rw [L.beltGroups_eq, List.pairwise_map]
    refine (List.nodup_append.mp hnd).2.1.imp_of_mem fun {y z} hy hz hne => ?_
    by_cases e : y = x
    · right
      rw [List.filter_eq_nil_iff]
      intro a ha
      have := hkind z (by simp [hz])
      simp [L.kind_of_mem z a ha, this, ← e, Ne.symm hne]
    · left
      rw [List.filter_eq_nil_iff]
      intro a ha
      have := hkind y (by simp [hy])
      simp [L.kind_of_mem y a ha, this, e]
  refine ⟨L.quietActs s.guardAsserted ++ o.1, o.2.freeIndex, fun a => ?_, fun block hb => ?_, ?_, ?_⟩
  · have hk : a.kind.kind = a.kind := hkind _ (hall a)
    rw [← L.mem_actsOf, ← hfil a.kind hk, List.mem_filter]
    simp
  · obtain ⟨x, hx, hsub, hin⟩ : ∃ x : BeltAct, x.kind = x ∧ (L.actsOf x).Sublist block ∧ ∀ a ∈ block, a.kind = x := by
      have hc : ∀ as : List BeltAct, (L.called as).Sublist as := fun as => List.filter_sublist
      simp only [Lane.blocks, List.mem_append, List.mem_cons, List.mem_flatMap, List.not_mem_nil, or_false] at hb
      rcases hb with (rfl | rfl | rfl | rfl | rfl) | ⟨k, _, rfl | rfl | rfl⟩
      · exact ⟨.detector, rfl, hc _, by simp [BeltAct.kind]⟩
      · exact ⟨.retire 0, rfl, hc _, by simp [BeltAct.kind]⟩
      · exact ⟨.blind, rfl, hc _, by simp [BeltAct.kind]⟩
      · exact ⟨.deadline 0, rfl, hc _, by simp [BeltAct.kind]⟩
      · exact ⟨.windowEnd 0, rfl, hc _, by simp [BeltAct.kind]⟩
      · exact ⟨.due k 0, rfl, List.filter_sublist.map _, by simp [BeltAct.kind]⟩
      · exact ⟨.tolerance k 0, rfl, hc _, by simp [BeltAct.kind]⟩
      · exact ⟨.spanEnd k, rfl, hc _, by simp [BeltAct.kind]⟩
    have : ∀ as : List BeltAct,
        as.filter (fun a => a ∈ block) = (as.filter fun a => a.kind == x).filter fun a => a ∈ block := by
      intro as
      rw [List.filter_filter]
      refine List.filter_congr fun a _ => ?_
      by_cases h : a ∈ block
      · simp [h, hin a h]
      · simp [h]
    rw [this, hfil x hx]
    exact List.filter_sublist.trans hsub
  · rcases h3 with h | ⟨h, h'⟩
    · left; rw [h]
    · right; rw [h]; exact ⟨rfl, by rw [List.length_append]; omega⟩
  · have : o.2 = { s with freeIndex := o.2.freeIndex } := by
      rcases h3 with h | ⟨h, _⟩ <;> rw [h]
    rw [← this]
    have hg : o.2.guardAsserted = s.guardAsserted := by rw [this]
    simp only [State.advance, ← hL, ← ho, hg]

end Sys2Proof.Machine
end

