-- ==== Sys2Proof/Laws/Clock.lean ====
section
/-! SUPPORT. The timers that have run out (assumption log 4): whose events they are, and that no two give one event. -/

namespace Sys2Proof.Machine

theorem mem_expired {t : Option Nat} {e x : Instr} : e ∈ expired t x ↔ e = x ∧ t = some 0 := by
  unfold expired; split <;> simp_all

theorem mem_pulse {l k} {p : Pulse} {e : Instr} : e ∈ p.expired l k ↔
    (∃ rearm, e = .pulseEnd l k ∧ p = .pulsing 0 rearm) ∨ (e = .rearmEnd l k ∧ p = .rearming 0) := by
  cases p <;> simp only [Pulse.expired] <;> (try split) <;> simp_all

/-- The events of the timers that have run out. -/
theorem mem_expiries (s : State) (e : Instr) : (∃ g ∈ s.expiries, e ∈ g) ↔
    ((e = .gapTimeout ∧ s.link.gapTimer = some 0) ∨ (e = .linkTimeout ∧ s.link.linkTimer = some 0) ∨
        (e = .reportTimeout ∧ s.store.timer = some 0) ∨
        (e = .transmitComplete ∧ ∃ x, s.link.transmitter = some x ∧ x.left = 0) ∨
        (∃ l : LaneId, e = .clockTick l ∧ (s.lane l).tickTimer = some 0) ∨
        (∃ (l : LaneId) (k : StationId) (rearm : Triple),
          e = .pulseEnd l k ∧ ((s.lane l).station k).pulse = .pulsing 0 rearm) ∨
        ∃ (l : LaneId) (k : StationId), e = .rearmEnd l k ∧ ((s.lane l).station k).pulse = .rearming 0) := by
  have hl : ∀ l : LaneId, l ∈ allLanes := by decide
  have hk : ∀ k : StationId, k ∈ allStations := by decide
  simp only [State.expiries, List.mem_append, List.mem_cons, List.not_mem_nil, or_false, List.mem_flatMap, List.mem_map]
  constructor
  · rintro ⟨g, (rfl | rfl | rfl | rfl) | ⟨l, _, rfl | ⟨k, _, rfl⟩⟩, he⟩
    · exact .inl (mem_expired.mp he)
    · exact .inr (.inl (mem_expired.mp he))
    · exact .inr (.inr (.inl (mem_expired.mp he)))
    · obtain ⟨h1, h2⟩ := mem_expired.mp he
      exact .inr (.inr (.inr (.inl ⟨h1, by simpa using h2⟩)))
    · exact .inr (.inr (.inr (.inr (.inl ⟨l, mem_expired.mp he⟩))))
    · rcases mem_pulse.mp he with ⟨r, h⟩ | h
      · exact .inr (.inr (.inr (.inr (.inr (.inl ⟨l, k, r, h⟩)))))
      · exact .inr (.inr (.inr (.inr (.inr (.inr ⟨l, k, h⟩)))))
  · rintro (h | h | h | ⟨h, h2⟩ | ⟨l, h⟩ | ⟨l, k, r, h⟩ | ⟨l, k, h⟩)
    · exact ⟨_, .inl (.inl rfl), mem_expired.mpr h⟩
    · exact ⟨_, .inl (.inr (.inl rfl)), mem_expired.mpr h⟩
    · exact ⟨_, .inl (.inr (.inr (.inl rfl))), mem_expired.mpr h⟩
    · exact ⟨_, .inl (.inr (.inr (.inr rfl))), mem_expired.mpr ⟨h, by simpa using h2⟩⟩
    · exact ⟨_, .inr ⟨l, hl l, .inl rfl⟩, mem_expired.mpr h⟩
    · exact ⟨_, .inr ⟨l, hl l, .inr ⟨k, hk k, rfl⟩⟩, mem_pulse.mpr (.inl ⟨r, h⟩)⟩
    · exact ⟨_, .inr ⟨l, hl l, .inr ⟨k, hk k, rfl⟩⟩, mem_pulse.mpr (.inr h)⟩

/-- Groups taken from larger groups. -/
theorem flatten_sublist {α : Type} : ∀ (gs hs : List (List α)),
    List.Forall₂ List.Sublist gs hs → gs.flatten.Sublist hs.flatten
  | _, _, .nil => .slnil
  | _, _, .cons h t => h.append (flatten_sublist _ _ t)

/-- No two timers give one event. -/
theorem expiries_nodup (s : State) : s.expiries.flatten.Nodup := by
  let all : List (List Instr) := [[.gapTimeout], [.linkTimeout], [.reportTimeout], [.transmitComplete]] ++
    allLanes.flatMap fun l => [Instr.clockTick l] :: allStations.map fun k => [Instr.pulseEnd l k, .rearmEnd l k]
  have h1 : ∀ t x, (expired t x).Sublist [x] := by
    intro t x; unfold expired; split <;> simp
  have h2 : ∀ l k (p : Pulse), (p.expired l k).Sublist [Instr.pulseEnd l k, .rearmEnd l k] := by
    intro l k p; cases p <;> simp only [Pulse.expired] <;> (try split) <;> simp
  have h3 : List.Forall₂ List.Sublist s.expiries all := by
    simp only [State.expiries, all, allLanes, allStations, List.flatMap_cons, List.map_cons, List.map_nil,
      List.flatMap_nil, List.cons_append, List.nil_append, List.append_nil, List.forall₂_cons,
      List.forall₂_nil_left_iff, h1, h2, true_and]
  exact (flatten_sublist _ _ h3).nodup (by decide)

end Sys2Proof.Machine
end

