-- ==== Sys2Proof/Laws/Fields.lean ====
section
/-! SUPPORT. Fields of payloads are read back as they are written: numbers (R154), codes, lane, station and class bytes. -/

namespace Sys2Proof.Machine

/-! ## Numbers -/

/-- The two bytes of a 16-bit field, put together again. -/
@[simp] theorem be16_join (x : BitVec 16) : x.extractLsb' 8 8 ++ x.extractLsb' 0 8 = x := by
  ext i hi
  simp only [BitVec.getElem_append, BitVec.getElem_extractLsb']
  split <;> rename_i h
  · rw [Nat.zero_add, BitVec.getLsbD_eq_getElem (by omega)]
  · rw [BitVec.getLsbD_eq_getElem (by omega)]
    congr 1
    omega

/-- The three bytes of a 24-bit field, put together again. -/
@[simp] theorem be24_join (x : BitVec 24) :
    (x.extractLsb' 16 8 ++ x.extractLsb' 8 8 : BitVec 16) ++ x.extractLsb' 0 8 = x := by
  ext i hi
  simp only [BitVec.getElem_append, BitVec.getElem_extractLsb']
  split <;> rename_i h
  · rw [Nat.zero_add, BitVec.getLsbD_eq_getElem (by omega)]
  · split <;> rename_i h' <;> rw [BitVec.getLsbD_eq_getElem (by omega)] <;> congr 1 <;> omega

/-- The four bytes of a 32-bit field, put together again. -/
@[simp] theorem be32_join (x : BitVec 32) :
    (x.extractLsb' 24 8 ++ x.extractLsb' 16 8 : BitVec 16) ++ (x.extractLsb' 8 8 ++ x.extractLsb' 0 8 : BitVec 16) = x := by
  ext i hi
  simp only [BitVec.getElem_append, BitVec.getElem_extractLsb']
  split <;> rename_i h
  · split <;> rename_i h'
    · rw [Nat.zero_add, BitVec.getLsbD_eq_getElem (by omega)]
    · rw [BitVec.getLsbD_eq_getElem (by omega)]
      congr 1
      omega
  · split <;> rename_i h' <;> rw [BitVec.getLsbD_eq_getElem (by omega)] <;> congr 1 <;> omega

@[simp] theorem be16_length (x : BitVec 16) : (be16 x).length = 2 := rfl
@[simp] theorem be24_length (x : BitVec 24) : (be24 x).length = 3 := rfl
@[simp] theorem be32_length (x : BitVec 32) : (be32 x).length = 4 := rfl

/-- A 16-bit field is read where its two bytes stand. -/
theorem half_eq {p : List Byte} {i : Nat} {x : BitVec 16} (h₀ : byteAt p i = x.extractLsb' 8 8)
    (h₁ : byteAt p (i + 1) = x.extractLsb' 0 8) : half p i = x := by
  rw [half, h₀, h₁]
  exact be16_join x

/-- A 24-bit field is read where its three bytes stand. -/
theorem triple_eq {p : List Byte} {i : Nat} {x : BitVec 24} (h₀ : byteAt p i = x.extractLsb' 16 8)
    (h₁ : byteAt p (i + 1) = x.extractLsb' 8 8) (h₂ : byteAt p (i + 2) = x.extractLsb' 0 8) : triple p i = x := by
  rw [triple, half, h₀, h₁, h₂]
  exact be24_join x

/-- A 32-bit field is read where its four bytes stand. -/
theorem word_eq {p : List Byte} {i : Nat} {x : BitVec 32} (h₀ : byteAt p i = x.extractLsb' 24 8)
    (h₁ : byteAt p (i + 1) = x.extractLsb' 16 8) (h₂ : byteAt p (i + 2) = x.extractLsb' 8 8)
    (h₃ : byteAt p (i + 3) = x.extractLsb' 0 8) : word p i = x := by
  rw [word, half, half, h₀, h₁, h₂, show i + 2 + 1 = i + 3 from rfl, h₃]
  exact be32_join x

/-! ## Checks -/

@[simp] theorem field_some {α : Type} (n : Byte) (x : α) : field n (some x) = .ok x := rfl
@[simp] theorem field_none {α : Type} (n : Byte) : field n (none : Option α) = .error n := rfl

theorem within_of_le {w lo hi : Nat} {x : BitVec w} (h₁ : lo ≤ x.toNat) (h₂ : x.toNat ≤ hi) :
    within lo hi x = some x := by
  simp [within, h₁, h₂]

/-- A 16-bit field whose range is all of its values but for a lower end. -/
theorem within_half {lo : Nat} {x : Half} (h : lo ≤ x.toNat) : within lo 65535 x = some x :=
  within_of_le h (by have := x.isLt; omega)

/-- A 24-bit field whose range is all of its values but for a lower end. -/
theorem within_triple {lo : Nat} {x : Triple} (h : lo ≤ x.toNat) : within lo 16777215 x = some x :=
  within_of_le h (by have := x.isLt; omega)

/-- A serial field (R161). -/
theorem within_serial {x : Serial} (h : x ≠ 0) : within 1 4294967295 x = some x := by
  have : x.toNat ≠ 0 := fun e => h (BitVec.eq_of_toNat_eq (by simpa using e))
  exact within_of_le (by omega) (by have := x.isLt; omega)

theorem finOf_natByte {n : Nat} (hn : n ≤ 256) (i : Fin n) : finOf n (natByte i.val) = some i := by
  have h : (natByte i.val).toNat = i.val := by
    have := i.isLt
    simp [natByte]
    omega
  simp [finOf, h]

@[simp] theorem finOf_laneByte (l : LaneId) : finOf 4 (laneByte l) = some l := finOf_natByte (by omega) l
@[simp] theorem finOf_stationByte (k : StationId) : finOf 6 (stationByte k) = some k := finOf_natByte (by omega) k
@[simp] theorem finOf_classByte (c : ClassId) : finOf 8 (classByte c) = some c := finOf_natByte (by omega) c

theorem finOf_large {n : Nat} {b : Byte} (h : n ≤ b.toNat) : finOf n b = none := by
  simp [finOf, Nat.not_lt.mpr h]

@[simp] theorem boolOf_boolByte (b : Bool) : boolOf (boolByte b) = some b := by cases b <;> rfl
@[simp] theorem sourceOf_code (x : TravelSource) : sourceOf x.code = some x := by cases x <;> rfl
@[simp] theorem policyOf_code (x : Policy) : policyOf x.code = some x := by cases x <;> rfl
@[simp] theorem linkPolicyOf_code (x : LinkPolicy) : linkPolicyOf x.code = some x := by cases x <;> rfl
@[simp] theorem modeOf_code (x : DisableMode) : modeOf x.code = some x := by cases x <;> rfl
@[simp] theorem copyOf_code (x : ProfileCopy) : copyOf x.code = some x := by cases x <;> rfl
@[simp] theorem partOf_code (x : LanePart) : partOf x.code = some x := by cases x <;> rfl

@[simp] theorem RequestKind.ofCode_code (k : RequestKind) : RequestKind.ofCode k.code = some k := by cases k <;> rfl

theorem RequestKind.code_injective : Function.Injective RequestKind.code := fun j k h => by
  have := congrArg RequestKind.ofCode h
  simpa using this

theorem RequestKind.ofCode_eq_none {b : Byte} (h : ∀ k : RequestKind, k.code ≠ b) : RequestKind.ofCode b = none := by
  simp [RequestKind.ofCode, h]

theorem RequestKind.code_of_ofCode {b : Byte} {k : RequestKind} (h : RequestKind.ofCode b = some k) : k.code = b := by
  have := List.find?_some h
  simpa using this

@[simp] theorem RequestKind.code_ne_ack (k : RequestKind) : k.code ≠ ackKind := by cases k <;> decide

end Sys2Proof.Machine
end

