-- ==== Sys2Proof/Laws/Requests.lean ====
section
/-! SUPPORT. What a valid frame does around the request it carries: the link is heard, a request that is admitted is answered
by `serve`, the reply is queued, kept in the history and taken by a free transmitter. -/

namespace Sys2Proof.Machine

/-! ## The link as heard -/

@[simp] theorem Link.heard_replies (k : Link) : k.heard.replies = k.replies := rfl
@[simp] theorem Link.heard_history (k : Link) : k.heard.history = k.history := rfl
@[simp] theorem Link.heard_transmitter (k : Link) : k.heard.transmitter = k.transmitter := rfl
@[simp] theorem Link.heard_session (k : Link) : k.heard.session = k.session := rfl
@[simp] theorem Link.heard_counters (k : Link) : k.heard.counters = k.counters := rfl
@[simp] theorem Link.heard_restarting (k : Link) : k.heard.restarting = k.restarting := rfl
@[simp] theorem Link.heard_lineRate (k : Link) : k.heard.lineRate = k.lineRate := rfl

@[simp] theorem State.heard_lane (s : State) (l : LaneId) : s.heard.lane l = s.lane l := rfl
@[simp] theorem State.heard_laneInputs (s : State) (l : LaneId) : s.heard.laneInputs l = s.laneInputs l := rfl
@[simp] theorem State.heard_store (s : State) : s.heard.store = s.store := rfl
@[simp] theorem State.heard_link (s : State) : s.heard.link = s.link.heard := rfl
@[simp] theorem State.heard_guardAsserted (s : State) : s.heard.guardAsserted = s.guardAsserted := rfl

theorem State.heard_setLane (s : State) (l : LaneId) (x : Lane) : s.heard.setLane l x = (s.setLane l x).heard := rfl
theorem State.heard_produce (s : State) (r : Report) : s.heard.produce r = (s.produce r).heard := rfl

/-- The steps of R137 before the dispatch. -/
theorem State.toHunt_restartLinkTimer (s : State) : s.toHunt.restartLinkTimer = s.heard := by
  by_cases h : s.link.session.state = .opened <;>
    simp [State.restartLinkTimer, State.toHunt, State.heard, Link.heard, milliseconds, h]

/-! ## The reply -/

/-- A reply is queued and, with a free transmitter, the oldest reply begins (R140, R141). -/
theorem State.queueReply_transmitNext (s : State) (m : Message) :
    (s.queueReply m).transmitNext =
      { s with link := { s.link with replies := s.link.replies ++ [m], transmitter := s.link.sending m } } := by
  rcases ht : s.link.transmitter with _ | x
  · rcases hr : s.link.replies with _ | ⟨a, as⟩ <;>
      simp [State.queueReply, State.transmitNext, Link.sending, Link.begin, Message.lineTime, ht, hr]
  · simp [State.queueReply, State.transmitNext, Link.sending, ht]

theorem addEntry_eq (h : List HistoryEntry) (e : HistoryEntry) :
    addEntry h e = (if h.length < 8 then h else h.tail) ++ [e] := by
  by_cases h8 : h.length < 8
  · simp [addEntry, historyCapacity, h8, Nat.not_le.mpr h8]
  · simp [addEntry, historyCapacity, h8, Nat.not_lt.mp h8]

/-- The reply to an executed request (R139 to R142). -/
theorem State.reply_transmitNext (s : State) (kind seq : Byte) (a : Answer) :
    (s.heard.reply kind seq a).transmitNext = s.answered kind seq a.payload := by
  simp only [State.reply, State.queueReply_transmitNext, State.answered, State.heard, addEntry_eq]
  rfl

/-! ## Valid frames -/

/-- An admitted request is answered (R139, R155). -/
theorem State.validFrame_admitted {s : State} {seq : Byte} (h : s.admits seq) (kind : Byte) (hk : kind ≠ ackKind)
    (payload : List Byte) :
    s.validFrame kind seq payload =
      ((s.heard.answer kind payload).2.reply kind seq (s.heard.answer kind payload).1).transmitNext := by
  obtain ⟨hr, hq, hh⟩ := h
  have h0 : s.toHunt.link.restarting = false := hr
  have hn : (s.link.history.find? fun e => e.seq == seq) = none := by simpa using hh
  have hq' : ¬ replyCapacity ≤ s.link.replies.length := by simpa [replyCapacity] using hq
  simp [State.validFrame, h0, State.toHunt_restartLinkTimer, State.takeRequest, hn, hq', hk]

/-- An admitted request whose answer is known: `t` is the state it leaves, before its reply. -/
theorem State.validFrame_answered {s t : State} {seq : Byte} (h : s.admits seq) {kind : Byte} (hk : kind ≠ ackKind)
    {payload : List Byte} {a : Answer} (ha : s.heard.answer kind payload = (a, t.heard)) :
    s.validFrame kind seq payload = t.answered kind seq a.payload := by
  rw [State.validFrame_admitted h kind hk, ha, State.reply_transmitNext]

/-- The session check passes in OPEN, and for HELLO and LINK_STATUS in every session state (R155 step 4). -/
theorem State.answer_passes {s : State} {k : RequestKind} (h : s.inSession ∨ k.anySession = true) (payload : List Byte) :
    s.answer k.code payload = serve k payload s := by
  have : s.link.session.state = .opened ∨ k.anySession = true := h
  simp [State.answer, this]

/-- Outside OPEN the other requests are refused (R145, R155 step 4). -/
theorem State.answer_noSession {s : State} {k : RequestKind} (h : ¬ s.inSession) (hk : k.anySession = false)
    (payload : List Byte) : s.answer k.code payload = (.noSession, s) := by
  have : ¬ s.link.session.state = .opened := h
  simp [State.answer, this, hk]

/-! ## Each request command -/

theorem exec_hello (seq : Byte) (p : List Byte) (s : State) : exec (.hello seq p) s = requestCommand .hello seq p s := rfl
theorem exec_ping (seq : Byte) (p : List Byte) (s : State) : exec (.ping seq p) s = requestCommand .ping seq p s := rfl
theorem exec_linkStatus (seq : Byte) (p : List Byte) (s : State) :
    exec (.linkStatus seq p) s = requestCommand .linkStatus seq p s := rfl
theorem exec_restart (seq : Byte) (p : List Byte) (s : State) : exec (.restart seq p) s = requestCommand .restart seq p s := rfl
theorem exec_laneConfig (seq : Byte) (p : List Byte) (s : State) :
    exec (.laneConfig seq p) s = requestCommand .laneConfig seq p s := rfl
theorem exec_enable (seq : Byte) (p : List Byte) (s : State) : exec (.enable seq p) s = requestCommand .enable seq p s := rfl
theorem exec_disable (seq : Byte) (p : List Byte) (s : State) : exec (.disable seq p) s = requestCommand .disable seq p s := rfl
theorem exec_clearStop (seq : Byte) (p : List Byte) (s : State) :
    exec (.clearStop seq p) s = requestCommand .clearStop seq p s := rfl
theorem exec_force (seq : Byte) (p : List Byte) (s : State) : exec (.force seq p) s = requestCommand .force seq p s := rfl
theorem exec_stageLane (seq : Byte) (p : List Byte) (s : State) :
    exec (.stageLane seq p) s = requestCommand .stageLane seq p s := rfl
theorem exec_stageStation (seq : Byte) (p : List Byte) (s : State) :
    exec (.stageStation seq p) s = requestCommand .stageStation seq p s := rfl
theorem exec_discardStaged (seq : Byte) (p : List Byte) (s : State) :
    exec (.discardStaged seq p) s = requestCommand .discardStaged seq p s := rfl
theorem exec_commit (seq : Byte) (p : List Byte) (s : State) : exec (.commit seq p) s = requestCommand .commit seq p s := rfl
theorem exec_cancelCommit (seq : Byte) (p : List Byte) (s : State) :
    exec (.cancelCommit seq p) s = requestCommand .cancelCommit seq p s := rfl
theorem exec_verdict (seq : Byte) (p : List Byte) (s : State) : exec (.verdict seq p) s = requestCommand .verdict seq p s := rfl
theorem exec_queryLane (seq : Byte) (p : List Byte) (s : State) :
    exec (.queryLane seq p) s = requestCommand .queryLane seq p s := rfl
theorem exec_queryTicket (seq : Byte) (p : List Byte) (s : State) :
    exec (.queryTicket seq p) s = requestCommand .queryTicket seq p s := rfl
theorem exec_queryProfile (seq : Byte) (p : List Byte) (s : State) :
    exec (.queryProfile seq p) s = requestCommand .queryProfile seq p s := rfl

/-- A valid request frame of any kind is the command of its kind. -/
theorem exec_frameInstr (k : RequestKind) (seq : Byte) (p : List Byte) (s : State) :
    exec (frameInstr k.code seq p) s = requestCommand k seq p s := by
  cases k <;> rfl

theorem payloadOk_of_le {p : List Byte} (h : p.length ≤ 96) : payloadOk p = true := by simp [payloadOk, maxPayload, h]

/-- The command of a valid frame, of any kind, is that frame's dispatch (R137, R139). -/
theorem exec_frame (kind seq : Byte) {p : List Byte} (hp : p.length ≤ 96) (s : State) :
    exec (frameInstr kind seq p) s = .next (s.validFrame kind seq p) := by
  have hw := payloadOk_of_le hp
  by_cases hk : kind = ackKind
  · subst hk
    simp [frameInstr, exec, execAck, frameCommand, hw]
  · rcases hc : RequestKind.ofCode kind with _ | k
    · simp [frameInstr, exec, execUnknownKindRequest, kindUnknown, hc, hk, frameCommand, hw]
    · obtain rfl := RequestKind.code_of_ofCode hc
      rw [exec_frameInstr, requestCommand, frameCommand, if_pos hw]

/-- A request command whose answer is known: `t` is the state it leaves, before its reply. -/
theorem requestCommand_answered {s t : State} {seq : Byte} {k : RequestKind} {payload : List Byte} {a : Answer}
    {kind : Byte} {bytes : List Byte} (h : s.admits seq) (ho : s.inSession ∨ k.anySession = true)
    (hp : payload.length ≤ 96) (ha : serve k payload s.heard = (a, t.heard)) (hk : k.code = kind)
    (hb : a.payload = bytes) : requestCommand k seq payload s = .next (t.answered kind seq bytes) := by
  subst hk hb
  have hw := payloadOk_of_le hp
  simp only [requestCommand, frameCommand, hw, if_true]
  rw [State.validFrame_answered h k.code_ne_ack (a := a) (t := t)]
  rw [State.answer_passes (s := s.heard) ho, ha]

/-- A request of good length whose fields are good. -/
theorem checked_ok {α : Type} {s : State} {b : Bool} {fields : Except Byte α} {x : α} {act : α → Answer × State}
    (hb : b = true) (hf : fields = .ok x) : checked s b fields act = act x := by
  simp [checked, hb, hf]

theorem checked_length {α : Type} {s : State} {b : Bool} {fields : Except Byte α} {act : α → Answer × State}
    (hb : b = false) : checked s b fields act = (.badLength, s) := by
  simp [checked, hb]

theorem checked_field {α : Type} {s : State} {b : Bool} {fields : Except Byte α} {n : Byte} {act : α → Answer × State}
    (hb : b = true) (hf : fields = .error n) : checked s b fields act = (.badField n, s) := by
  simp [checked, hb, hf]

end Sys2Proof.Machine
end

