-- ==== Sys2Proof/Laws/Ranges.lean ====
section
/-! SUPPORT. Fields on the line (R154): numbers in bytes and back, the reports' layouts (R170), and the range checks of the
requests: the first field out of its range is the one that BAD_FIELD names (R157, R159 to R161). -/

namespace Sys2Proof.Machine

/-! ## Numbers written -/

/-- Numbers of 2, 3 and 4 bytes and one byte go most significant byte first (R154). -/
theorem be16_bigEndian (x : BitVec 16) : be16 x = bigEndian 2 x.toNat := by
  simp [be16, bigEndian, List.range_succ]
  constructor <;> apply BitVec.eq_of_toNat_eq <;> simp [Nat.shiftRight_eq_div_pow]
theorem be24_bigEndian (x : BitVec 24) : be24 x = bigEndian 3 x.toNat := by
  simp [be24, bigEndian, List.range_succ]
  refine ⟨?_, ?_, ?_⟩ <;> apply BitVec.eq_of_toNat_eq <;> simp [Nat.shiftRight_eq_div_pow]
theorem be32_bigEndian (x : BitVec 32) : be32 x = bigEndian 4 x.toNat := by
  simp [be32, bigEndian, List.range_succ]
  refine ⟨?_, ?_, ?_, ?_⟩ <;> apply BitVec.eq_of_toNat_eq <;> simp [Nat.shiftRight_eq_div_pow]
theorem byte_bigEndian (n : Nat) : [natByte n] = bigEndian 1 n := by
  simp [bigEndian, natByte]

/-- A report's kind byte (R170). -/
theorem layout_code (r : Report) : r.layout.1 = r.code := by cases r <;> rfl
theorem outcomes_layout (outs : List (StationId × Outcome)) :
    outs.flatMap outcomeBytes = outs.flatMap (fun e => bigEndian 1 e.1.val ++ e.2.layout) := by
  congr 1
  funext ⟨k, o⟩
  simp only [outcomeBytes, stationByte, ← byte_bigEndian]
  rcases o with _ | _ | _ | _ | (_ | _ | _) <;> rfl
/-- A report's fields after the timestamp (R170). -/
theorem layout_fields (r : Report) : r.layout.2 = r.fields := by
  cases r with
  | fate l n c src tag outs conf =>
    simp only [Report.layout, Report.fields, be16_bigEndian, be32_bigEndian, laneByte, classByte, tagBytes]
    rw [outcomes_layout]
    simp only [byte_bigEndian]
    rcases src <;> rcases tag with _ | x <;> rcases conf with _ | (_ | _ | _ | _ | _) <;>
      simp [boolByte, confirmCode, ConfirmState.code, Source.code, ← byte_bigEndian] <;> rfl
  | _ => 
    simp only [Report.layout, Report.fields, be16_bigEndian, be32_bigEndian, laneByte, stationByte, boolByte,
      ← byte_bigEndian]
    try rfl

/-! ## Numbers read -/


theorem fieldAt_one (p : List Byte) (i : Nat) : fieldAt p i 1 = (byteAt p i).toNat := by
  unfold fieldAt byteAt
  rcases h : p.drop i with _ | ⟨x, r⟩
  · have : p.length ≤ i := List.drop_eq_nil_iff.mp h
    simp [List.getD, List.getElem?_eq_none this]
  · have : p[i]? = some x := by
      rw [← List.head?_drop, h]; rfl
    simp [List.getD, this]

theorem fieldAt_succ (p : List Byte) (i n : Nat) (h : i + n < p.length) :
    fieldAt p i (n + 1) = 256 * fieldAt p i n + (byteAt p (i + n)).toNat := by
  unfold fieldAt byteAt
  have hx : (p.drop i)[n]? = some (p[i + n]'h) := by
    rw [List.getElem?_drop, List.getElem?_eq_getElem h]
  rw [List.take_add_one, hx]
  simp [List.getD, List.getElem?_eq_getElem h]

theorem half_toNat {p : List Byte} {i : Nat} (h : i + 2 ≤ p.length) : (half p i).toNat = fieldAt p i 2 := by
  rw [fieldAt_succ p i 1 (by omega), fieldAt_one]
  simp only [half, BitVec.toNat_append]
  rw [Nat.shiftLeft_eq, Nat.mul_comm, ← Nat.two_pow_add_eq_or_of_lt (by exact (byteAt p (i+1)).isLt)] 

theorem triple_toNat {p : List Byte} {i : Nat} (h : i + 3 ≤ p.length) : (triple p i).toNat = fieldAt p i 3 := by
  rw [fieldAt_succ p i 2 (by omega), ← half_toNat (by omega)]
  simp only [triple, BitVec.toNat_append]
  rw [Nat.shiftLeft_eq, Nat.mul_comm, ← Nat.two_pow_add_eq_or_of_lt (by exact (byteAt p (i+2)).isLt)] 

theorem word_toNat {p : List Byte} {i : Nat} (h : i + 4 ≤ p.length) : (word p i).toNat = fieldAt p i 4 := by
  rw [fieldAt_succ p i 3 (by omega), fieldAt_succ p i 2 (by omega), ← half_toNat (by omega)]
  simp only [word, BitVec.toNat_append]
  rw [half_toNat (p := p) (i := i + 2) (by omega), fieldAt_succ p (i+2) 1 (by omega), fieldAt_one]
  rw [Nat.shiftLeft_eq]
  have h1 := (byteAt p (i+2)).isLt
  have h2 := (byteAt p (i+3)).isLt
  rw [Nat.mul_comm]
  rw [← Nat.two_pow_add_eq_or_of_lt (by simp only [show i + 2 + 1 = i + 3 from rfl]; omega)] 
  simp only [show i + 2 + 1 = i + 3 from rfl]
  omega

/-- A field of a payload is refused exactly when it lies outside its range: one lemma per kind of field (R154, R157). -/
theorem finOf_bad {n : Nat} {p : List Byte} {i : Nat} (hn : 0 < n) :
    finOf n (byteAt p i) = none ↔ ranges i 1 0 (n - 1) p = false := by
  simp only [finOf, ranges, fieldAt_one]
  split <;> simp <;> omega

theorem within_bad {w lo hi : Nat} {x : BitVec w} {p : List Byte} {i n : Nat} (h : x.toNat = fieldAt p i n) :
    within lo hi x = none ↔ ranges i n lo hi p = false := by
  simp only [within, ranges, h]
  split <;> simp_all

/-! ## Range checks -/

/-- A list of checks, each with the number it names. -/
def firstBad (fs : List (Byte × (List Byte → Bool))) (p : List Byte) : Option Byte :=
  (fs.find? fun f => !f.2 p).map Prod.fst

theorem firstBad_nil (p : List Byte) : firstBad [] p = none := rfl
theorem firstBad_cons (n : Byte) (ok : List Byte → Bool) (fs : List (Byte × (List Byte → Bool))) (p : List Byte) :
    firstBad ((n, ok) :: fs) p = if ok p then firstBad fs p else some n := by
  unfold firstBad
  rcases h : ok p <;> simp [List.find?, h]

theorem boolOf_bad (p : List Byte) (i : Nat) : boolOf (byteAt p i) = none ↔ ranges i 1 0 1 p = false := by
  simp only [ranges, fieldAt_one]; generalize byteAt p i = b; revert b; decide
theorem sourceOf_bad (p : List Byte) (i : Nat) : sourceOf (byteAt p i) = none ↔ ranges i 1 0 1 p = false := by
  simp only [ranges, fieldAt_one]; generalize byteAt p i = b; revert b; decide
theorem modeOf_bad (p : List Byte) (i : Nat) : modeOf (byteAt p i) = none ↔ ranges i 1 0 1 p = false := by
  simp only [ranges, fieldAt_one]; generalize byteAt p i = b; revert b; decide
theorem policyOf_bad (p : List Byte) (i : Nat) : policyOf (byteAt p i) = none ↔ ranges i 1 0 2 p = false := by
  simp only [ranges, fieldAt_one]; generalize byteAt p i = b; revert b; decide
theorem linkPolicyOf_bad (p : List Byte) (i : Nat) : linkPolicyOf (byteAt p i) = none ↔ ranges i 1 0 2 p = false := by
  simp only [ranges, fieldAt_one]; generalize byteAt p i = b; revert b; decide
theorem copyOf_bad (p : List Byte) (i : Nat) : copyOf (byteAt p i) = none ↔ ranges i 1 0 2 p = false := by
  simp only [ranges, fieldAt_one]; generalize byteAt p i = b; revert b; decide
theorem partOf_bad (p : List Byte) (i : Nat) : partOf (byteAt p i) = none ↔ ranges i 1 0 2 p = false := by
  simp only [ranges, fieldAt_one]; generalize byteAt p i = b; revert b; decide

/-- One field of a request: in range it has a value, out of range its number is named. -/
theorem bind_field {α β : Type} {n m : Byte} {v : Option α} {ok : Bool} {rest : α → Except Byte β} {later : Option Byte}
    (hv : v = none ↔ ok = false) (h : (if ok then later else some n) = some m)
    (hr : ∀ x, v = some x → later = some m → rest x = .error m) : (field n v >>= rest) = .error m := by
  rcases v with _ | x
  · rw [hv.mp rfl] at h
    simp at h; subst h; rfl
  · have : ok = true := by
      rcases ok with _ | _
      · exact absurd (hv.mpr rfl) nofun
      · rfl
    rw [this] at h
    exact hr x rfl h

/-- The fields of a request are checked in payload order: one lemma per request (R157, R159 to R161). -/
theorem parseHello_bad {p : List Byte} {n : Byte} (hl : p.length = 6)
    (h : firstBad RequestKind.hello.fields p = some n) :
    parseHello p = .error n := by
  simp only [RequestKind.fields, firstBad_cons, firstBad_nil] at h
  refine bind_field (within_bad (by rw [fieldAt_one])) h fun _ _ h => ?_
  refine bind_field (within_bad (half_toNat (by omega))) h fun _ _ h => ?_
  refine bind_field (within_bad (half_toNat (by omega))) h fun _ _ h => ?_
  exact bind_field (within_bad (by rw [fieldAt_one])) h fun _ _ h => by cases h

theorem parseEnable_bad {p : List Byte} {n : Byte} (h : firstBad RequestKind.enable.fields p = some n) :
    parseEnable p = .error n := by
  simp only [RequestKind.fields, firstBad_cons, firstBad_nil] at h
  refine bind_field (finOf_bad (by omega)) h fun _ _ h => ?_
  exact bind_field (boolOf_bad _ _) h fun _ _ h => by cases h


theorem parseDisable_bad {p : List Byte} {n : Byte} (h : firstBad RequestKind.disable.fields p = some n) :
    parseDisable p = .error n := by
  simp only [RequestKind.fields, firstBad_cons, firstBad_nil] at h
  refine bind_field (finOf_bad (by omega)) h fun _ _ h => ?_
  exact bind_field (modeOf_bad _ _) h fun _ _ h => by cases h

theorem parseForce_bad {p : List Byte} {n : Byte} (h : firstBad RequestKind.force.fields p = some n) :
    parseForce p = .error n := by
  simp only [RequestKind.fields, firstBad_cons, firstBad_nil] at h
  refine bind_field (finOf_bad (by omega)) h fun _ _ h => ?_
  refine bind_field (finOf_bad (by omega)) h fun _ _ h => ?_
  exact bind_field (boolOf_bad _ _) h fun _ _ h => by cases h

theorem parseQueryLane_bad {p : List Byte} {n : Byte} (h : firstBad RequestKind.queryLane.fields p = some n) :
    parseQueryLane p = .error n := by
  simp only [RequestKind.fields, firstBad_cons, firstBad_nil] at h
  refine bind_field (finOf_bad (by omega)) h fun _ _ h => ?_
  exact bind_field (partOf_bad _ _) h fun _ _ h => by cases h

theorem parseQueryProfile_bad {p : List Byte} {n : Byte} (h : firstBad RequestKind.queryProfile.fields p = some n) :
    parseQueryProfile p = .error n := by
  simp only [RequestKind.fields, firstBad_cons, firstBad_nil] at h
  refine bind_field (finOf_bad (by omega)) h fun _ _ h => ?_
  refine bind_field (copyOf_bad _ _) h fun _ _ h => ?_
  exact bind_field (finOf_bad (by omega)) h fun _ _ h => by cases h

theorem parseQueryTicket_bad {p : List Byte} {n : Byte} (hl : p.length = 5)
    (h : firstBad RequestKind.queryTicket.fields p = some n) :
    parseQueryTicket p = .error n := by
  simp only [RequestKind.fields, firstBad_cons, firstBad_nil] at h
  refine bind_field (finOf_bad (by omega)) h fun _ _ h => ?_
  exact bind_field (within_bad (word_toNat (by omega))) h fun _ _ h => by cases h

theorem parseVerdict_bad {p : List Byte} {n : Byte} (hl : 6 ≤ p.length)
    (h : firstBad RequestKind.verdict.fields p = some n) :
    parseVerdict p = .error n := by
  simp only [RequestKind.fields, firstBad_cons, firstBad_nil] at h
  refine bind_field (finOf_bad (by omega)) h fun _ _ h => ?_
  refine bind_field (within_bad (word_toNat (by omega))) h fun _ _ h => ?_
  exact bind_field (finOf_bad (by omega)) h fun _ _ h => by cases h

theorem parseLane_bad {p : List Byte} {n : Byte} (h : firstBad [(1, ranges 0 1 0 3)] p = some n) :
    parseLane p = .error n := by
  simp only [firstBad_cons, firstBad_nil] at h
  unfold parseLane
  rcases hf : finOf 4 (byteAt p 0) with _ | x
  · rw [(finOf_bad (by omega)).mp hf] at h
    simp at h; subst h; rfl
  · rcases hr : ranges 0 1 0 3 p
    · rw [(finOf_bad (by omega)).mpr hr] at hf; cases hf
    · rw [hr] at h; cases h

theorem within_full {w lo hi : Nat} {x : BitVec w} (h1 : lo = 0) (h2 : 2 ^ w ≤ hi + 1) : within lo hi x = some x := by
  subst h1; exact within_of_le (by omega) (by have := x.isLt; omega)

/-- A field that every value is in range of. -/
theorem free_field {α β : Type} {n m : Byte} {v : Option α} {rest : α → Except Byte β} (x : α) (hv : v = some x)
    (h : rest x = .error m) : (field n v >>= rest) = .error m := by
  subst hv; exact h

theorem parseStageLane_bad {p : List Byte} {n : Byte} (hl : p.length = 12)
    (h : firstBad RequestKind.stageLane.fields p = some n) :
    parseStageLane p = .error n := by
  simp only [RequestKind.fields, firstBad_cons, firstBad_nil] at h
  refine bind_field (finOf_bad (by omega)) h fun _ _ h => ?_
  refine bind_field (within_bad (half_toNat (by omega))) h fun _ _ h => ?_
  refine bind_field (within_bad (half_toNat (by omega))) h fun _ _ h => ?_
  refine free_field _ (within_full rfl (by decide)) ?_
  refine free_field _ (within_full rfl (by decide)) ?_
  exact bind_field (finOf_bad (by omega)) h fun _ _ h => by cases h

theorem parseLaneConfig_bad {p : List Byte} {n : Byte} (hl : p.length = 15)
    (h : firstBad RequestKind.laneConfig.fields p = some n) :
    parseLaneConfig p = .error n := by
  simp only [RequestKind.fields, firstBad_cons, firstBad_nil] at h
  refine bind_field (finOf_bad (by omega)) h fun _ _ h => ?_
  refine bind_field (sourceOf_bad _ _) h fun _ _ h => ?_
  refine bind_field (boolOf_bad _ _) h fun _ _ h => ?_
  refine bind_field (within_bad (half_toNat (by omega))) h fun _ _ h => ?_
  refine free_field _ (within_full rfl (by decide)) ?_
  refine bind_field (within_bad (by rw [fieldAt_one])) h fun reserve hr h => ?_
  have hre : reserve.toNat = fieldAt p 7 1 := by
    simp only [within] at hr
    split at hr
    · cases hr; rw [fieldAt_one]
    · cases hr
  refine bind_field ?_ h fun _ _ h => ?_
  · simp only [within, ranges, hre, fieldAt_one]
    split
    · rename_i h; have := Nat.max_le.mp h.1; simp; omega
    · rename_i h
      have h' : ¬ (1 ≤ (byteAt p 8).toNat ∧ (byteAt p 7).toNat ≤ (byteAt p 8).toNat ∧ (byteAt p 8).toNat ≤ 64) := by
        rintro ⟨h1, h2, h3⟩; exact h ⟨Nat.max_le.mpr ⟨h1, h2⟩, h3⟩
      simp; omega
  refine bind_field (policyOf_bad _ _) h fun _ _ h => ?_
  refine bind_field (policyOf_bad _ _) h fun _ _ h => ?_
  refine bind_field (linkPolicyOf_bad _ _) h fun _ _ h => ?_
  refine bind_field (boolOf_bad _ _) h fun _ _ h => ?_
  refine bind_field (boolOf_bad _ _) h fun _ _ h => ?_
  exact bind_field (boolOf_bad _ _) h fun _ _ h => by cases h

theorem parseCommit_bad {p : List Byte} {n : Byte} (next : LaneId → Serial)
    (h : firstBad RequestKind.commit.fields p = some n) :
    parseCommit next p = .error n := by
  simp only [RequestKind.fields, firstBad_cons, firstBad_nil] at h
  refine bind_field (finOf_bad (by omega)) h fun _ _ h => ?_
  have hb : ¬ (byteAt p 1).toNat ≤ 2 ∧ n = 2 := by
    simp only [ranges, fieldAt_one] at h
    split at h
    · cases h
    · rename_i h'; simp at h'; cases h; exact ⟨by omega, rfl⟩
  obtain ⟨hb, rfl⟩ := hb
  have h0 : byteAt p 1 ≠ 0 := by rintro e; rw [e] at hb; exact hb (by decide)
  have h1 : byteAt p 1 ≠ 1 := by rintro e; rw [e] at hb; exact hb (by decide)
  have h2 : byteAt p 1 ≠ 2 := by rintro e; rw [e] at hb; exact hb (by decide)
  simp only [h0, h1, h2, if_false]
  rfl

theorem ruleOf_bad (p : List Byte) (i : Nat) (mask : Byte) :
    ruleOf (byteAt p i) mask = none ↔ ranges i 1 0 1 p = false := by
  simp only [ranges, fieldAt_one, ruleOf]; generalize byteAt p i = b
  split
  · rename_i h; subst h; simp
  · split
    · rename_i h; subst h; simp
    · rename_i h0 h1
      have h0' : b.toNat ≠ 0 := fun e => h0 (BitVec.eq_of_toNat_eq (by simpa using e))
      have h1' : b.toNat ≠ 1 := fun e => h1 (BitVec.eq_of_toNat_eq (by simpa using e))
      simp; omega

theorem busyOf_bad (p : List Byte) (i : Nat) (t : Half) :
    busyOf (byteAt p i) t = none ↔ ranges i 1 0 1 p = false := by
  simp only [ranges, fieldAt_one, busyOf]; generalize byteAt p i = b
  split
  · rename_i h; subst h; simp
  · split
    · rename_i h; subst h; simp
    · rename_i h0 h1
      have h0' : b.toNat ≠ 0 := fun e => h0 (BitVec.eq_of_toNat_eq (by simpa using e))
      have h1' : b.toNat ≠ 1 := fun e => h1 (BitVec.eq_of_toNat_eq (by simpa using e))
      simp; omega

theorem parseStageStation_bad {p : List Byte} {n : Byte} (hl : p.length = 26)
    (h : firstBad RequestKind.stageStation.fields p = some n) :
    parseStageStation p = .error n := by
  simp only [RequestKind.fields, firstBad_cons, firstBad_nil] at h
  refine bind_field (finOf_bad (by omega)) h fun _ _ h => ?_
  refine bind_field (finOf_bad (by omega)) h fun _ _ h => ?_
  have hk : ∀ a b, ranges 2 1 a b p = (decide (a ≤ (byteAt p 2).toNat) && decide ((byteAt p 2).toNat ≤ b)) := by
    intro a b; simp [ranges, fieldAt_one]
  let record (lane : LaneId) (station : StationId) (act : StationAct) :
      Except Byte (LaneId × StationId × StationRecord) :=
    field 13 (boolOf (byteAt p 21)) >>= fun confirm =>
      pure (lane, station, ⟨act, if confirm then some ⟨half p 22, half p 24⟩ else none⟩)
  have hbind : ∀ {lane : LaneId} {station : StationId} {e : Except Byte StationAct},
      (e = .error n ∨ (∃ act, e = .ok act) ∧ (if ranges 21 1 0 1 p then none else some (13 : Byte)) = some n) →
      (e >>= fun act => record lane station act) = .error n := by
    rintro lane station e (rfl | ⟨⟨act, rfl⟩, h⟩)
    · rfl
    · exact bind_field (boolOf_bad _ _) h fun _ _ h => by cases h
  refine hbind ?_
  simp only [hk] at h
  have key : ∀ {α : Type} {m : Byte} {v : Option α} {ok : Bool} {rest : α → Except Byte StationAct} {later : Option Byte}
      {F : Prop}, (v = none ↔ ok = false) → (if ok then later else some m) = some n →
      (∀ x, later = some n → rest x = .error n ∨ (∃ act, rest x = .ok act) ∧ F) →
      (field m v >>= rest) = .error n ∨ (∃ act, (field m v >>= rest) = .ok act) ∧ F := by
    intro α m v ok rest later F hv h hr
    rcases v with _ | x
    · exact .inl (bind_field hv h nofun)
    · have : ok = true := by
        rcases ok with _ | _
        · exact absurd (hv.mpr rfl) nofun
        · rfl
      rw [this] at h
      exact hr x h
  unfold parseStationAct
  by_cases h0 : byteAt p 2 = 0
  · simp only [h0] at h ⊢
    refine .inr ⟨⟨_, rfl⟩, ?_⟩
    simpa using h
  by_cases h1 : byteAt p 2 = 1
  · simp only [h1] at h ⊢
    simp at h
    refine key (within_bad (triple_toNat (by omega))) h fun _ h => ?_
    refine key (within_bad (triple_toNat (by omega))) h fun _ h => ?_
    refine key (within_bad (triple_toNat (by omega))) h fun _ h => ?_
    refine key (busyOf_bad _ _ _) h fun _ h => ?_
    refine key (ruleOf_bad _ _ _) h fun _ h => ?_
    refine key (boolOf_bad _ _) h fun _ h => ?_
    exact .inr ⟨⟨_, rfl⟩, h⟩
  by_cases h2 : byteAt p 2 = 2
  · simp only [h2] at h ⊢
    simp at h
    refine key (within_bad (triple_toNat (by omega))) h fun _ h => ?_
    refine key (within_bad (triple_toNat (by omega))) h fun _ h => ?_
    refine key (ruleOf_bad _ _ _) h fun _ h => ?_
    refine key (boolOf_bad _ _) h fun _ h => ?_
    exact .inr ⟨⟨_, rfl⟩, h⟩
  have hn : ∀ i : Nat, i < 256 → byteAt p 2 ≠ BitVec.ofNat 8 i → (byteAt p 2).toNat ≠ i := by
    intro i hi hne e
    exact hne (BitVec.eq_of_toNat_eq (by simp [e]; omega))
  have := hn 0 (by omega) h0
  have := hn 1 (by omega) h1
  have := hn 2 (by omega) h2
  left
  simp only [h0, h1, h2, if_false]
  rw [if_neg (by simp; omega)] at h
  cases h
  rfl

/-- The first field out of its range is named, whatever the state (R155, R157). -/
theorem serve_bad {k : RequestKind} {p : List Byte} {n : Byte} (s : State)
    (h : (k.fields.find? fun f => !f.2 p).map Prod.fst = some n) (hl : p.length ∈ k.lengths) :
    serve k p s = (.badField n, s) := by
  have h : firstBad k.fields p = some n := h
  cases k <;> simp only [RequestKind.lengths, List.mem_cons, List.not_mem_nil, or_false] at hl <;>
    first
    | (cases h)
    | skip
  · exact checked_field (by simp [hl]) (parseHello_bad hl h)
  · exact checked_field (by simp [hl]) (parseLaneConfig_bad hl h)
  · exact checked_field (by simp [hl]) (parseEnable_bad h)
  · exact checked_field (by simp [hl]) (parseDisable_bad h)
  · exact checked_field (by simp [hl]) (parseLane_bad h)
  · exact checked_field (by simp [hl]) (parseForce_bad h)
  · exact checked_field (by simp [hl]) (parseStageLane_bad hl h)
  · exact checked_field (by simp [hl]) (parseStageStation_bad hl h)
  · exact checked_field (by simp [hl]) (parseLane_bad h)
  · exact checked_field (by simp [hl]) (parseCommit_bad _ h)
  · exact checked_field (by simp [hl]) (parseLane_bad h)
  · exact checked_field (by simp [hl]) (parseVerdict_bad (by omega) h)
  · exact checked_field (by simp [hl]) (parseQueryLane_bad h)
  · exact checked_field (by simp [hl]) (parseQueryTicket_bad hl h)
  · exact checked_field (by simp [hl]) (parseQueryProfile_bad h)

end Sys2Proof.Machine
end

