-- ==== Sys2Proof/Laws/Serve.lean ====
section
/-! SUPPORT. What the transmitter and the served requests leave as they were. -/

namespace Sys2Proof.Machine

/-! ## The transmitter's choice -/

/-- A free transmitter changes itself and the store's offer, nothing else (R141, R176). -/
theorem State.transmitNext_frame (s : State) :
    s.transmitNext = { s with
      link := { s.link with transmitter := s.transmitNext.link.transmitter }, store := s.transmitNext.store } := by
  have same : s = { s with link := { s.link with transmitter := s.link.transmitter }, store := s.store } := rfl
  simp only [State.transmitNext]
  split
  · exact same
  · split
    · simp [Link.begin]
    · split
      · split
        · simp [Link.begin]
        · exact same
      · exact same

@[simp] theorem State.transmitNext_lanes (s : State) : s.transmitNext.lanes = s.lanes := by
  rw [s.transmitNext_frame]
@[simp] theorem State.transmitNext_lane (s : State) (l : LaneId) : s.transmitNext.lane l = s.lane l := by
  rw [s.transmitNext_frame]; rfl
@[simp] theorem State.transmitNext_pending (s : State) : s.transmitNext.pending = s.pending := by
  rw [s.transmitNext_frame]
@[simp] theorem State.transmitNext_inputs (s : State) : s.transmitNext.inputs = s.inputs := by
  rw [s.transmitNext_frame]
@[simp] theorem State.transmitNext_laneInputs (s : State) (l : LaneId) :
    s.transmitNext.laneInputs l = s.laneInputs l := by
  rw [s.transmitNext_frame]; rfl
@[simp] theorem State.transmitNext_guardAsserted (s : State) : s.transmitNext.guardAsserted = s.guardAsserted := by
  rw [s.transmitNext_frame]
@[simp] theorem State.transmitNext_clock (s : State) : s.transmitNext.clock = s.clock := by
  rw [s.transmitNext_frame]
@[simp] theorem State.transmitNext_session (s : State) : s.transmitNext.link.session = s.link.session := by
  rw [s.transmitNext_frame]
@[simp] theorem State.transmitNext_replies (s : State) : s.transmitNext.link.replies = s.link.replies := by
  rw [s.transmitNext_frame]
@[simp] theorem State.transmitNext_history (s : State) : s.transmitNext.link.history = s.link.history := by
  rw [s.transmitNext_frame]
@[simp] theorem State.transmitNext_counters (s : State) : s.transmitNext.link.counters = s.link.counters := by
  rw [s.transmitNext_frame]
@[simp] theorem State.transmitNext_receiver (s : State) : s.transmitNext.link.receiver = s.link.receiver := by
  rw [s.transmitNext_frame]

/-- What the store becomes when a transmitter takes its next frame: itself, or the store after an offer. -/
theorem State.transmitNext_store (s : State) :
    s.transmitNext.store = s.store ∨ ∃ m, s.store.offer s.link.session = some (m, s.transmitNext.store) := by
  rcases ht : s.link.transmitter with _ | x
  · rcases hr : s.link.replies with _ | ⟨m, ms⟩
    · by_cases ho : s.link.session.state = .opened ∧ s.link.restarting = false
      · rcases hf : s.store.offer s.link.session with _ | ⟨m, st⟩
        · simp [State.transmitNext, ht, hr, ho, hf]
        · exact .inr ⟨m, by simp [State.transmitNext, ht, hr, ho, hf]⟩
      · exact .inl (by simp [State.transmitNext, ht, hr, ho])
    · exact .inl (by simp [State.transmitNext, ht, hr])
  · exact .inl (by simp [State.transmitNext, ht])

/-! ## Served requests -/

/-- A checked request leaves the state as it was, or acts. -/
theorem checked_cases {α : Type} (s : State) (b : Bool) (fields : Except Byte α) (act : α → Answer × State) :
    (checked s b fields act).2 = s ∨ ∃ x, fields = .ok x ∧ checked s b fields act = act x := by
  rcases b with _ | _
  · exact .inl rfl
  · rcases fields with n | x
    · exact .inl rfl
    · exact .inr ⟨x, rfl, rfl⟩

theorem State.performLaneConfig_onLane (s : State) (x : LaneId × LaneConfig) :
    State.OnLane x.1 s (s.performLaneConfig x).2 := by
  unfold State.performLaneConfig
  split
  · exact .refl _ s
  · split
    · exact .refl _ s
    · exact State.setLane_onLane ..

theorem State.performEnable_onLane (s : State) (x : LaneId × Bool) : State.OnLane x.1 s (s.performEnable x).2 := by
  unfold State.performEnable
  split
  · exact .refl _ s
  · exact State.setLane_onLane ..

theorem State.performDisable_acts (s : State) (x : LaneId × DisableMode) : State.Acts x.1 s (s.performDisable x).2 := by
  unfold State.performDisable
  split
  · exact .refl _ s
  · simp only
    exact State.updLane_acts _ _ fun L => ⟨rfl, rfl, rfl, rfl, rfl, fun h => by simp [Lane.tracking] at h⟩
  · rename_i h _
    refine .trans ?_ (State.testDrain_acts _ _)
    exact State.setLane_acts _ _ ⟨rfl, rfl, rfl, rfl, rfl, fun _ => by simp [Lane.tracking, h]⟩
  · exact .refl _ s
  · exact State.abortLane_acts ..
  · exact State.abortLane_acts ..

theorem State.performClearStop_acts (s : State) (l : LaneId) : State.Acts l s (s.performClearStop l).2 := by
  simp only [State.performClearStop]
  exact State.updStops_acts s l _

theorem State.performForce_acts (s : State) (x : LaneId × StationId × Bool) :
    State.Acts x.1 s (s.performForce x).2 := by
  unfold State.performForce
  split
  · exact .refl _ s
  · simp only
    exact State.updStation_acts s _ _ _

theorem State.setStaging_acts (s : State) (l : LaneId) (st : Staging) : State.Acts l s (s.setStaging l st) :=
  State.updLane_acts s l fun _ => ⟨rfl, rfl, rfl, rfl, rfl, id⟩

theorem State.stage_acts (s : State) (l : LaneId) (f : ProfileBody → ProfileBody) :
    State.Acts l s (s.stage l f).2 := by
  unfold State.stage
  split
  · exact State.setStaging_acts ..
  · exact State.setStaging_acts ..
  · exact .refl _ s

theorem State.performDiscard_acts (s : State) (l : LaneId) : State.Acts l s (s.performDiscard l).2 := by
  unfold State.performDiscard
  split
  · exact .refl _ s
  · exact State.setStaging_acts ..
  · exact .refl _ s

theorem State.performCommit_acts (s : State) (x : LaneId × Boundary) : State.Acts x.1 s (s.performCommit x).2 := by
  unfold State.performCommit
  split
  · exact .refl _ s
  · exact .refl _ s
  · split
    · exact .refl _ s
    · simp only
      split
      · exact (State.setStaging_acts ..).trans (State.reachBoundary_acts ..)
      · exact State.setStaging_acts ..

theorem State.performCancel_acts (s : State) (l : LaneId) : State.Acts l s (s.performCancel l).2 := by
  unfold State.performCancel
  split
  · exact State.setStaging_acts ..
  · exact .refl _ s

theorem State.performVerdict_acts (s : State) (v : Verdict) : State.Acts v.lane s (s.performVerdict v).2 := by
  unfold State.performVerdict
  simp only
  split
  · exact .refl _ s
  · split
    · exact .refl _ s
    · split
      · exact State.updTicket_acts ..
      · exact State.updTicket_acts ..
      · exact .refl _ s

theorem State.performQueryTicket_snd (s : State) (x : LaneId × Serial) : (s.performQueryTicket x).2 = s := by
  unfold State.performQueryTicket
  simp only
  split <;> rfl

theorem State.performQueryProfile_snd (s : State) (x : LaneId × ProfileCopy × Fin 7) :
    (s.performQueryProfile x).2 = s := by
  unfold State.performQueryProfile
  simp only
  split <;> rfl

/-- Every request but HELLO and RESTART changes one lane, with the reports of that change, or nothing. -/
theorem serve_onLane (k : RequestKind) (hh : k ≠ .hello) (hr : k ≠ .restart) (p : List Byte) (s : State) :
    ∃ l, State.OnLane l s (serve k p s).2 := by
  have key : ∀ {α : Type} (b : Bool) (fields : Except Byte α) (act : α → Answer × State),
      (∀ x, ∃ l, State.OnLane l s (act x).2) → ∃ l, State.OnLane l s (checked s b fields act).2 := by
    intro α b fields act h
    rcases checked_cases s b fields act with e | ⟨x, _, e⟩
    · exact ⟨0, by rw [e]; exact .refl 0 s⟩
    · rw [e]; exact h x
  cases k
  · exact absurd rfl hh
  · exact key _ _ _ fun _ => ⟨0, .refl 0 s⟩
  · exact key _ _ _ fun _ => ⟨0, .refl 0 s⟩
  · exact absurd rfl hr
  · exact key _ _ _ fun x => ⟨x.1, State.performLaneConfig_onLane s x⟩
  · exact key _ _ _ fun x => ⟨x.1, State.performEnable_onLane s x⟩
  · exact key _ _ _ fun x => ⟨x.1, (State.performDisable_acts s x).toOnLane⟩
  · exact key _ _ _ fun x => ⟨x, (State.performClearStop_acts s x).toOnLane⟩
  · exact key _ _ _ fun x => ⟨x.1, (State.performForce_acts s x).toOnLane⟩
  · exact key _ _ _ fun x => ⟨x.1, (State.stage_acts s x.1 _).toOnLane⟩
  · exact key _ _ _ fun x => ⟨x.1, (State.stage_acts s x.1 _).toOnLane⟩
  · exact key _ _ _ fun x => ⟨x, (State.performDiscard_acts s x).toOnLane⟩
  · exact key _ _ _ fun x => ⟨x.1, (State.performCommit_acts s x).toOnLane⟩
  · exact key _ _ _ fun x => ⟨x, (State.performCancel_acts s x).toOnLane⟩
  · exact key _ _ _ fun x => ⟨x.lane, (State.performVerdict_acts s x).toOnLane⟩
  · exact key _ _ _ fun _ => ⟨0, .refl 0 s⟩
  · exact key _ _ _ fun x => ⟨0, by rw [State.performQueryTicket_snd]; exact .refl 0 s⟩
  · exact key _ _ _ fun x => ⟨0, by rw [State.performQueryProfile_snd]; exact .refl 0 s⟩

/-- No request empties the reply queue or adds to it but by its reply. -/
theorem serve_replies (k : RequestKind) (p : List Byte) (s : State) :
    (serve k p s).2.link.replies = s.link.replies := by
  by_cases hh : k = .hello
  · subst hh
    rcases checked_cases s _ _ s.performHello with e | ⟨x, _, e⟩ <;> simp only [serve, serveHello] <;> rw [e]
    rfl
  · by_cases hr : k = .restart
    · subst hr
      rcases checked_cases s (p.length == 0) (.ok ()) fun _ =>
        (Answer.ok [], { s with link := { s.link with linkTimer := none, restarting := true } }) with e | ⟨x, _, e⟩ <;>
        simp only [serve, serveRestart] <;> rw [e]
    · obtain ⟨l, h⟩ := serve_onLane k hh hr p s
      rw [h.link]

end Sys2Proof.Machine
end

