-- ==== Sys2Proof/Laws/Receiver.lean ====
section
/-! SUPPORT. The receiver byte by byte (R134), and what a valid frame leaves of the receiver. -/

namespace Sys2Proof.Machine

@[simp] theorem State.inFrame_receiver (s : State) (r : Receiver) : (s.inFrame r).link.receiver = r := rfl

theorem State.inFrame_inFrame (s : State) (r r' : Receiver) : (s.inFrame r).inFrame r' = s.inFrame r' := rfl

/-- The bytes taken so far do not matter to the dispatch. -/
theorem State.validFrame_inFrame (s : State) (r : Receiver) (kind seq : Byte) (p : List Byte) :
    (s.inFrame r).validFrame kind seq p = s.validFrame kind seq p := rfl

theorem receiveAll_cons (b : Byte) (bs : List Byte) (s : State) :
    receiveAll (b :: bs) s = receiveAll bs (s.receive b) := by
  simp [receiveAll, exec, execCharacterReceived]

/-- The payload bytes of a frame, taken one by one (R134). -/
theorem receiveAll_payload (s : State) (len kind seq : Byte) : ∀ p taken rest : List Byte,
    p ≠ [] → taken.length + p.length = len.toNat →
    receiveAll (p ++ rest) (s.inFrame (.payload len kind seq taken)) =
      receiveAll rest (s.inFrame (.crcHi len kind seq (taken ++ p))) := by
  intro p
  induction p with
  | nil => simp
  | cons a p ih =>
    intro taken rest _ hl
    rw [List.cons_append, receiveAll_cons]
    simp only [State.receive, State.inFrame_receiver, State.inFrame_inFrame]
    cases p with
    | nil =>
      rw [if_pos (by simp at hl; omega)]
      rfl
    | cons c p =>
      rw [if_neg (by simp at hl; omega)]
      rw [ih _ _ (by simp) (by simp at hl ⊢; omega)]
      simp

/-- From HUNT, the bytes of a frame up to its CRC (R134). -/
theorem receiveAll_head (s : State) (kind seq : Byte) (p rest : List Byte) (hs : s.link.receiver = .hunt)
    (hp : p.length ≤ 96) :
    receiveAll (0xC5 :: natByte p.length :: kind :: seq :: (p ++ rest)) s =
      receiveAll rest (s.inFrame (.crcHi (natByte p.length) kind seq p)) := by
  have hn : (natByte p.length).toNat = p.length := by simp [natByte]; omega
  rw [receiveAll_cons]
  simp only [State.receive, hs, startByte, if_true]
  rw [receiveAll_cons]
  simp only [State.receive, State.inFrame_receiver, hn, maxPayload, hp, if_true, State.inFrame_inFrame]
  rw [receiveAll_cons]
  simp only [State.receive, State.inFrame_receiver, State.inFrame_inFrame]
  rw [receiveAll_cons]
  simp only [State.receive, State.inFrame_receiver, State.inFrame_inFrame]
  split
  · rename_i h0
    have : p = [] := by
      have := hn; rw [h0] at this; simp at this; exact List.length_eq_zero_iff.mp this.symm
    subst this; rfl
  · rename_i h0
    have : p ≠ [] := by rintro rfl; exact h0 rfl
    rw [receiveAll_payload _ _ _ _ _ _ _ this (by simp [hn])]
    rfl

/-- A valid frame leaves the receiver in HUNT with the gap timer stopped (R137). -/
theorem State.validFrame_hunt : ∀ (s : State) (kind seq : Byte) (p : List Byte),
    (s.validFrame kind seq p).link.receiver = .hunt ∧ (s.validFrame kind seq p).link.gapTimer = none := by
  intro s kind seq p
  have hn : ∀ u : State, u.transmitNext.link.receiver = u.link.receiver ∧ u.transmitNext.link.gapTimer = u.link.gapTimer := by
    intro u; rw [u.transmitNext_frame]; simp
  unfold State.validFrame
  simp only
  split
  · exact ⟨rfl, rfl⟩
  · rw [(hn _).1, (hn _).2, State.toHunt_restartLinkTimer]
    split
    · unfold State.takeAck
      split <;> exact ⟨rfl, rfl⟩
    · unfold State.takeRequest
      split
      · exact ⟨rfl, rfl⟩
      · split
        · exact ⟨rfl, rfl⟩
        · simp only [State.reply, State.queueReply, State.answer]
          split
          · exact ⟨rfl, rfl⟩
          · split
            · rename_i k _ _
              by_cases hh : k = .hello
              · subst hh
                simp only [serve, serveHello]
                rcases checked_cases s.heard _ _ s.heard.performHello with e | ⟨x, _, e⟩ <;> rw [e] <;> exact ⟨rfl, rfl⟩
              · by_cases hr : k = .restart
                · subst hr
                  simp only [serve, serveRestart]
                  unfold checked; split
                  · exact ⟨rfl, rfl⟩
                  · exact ⟨rfl, rfl⟩
                · obtain ⟨l, h⟩ := serve_onLane k hh hr p s.heard
                  rw [h.link]; exact ⟨rfl, rfl⟩
            · exact ⟨rfl, rfl⟩

/-- A request whose length is one of its kind's is not refused for its length (R156). -/
theorem serve_notLength (k : RequestKind) (p : List Byte) (s : State) (h : p.length ∈ k.lengths) :
    (serve k p s).1 ≠ .badLength := by
  have key : ∀ {α : Type} (b : Bool) (fields : Except Byte α) (act : α → Answer × State), b = true →
      (∀ x, (act x).1 ≠ .badLength) → (checked s b fields act).1 ≠ .badLength := by
    intro α b fields act hb ha
    subst hb
    rcases fields with n | x
    · simp [checked]
    · exact ha x
  cases k <;> simp only [RequestKind.lengths] at h <;> refine key _ _ _ (by simp_all) ?_ <;> intro x
  · exact nofun
  · exact nofun
  · exact nofun
  · exact nofun
  · unfold State.performLaneConfig; repeat' split
    all_goals exact nofun
  · unfold State.performEnable; repeat' split
    all_goals exact nofun
  · unfold State.performDisable; repeat' split
    all_goals exact nofun
  · unfold State.performClearStop; simp only; repeat' split
    all_goals exact nofun
  · unfold State.performForce; repeat' split
    all_goals exact nofun
  · unfold State.stage; repeat' split
    all_goals exact nofun
  · unfold State.stage; repeat' split
    all_goals exact nofun
  · unfold State.performDiscard; repeat' split
    all_goals exact nofun
  · unfold State.performCommit; repeat' split
    all_goals simp only
    all_goals exact nofun
  · unfold State.performCancel; repeat' split
    all_goals exact nofun
  · unfold State.performVerdict; simp only; repeat' split
    all_goals simp only [Lane.missingSerial]
    all_goals repeat' split
    all_goals exact nofun
  · exact nofun
  · unfold State.performQueryTicket; simp only; repeat' split
    all_goals simp only [Lane.missingSerial]
    all_goals repeat' split
    all_goals exact nofun
  · unfold State.performQueryProfile; simp only; repeat' split
    all_goals exact nofun

end Sys2Proof.Machine
end

