-- ==== Sys2Proof/Laws/Travel.lean ====
section
/-! SUPPORT. The entry detector, the acts at an advance of the reach and the steps keep the laws of the lane and of the
pool. -/

namespace Sys2Proof.Machine

/-! ## Detector -/

theorem Lane.LaneLaw.tracks {L : Lane} (h : L.LaneLaw) (hd : L.detector ≠ .clear) : L.tracking = true := by
  rcases e : L.tracking with _ | _
  · exact absurd (h.1 e).2.2.1 hd
  · rfl

theorem State.readClear_kept (l : LaneId) (s : State) (r : ClearReader) :
    Lane.Kept (s.lane l) ((s.readClear l r).lane l) := by
  cases r
  · exact State.testWhenClear_kept s l
  · exact State.testDrain_kept s l

theorem State.detectorCleared_kept (s : State) (l : LaneId) :
    Lane.Kept (s.lane l) ((s.detectorCleared l).lane l) := by
  unfold State.detectorCleared
  simp only
  exact (Lane.Kept.of_eq (State.ordered_lane s _ l)).trans (foldl_kept (State.readClear_kept l) _ _)

/-- A detector that is set on a tracking lane with a closed blind list. -/
theorem State.setDetector_kept (s : State) (l : LaneId) (d : Detector) (ht : (s.lane l).tracking = true)
    (hn : ∀ leading lim, (s.lane l).detector ≠ .blocked leading lim) :
    Lane.Kept (s.lane l) ((s.setDetector l d).lane l) := by
  unfold State.setDetector
  rw [State.updLane_eq, State.lane_setLane_same]
  exact ⟨fun h => h.setDetector ht d, fun _ hb => Lane.BlindClosed.law (hb.closed hn), fun _ => .refl _⟩

theorem State.admitMeasured_keeps (s : State) (l : LaneId) (leading trailing : Pos) (lim : Limits)
    (ht : (s.lane l).tracking = true) (hn : ∀ leading lim, (s.lane l).detector ≠ .blocked leading lim) :
    State.Keeps l s (s.admitMeasured l leading trailing lim) := by
  have h := State.admit_admits s l leading ((trailing - leading).setWidth 16) lim.gap false ht
  unfold State.admitMeasured
  simp only
  generalize s.askPool l leading ((trailing - leading).setWidth 16) lim.gap false = u at h ⊢
  split
  · rename_i htu
    have hc := State.detectorCleared_kept (u.setDetector l .clear) l
    have hs : (u.setDetector l .clear).lane l = { u.lane l with detector := .clear } := by
      simp [State.setDetector, State.updLane_eq]
    have hlaw : (s.lane l).LaneLaw → ((u.setDetector l .clear).lane l).LaneLaw := fun hl => by
      rw [hs]; exact (h.law hl).setDetector htu _
    refine ⟨fun hl => hc.law (hlaw hl), fun hl hb => ?_, fun hl hp => ?_⟩
    · refine hc.blind (hlaw hl) ?_
      rw [hs]
      exact Lane.BlindClosed.law (h.closed rfl (hb.closed hn))
    · have a := (State.setDetector_acts u l .clear).trans (State.detectorCleared_acts _ l)
      refine (h.pool hl hp).shrink (fun j => ?_) fun j => ?_
      · by_cases e : j = l
        · subst e; exact a.acted.config
        · rw [a.others j e]
      · by_cases e : j = l
        · subst e
          have := hc.queue (hlaw hl)
          rw [hs] at this
          exact this
        · rw [a.others j e]
  · exact ⟨h.law, fun _ hb => Lane.BlindClosed.law (h.closed rfl (hb.closed hn)), h.pool⟩

theorem State.admitLong_keeps (s : State) (l : LaneId) (leading : Pos) (lim : Limits)
    (ht : (s.lane l).tracking = true) (hn : ∀ leading lim, (s.lane l).detector ≠ .blocked leading lim) :
    State.Keeps l s (s.admitLong l leading lim) := by
  have h := State.admit_admits s l leading lim.lmax lim.gap true ht
  unfold State.admitLong
  simp only
  generalize s.askPool l leading lim.lmax lim.gap true = u at h ⊢
  split
  · rename_i htu
    have hs : (u.setDetector l (.blocked leading lim)).lane l = { u.lane l with detector := .blocked leading lim } := by
      simp [State.setDetector, State.updLane_eq]
    refine ⟨fun hl => ?_, fun hl hb => ?_, fun hl hp => ?_⟩
    · rw [hs]; exact (h.law hl).setDetector htu _
    · rw [hs]
      have := h.bounds (hb.closed hn)
      exact ⟨this.1, this.2, fun _ => ⟨leading, lim, rfl⟩⟩
    · refine (h.pool hl hp).shrink (fun j => ?_) fun j => ?_
      · by_cases e : j = l
        · subst e; rw [hs]
        · rw [State.setDetector, State.updLane_eq, State.lane_setLane_ne _ e]
      · by_cases e : j = l
        · subst e; rw [hs]
        · rw [State.setDetector, State.updLane_eq, State.lane_setLane_ne _ e]
  · rename_i htu
    refine ⟨h.law, fun hl _ => .of_nil ?_, h.pool⟩
    exact ((h.law hl).1 (by simpa using htu)).2.1

theorem State.glitch_kept (s : State) (l : LaneId) (leading q : Pos) (ht : (s.lane l).tracking = true)
    (hn : ∀ leading lim, (s.lane l).detector ≠ .blocked leading lim) :
    Lane.Kept (s.lane l) ((s.glitch l leading q).lane l) := by
  unfold State.glitch
  simp only
  refine .trans ?_ (State.detectorCleared_kept _ l)
  rw [State.lane_produceIf, State.updLane_eq, State.lane_setLane_same]
  refine .trans (M := { s.lane l with detector := .clear }) ?_ (.same rfl rfl rfl rfl rfl rfl rfl rfl)
  exact ⟨fun h => h.setDetector ht _, fun _ hb => Lane.BlindClosed.law (hb.closed hn), fun _ => .refl _⟩

theorem State.presenceEdge_keeps (s : State) (l : LaneId) (ht : (s.lane l).tracking = true) :
    State.Keeps l s (s.presenceEdge l) := by
  unfold State.presenceEdge
  simp only
  split
  · rename_i hd
    exact .of_acts (State.setDetector_acts s l _) (State.setDetector_kept s l _ ht (by simp [hd]))
  · rename_i hd
    split
    · exact .of_acts (State.setDetector_acts s l _) (State.setDetector_kept s l _ ht (by simp [hd]))
    · exact State.admitLong_keeps s l _ _ ht (by simp [hd])
  · exact .refl l s

theorem closeInterval_closed (stop : Pos) (is : List Interval) : ∀ i ∈ closeInterval stop is, i.stop.isSome := by
  intro i hi
  simp only [closeInterval, List.mem_map] at hi
  obtain ⟨j, _, rfl⟩ := hi
  split
  · rfl
  · rename_i h
    simpa [Option.isSome_iff_ne_none, Option.isNone_iff_eq_none] using h

theorem State.clearingEdge_keeps (s : State) (l : LaneId) (ht : (s.lane l).tracking = true) :
    State.Keeps l s (s.clearingEdge l) := by
  have hacts := State.clearingEdge_acts s l
  unfold State.clearingEdge at hacts ⊢
  simp only at hacts ⊢
  split
  · rename_i hd
    split
    · exact .of_acts (State.glitch_acts s l _ _) (State.glitch_kept s l _ _ ht (by simp [hd]))
    · split
      · exact State.admitMeasured_keeps s l _ _ _ ht (by simp [hd])
      · exact .of_acts (State.setDetector_acts s l _) (State.setDetector_kept s l _ ht (by simp [hd]))
  · rename_i lim hd
    simp only [hd] at hacts
    refine .of_acts hacts ?_
    refine .trans ?_ (State.detectorCleared_kept _ l)
    rw [State.updLane_eq, State.lane_setLane_same]
    refine ⟨fun h => ?_, fun _ hb => Lane.BlindClosed.law ⟨?_, closeInterval_closed _ _⟩, fun _ => .refl _⟩
    · exact (h.setDetector ht .clear).setBlind (by exact ht) _
    · have := hb.1
      simpa [closeInterval] using this
  · exact .refl l s

theorem State.entryEdge_keeps (s : State) (l : LaneId) (present : Bool) : State.Keeps l s (s.entryEdge l present) := by
  have a : State.Acts l s (s.updLane l fun L => { L with entryLevel := present }) :=
    State.updLane_acts s l fun _ => ⟨rfl, rfl, rfl, rfl, rfl, id⟩
  have h : State.Keeps l s (s.updLane l fun L => { L with entryLevel := present }) := by
    refine .of_acts a ?_
    rw [State.updLane_eq, State.lane_setLane_same]
    exact .same rfl rfl rfl rfl rfl rfl rfl rfl
  unfold State.entryEdge State.takeEntryLevel
  simp only
  split
  · rename_i ht
    have ht' : ((s.updLane l fun L => { L with entryLevel := present }).lane l).tracking = true := by
      rw [State.updLane_eq, State.lane_setLane_same]; exact ht.1
    split
    · exact .refl l s
    · split
      · exact h.trans (State.presenceEdge_keeps _ l ht')
      · exact h.trans (State.clearingEdge_keeps _ l ht')
  · exact .refl l s

theorem State.detectorAdvance_keeps (s : State) (l : LaneId) : State.Keeps l s (s.detectorAdvance l) := by
  refine .of_law fun hl => ?_
  unfold State.detectorAdvance
  split
  · rename_i hd
    exact State.admitLong_keeps s l _ _ (hl.tracks (by simp [hd])) (by simp [hd])
  · rename_i hd
    exact State.admitMeasured_keeps s l _ _ _ (hl.tracks (by simp [hd])) (by simp [hd])
  · exact .refl l s

/-! ## The acts at an advance -/

theorem State.checkBlind_kept (s : State) (l : LaneId) :
    Lane.Kept (s.lane l) (((s.updLane l Lane.checkBlind).testDrain l).lane l) := by
  refine .trans ?_ (State.testDrain_kept _ l)
  rw [State.updLane_eq, State.lane_setLane_same]
  refine ⟨fun ⟨h1, h2, h3, h4, h5⟩ => ⟨fun e => ?_, h2, h3, h4, h5⟩, fun _ hb => hb.sublist List.filter_sublist rfl,
    fun _ => .refl _⟩
  obtain ⟨a, b, c, d⟩ := h1 e
  exact ⟨a, by simp [Lane.checkBlind, b], c, d⟩

theorem State.runAct_keeps (l : LaneId) (s : State) (a : BeltAct) : State.Keeps l s (State.runAct l s a) := by
  have hacts := State.runAct_acts l s a
  unfold State.runAct at hacts ⊢
  simp only at hacts ⊢
  split
  · exact .refl l s
  · rename_i hc
    rw [if_neg hc] at hacts
    cases a <;> simp only at hacts ⊢
    · exact State.detectorAdvance_keeps s l
    · split
      · exact .of_acts (State.retire_acts s l _) (State.retire_kept s l _)
      · exact .refl l s
    · exact .of_acts hacts (State.checkBlind_kept s l)
    · exact .of_acts hacts (State.updTicket_kept s l _ _ fun _ => rfl)
    · split
      · exact .of_acts (State.duePoint_acts s l _ _) (State.duePoint_kept s l _ _)
      · exact .refl l s
    · split
      · exact .of_acts (State.toleranceEnd_acts s l _ _) (State.toleranceEnd_kept s l _ _)
      · exact .refl l s
    · exact .of_acts hacts (State.updStation_kept s l _ _)
    · split
      · exact .of_acts (State.windowEnd_acts s l _) (State.windowEnd_kept s l _)
      · exact .refl l s

theorem State.advance_keeps (s : State) (l : LaneId) : State.Keeps l s (s.advance l) := by
  unfold State.advance
  simp only
  exact (State.Keeps.of_acts (State.ordered_acts s l _) (.of_eq (State.ordered_lane s _ l))).trans
    (foldl_keeps (State.runAct_keeps l) _ _)

/-! ## Steps -/

/-- A change of position, reach, encoder levels and tick timer alone. -/
theorem State.setLane_keeps (s : State) (l : LaneId) {M : Lane} (hc : M.config = (s.lane l).config)
    (h : Lane.Kept (s.lane l) M) : State.Keeps l s (s.setLane l M) :=
  .of_kept (State.setLane_onLane s l M) (by rw [State.lane_setLane_same]; exact hc)
    (by rw [State.lane_setLane_same]; exact h)

theorem State.move_keeps (s : State) (l : LaneId) (position reach : Pos) (encoder : EncoderPair)
    (tickTimer : Option Nat) :
    State.Keeps l s (s.setLane l { s.lane l with
      position := position, reach := reach, encoder := encoder, tickTimer := tickTimer }) :=
  State.setLane_keeps s l rfl (.same rfl rfl rfl rfl rfl rfl rfl rfl)

theorem State.rereadSensors_keeps (s : State) (l : LaneId) : State.Keeps l s (s.rereadSensors l) := by
  unfold State.rereadSensors
  refine .trans ?_ (State.entryEdge_keeps _ l _)
  exact State.setLane_keeps s l rfl (.same rfl rfl rfl rfl rfl rfl rfl rfl)

theorem State.forwardStep_keeps (s : State) (l : LaneId) : State.Keeps l s (s.forwardStep l) := by
  unfold State.forwardStep
  simp only
  split
  · exact (State.move_keeps s l ..).trans (State.advance_keeps _ l)
  · have h : State.Keeps l s (s.setLane l { s.lane l with position := (s.lane l).position + 1 }) :=
      State.setLane_keeps s l rfl (.same rfl rfl rfl rfl rfl rfl rfl rfl)
    split
    · exact h.trans (State.rereadSensors_keeps _ l)
    · exact h

theorem State.haltLane_keeps (s : State) (l : LaneId) (reason : HaltReason) :
    State.Keeps l s (s.haltLane l reason) := .of_acts (State.haltLane_acts s l reason) (State.haltLane_kept s l reason)

theorem State.reverseStep_keeps (s : State) (l : LaneId) : State.Keeps l s (s.reverseStep l) := by
  unfold State.reverseStep
  simp only
  split <;> split <;>
    first
    | exact (State.move_keeps s l ..).trans (State.haltLane_keeps _ l _)
    | exact State.move_keeps s l ..

theorem State.decodePair_keeps (s : State) (l : LaneId) (new : EncoderPair) : State.Keeps l s (s.decodePair l new) := by
  have h : State.Keeps l s (s.setLane l { s.lane l with encoder := new }) :=
    State.setLane_keeps s l rfl (.same rfl rfl rfl rfl rfl rfl rfl rfl)
  unfold State.decodePair
  simp only
  split
  · exact h
  · exact h.trans (State.forwardStep_keeps _ l)
  · exact h.trans (State.reverseStep_keeps _ l)
  · exact h.trans (State.haltLane_keeps _ l _)

theorem State.clockTick_keeps (s : State) (l : LaneId) : State.Keeps l s (s.clockTick l) := by
  unfold State.clockTick
  simp only
  split
  · exact (State.move_keeps s l ..).trans (State.forwardStep_keeps _ l)
  · exact .refl l s

end Sys2Proof.Machine
end

