-- ==== Sys2Proof/Laws/Sound.lean ====
section
/-! SUPPORT. Requests, the guard, the loss of a session and time keep the laws of the lanes and of the pool. -/

namespace Sys2Proof.Machine

/-- `t` keeps the laws of the lanes, of the blind lists and of the pool that `s` keeps. -/
structure State.Sound (s t : State) : Prop where
  law : s.LaneLaw → t.LaneLaw
  blind : s.LaneLaw → s.BlindLaw → t.BlindLaw
  pool : s.LaneLaw → s.PoolLaw → t.PoolLaw

theorem State.Sound.refl (s : State) : State.Sound s s := ⟨id, fun _ h => h, fun _ h => h⟩

theorem State.Sound.trans {s t u : State} (h : State.Sound s t) (k : State.Sound t u) : State.Sound s u where
  law := k.law ∘ h.law
  blind := fun a b => k.blind (h.law a) (h.blind a b)
  pool := fun a b => k.pool (h.law a) (h.pool a b)

theorem State.Sound.of_keeps {l : LaneId} {s t : State} (a : State.OnLane l s t) (k : State.Keeps l s t) :
    State.Sound s t where
  law := fun h j => by
    by_cases e : j = l
    · subst e; exact k.law (h j)
    · rw [a.others j e]; exact h j
  blind := fun h hb j => by
    by_cases e : j = l
    · subst e; exact k.blind (h j) (hb j)
    · rw [a.others j e]; exact hb j
  pool := fun h hp => k.pool (h l) hp

/-- Every lane is kept with its configuration. -/
theorem State.Sound.of_kept {s t : State} (hc : ∀ l, (t.lane l).config = (s.lane l).config)
    (h : ∀ l, Lane.Kept (s.lane l) (t.lane l)) : State.Sound s t where
  law := fun hl l => (h l).law (hl l)
  blind := fun hl hb l => (h l).blind (hl l) (hb l)
  pool := fun hl hp => hp.shrink hc fun l => (h l).queue (hl l)

theorem State.Sound.of_acts {l : LaneId} {s t : State} (a : State.Acts l s t) (h : Lane.Kept (s.lane l) (t.lane l)) :
    State.Sound s t := .of_keeps a.toOnLane (.of_acts a h)

/-- No lane changes. -/
theorem State.Sound.of_lanes {s t : State} (h : ∀ l, t.lane l = s.lane l) : State.Sound s t :=
  .of_kept (fun l => by rw [h l]) fun l => .of_eq (h l)

theorem State.Sound.of_lane {s t : State} (h : t.lanes = s.lanes) : State.Sound s t :=
  .of_lanes fun l => by simp only [State.lane, h]

theorem foldl_sound {α : Type} {f : State → α → State} (h : ∀ s a, State.Sound s (f s a)) (as : List α) (s : State) :
    State.Sound s (as.foldl f s) := by
  induction as generalizing s with
  | nil => exact .refl s
  | cons a as ih => exact (h s a).trans (ih _)

theorem State.transmitNext_sound (s : State) : State.Sound s s.transmitNext := .of_lane (s.transmitNext_lanes)

theorem State.setLaneInputs_sound (s : State) (l : LaneId) (x : LaneInputs) : State.Sound s (s.setLaneInputs l x) :=
  .of_lanes fun j => s.lane_setLaneInputs l j x

theorem Lane.countDown_kept (L : Lane) : Lane.Kept L L.countDown := .same rfl rfl rfl rfl rfl rfl rfl rfl

/-! ## Requests -/

theorem State.reserveTotal_eq (s : State) (l : LaneId) (n : Nat) (h : (s.lane l).queue = []) :
    s.reserveTotal l n = (allLanes.map fun j =>
      Nat.max (if j = l then n else (s.lane j).config.reserve.toNat) (s.lane j).queue.length).sum := by
  unfold State.reserveTotal
  congr 2
  funext j
  by_cases e : j = l
  · subst e
    simp [h]
  · simp [e, Lane.inUse]

theorem State.performLaneConfig_sound (s : State) (x : LaneId × LaneConfig) :
    State.Sound s (s.performLaneConfig x).2 := by
  unfold State.performLaneConfig
  split
  · exact .refl s
  · rename_i hs
    split
    · exact .refl s
    · rename_i hr
      simp only
      have hs' : (s.lane x.1).state = .disabled := by simpa using hs
      have ht : (s.lane x.1).tracking = false := by simp [Lane.tracking, hs']
      have hk : Lane.Kept (s.lane x.1) ((s.lane x.1).configure x.2 (s.laneInputs x.1)) := by
        unfold Lane.configure
        split <;> exact .same rfl rfl rfl rfl rfl rfl rfl rfl
      have hcf : ((s.lane x.1).configure x.2 (s.laneInputs x.1)).config = x.2 := by
        unfold Lane.configure
        split <;> rfl
      have hqf : ((s.lane x.1).configure x.2 (s.laneInputs x.1)).queue = (s.lane x.1).queue := by
        unfold Lane.configure
        split <;> rfl
      rw [State.updLane_eq]
      refine ⟨fun h j => ?_, fun h hb j => ?_, fun h hp => ?_⟩
      · rw [State.lane_setLane]
        split
        · rename_i e; subst e; exact hk.law (h _)
        · exact h j
      · rw [State.lane_setLane]
        split
        · rename_i e; subst e; exact hk.blind (h _) (hb _)
        · exact hb j
      · have hq : (s.lane x.1).queue = [] := ((h x.1).1 ht).1
        obtain ⟨h1, h2, h3, h4⟩ := hp
        have hqs : ∀ j, ((s.setLane x.1 ((s.lane x.1).configure x.2 (s.laneInputs x.1))).lane j).queue =
            (s.lane j).queue := by
          intro j
          rw [State.lane_setLane]
          split
          · rename_i e; subst e; exact hqf
          · rfl
        refine ⟨?_, fun j t ht => h2 j t (hqs j ▸ ht), ?_, fun j => ?_⟩
        · unfold State.usedIndices
          simp only [hqs]
          exact h1
        · rw [State.reserveTotal_eq s x.1 _ hq] at hr
          refine le_trans (le_of_eq ?_) (not_lt.mp hr)
          congr 2
          funext j
          rw [hqs, State.lane_setLane]
          split
          · rw [hcf]
          · rfl
        · rw [hqs]
          by_cases e : j = x.1
          · subst e; simp [hq]
          · rw [State.lane_setLane_ne _ e]; exact h4 j

theorem Lane.enable_kept (L : Lane) (b : Bool) (levels : LaneInputs) (hs : L.state = .disabled) :
    Lane.Kept L (L.enable b levels) := by
  have ht : L.tracking = false := by simp [Lane.tracking, hs]
  refine ⟨fun ⟨h1, h2, h3, h4, h5⟩ => ⟨fun e => ?_, ?_, h3, h4, h5⟩, fun hl hb => ?_, fun _ => .refl _⟩
  · simp [Lane.enable, Lane.tracking] at e
  · simpa [Lane.enable, Lane.mapStations, hs] using h2
  · refine Lane.BlindClosed.law ?_
    have hn : L.blind = [] := (hl.1 ht).2.1
    simp only [Lane.BlindClosed, Lane.enable, hn]
    cases b <;> simp [addInterval, blindCapacity, Lane.enableInterval]

theorem State.performEnable_sound (s : State) (x : LaneId × Bool) : State.Sound s (s.performEnable x).2 := by
  unfold State.performEnable
  split
  · exact .refl s
  · rename_i hs
    refine .of_keeps (State.setLane_onLane ..) (State.setLane_keeps s x.1 rfl ?_)
    exact Lane.enable_kept _ _ _ (by simpa using hs)

theorem Lane.drain_kept {L : Lane} (h : L.state = .running) : Lane.Kept L { L with state := .draining } := by
  refine ⟨fun ⟨h1, h2, h3, h4, h5⟩ => ⟨fun e => by simp [Lane.tracking] at e, ?_, h3, h4, h5⟩, fun _ h => h,
    fun _ => .refl _⟩
  simpa [h] using h2

theorem Lane.unhalt_kept {L : Lane} (h : L.state = .halted) :
    Lane.Kept L { L with state := .disabled, stops := { L.stops with halt := false } } := by
  refine ⟨fun ⟨h1, h2, h3, h4, h5⟩ => ⟨fun _ => h1 (by simp [Lane.tracking, h]), by simp, h3, h4, h5⟩, fun _ h => h,
    fun _ => .refl _⟩

theorem State.performDisable_sound (s : State) (x : LaneId × DisableMode) :
    State.Sound s (s.performDisable x).2 := by
  have a := State.performDisable_acts s x
  refine .of_acts a ?_
  unfold State.performDisable
  split
  · exact .refl _
  · rename_i h
    rw [State.updLane_eq, State.lane_setLane_same]
    exact Lane.unhalt_kept h
  · rename_i h _
    refine .trans ?_ (State.testDrain_kept _ _)
    rw [State.updLane_eq, State.lane_setLane_same]
    exact Lane.drain_kept h
  · exact .refl _
  · rename_i h _
    exact State.abortLane_kept s _ (by simp [Lane.tracking, h])
  · rename_i h _
    exact State.abortLane_kept s _ (by simp [Lane.tracking, h])

theorem State.setStaging_kept (s : State) (l : LaneId) (st : Staging) (h : ∀ b d c, st ≠ .committing b d c) :
    Lane.Kept (s.lane l) ((s.setStaging l st).lane l) := by
  rw [State.setStaging, State.updLane_eq, State.lane_setLane_same]
  exact ⟨fun ⟨h1, h2, h3, h4, _⟩ => ⟨fun e => ⟨(h1 e).1, (h1 e).2.1, (h1 e).2.2.1, h⟩, h2, h3, h4,
    fun b d e => absurd e (h b d _)⟩, fun _ h => h, fun _ => .refl _⟩

theorem Lane.commit_kept {L : Lane} (ht : L.tracking = true) (body : ProfileBody) (derived : Derived) (b : Boundary) :
    Lane.Kept L { L with staging := .committing body derived (.pending b) } := by
  refine ⟨fun ⟨_, h2, h3, h4, _⟩ => ⟨fun e => ?_, h2, h3, h4, fun _ _ e => by simp at e⟩, fun _ h => h,
    fun _ => .refl _⟩
  have e' : L.tracking = false := e
  rw [ht] at e'
  cases e'

theorem State.performCommit_sound (s : State) (x : LaneId × Boundary) : State.Sound s (s.performCommit x).2 := by
  have a := State.performCommit_acts s x
  refine .of_acts a (.of_law fun hl => ?_)
  unfold State.performCommit
  split
  · exact .refl _
  · exact .refl _
  · rename_i body he
    split
    · exact .refl _
    · simp only
      have hst : ∀ c : Staging, (s.setStaging x.1 c).lane x.1 = { s.lane x.1 with staging := c } := fun c => by
        simp [State.setStaging, State.updLane_eq]
      have hab : Lane.Kept (s.lane x.1) { s.lane x.1 with staging := .absent } := by
        have := State.setStaging_kept s x.1 .absent (by simp)
        rwa [hst] at this
      split
      · simp only
        by_cases hr : (s.lane x.1).retiring = none
        · have h := State.reachBoundary_commit (s := s.setStaging x.1 (.committing body body.derive (.pending x.2)))
            (l := x.1) (body := body) (derived := body.derive) (b := x.2) (by rw [hst]) (by rw [hst]; exact hr)
          rw [hst] at h
          exact hab.trans h
        · have ht : (s.lane x.1).tracking = true := by
            rcases e : (s.lane x.1).tracking with _ | _
            · obtain ⟨p, hp⟩ := Option.ne_none_iff_exists'.mp hr
              obtain ⟨_, t, hm, _⟩ := hl.2.2.2.1 p hp
              rw [(hl.1 e).1] at hm
              cases hm
            · rfl
          have h := State.reachBoundary_kept (s.setStaging x.1 (.committing body body.derive (.pending x.2))) x.1
          refine .trans ?_ h
          rw [hst]
          exact Lane.commit_kept ht ..
      · rename_i hn
        simp only
        rw [hst]
        have ht : (s.lane x.1).tracking = true := by
          simp only [Lane.reachedAtOnce, Bool.or_eq_true, not_or, Bool.not_eq_true', Bool.not_eq_false] at hn
          exact hn.1
        exact Lane.commit_kept ht ..

theorem State.stage_sound (s : State) (l : LaneId) (f : ProfileBody → ProfileBody) : State.Sound s (s.stage l f).2 := by
  refine .of_acts (State.stage_acts s l f) ?_
  unfold State.stage
  split
  · exact State.setStaging_kept s l _ (by simp)
  · exact State.setStaging_kept s l _ (by simp)
  · exact .refl _

/-- Every request keeps the laws. -/
theorem serve_sound (k : RequestKind) (p : List Byte) (s : State) : State.Sound s (serve k p s).2 := by
  have key : ∀ {α : Type} (b : Bool) (fields : Except Byte α) (act : α → Answer × State),
      (∀ x, State.Sound s (act x).2) → State.Sound s (checked s b fields act).2 := by
    intro α b fields act h
    rcases checked_cases s b fields act with e | ⟨x, _, e⟩
    · rw [e]; exact .refl s
    · rw [e]; exact h x
  have still : ∀ t : State, t = s → State.Sound s t := fun t e => e ▸ .refl s
  cases k
  · refine key _ _ _ fun h => ?_
    unfold State.performHello
    simp only
    refine .of_kept (fun l => ?_) fun l => ?_
    · simp only [State.lane_mapLanes]; rfl
    · simp only [State.lane_mapLanes]; exact .same rfl rfl rfl rfl rfl rfl rfl rfl
  · exact key _ _ _ fun _ => .refl s
  · exact key _ _ _ fun _ => .refl s
  · exact key _ _ _ fun _ => .of_lane rfl
  · exact key _ _ _ fun x => State.performLaneConfig_sound s x
  · exact key _ _ _ fun x => State.performEnable_sound s x
  · exact key _ _ _ fun x => State.performDisable_sound s x
  · exact key _ _ _ fun x => .of_acts (State.performClearStop_acts s x) (State.updStops_kept s x _ fun _ => rfl)
  · refine key _ _ _ fun x => .of_acts (State.performForce_acts s x) ?_
    unfold State.performForce
    split
    · exact .refl _
    · exact State.updStation_kept s _ _ _
  · exact key _ _ _ fun x => State.stage_sound s x.1 _
  · exact key _ _ _ fun x => State.stage_sound s x.1 _
  · refine key _ _ _ fun x => .of_acts (State.performDiscard_acts s x) ?_
    unfold State.performDiscard
    split
    · exact .refl _
    · exact State.setStaging_kept s x _ (by simp)
    · exact .refl _
  · exact key _ _ _ fun x => State.performCommit_sound s x
  · refine key _ _ _ fun x => .of_acts (State.performCancel_acts s x) ?_
    unfold State.performCancel
    split
    · exact State.setStaging_kept s x _ (by simp)
    · exact .refl _
  · refine key _ _ _ fun x => .of_acts (State.performVerdict_acts s x) ?_
    unfold State.performVerdict
    simp only
    split
    · exact .refl _
    · split
      · exact .refl _
      · split
        · exact State.updTicket_kept s _ _ _ fun _ => rfl
        · exact State.updTicket_kept s _ _ _ fun _ => rfl
        · exact .refl _
  · exact key _ _ _ fun _ => .refl s
  · exact key _ _ _ fun x => still _ (State.performQueryTicket_snd s x)
  · exact key _ _ _ fun x => still _ (State.performQueryProfile_snd s x)

/-! ## Frames -/

theorem State.takeRequest_sound (s : State) (kind seq : Byte) (payload : List Byte) :
    State.Sound s (s.takeRequest kind seq payload) := by
  unfold State.takeRequest
  split
  · exact .of_lane rfl
  · split
    · exact .of_lane rfl
    · refine .trans (t := (s.answer kind payload).2) ?_ (.of_lane rfl)
      unfold State.answer
      split
      · exact .refl s
      · split
        · exact serve_sound _ _ s
        · exact .refl s

theorem State.takeAck_sound (s : State) (n : Byte) : State.Sound s (s.takeAck n) := by
  unfold State.takeAck
  split <;> exact .of_lane rfl

theorem State.validFrame_sound (s : State) (kind seq : Byte) (payload : List Byte) :
    State.Sound s (s.validFrame kind seq payload) := by
  unfold State.validFrame
  simp only
  split
  · exact .of_lane rfl
  · rw [State.toHunt_restartLinkTimer]
    refine .trans (t := s.heard) (.of_lane rfl) (.trans ?_ (State.transmitNext_sound _))
    split
    · exact State.takeAck_sound _ _
    · exact State.takeRequest_sound _ _ _ _

/-! ## Guard -/

theorem Lane.mapStations_kept (L : Lane) (f : Station → Station) : Lane.Kept L (L.mapStations f) :=
  .same rfl rfl rfl rfl rfl rfl rfl rfl

theorem State.releaseStation_sound (s : State) (x : LaneId × StationId) : State.Sound s (s.releaseStation x) := by
  unfold State.releaseStation
  split
  · exact .of_acts (State.deferredFire_acts s _ _) (State.deferredFire_kept s _ _)
  · exact .refl s

theorem State.guardChange_sound (s : State) (energised : Bool) : State.Sound s (s.guardChange energised) := by
  unfold State.guardChange
  simp only
  split
  · exact .of_lane rfl
  · refine .trans (t := State.produce { s with
        inputs := { s.inputs with guardLine := energised }, guardAsserted := !energised } (.guard (!energised)))
      (.of_lane rfl) ?_
    split
    · unfold State.releasePulses
      simp only
      exact (State.Sound.of_lanes fun l => State.ordered_lane _ _ l).trans (foldl_sound State.releaseStation_sound _ _)
    · unfold State.cutPulses
      exact .of_kept (fun l => by simp only [State.lane_mapLanes]; rfl) fun l => by
        simp only [State.lane_mapLanes]; exact Lane.mapStations_kept _ _

/-! ## Loss of the session, time -/

theorem Lane.linkLoss_kept (L : Lane) : Lane.Kept L L.linkLoss := by
  unfold Lane.linkLoss
  split
  · exact .refl L
  · exact .same rfl rfl rfl rfl rfl rfl rfl rfl
  · split
    · rename_i h
      exact Lane.drain_kept h
    · exact .refl L

theorem Lane.linkLoss_config (L : Lane) : L.linkLoss.config = L.config := by
  unfold Lane.linkLoss
  split
  · rfl
  · rfl
  · split <;> rfl

theorem State.loseSession_sound (s : State) : State.Sound s s.loseSession := by
  unfold State.loseSession
  simp only
  refine .trans (.trans ?_ (State.Sound.of_lanes fun l => State.ordered_lane _ _ l))
    (foldl_sound (fun s l => .of_acts (State.testDrain_acts s l) (State.testDrain_kept s l)) _ _)
  exact .of_kept (fun l => by simp only [State.lane_mapLanes]; exact Lane.linkLoss_config _) fun l => by
    simp only [State.lane_mapLanes]; exact Lane.linkLoss_kept _

theorem State.linkTimeout_sound (s : State) : State.Sound s s.linkTimeout := by
  unfold State.linkTimeout
  split
  · exact State.loseSession_sound s
  · exact .refl s

theorem State.reportTimeout_sound (s : State) : State.Sound s s.reportTimeout := by
  unfold State.reportTimeout
  split
  · split
    · exact .of_lane rfl
    · exact State.loseSession_sound s
  · exact .refl s

theorem State.elapse_sound (s : State) : State.Sound s s.elapse := by
  unfold State.elapse
  split
  · have hl : ∀ l, s.microsecond.lane l = (s.lane l).countDown := by
      intro l
      have h1 : s.microsecond.lane l = (s.tickClock.mapLanes Lane.countDown).lane l := rfl
      have h2 : s.tickClock.lane l = s.lane l := by
        unfold State.tickClock
        split <;> rfl
      rw [h1, State.lane_mapLanes, h2]
    exact .of_kept (fun l => by rw [hl]; rfl) fun l => by rw [hl]; exact Lane.countDown_kept _
  · rename_i h
    have := State.ordered_lane s s.expiries
    rw [h] at this
    exact .of_lanes this

end Sys2Proof.Machine
end

