-- ==== Sys2Proof/Laws/Store.lean ====
section
/-! SUPPORT. The lists of the report store (R173 to R184): what its operations do, and that each keeps the law of the
store. -/

namespace Sys2Proof.Machine

/-! ## Lists -/

theorem updateFirst_eq {α : Type} (p : α → Bool) (f : α → α) (b : List α) (x : α) (a : List α)
    (hb : ∀ y ∈ b, p y = false) (hx : p x = true) : updateFirst p f (b ++ x :: a) = some (f x, b ++ f x :: a) := by
  induction b with
  | nil => simp [updateFirst, hx]
  | cons c b ih =>
    simp [updateFirst, hb c (by simp), ih (fun y hy => hb y (by simp [hy]))]

theorem updateFirst_none {α : Type} (p : α → Bool) (f : α → α) (b : List α) (hb : ∀ y ∈ b, p y = false) :
    updateFirst p f b = none := by
  induction b with
  | nil => simp [updateFirst]
  | cons c b ih =>
    simp [updateFirst, hb c (by simp), ih (fun y hy => hb y (by simp [hy]))]

theorem updateFirst_map {α β : Type} (p : α → Bool) (f : α → α) (g : α → β) (hg : ∀ a, g (f a) = g a) (l : List α)
    (b : α) (bs : List α) (h : updateFirst p f l = some (b, bs)) : bs.map g = l.map g := by
  induction l generalizing b bs with
  | nil => simp [updateFirst] at h
  | cons a as ih =>
    simp only [updateFirst] at h
    split at h
    · simp only [Option.some.injEq, Prod.mk.injEq] at h
      obtain ⟨_, rfl⟩ := h
      simp [hg]
    · split at h
      · cases h
      · rename_i c cs e
        simp only [Option.some.injEq, Prod.mk.injEq] at h
        obtain ⟨_, rfl⟩ := h
        simp [ih _ _ e]

theorem updateFirst_append {α : Type} (p : α → Bool) (f : α → α) (xs ys : List α) (h : ∀ x ∈ xs, p x = false) :
    updateFirst p f (xs ++ ys) = (updateFirst p f ys).map fun z => (z.1, xs ++ z.2) := by
  induction xs with
  | nil => simp
  | cons a as ih =>
    simp only [List.cons_append, updateFirst, h a (by simp)]
    rw [ih (fun x hx => h x (by simp [hx]))]
    cases updateFirst p f ys <;> simp

theorem removeNewest_append {α : Type} (p : α → Bool) (xs ys : List α) (hy : ys.any p) :
    removeNewest p (xs ++ ys) = xs ++ removeNewest p ys := by
  simp only [removeNewest, List.reverse_append]
  obtain ⟨a, ha, hp⟩ := List.any_eq_true.mp hy
  rw [List.eraseP_append_left hp _ (List.mem_reverse.mpr ha)]
  simp

theorem removeNewest_length {α : Type} (p : α → Bool) (xs : List α) (h : xs.any p) :
    (removeNewest p xs).length + 1 = xs.length := by
  simp only [removeNewest, List.length_reverse]
  obtain ⟨a, ha, hp⟩ := List.any_eq_true.mp h
  have := List.length_eraseP_of_mem (a := a) (p := p) (l := xs.reverse) (by simpa using ha) hp
  have h2 : 0 < xs.length := List.length_pos_of_mem ha
  simp only [List.length_reverse] at this
  omega

theorem saturatingSucc_ne_zero (x : Half) : saturatingSucc x ≠ 0 := by
  unfold saturatingSucc
  split
  · rename_i h; rw [h]; decide
  · rename_i h; bv_omega

theorem ackThrough_eq (n : Byte) (older newer : List StoredReport) (r : StoredReport) (hr : r.number = some n)
    (ho : ∀ x ∈ older, x.number.isSome ∧ x.number ≠ some n) : ackThrough n (older ++ r :: newer) = some newer := by
  induction older with
  | nil => simp [ackThrough, hr]
  | cons a o ih =>
    have := ho a (by simp)
    simp [ackThrough, this.2]
    exact ih (fun x hx => ho x (by simp [hx]))

theorem ackThrough_none (n : Byte) (rs : List StoredReport) (ho : ∀ x ∈ rs, x.number ≠ some n) :
    ackThrough n rs = none := by
  induction rs with
  | nil => rfl
  | cons a o ih =>
    simp [ackThrough, ho a (by simp)]
    exact ih (fun x hx => ho x (by simp [hx]))

theorem ackThrough_some {n : Byte} {l rs : List StoredReport} (h : ackThrough n l = some rs) :
    ∃ xs r, l = xs ++ r :: rs ∧ r.number = some n := by
  induction l with
  | nil => cases h
  | cons a as ih =>
    simp only [ackThrough] at h
    split at h
    · rename_i e; simp only [Option.some.injEq] at h; subst h; exact ⟨[], a, rfl, e⟩
    · obtain ⟨xs, r, e, h⟩ := ih h; exact ⟨a :: xs, r, by simp [e], h⟩

theorem inFlight_append (f w : List StoredReport) (hf : ∀ r ∈ f, r.number.isSome) (hw : ∀ r ∈ w, r.number = none) :
    (f ++ w).countP (fun r => r.number.isSome) = f.length := by
  rw [List.countP_append, List.countP_eq_length.mpr (by simpa using hf), List.countP_eq_zero.mpr (by intro a ha; simp [hw a ha])]
  rfl

theorem Store.inFlight_eq {st : Store} {fl wa : List StoredReport} (h1 : st.reports = fl ++ wa)
    (h2 : ∀ r ∈ wa, r.number = none) (h4 : ∀ r ∈ fl, r.number.isSome) : st.inFlight = fl.length := by
  unfold Store.inFlight
  rw [h1, List.countP_append]
  have : wa.countP (fun r => r.number.isSome) = 0 := by
    rw [List.countP_eq_zero]; intro r hr; simp [h2 r hr]
  rw [this, List.countP_eq_length.mpr]
  · rfl
  · exact h4

theorem keepWindow_waiting (n : Nat) (wa : List StoredReport) (h : ∀ r ∈ wa, r.number = none) :
    keepWindow n wa = wa := by
  induction wa generalizing n with
  | nil => rfl
  | cons a as ih => simp [keepWindow, h a (by simp), ih n fun r hr => h r (by simp [hr])]

theorem keepWindow_split (n : Nat) (fl wa : List StoredReport) (hf : ∀ r ∈ fl, r.number.isSome)
    (h : ∀ r ∈ wa, r.number = none) :
    keepWindow n (fl ++ wa) = fl.take n ++ ((fl.drop n).map StoredReport.unsend ++ wa) := by
  induction fl generalizing n with
  | nil => simp [keepWindow_waiting n wa h]
  | cons a as ih =>
    rcases n with _ | n
    · simp [keepWindow, hf a (by simp), ih 0 fun r hr => hf r (by simp [hr])]
    · simp [keepWindow, hf a (by simp), ih n fun r hr => hf r (by simp [hr])]

theorem keepWindow_due (f w : List StoredReport) (n : Nat) (hf : ∀ r ∈ f, r.number.isSome)
    (hw : ∀ r ∈ w, r.number = none ∧ r.resendDue = false) :
    (keepWindow n (f ++ w)).map StoredReport.markDue =
      (f.take n).map (fun r => { r with resendDue := true }) ++
        (f.drop n).map (fun r => { r with number := none, resendDue := false }) ++ w := by
  induction f generalizing n with
  | nil =>
    simp
    induction w generalizing n with
    | nil => simp [keepWindow]
    | cons a w ih =>
      have ha := hw a (by simp)
      cases n <;> simp [keepWindow, ha.1, ih (fun r hr => hw r (by simp [hr])), StoredReport.markDue] <;> rcases a with ⟨_, _, _, _⟩ <;> simp_all
  | cons a f ih =>
    have ha := hf a (by simp)
    have ih := fun n => ih n (fun r hr => hf r (by simp [hr]))
    cases n with
    | zero =>
      simp [keepWindow, ha, StoredReport.unsend, StoredReport.markDue]
      simpa [StoredReport.unsend] using ih 0
    | succ n => simp [keepWindow, ha, StoredReport.markDue]; simpa using ih n

/-! ## The law of the store -/

/-- The law of a store under a window: the reports in flight are the oldest, carry consecutive numbers that end before the
next number, and are no more than the window (R173 to R176, R181). -/
def Store.Kept (w : Byte) (st : Store) : Prop :=
  (∃ flying waiting : List StoredReport,
    st.reports = flying ++ waiting ∧ (∀ r ∈ waiting, r.number = none) ∧
    flying.length ≤ w.toNat ∧
    ∀ i : Nat, ∀ h : i < flying.length,
      flying[i].number = some (st.nextNumber - BitVec.ofNat 8 (flying.length - i))) ∧
  1 ≤ w.toNat ∧ w.toNat ≤ 8 ∧ st.reports.length ≤ 48 ∧
  (st.lost ≠ 0 → st.reports.length = 48) ∧ st.retry ≤ 4

theorem State.storeLaw_iff (s : State) : s.StoreLaw ↔ Store.Kept s.link.session.window s.store := Iff.rfl

theorem Store.Kept.append {w : Byte} {st : Store} (now : BitVec 32) (r : Report) (h : Store.Kept w st) :
    Store.Kept w (st.append now r) := by
  obtain ⟨⟨fl, wa, h1, h2, h3, h4⟩, h5, h6, h7, h8, h9⟩ := h
  have hfl : ∀ r ∈ fl, r.expendable = false := by
    intro r hr
    obtain ⟨i, hi, e⟩ := List.getElem_of_mem hr
    have := h4 i hi
    rw [e] at this
    simp [StoredReport.expendable, this]
  unfold Store.append
  simp only
  split
  · rename_i hlt
    simp only [storeCapacity] at hlt
    refine ⟨⟨fl, wa ++ [{ report := r, timestamp := now, number := none, resendDue := false }], by simp [h1], ?_, h3, h4⟩, h5, h6, by simp; omega, fun e => absurd (h8 e) (by omega), h9⟩
    intro r hr
    simp only [List.mem_append, List.mem_singleton] at hr
    rcases hr with hr | rfl
    · exact h2 r hr
    · rfl
  · rename_i hlt
    simp only [storeCapacity] at hlt
    have h48 : st.reports.length = 48 := by omega
    split
    · rename_i hx
      simp only [Bool.and_eq_true] at hx
      have hany : wa.any StoredReport.expendable = true := by
        obtain ⟨a, ha, hp⟩ := List.any_eq_true.mp hx.2
        rw [h1] at ha
        rcases List.mem_append.mp ha with ha | ha
        · rw [hfl a ha] at hp; cases hp
        · exact List.any_eq_true.mpr ⟨a, ha, hp⟩
      have hlen := removeNewest_length StoredReport.expendable st.reports hx.2
      refine ⟨⟨fl, removeNewest StoredReport.expendable wa ++ [{ report := r, timestamp := now, number := none, resendDue := false }], ?_, ?_, h3, h4⟩, h5, h6, ?_, fun _ => ?_, h9⟩
      · simp only [h1]; rw [removeNewest_append _ _ _ hany, List.append_assoc]
      · intro r hr
        simp only [List.mem_append, List.mem_singleton] at hr
        rcases hr with hr | rfl
        · refine h2 r ?_
          simp only [removeNewest, List.mem_reverse] at hr
          simpa using List.mem_of_mem_eraseP hr
        · rfl
      · simp; omega
      · simp; omega
    · exact ⟨⟨fl, wa, h1, h2, h3, h4⟩, h5, h6, h7, fun _ => h48, h9⟩

theorem Store.Kept.same {w : Byte} {st st' : Store} (h : Store.Kept w st)
    (hm : st'.reports.map StoredReport.number = st.reports.map StoredReport.number)
    (hn : st'.nextNumber = st.nextNumber) (hl : st'.lost = st.lost) (hr : st'.retry ≤ 4) : Store.Kept w st' := by
  obtain ⟨⟨fl, wa, h1, h2, h3, h4⟩, h5, h6, h7, h8, h9⟩ := h
  have hlen : st'.reports.length = st.reports.length := by simpa using congrArg List.length hm
  have hfl : fl.length ≤ st.reports.length := by rw [h1]; simp
  refine ⟨⟨st'.reports.take fl.length, st'.reports.drop fl.length, by simp, ?_, by simp; omega, ?_⟩, h5, h6, by omega, fun e => by rw [hlen]; exact h8 (hl ▸ e), hr⟩
  · intro r hr
    have : r.number ∈ (st'.reports.drop fl.length).map StoredReport.number := List.mem_map_of_mem hr
    rw [List.map_drop, hm, ← List.map_drop, h1] at this
    simp at this
    obtain ⟨a, ha, e⟩ := this
    rw [← e, h2 a ha]
  · intro i hi
    have hi' : i < fl.length := by simp at hi; omega
    have e1 : (st'.reports.take fl.length).length = fl.length := by simp; omega
    rw [e1, hn, List.getElem_take]
    have e2 : (st'.reports.map StoredReport.number)[i]? = (st.reports.map StoredReport.number)[i]? := by rw [hm]
    rw [h1] at e2
    simp only [List.getElem?_map] at e2
    rw [List.getElem?_append_left hi', List.getElem?_eq_getElem hi', List.getElem?_eq_getElem (by omega)] at e2
    simp only [Option.map_some, Option.some.injEq] at e2
    rw [e2, h4 i hi']

theorem Store.Kept.offer {se : Session} {st st' : Store} {m : Message} (h : Store.Kept se.window st)
    (ho : st.offer se = some (m, st')) : Store.Kept se.window st' := by
  unfold Store.offer at ho
  split at ho
  · rename_i x hx
    unfold Store.offerResend at hx
    split at hx
    · cases hx
    · rename_i r rs e
      simp only [Option.some.injEq] at hx ho
      subst hx
      cases ho
      exact Store.Kept.same h (updateFirst_map _ (fun r => { r with resendDue := false }) StoredReport.number (fun _ => rfl) _ _ _ e) rfl rfl h.2.2.2.2.2
  · unfold Store.offerUnsent at ho
    split at ho
    · rename_i hlt
      obtain ⟨⟨fl, wa, h1, h2, h3, h4⟩, h5, h6, h7, h8, h9⟩ := h
      have hfl : ∀ r ∈ fl, r.number.isSome := by
        intro r hr
        obtain ⟨i, hi, e⟩ := List.getElem_of_mem hr
        have := h4 i hi
        rw [e] at this; simp [this]
      rw [Store.inFlight_eq h1 h2 hfl] at hlt
      split at ho
      · cases ho
      · rename_i r rs e
        simp only [Option.some.injEq, Prod.mk.injEq] at ho
        obtain ⟨_, rfl⟩ := ho
        have hlen : rs.length = st.reports.length := by
          simpa using congrArg List.length (updateFirst_map _ _ (fun _ => ()) (fun _ => rfl) _ _ _ e)
        rw [h1, updateFirst_append _ _ _ _ (fun x hx => by simpa [Option.isSome_iff_ne_none] using hfl x hx)] at e
        rcases wa with _ | ⟨a, as⟩
        · simp [updateFirst] at e
        · have ha := h2 a (by simp)
          simp only [updateFirst, ha, Option.isNone_none, if_true, Option.map_some, Option.some.injEq, Prod.mk.injEq] at e
          obtain ⟨_, e⟩ := e
          refine ⟨⟨fl ++ [{ a with number := some st.nextNumber }], as, by simp [← e], fun r hr => h2 r (by simp [hr]), by simp; omega, ?_⟩, h5, h6, by simp only; omega, fun x => by simp only [hlen]; exact h8 x, h9⟩
          intro i hi
          simp only [List.length_append, List.length_singleton] at hi ⊢
          by_cases hil : i < fl.length
          · rw [List.getElem_append_left hil, h4 i hil]
            congr 1
            have : fl.length + 1 - i = (fl.length - i) + 1 := by omega
            rw [this]
            have e3 : BitVec.ofNat 8 (fl.length - i + 1) = BitVec.ofNat 8 (fl.length - i) + 1 := by
              apply BitVec.eq_of_toNat_eq; simp
            rw [e3]
            generalize BitVec.ofNat 8 (fl.length - i) = z
            generalize st.nextNumber = y
            bv_omega
          · have : i = fl.length := by omega
            subst this
            simp
    · cases ho

theorem Store.Kept.newSession {w : Byte} {st : Store} (h : Store.Kept w st) (w' : Byte) (h5 : 1 ≤ w'.toNat)
    (h6 : w'.toNat ≤ 8) : Store.Kept w' st.newSession := by
  obtain ⟨_, _, _, h7, h8, h9⟩ := h
  refine ⟨⟨[], st.reports.map StoredReport.unsend, rfl, ?_, by simp, by simp⟩, h5, h6, by simpa [Store.newSession] using h7, fun e => by simpa [Store.newSession] using h8 e, by simp [Store.newSession]⟩
  intro r hr
  simp only [List.mem_map] at hr
  obtain ⟨a, _, rfl⟩ := hr
  rfl

theorem Store.Kept.resume {w : Byte} {st : Store} (h : Store.Kept w st) (w' : Byte) (h5 : 1 ≤ w'.toNat)
    (h6 : w'.toNat ≤ 8) : Store.Kept w' (st.resume w') := by
  obtain ⟨⟨fl, wa, h1, h2, h3, h4⟩, _, _, h7, h8, h9⟩ := h
  have hfl : ∀ r ∈ fl, r.number.isSome := by
    intro r hr
    obtain ⟨i, hi, e⟩ := List.getElem_of_mem hr
    have := h4 i hi
    rw [e] at this; simp [this]
  have hif := Store.inFlight_eq h1 h2 hfl
  have hlen : (st.resume w').reports.length = st.reports.length := by
    simp only [Store.resume, List.length_map, h1, keepWindow_split _ _ _ hfl h2]
    simp; omega
  refine ⟨⟨(fl.take w'.toNat).map StoredReport.markDue, ((fl.drop w'.toNat).map StoredReport.unsend ++ wa).map StoredReport.markDue, ?_, ?_, by simp, ?_⟩, h5, h6, by omega, fun e => by rw [hlen]; exact h8 e, by simp [Store.resume]⟩
  · simp only [Store.resume, h1, keepWindow_split _ _ _ hfl h2, List.map_append]
  · intro r hr
    simp only [List.mem_map, List.mem_append] at hr
    obtain ⟨a, ha | ha, rfl⟩ := hr
    · obtain ⟨b, _, rfl⟩ := ha; rfl
    · simp [StoredReport.markDue, h2 a ha]
  · intro i hi
    simp only [List.length_map, List.length_take] at hi ⊢
    have hi' : i < fl.length := by omega
    rw [List.getElem_map, List.getElem_take]
    show fl[i].number = _
    rw [h4 i hi']
    congr 1
    simp only [Store.resume, hif]
    split
    · rename_i hlt
      have h0 : 0 < fl.length := by omega
      have hold : st.oldestNumber = fl[0].number := by
        unfold Store.oldestNumber
        rw [h1]
        rcases fl with _ | ⟨a, as⟩
        · simp at h0
        · obtain ⟨x, hx⟩ := Option.isSome_iff_exists.mp (hfl a (by simp))
          simp [hx]
      rw [hold, h4 0 h0]
      simp only [Nat.sub_zero]
      have : min w'.toNat fl.length = w'.toNat := by omega
      rw [this]
      have e1 : BitVec.ofNat 8 (fl.length - i) = BitVec.ofNat 8 fl.length - BitVec.ofNat 8 i := by
        apply BitVec.eq_of_toNat_eq; simp; omega
      have e2 : BitVec.ofNat 8 (w'.toNat - i) = w' - BitVec.ofNat 8 i := by
        apply BitVec.eq_of_toNat_eq; simp; omega
      rw [e1, e2]
      bv_omega
    · rename_i hlt
      have : min w'.toNat fl.length = fl.length := by omega
      rw [this]

theorem Store.Kept.tellGap {w : Byte} {st : Store} (now : BitVec 32) (h : Store.Kept w st) :
    Store.Kept w (st.tellGap now) := by
  unfold Store.tellGap
  split
  · rename_i hc
    have := Store.Kept.append now (.gap st.lost) h
    obtain ⟨a, b, c, d, e, f⟩ := this
    exact ⟨a, b, c, d, fun x => absurd rfl x, f⟩
  · exact h

theorem Store.Kept.ack {w n : Byte} {st : Store} {rs : List StoredReport} (t : Option Nat) (now : BitVec 32)
    (h : Store.Kept w st) (ha : ackThrough n st.reports = some rs) :
    Store.Kept w (Store.tellGap { { st with reports := rs, retry := 0 } with timer := t } now) := by
  obtain ⟨⟨fl, wa, h1, h2, h3, h4⟩, h5, h6, h7, h8, h9⟩ := h
  obtain ⟨xs, r, e, hn⟩ := ackThrough_some ha
  have hlen : xs.length + 1 + rs.length = st.reports.length := by rw [e]; simp; omega
  have hlt : xs.length < fl.length := by
    by_contra hc
    have : (fl ++ wa)[xs.length]? = some r := by rw [← h1, e]; simp
    rw [List.getElem?_append_right (by omega)] at this
    have := h2 r (List.mem_of_getElem? this)
    rw [hn] at this; cases this
  have hrs : rs = fl.drop (xs.length + 1) ++ wa := by
    have : (fl ++ wa).drop (xs.length + 1) = rs := by
      rw [← h1, e]
      have : xs ++ r :: rs = (xs ++ [r]) ++ rs := by simp
      rw [this, List.drop_append_of_le_length (by simp)]
      simp
    rw [← this, List.drop_append_of_le_length (by omega)]
  have base : ∀ lost, lost = 0 ∨ True → Store.Kept w { st with reports := rs, retry := 0, timer := t, lost := 0 } := by
    intro _ _
    refine ⟨⟨fl.drop (xs.length + 1), wa, hrs, h2, by simp; omega, ?_⟩, h5, h6, by simp only; omega, fun x => absurd rfl x, by simp⟩
    intro i hi
    simp only [List.length_drop] at hi ⊢
    rw [List.getElem_drop, h4 _ (by omega)]
    congr 3
    omega
  unfold Store.tellGap
  simp only
  split
  · rename_i hc
    have b := Store.Kept.append now (.gap st.lost) (base 0 (.inr trivial))
    obtain ⟨a, b, c, d, e', f⟩ := b
    have hlt48 : rs.length < 48 := by omega
    simp only [Store.append, storeCapacity, hlt48, if_true] at a d f ⊢
    exact ⟨a, b, c, d, fun x => absurd rfl x, f⟩
  · rename_i hc
    simp only [not_and, storeCapacity] at hc
    have hl0 : st.lost = 0 := by
      by_contra hne
      exact hc hne (by omega)
    have := base 0 (.inl rfl)
    rw [← hl0] at this
    exact this

theorem parseHello_window {p : List Byte} {h : Hello} (e : parseHello p = .ok h) :
    1 ≤ h.window.toNat ∧ h.window.toNat ≤ 8 := by
  unfold parseHello at e
  simp only [bind, Except.bind, pure, Except.pure] at e
  split at e
  · cases e
  split at e
  · cases e
  split at e
  · cases e
  split at e
  · cases e
  rename_i x hx
  cases e
  unfold field within at hx
  simp only
  split at hx
  · rename_i h
    split at h
    · rename_i hw
      cases hx; cases h; exact hw
    · cases h
  · cases hx

end Sys2Proof.Machine
end

