-- ==== Sys2Proof/Laws/Validation.lean ====
section
/-! SUPPORT. The validation of a profile and its derived values (R61, R62, R67), and the serials counted back (R43). -/

namespace Sys2Proof.Machine

/-! ## Stations that satisfy a test -/

theorem find_station_none {p : StationId → Bool} : allStations.find? p = none ↔ ∀ k, p k = false := by
  simp [List.find?_eq_none, allStations]
  constructor
  · rintro ⟨h0,h1,h2,h3,h4,h5⟩ k
    match k with
    | 0 => exact h0 | 1 => exact h1 | 2 => exact h2 | 3 => exact h3 | 4 => exact h4 | 5 => exact h5
  · intro h; simp [h]

theorem mem_allStations (k : StationId) : k ∈ allStations := by revert k; decide

/-- The first station that satisfies a test (R67). -/
theorem find_station_some {p : StationId → Bool} {k : StationId} :
    allStations.find? p = some k ↔ p k = true ∧ ∀ j, j < k → p j = false := by
  have hs : allStations.Pairwise (· < ·) := by decide
  constructor
  · intro h
    refine ⟨List.find?_some h, fun j hj => ?_⟩
    obtain ⟨_, as, bs, e, ha⟩ := List.find?_eq_some_iff_append.mp h
    have hm := mem_allStations j
    rw [e] at hm hs
    rcases List.mem_append.mp hm with hm | hm
    · simpa using ha j hm
    · rcases List.mem_cons.mp hm with rfl | hm
      · exact absurd hj (lt_irrefl _)
      · have := (List.pairwise_cons.mp (List.pairwise_append.mp hs).2.1).1 j hm
        exact absurd hj (lt_asymm this)
  · rintro ⟨h1, h2⟩
    rcases h : allStations.find? p with _ | i
    · rw [find_station_none] at h
      simp [h k] at h1
    · have hp := List.find?_some h
      obtain ⟨_, as, bs, e, ha⟩ := List.find?_eq_some_iff_append.mp h
      rcases lt_trichotomy i k with hik | rfl | hik
      · simp [h2 i hik] at hp
      · rfl
      · have hm := mem_allStations k
        rw [e] at hm hs
        rcases List.mem_append.mp hm with hm | hm
        · have := ha k hm; simp [h1] at this
        · rcases List.mem_cons.mp hm with rfl | hm
          · rfl
          · have := (List.pairwise_cons.mp (List.pairwise_append.mp hs).2.1).1 k hm
            exact absurd hik (lt_asymm this)

/-- The station named is the first that satisfies the condition (R67). -/
theorem namesFirst_iff {P : StationId → Prop} {p : StationId → Bool} (h : ∀ k, P k ↔ p k = true) (station : Byte) :
    namesFirst P station ↔ (allStations.find? p).map stationByte = some station := by
  simp only [namesFirst, Option.map_eq_some_iff, find_station_some, h, Bool.not_eq_true]
  constructor
  · rintro ⟨k, rfl, h1⟩; exact ⟨k, h1, rfl⟩
  · rintro ⟨k, h1, rfl⟩; exact ⟨k, rfl, h1⟩

/-- The second station that satisfies a test is the first one that has another before it. -/
theorem second_station (p : StationId → Bool) : (allStations.filter p)[1]? =
    allStations.find? fun k => p k && allStations.any fun j => decide (j < k) && p j := by
  rcases h0 : p 0 <;> rcases h1 : p 1 <;> rcases h2 : p 2 <;> rcases h3 : p 3 <;> rcases h4 : p 4 <;> rcases h5 : p 5 <;>
    simp [allStations, h0, h1, h2, h3, h4, h5]

/-! ## Smallest and largest -/

theorem smallest_none : ∀ xs : List (StationId × Int), smallest xs = none ↔ xs = []
  | [] => by simp [smallest]
  | x :: xs => by
    simp [smallest]
    split
    · simp
    · split <;> simp

theorem smallest_spec : ∀ (xs : List (StationId × Int)) (x : StationId × Int),
    smallest xs = some x → x ∈ xs ∧ ∀ y ∈ xs, x.2 ≤ y.2
  | [], x, h => by simp [smallest] at h
  | a :: xs, x, h => by
    simp only [smallest] at h
    split at h
    · rename_i hn
      rw [smallest_none] at hn
      subst hn; simp at h; subst h; simp
    · rename_i y hy
      obtain ⟨h1, h2⟩ := smallest_spec xs y hy
      split at h
      · simp at h; subst h
        refine ⟨by simp [h1], fun z hz => ?_⟩
        rcases List.mem_cons.mp hz with rfl | hz
        · omega
        · exact h2 z hz
      · simp at h; subst h
        refine ⟨by simp, fun z hz => ?_⟩
        rcases List.mem_cons.mp hz with rfl | hz
        · omega
        · have := h2 z hz; omega

theorem le_largest : ∀ (xs : List Nat) (x : Nat), x ∈ xs → x ≤ largest xs
  | [], x, h => by simp at h
  | a :: xs, x, h => by
    simp only [largest, List.foldr]
    rcases List.mem_cons.mp h with rfl | h
    · exact Nat.le_max_left _ _
    · exact Nat.le_trans (le_largest xs x h) (Nat.le_max_right _ _)

theorem largest_mem : ∀ xs : List Nat, xs = [] ∨ largest xs ∈ xs
  | [] => .inl rfl
  | a :: xs => by
    right
    simp only [largest, List.foldr]
    rcases largest_mem xs with rfl | h
    · simp
    · rcases Nat.le_total a (largest xs) with h' | h'
      · rw [show Nat.max a (List.foldr Nat.max 0 xs) = largest xs from Nat.max_eq_right h']; simp [h]
      · rw [show Nat.max a (List.foldr Nat.max 0 xs) = a from Nat.max_eq_left h']; simp

/-- Of several pairs with the smallest value the first is taken. -/
theorem smallest_first : ∀ (xs : List (StationId × Int)) (x : StationId × Int), xs.Pairwise (fun a b => a.1 < b.1) →
    smallest xs = some x → ∀ y ∈ xs, y.2 ≤ x.2 → x.1 ≤ y.1
  | [], x, _, h => by simp [smallest] at h
  | a :: xs, x, hs, h => by
    obtain ⟨h1, h2⟩ := List.pairwise_cons.mp hs
    have hx := h
    simp only [smallest] at h
    intro y hy hle
    split at h
    · rename_i hn
      rw [smallest_none] at hn
      simp only [Option.some.injEq] at h
      subst hn h
      simp at hy; rw [hy]
    · rename_i z hz
      obtain ⟨hzm, hzl⟩ := smallest_spec xs z hz
      split at h <;> simp only [Option.some.injEq] at h <;> subst h
      · rcases List.mem_cons.mp hy with rfl | hy
        · omega
        · exact smallest_first xs z h2 hz y hy hle
      · rcases List.mem_cons.mp hy with rfl | hy
        · exact le_refl _
        · exact le_of_lt (h1 y hy)

/-! ## Station records -/

theorem StationRecord.onAt_iff (r : StationRecord) (on : Triple) : r.OnAt on ↔ r.act.on? = some on := by
  unfold StationRecord.OnAt; cases r.act <;> simp [StationAct.on?]

theorem StationRecord.classAt_iff (r : StationRecord) (on : Triple) :
    r.ClassAt on ↔ r.isClass = true ∧ r.act.on? = some on := by
  unfold StationRecord.ClassAt StationRecord.isClass
  rcases r.act with _ | ⟨o, w, re, b, _ | m, f⟩ | ⟨o, o', _ | m, f⟩ <;> simp [StationAct.on?, StationAct.rule?]

theorem StationRecord.endsAt_iff (r : StationRecord) (e : Nat) : r.EndsAt e ↔ e ∈ r.endPoints := by
  unfold StationRecord.EndsAt StationRecord.OnAt StationRecord.endPoints
  rcases r.act with _ | ⟨o, w, re, _ | _, _ | m, f⟩ | ⟨o, o', _ | m, f⟩ <;> rcases r.confirm with _ | w <;> simp

/-! ## Validation -/

theorem ProfileBody.mem_margins (b : ProfileBody) (x : StationId × Int) :
    x ∈ b.margins ↔ (b.stations[x.1]).isClass = true ∧
      ∃ on, (b.stations[x.1]).act.on? = some on ∧ x.2 = (on.toNat : Int) - b.fields.verdictMargin.toNat := by
  have hall : ∀ k, k ∈ allStations := by decide
  simp only [ProfileBody.margins, List.mem_filterMap]
  constructor
  · rintro ⟨k, _, h⟩
    split at h
    · simp at h; subst h; rename_i on h1 h2; exact ⟨h1, on, h2, rfl⟩
    · simp at h
  · rintro ⟨h1, on, h2, h3⟩
    refine ⟨x.1, hall _, ?_⟩
    simp only [h1, h2]
    rw [← h3]

theorem ProfileBody.margins_sorted (b : ProfileBody) : b.margins.Pairwise fun x y => x.1 < y.1 := by
  have hs : allStations.Pairwise (· < ·) := by decide
  simp only [ProfileBody.margins]
  refine List.Pairwise.filterMap _ ?_ hs
  intro i j hij x hx y hy
  split at hx
  · split at hy
    · simp at hx hy; subst hx hy; exact hij
    · simp at hy
  · simp at hx

theorem ProfileBody.mem_ends (b : ProfileBody) (e : Nat) :
    (e ∈ allStations.flatMap fun k => (b.stations[k]).endPoints) ↔ ∃ k : StationId, (b.stations[k]).EndsAt e := by
  simp [List.mem_flatMap, StationRecord.endsAt_iff, mem_allStations]

/-- The station that each condition of R67 names, if it holds. -/
def ProfileBody.named (b : ProfileBody) : InvalidReason → Option Byte
  | .lengths => if b.fields.lmax < b.fields.lmin then some 255 else none
  | .tooClose => (b.firstStation fun r => match r.act.on? with
      | some on => decide (on.toNat ≤ b.fields.nearest)
      | none => false).map stationByte
  | .spanOrder => (b.firstStation fun r => match r.act with
      | .span on off _ _ => decide (off ≤ on)
      | _ => false).map stationByte
  | .windowOrder => (b.firstStation fun r => match r.confirm with
      | some w => decide (w.stop ≤ w.start)
      | none => false).map stationByte
  | .twoConfirm => ((allStations.filter fun k => (b.stations[k]).confirm.isSome)[1]?).map stationByte
  | .confirmKind => (b.firstStation fun r => r.confirm.isSome && !r.inUse).map stationByte
  | .margin => ((smallest b.margins).filter fun x => decide (x.2 ≤ (b.fields.nearest : Int))).map fun x => stationByte x.1
  | .spanLimit =>
    if 16777215 < b.retireSpan then
      some (match b.firstStation fun r => r.endPoints.contains b.lastPoint with
        | some k => stationByte k
        | none => 255)
    else none

/-- The conditions of R67 in their order. -/
def InvalidReason.inOrder : List InvalidReason :=
  [.lengths, .tooClose, .spanOrder, .windowOrder, .twoConfirm, .confirmKind, .margin, .spanLimit]

/-- The first condition that holds refuses the profile (R67). -/
theorem ProfileBody.invalid_eq (b : ProfileBody) :
    b.invalid = InvalidReason.inOrder.findSome? fun r => (b.named r).map fun k => (r, k) := by
  unfold ProfileBody.invalid InvalidReason.inOrder
  simp only
  split
  · rename_i h
    have e1 : b.named .lengths = some 255 := if_pos h
    simp only [List.findSome?, e1, Option.map_some]
  rename_i h
  have e1 : b.named .lengths = none := if_neg h
  split
  · rename_i k h
    have e2 : b.named .tooClose = some (stationByte k) := congrArg (Option.map stationByte) h
    simp only [List.findSome?, e1, e2, Option.map_some, Option.map_none]
  rename_i h
  have e2 : b.named .tooClose = none := congrArg (Option.map stationByte) h
  split
  · rename_i k h
    have e3 : b.named .spanOrder = some (stationByte k) := congrArg (Option.map stationByte) h
    simp only [List.findSome?, e1, e2, e3, Option.map_some, Option.map_none]
  rename_i h
  have e3 : b.named .spanOrder = none := congrArg (Option.map stationByte) h
  split
  · rename_i k h
    have e4 : b.named .windowOrder = some (stationByte k) := congrArg (Option.map stationByte) h
    simp only [List.findSome?, e1, e2, e3, e4, Option.map_some, Option.map_none]
  rename_i h
  have e4 : b.named .windowOrder = none := congrArg (Option.map stationByte) h
  split
  · rename_i k h
    have e5 : b.named .twoConfirm = some (stationByte k) := congrArg (Option.map stationByte) h
    simp only [List.findSome?, e1, e2, e3, e4, e5, Option.map_some, Option.map_none]
  rename_i h
  have e5 : b.named .twoConfirm = none := congrArg (Option.map stationByte) h
  split
  · rename_i k h
    have e6 : b.named .confirmKind = some (stationByte k) := congrArg (Option.map stationByte) h
    simp only [List.findSome?, e1, e2, e3, e4, e5, e6, Option.map_some, Option.map_none]
  rename_i h
  have e6 : b.named .confirmKind = none := congrArg (Option.map stationByte) h
  split
  · rename_i x h
    have e7 : b.named .margin = some (stationByte x.1) := congrArg (Option.map fun x : StationId × Int => stationByte x.1) h
    simp only [List.findSome?, e1, e2, e3, e4, e5, e6, e7, Option.map_some, Option.map_none]
  rename_i h
  have e7 : b.named .margin = none := congrArg (Option.map fun x : StationId × Int => stationByte x.1) h
  simp only [List.findSome?, e1, e2, e3, e4, e5, e6, e7, Option.map_none]
  simp only [ProfileBody.named]
  split
  · split <;> rename_i h8 <;> simp only [h8, Option.map_some]
  · rfl

theorem ProfileBody.lastPoint_spec (b : ProfileBody) :
    (∀ (k : StationId) e, (b.stations[k]).EndsAt e → e ≤ b.lastPoint) ∧ b.fields.nearest ≤ b.lastPoint ∧
      (b.lastPoint = b.fields.nearest ∨ ∃ k : StationId, (b.stations[k]).EndsAt b.lastPoint) := by
  refine ⟨fun k e h => ?_, Nat.le_max_left _ _, ?_⟩
  · exact Nat.le_trans (le_largest _ _ ((b.mem_ends e).mpr ⟨k, h⟩)) (Nat.le_max_right _ _)
  · rcases largest_mem (allStations.flatMap fun k => (b.stations[k]).endPoints) with h | h
    · left; unfold ProfileBody.lastPoint; rw [h]; exact Nat.max_eq_left (Nat.zero_le _)
    · rcases Nat.le_total (largest (allStations.flatMap fun k => (b.stations[k]).endPoints)) b.fields.nearest with h' | h'
      · exact .inl (Nat.max_eq_left h')
      · right
        rw [← b.mem_ends]
        have : b.lastPoint = _ := Nat.max_eq_right h'
        rw [this]; exact h

/-- Each condition of R67 names the station that the table gives. -/
theorem ProfileBody.fails_iff (b : ProfileBody) (reason : InvalidReason) (station : Byte) :
    b.Fails reason station ↔ b.named reason = some station := by
  cases reason with
  | lengths =>
    simp only [ProfileBody.Fails, ProfileBody.named, BitVec.lt_def]
    split <;> simp_all [eq_comm]
  | tooClose =>
    refine namesFirst_iff (fun k => ?_) _
    simp only [StationRecord.onAt_iff]
    generalize b.stations[k] = r
    rcases r.act.on? with _ | on
    · simp
    · exact ⟨fun ⟨o, h, h'⟩ => by cases h; exact decide_eq_true h', fun h => ⟨on, rfl, of_decide_eq_true h⟩⟩
  | spanOrder =>
    refine namesFirst_iff (fun k => ?_) _
    beta_reduce
    generalize b.stations[k] = r
    rcases r.act with _ | _ | _ <;> simp [BitVec.le_def]
  | windowOrder =>
    refine namesFirst_iff (fun k => ?_) _
    beta_reduce
    generalize b.stations[k] = r
    rcases r.confirm with _ | _ <;> simp [BitVec.le_def]
  | twoConfirm =>
    simp only [ProfileBody.named, second_station]
    refine namesFirst_iff (fun k => ?_) _
    simp [mem_allStations]
  | confirmKind =>
    refine namesFirst_iff (fun k => ?_) _
    beta_reduce
    generalize b.stations[k] = r
    simp only [StationRecord.inUse]
    rcases r.act with _ | _ | _ <;> simp [StationAct.on?]
  | margin =>
    have hn : b.fields.nearest = b.fields.lmax.toNat + b.fields.gap.toNat := rfl
    have hm := b.mem_margins
    simp only [ProfileBody.named, ProfileBody.Fails, Option.map_eq_some_iff, Option.filter_eq_some_iff,
      StationRecord.classAt_iff, decide_eq_true_eq, hn]
    constructor
    · rintro ⟨k, rfl, ⟨on, ⟨hc, ho⟩, hle, hmin⟩, hf⟩
      have hmk : (k, (on.toNat : Int) - b.fields.verdictMargin.toNat) ∈ b.margins := (hm _).mpr ⟨hc, on, ho, rfl⟩
      rcases hs : smallest b.margins with _ | x
      · rw [smallest_none] at hs; rw [hs] at hmk; cases hmk
      · obtain ⟨hx, hxl⟩ := smallest_spec _ _ hs
        obtain ⟨hxc, o, hxo, hx2⟩ := (hm x).mp hx
        have h1 := hxl _ hmk
        have h2 := hmin x.1 o ⟨hxc, hxo⟩
        simp only at h1
        have hfirst := smallest_first _ _ b.margins_sorted hs _ hmk (by simp only; omega)
        simp only at hfirst
        have : x.1 = k := by
          rcases lt_or_eq_of_le hfirst with h | h
          · refine absurd ⟨o, ⟨hxc, hxo⟩, by push_cast; push_cast at hle; omega, fun j o' h' => ?_⟩ (hf x.1 h)
            have := hmin j o' h'
            omega
          · exact h
        refine ⟨x, ⟨rfl, by push_cast at hle ⊢; omega⟩, by rw [this]; rfl⟩
    · rintro ⟨x, ⟨hs, hle⟩, rfl⟩
      obtain ⟨hx, hxl⟩ := smallest_spec _ _ hs
      obtain ⟨hxc, o, hxo, hx2⟩ := (hm x).mp hx
      have hmin : ∀ (j : StationId) (o' : Triple), (b.stations[j]).isClass = true ∧ (b.stations[j]).act.on? = some o' →
          x.2 ≤ (o'.toNat : Int) - b.fields.verdictMargin.toNat := by
        rintro j o' ⟨h1, h2⟩
        exact hxl (j, (o'.toNat : Int) - b.fields.verdictMargin.toNat) ((hm _).mpr ⟨h1, o', h2, rfl⟩)
      refine ⟨x.1, rfl, ⟨o, ⟨hxc, hxo⟩, by push_cast at hle ⊢; omega, fun j o' h' => by have := hmin j o' h'; omega⟩, ?_⟩
      rintro j hj ⟨o', ⟨h1, h2⟩, _, h3⟩
      have h4 := h3 x.1 o ⟨hxc, hxo⟩
      have h5 := smallest_first _ _ b.margins_sorted hs (j, (o'.toNat : Int) - b.fields.verdictMargin.toNat)
        ((hm _).mpr ⟨h1, o', h2, rfl⟩) (by simp only; omega)
      exact absurd hj (not_lt_of_ge h5)
  | spanLimit =>
    obtain ⟨h1, h2, h3⟩ := b.lastPoint_spec
    have hn : b.fields.nearest = b.fields.lmax.toNat + b.fields.gap.toNat := rfl
    have hb : b.fields.nearest < 131072 := by have := b.fields.lmax.isLt; have := b.fields.gap.isLt; omega
    have hr : b.retireSpan = b.lastPoint + 1 := rfl
    have key : b.Fails .spanLimit station ↔ 16777215 < b.retireSpan ∧
        (b.firstStation fun r => r.endPoints.contains b.lastPoint).map stationByte = some station := by
      rw [show (b.firstStation fun r => r.endPoints.contains b.lastPoint) =
        allStations.find? fun k => (b.stations[k]).endPoints.contains b.lastPoint from rfl]
      rw [← namesFirst_iff (P := fun k => (b.stations[k]).EndsAt b.lastPoint) (fun k => by
        rw [StationRecord.endsAt_iff]; simp)]
      simp only [ProfileBody.Fails]
      constructor
      · rintro ⟨k, rfl, ⟨e, he, hl, hmax⟩, hf⟩
        have hel : e = b.lastPoint := by
          have := h1 k e he
          rcases h3 with h3 | ⟨j, h3⟩
          · omega
          · have := hmax j _ h3; omega
        subst hel
        exact ⟨by omega, k, rfl, he, fun j hj h => hf j hj ⟨_, h, hl, hmax⟩⟩
      · rintro ⟨hl, k, rfl, he, hf⟩
        refine ⟨k, rfl, ⟨_, he, by omega, h1⟩, ?_⟩
        rintro j hj ⟨e, h, _, hmax⟩
        have := hmax k _ he
        have := h1 j e h
        exact hf j hj (by rw [show b.lastPoint = e by omega]; exact h)
    rw [key]
    simp only [ProfileBody.named]
    split
    · rename_i h
      rcases hf : b.firstStation fun r => r.endPoints.contains b.lastPoint with _ | k
      · rcases h3 with h3 | ⟨j, h3⟩
        · omega
        · rw [ProfileBody.firstStation, find_station_none] at hf
          have := hf j
          rw [StationRecord.endsAt_iff] at h3
          rw [List.contains_iff_mem.mpr h3] at this
          cases this
      · simp [h]
    · rename_i h; simp [h]

/-- The first of a list in which a condition holds. -/
theorem findSome_first {α β : Type} [DecidableEq α] (f : α → Option β) (a : α) (x : β) : ∀ xs : List α,
    (xs.findSome? fun r => (f r).map fun k => (r, k)) = some (a, x) ↔
      a ∈ xs ∧ f a = some x ∧ ∀ r ∈ xs.takeWhile (fun r => r != a), f r = none
  | [] => by simp
  | y :: ys => by
    by_cases h : y = a
    · subst h
      rcases hf : f y with _ | z
      · simp only [List.findSome?, hf, Option.map_none, reduceCtorEq, false_and, and_false, iff_false]
        intro h
        have := (findSome_first f y x ys).mp h
        rw [hf] at this
        cases this.2.1
      · simp [List.findSome?, hf]
    · rcases hf : f y with _ | z
      · simp [List.findSome?, hf, h, findSome_first f a x ys, Ne.symm h]
      · simp [List.findSome?, hf, h]

/-- The reason and station of a refusal are those of the first condition that holds (R67). -/
theorem ProfileBody.invalid_some (b : ProfileBody) (reason : InvalidReason) (station : Byte) :
    b.invalid = some (reason, station) ↔ b.Fails reason station ∧
      ∀ earlier ∈ InvalidReason.inOrder.takeWhile (fun r => r != reason), ∀ k : Byte, ¬ b.Fails earlier k := by
  have hall : reason ∈ InvalidReason.inOrder := by cases reason <;> decide
  rw [b.invalid_eq, findSome_first]
  simp only [hall, true_and, b.fails_iff]
  refine and_congr Iff.rfl (forall_congr' fun r => forall_congr' fun _ => ?_)
  rcases b.named r with _ | k <;> simp

/-- A profile is valid when no condition holds (R67). -/
theorem ProfileBody.invalid_none (b : ProfileBody) : b.invalid = none ↔ ∀ reason k, ¬ b.Fails reason k := by
  rw [b.invalid_eq]
  simp only [List.findSome?_eq_none_iff, b.fails_iff, Option.map_eq_none_iff]
  constructor
  · intro h r k e
    have := h r (by cases r <;> decide)
    rw [this] at e; cases e
  · intro h r _
    rcases hr : b.named r with _ | k
    · rfl
    · exact absurd hr (h r k)

/-- Some station is the first that satisfies a condition, unless none does. -/
theorem namesFirst_none (P : StationId → Prop) : (∀ station, ¬ namesFirst P station) ↔ ∀ k, ¬ P k := by
  classical
  have h := namesFirst_iff (P := P) (p := fun k => decide (P k)) (fun k => by simp)
  simp only [h]
  constructor
  · intro h k hk
    rcases hf : allStations.find? fun k => decide (P k) with _ | j
    · rw [find_station_none] at hf
      simpa [hk] using hf k
    · exact h (stationByte j) (by rw [hf]; rfl)
  · intro h station e
    have : (allStations.find? fun k => decide (P k)) = none := by
      rw [find_station_none]; intro k; simp [h k]
    rw [this] at e; cases e

/-! ## Serials counted back -/

theorem previousSerial_toNat (x : Serial) (h : x ≠ 0) :
    previousSerial x ≠ 0 ∧ ((previousSerial x).toNat + 1) % 4294967295 = x.toNat % 4294967295 := by
  have h0 : x.toNat ≠ 0 := fun e => h (BitVec.eq_of_toNat_eq (by simpa using e))
  have := x.isLt
  unfold previousSerial
  split
  · rename_i h1; subst h1; decide
  · rename_i h1
    have h1' : x.toNat ≠ 1 := fun e => h1 (BitVec.eq_of_toNat_eq (by simpa using e))
    have hs : (x - 1).toNat = x.toNat - 1 := by
      rw [BitVec.toNat_sub]; simp; omega
    refine ⟨fun e => ?_, ?_⟩
    · have := congrArg BitVec.toNat e; simp at this; omega
    · rw [hs]; omega

theorem previousSerial_iterate (k : Nat) : ∀ x : Serial, x ≠ 0 →
    previousSerial^[k] x ≠ 0 ∧ ((previousSerial^[k] x).toNat + k) % 4294967295 = x.toNat % 4294967295 := by
  induction k with
  | zero => intro x h; simpa using h
  | succ k ih =>
    intro x h
    rw [Function.iterate_succ, Function.comp]
    obtain ⟨h1, h2⟩ := previousSerial_toNat x h
    obtain ⟨h3, h4⟩ := ih _ h1
    refine ⟨h3, ?_⟩
    omega

/-- A serial counts as issued when it is one of the last 2,147,483,648 issued (R43). -/
theorem countsAsIssued_iff (next n : Serial) (w : Bool) (hn : n ≠ 0) (hx : next ≠ 0) :
    countsAsIssued next w n = true ↔
      (∃ k : Nat, 1 ≤ k ∧ k ≤ 2147483648 ∧ previousSerial^[k] next = n) ∧ (w = true ∨ n.toNat < next.toNat) := by
  have hn0 : n.toNat ≠ 0 := fun e => hn (BitVec.eq_of_toNat_eq (by simpa using e))
  have hx0 : next.toNat ≠ 0 := fun e => hx (BitVec.eq_of_toNat_eq (by simpa using e))
  have := n.isLt
  have := next.isLt
  have hn' : (n != 0) = true := by simpa using hn
  have key : (1 ≤ serialsBack next n ∧ serialsBack next n ≤ 2147483648) ↔ ∃ k : Nat, 1 ≤ k ∧ k ≤ 2147483648 ∧ previousSerial^[k] next = n := by
    simp only [serialsBack, serialPeriod]
    constructor
    · rintro ⟨h1, h2⟩
      refine ⟨_, h1, h2, ?_⟩
      obtain ⟨h3, h4⟩ := previousSerial_iterate ((next.toNat + 4294967295 - n.toNat) % 4294967295) next hx
      apply BitVec.eq_of_toNat_eq
      generalize previousSerial^[(next.toNat + 4294967295 - n.toNat) % 4294967295] next = y at h3 h4
      have hy0 : y.toNat ≠ 0 := fun e => h3 (BitVec.eq_of_toNat_eq (by simpa using e))
      have := y.isLt
      omega
    · rintro ⟨k, h1, h2, h3⟩
      obtain ⟨_, h4⟩ := previousSerial_iterate k next hx
      rw [h3] at h4
      omega
  simp only [countsAsIssued, hn', Bool.true_and, Bool.and_eq_true, Bool.or_eq_true, decide_eq_true_eq, key]

/-- A serial lies ahead of the next serial as often as the serials between are counted back (R43, R69). -/
theorem serialsAhead_iff (next n : Serial) (limit : Nat) (hl : limit < 4294967295) (hn : n ≠ 0) (hx : next ≠ 0) :
    (1 ≤ serialsAhead next n ∧ serialsAhead next n ≤ limit) ↔
      ∃ j : Nat, 1 ≤ j ∧ j ≤ limit ∧ previousSerial^[j] n = next := by
  have hn1 : n.toNat ≠ 0 := fun e => hn (BitVec.eq_of_toNat_eq (by simpa using e))
  have hx1 : next.toNat ≠ 0 := fun e => hx (BitVec.eq_of_toNat_eq (by simpa using e))
  have := n.isLt
  have := next.isLt
  simp only [serialsAhead, serialPeriod]
  constructor
  · rintro ⟨h1, h2⟩
    refine ⟨_, h1, h2, ?_⟩
    obtain ⟨h3, h4⟩ := previousSerial_iterate ((n.toNat + 4294967295 - next.toNat) % 4294967295) n hn
    generalize previousSerial^[(n.toNat + 4294967295 - next.toNat) % 4294967295] n = y at h3 h4
    have hy1 : y.toNat ≠ 0 := fun e => h3 (BitVec.eq_of_toNat_eq (by simpa using e))
    have := y.isLt
    apply BitVec.eq_of_toNat_eq
    omega
  · rintro ⟨j, h1, h2, h3⟩
    obtain ⟨_, h4⟩ := previousSerial_iterate j n hn
    rw [h3] at h4
    omega

end Sys2Proof.Machine
end

