-- ==== Sys2Proof/Tests/Slice0.lean ====
section
/-! SUPPORT. Tests: the well-formedness checks, the manual's worked examples and tables on small states, and for every
statement with hypotheses a concrete state and operands that meet them, clause by clause. -/

namespace Sys2Proof.Tests

open Sys2Proof.Machine

/-! ## Small states -/

/-- The next state of a command, or the state before it. -/
def after (c : Instr) (s : State) : State :=
  match exec c s with
  | .next t => t
  | _ => s

/-- The module in an OPEN session with id 7 and window 4. -/
def opened : State :=
  { State.reset with
    link :=
      { Link.reset .baud115200 .power with
        session :=
          { state := .opened, id := some 7, linkTimeout := 2000, reportTimeout := 200, window := 4, bootReason := .power }
        linkTimer := some 2000000 } }

/-- The same with lane 0 changed. -/
def lane0 (f : Lane → Lane) : State := opened.updLane 0 f

/-- The same with the link changed. -/
def link0 (f : Link → Link) : State := { opened with link := f opened.link }

/-- The same with the store changed. -/
def store0 (f : Store → Store) : State := { opened with store := f opened.store }

/-- A report in the store, in flight under a number or unsent. -/
def stored (r : Report) (number : Option Byte) (due : Bool) : StoredReport :=
  { report := r, timestamp := 0, number := number, resendDue := due }

/-- A ticket of generation 0 with no station in use. -/
def ticket (serial : Serial) (entry : Pos) (decision : Decision) : Ticket :=
  { index := 63, lane := 0, serial := serial, generation := 0, entry := entry, length := 10, long := false
    decision := decision, outcomes := [], confirm := none }

/-- The payload of the newest reply. -/
def replyOf (s : State) : List Byte := (s.link.replies.getLast?.map Message.payload).getD []

theorem opened_admits (seq : Byte) : opened.admits seq := ⟨rfl, by decide, by intro e h; cases h⟩
theorem lane0_admits (f : Lane → Lane) (seq : Byte) : (lane0 f).admits seq := opened_admits seq
theorem lane0_inSession (f : Lane → Lane) : (lane0 f).inSession := rfl
theorem lane0_lane (f : Lane → Lane) : (lane0 f).lane 0 = f (Lane.reset ⟨false, false, false, false⟩) := by
  simp only [lane0, State.updLane_eq, State.lane_setLane_same]
  rfl
theorem store0_admits (f : Store → Store) (seq : Byte) : (store0 f).admits seq := opened_admits seq

theorem noCommit_of_absent {L : Lane} (h : L.staging = .absent) : L.noCommit := by
  intro b d c e
  rw [h] at e
  cases e

/-! ## Well-formedness -/

/-- A payload of 96 bytes is the longest that a frame carries, and 97 is refused (R133). -/
theorem test_wf_payload :
    (Instr.ping 1 (List.replicate 96 0)).wf = true ∧ (Instr.ping 1 (List.replicate 97 0)).wf = false ∧
      exec (.ping 1 (List.replicate 97 0)) State.reset = .refused .illFormed := by
  refine ⟨by decide, by decide, rfl⟩

/-- A request kind or ACK is no unknown kind (R139, R152). -/
theorem test_wf_unknownKind :
    (Instr.unknownKindRequest 0x55 1 []).wf = true ∧ (Instr.unknownKindRequest 0x02 1 []).wf = false ∧
      (Instr.unknownKindRequest 0x0F 1 []).wf = false ∧
      exec (.unknownKindRequest 0x02 1 []) State.reset = .refused .illFormed ∧
      exec (.unknownKindRequest 0x55 1 (List.replicate 97 0)) State.reset = .refused .illFormed := by
  refine ⟨by decide, by decide, by decide, rfl, rfl⟩

/-- Length bytes up to 96 are no oversize frame (R135). -/
theorem test_wf_oversize :
    (Instr.frameOversize 97).wf = true ∧ (Instr.frameOversize 255).wf = true ∧ (Instr.frameOversize 96).wf = false ∧
      exec (.frameOversize 96) State.reset = .refused .illFormed := by
  refine ⟨by decide, by decide, by decide, rfl⟩

/-- The table gives no row bits, so no word spells a command. -/
theorem test_decode (nbits w : Nat) : decodeTableWord nbits w = none := rfl

/-! ## Values of the manual -/

/-- The CRC of "123456789" (R137). -/
theorem test_crc : crc16 [0x31, 0x32, 0x33, 0x34, 0x35, 0x36, 0x37, 0x38, 0x39] = 0x29B1 := by decide +kernel

/-- The quadrature table of R18 against the model's cycle, on every pair of pairs. -/
theorem test_quadrature : ∀ a b c d : Bool, EncoderPair.step ⟨a, b⟩ ⟨c, d⟩ = quadratureTable (a, b) (c, d) := by decide

/-- Serials that count as issued at next serial 501 before the wrap: the example after R43. -/
theorem test_issued :
    countsAsIssued 501 false 1 = true ∧ countsAsIssued 501 false 500 = true ∧ countsAsIssued 501 false 501 = false ∧
      countsAsIssued 501 false 4294967000 = false ∧ countsAsIssued 501 true 4294967000 = true := by decide

/-- The sorting profile of the example after R62. -/
def sorting : ProfileBody :=
  { fields := { lmin := 4, lmax := 300, gap := 20, verdictMargin := 100, defaultClass := 0, flushMargin := 40 }
    stations :=
      #v[⟨.pulse 400 2000 500 .drop .always false, none⟩, ⟨.off, none⟩,
        ⟨.pulse 1500 40000 20000 (.defer 30) (.onClass 0x0C) true, some ⟨60, 200⟩⟩,
        ⟨.span 1800 2100 (.onClass 0x20) false, none⟩, ⟨.off, none⟩, ⟨.off, none⟩] }

/-- Retire span 2,101 and decision offset 1,400: the example after R62. -/
theorem test_derived : sorting.invalid = none ∧ sorting.derive = ⟨1400, 2101⟩ := by decide

/-- The FATE report of the worked example takes 25 bytes: 4 of the timestamp, then its fields. -/
theorem test_fate :
    (StoredReport.message
      { report := .fate 0 900 2 .host (some 0x0A02) [(0, .fired), (2, .fired), (3, .passed)] (some .confirmed)
        timestamp := 81336, number := some 9, resendDue := false } 9).payload =
      be32 81336 ++ [0, 0, 0, 0x03, 0x84, 2, 0, 1, 0x0A, 0x02, 3, 0, 2, 0, 2, 2, 0, 3, 3, 0, 2] := by decide

/-! ## Requests -/

/-- PING in OPEN is answered OK and outside it NO_SESSION (R145, R162). -/
theorem test_ping :
    replyOf (after (.ping 1 []) opened) = [0x00] ∧ replyOf (after (.ping 1 []) State.reset) = [0x10] := by decide

/-- HELLO from CLOSED opens a new session: family 0x0424, revision 1, boot reason POWER, not resumed (R146, R159). -/
theorem test_hello :
    replyOf (after (.hello 1 [9, 0x07, 0xD0, 0x00, 0xC8, 4]) State.reset) = [0x00, 0x04, 0x24, 0x01, 0x00, 0x00] ∧
      (after (.hello 1 [9, 0x07, 0xD0, 0x00, 0xC8, 4]) State.reset).link.session.state = .opened := by decide

/-- A kind that no request has (section 9.1: kind 0x55 is answered with kind 0xD5). -/
theorem test_unknownKind :
    (after (.unknownKindRequest 0x55 3 [1, 2]) State.reset).link.replies = [⟨0xD5, 3, [0x13]⟩] := by decide

/-- The VERDICT example of section 9.3, up to the LANE_STATE row. -/
theorem test_verdict :
    let s := lane0 fun L =>
      { L with state := .running, nextSerial := 950, queue := [ticket 940 0 .undecided] }
    replyOf (after (.verdict 0x40 [0, 0, 0, 3, 0xAC, 1, 0]) s) = [0x11] ∧
      replyOf (after (.verdict 0x41 [4, 0, 0, 0, 0, 9]) s) = [0x12, 1] ∧
      replyOf (after (.verdict 0x42 [0, 0, 0, 0, 0, 9]) s) = [0x12, 2] ∧
      replyOf (after (.verdict 0x43 [0, 0, 0, 3, 0xAC, 9]) s) = [0x12, 3] ∧
      replyOf (after (.verdict 0x44 [2, 0, 0, 3, 0xAC, 1]) s) = [0x14] ∧
      replyOf (after (.verdict 0x45 [0, 0, 0, 3, 0xC0, 1]) s) = [0x17] ∧
      replyOf (after (.verdict 0x46 [0, 0, 0, 3, 0xAC, 1]) s) = [0x00] := by decide

/-- The reserve example after R4: lanes 1 to 3 with reserve 4, lane 1 with 40 tickets; reserve 16 passes, and with 41
tickets it does not. -/
theorem test_reserve :
    (opened.updLane 1 fun L => { L with queue := List.replicate 40 (ticket 1 0 .undecided) }).reserveTotal 0 16 = 64 ∧
      (opened.updLane 1 fun L => { L with queue := List.replicate 41 (ticket 1 0 .undecided) }).reserveTotal 0 16 =
        65 := by decide

/-- ENABLE without the belt-clear flag: the reset profile's retire span behind the position is blind (R6). -/
theorem test_enable :
    ((after (.enable 1 [0, 0]) (lane0 fun L => { L with position := 5000 })).lane 0).blind = [⟨3979, some 5000⟩] ∧
      ((after (.enable 1 [0, 1]) opened).lane 0).blind = [] := by decide

/-- STAGE_STATION makes the staged copy from the active profile (R64). -/
theorem test_stage :
    ((after (.stageLane 1 [0, 0, 4, 1, 0x2C, 0, 20, 0, 100, 0, 0, 40]) opened).lane 0).staging =
      .editing { Profile.reset.body with fields := sorting.fields } := by decide

/-- COMMIT NOW on an empty lane installs generation 1 and tells it (R66, R71). -/
theorem test_commit :
    let t := after (.commit 1 [0, 0, 0, 0, 0, 0]) (lane0 fun L => { L with staging := .editing sorting })
    (t.lane 0).active = ⟨1, sorting, ⟨1400, 2101⟩⟩ ∧ replyOf t = [0x00] ∧
      t.store.reports.map StoredReport.report = [.committed 0 1 1] := by decide

/-- Report numbers 40 to 45 in flight, resumed under window 4: the example after R177. -/
theorem test_resume :
    let t := (store0 fun st =>
      { st with reports := [40, 41, 42, 43, 44, 45].map fun n => stored (.guard true) (some n) false, nextNumber := 46 })
    let u := after (.hello 1 [7, 0x07, 0xD0, 0x00, 0xC8, 4]) t
    u.store.reports.map StoredReport.number = [some 40, some 41, some 42, some 43, none, none] ∧
      u.store.nextNumber = 44 := by decide

/-- An ACK of 41 clears 40 and 41 (R178). -/
theorem test_ack :
    let t := (store0 fun st =>
      { st with reports := [40, 41, 42].map fun n => stored (.guard true) (some n) false, nextNumber := 43 })
    (after (.ack 41 []) t).store.reports.map StoredReport.number = [some 42] ∧
      (after (.ack 43 []) t).link.counters.badAck = 1 := by decide

/-! ## Belt -/

/-- The detector measures an item on an ENCODER lane: presence, 5 counts, clearing, gap 0: one ticket with the highest
index and its ENTRY report (R27, R29, R34, R40). -/
theorem test_entry :
    let s := lane0 fun L =>
      { L with
        state := .running, position := 1005, reach := 1005, entryLevel := true
        detector := .inItem 1000 { lmin := 4, lmax := 300, gap := 0 } }
    let t := after (.entrySensorEdge 0 false) s
    (t.lane 0).queue.map (fun u => (u.index, u.serial, u.entry, u.length)) = [(63, 1, 1000, 5)] ∧
      (t.lane 0).detector = .clear ∧
      t.store.reports.map StoredReport.report = [.entry 0 1 63 1000 5 false 0] := by decide

/-- A ticket that meets its retire point leaves with its FATE report, class defaulted (R49, R50, R80). -/
theorem test_retire :
    let s := lane0 fun L =>
      { L with state := .running, position := 2020, reach := 2020, queue := [ticket 1 1000 .undecided] }
    let t := after (.encoderChange 0 true false) s
    (t.lane 0).queue = [] ∧
      t.store.reports.map StoredReport.report = [.fate 0 1 0 .default none [] none] := by decide

/-- A reverse step past limit 64 halts the lane (R15, R12). -/
theorem test_reverse :
    let s := lane0 fun L => { L with state := .running, position := 936, reach := 1000 }
    let t := after (.encoderChange 0 false true) s
    (t.lane 0).state = .halted ∧ (t.lane 0).position = 935 ∧
      t.store.reports.map StoredReport.report = [.halted 0 .reverse 0] := by decide

/-- A tick of a CLOCK lane (R20). -/
theorem test_tick :
    let s := lane0 fun L =>
      { L with config := { L.config with source := .clock }, tickTimer := some 0 }
    ((after (.clockTick 0) s).lane 0).position = 1 ∧ ((after (.clockTick 0) s).lane 0).tickTimer = some 100 := by decide

/-- The guard released by its energised input, told once (R116). -/
theorem test_guard :
    (after (.guardChange true) opened).guardAsserted = false ∧
      (after (.guardChange true) opened).store.reports.map StoredReport.report = [.guard false] ∧
      (after (.guardChange false) opened).store.reports = [] := by decide

/-- A stray at the confirm sensor (R124). -/
theorem test_stray :
    let s := lane0 fun L => { L with state := .running, position := 77, reach := 77 }
    (after (.confirmSensorEdge 0 true) s).store.reports.map StoredReport.report = [.stray 0 77] := by decide

/-- The bytes of a PING frame with sequence byte 1, taken one by one, are answered (R134, R137). -/
theorem test_receive :
    (match receiveAll (Message.frame ⟨0x02, 1, []⟩) opened with
      | .next t => replyOf t
      | _ => []) = [0x00] := by decide +kernel

/-- RESTART resets as its reply's last byte is sent, with boot reason RESTART (R151). -/
theorem test_restart :
    let s := after (.restart 1 []) opened
    s.link.restarting = true ∧ s.link.linkTimer = none ∧
      (after .transmitComplete s).link.session.bootReason = .restart ∧
      (after .transmitComplete s).link.session.state = .closed := by decide

/-- The link timer runs out: LOST, and a lane with policy STOP asserts its stop output (R131, R150). -/
theorem test_linkTimeout :
    let s := lane0 fun L => { L with config := { L.config with linkPolicy := .stop } }
    (after .linkTimeout s).link.session.state = .lost ∧ (after .linkTimeout s).stopOutput 0 = true ∧
      (after .linkTimeout s).stopOutput 1 = false := by decide

/-- The report timer runs out with the retry count at 4: LOST (R181, R182). -/
theorem test_reportTimeout :
    (after .reportTimeout (store0 fun st => { st with timer := some 0, retry := 4 })).link.session.state = .lost ∧
      (after .reportTimeout (store0 fun st => { st with timer := some 0, retry := 3 })).store.retry = 4 := by decide

/-- A pulse ends into its rearm time, and the rearm time into IDLE (R100). -/
theorem test_pulse :
    let s := lane0 fun L => L.setStation 2 { Station.reset with pulse := .pulsing 0 20000 }
    ((after (.pulseEnd 0 2) s).lane 0).stations[2].pulse = .rearming 20000 ∧
      ((after (.rearmEnd 0 2) (after (.pulseEnd 0 2) s)).lane 0).stations[2].pulse = .idle := by decide

/-- DISABLE with mode DRAIN of a RUNNING lane that holds nothing (R9), and with mode ABORT of one with a ticket (R53). -/
theorem test_disable :
    let s := lane0 fun L => { L with state := .running }
    let t := lane0 fun L => { L with state := .running, queue := [ticket 5 0 .undecided, ticket 6 0 .undecided] }
    (after (.disable 1 [0, 0]) s).store.reports.map StoredReport.report = [.drained 0] ∧
      replyOf (after (.disable 1 [0, 0]) s) = [0x02] ∧
      (after (.disable 1 [0, 1]) t).store.reports.map StoredReport.report = [.abandoned 0 2 5 6] ∧
      replyOf (after (.disable 1 [0, 1]) t) = [0x00] := by decide

/-- CLEAR_STOP in HALTED keeps HALT and answers STOP_HELD (R132). -/
theorem test_clearStop :
    let s := lane0 fun L => { L with state := .halted, stops := ⟨true, true, true, true⟩ }
    ((after (.clearStop 1 [0]) s).lane 0).stops = ⟨true, false, false, false⟩ ∧
      replyOf (after (.clearStop 1 [0]) s) = [0x1D] := by decide

/-- FORCE in DISABLED, and the boundary of the station number (R114, R159). -/
theorem test_force :
    ((after (.force 1 [0, 5, 1]) opened).lane 0).stations[5].forced = true ∧
      replyOf (after (.force 1 [0, 6, 1]) opened) = [0x12, 2] := by decide

/-- The replies to the queries have the manual's lengths (R165 to R168). -/
theorem test_queries :
    (replyOf (after (.queryLane 1 [0, 0]) opened)).length = 60 ∧
      (replyOf (after (.queryLane 1 [0, 1]) opened)).length = 63 ∧
      replyOf (after (.queryTicket 1 [0, 0, 0, 0, 1]) opened) = [0x17] ∧
      replyOf (after (.queryProfile 1 [0, 1, 0]) opened) = [0x00, 0, 1, 0, 0] := by decide

/-- The fields of the FATE report of the example after R170. -/
theorem test_fate_layout :
    (Report.fate 0 900 2 .host (some 0x0A02) [(0, .fired), (2, .fired), (3, .passed)] (some .confirmed)).layout =
      (0xC1, [0, 0, 0, 0x03, 0x84, 2, 0, 1, 0x0A, 0x02, 3, 0, 2, 0, 2, 2, 0, 3, 3, 0, 2]) := by decide

/-! ## Witnesses: states and operands that meet the hypotheses of the statements -/

theorem witness_StepTakesFront :
    ({ State.reset with pending := [.frameCrcFail] } : State).pending = .frameCrcFail :: [] := rfl

/-- No timer has run out; one has; two have; and one of each kind of lane timer. -/
theorem witness_IdleStep :
    (State.reset.pending = [] ∧ State.reset.link.gapTimer = none ∧ State.reset.link.linkTimer = none ∧
      State.reset.store.timer = none ∧ State.reset.link.transmitter = none ∧
      ∀ l : LaneId, (State.reset.lane l).tickTimer = none ∧
        ∀ k : StationId, ((State.reset.lane l).station k).pulse = .idle) ∧
    (let s := link0 fun k => { k with gapTimer := some 0 }
     s.pending = [] ∧ s.link.gapTimer = some 0 ∧ s.link.linkTimer ≠ some 0) ∧
    (let s := link0 fun k => { k with gapTimer := some 0, linkTimer := some 0 }
     s.pending = [] ∧ s.link.gapTimer = some 0 ∧ s.link.linkTimer = some 0) ∧
    (let s := lane0 fun L =>
      ({ L with tickTimer := some 0 }.setStation 2 { Station.reset with pulse := .pulsing 0 7 }).setStation 3
        { Station.reset with pulse := .rearming 0 }
     (s.lane 0).tickTimer = some 0 ∧ ((s.lane 0).station 2).pulse = .pulsing 0 7 ∧
       ((s.lane 0).station 3).pulse = .rearming 0) := by decide

/-- A command that can reach the module, and one that cannot. -/
theorem witness_CommandsComplete :
    (Instr.ping 1 (List.replicate 96 0)).wf = true ∧ (Instr.ping 1 (List.replicate 97 0)).wf = false := by decide

theorem witness_ThreeResets :
    let m : Message := ⟨0x84, 1, [0]⟩
    let x : Transmission := { message := m, isReply := true, left := 0 }
    let s := link0 fun k => { k with transmitter := some x, replies := [m], restarting := true }
    s.link.transmitter = some x ∧ x.isReply = true ∧ s.link.restarting = true ∧ s.link.replies = [m] := by decide

theorem reset_admits (seq : Byte) : State.reset.admits seq := ⟨rfl, by decide, by intro e h; cases h⟩

/-- OPEN, CLOSED, and a sequence byte that the history holds; these also serve LINK_STATUS. -/
theorem witness_PingAnswers :
    (opened.admits 1 ∧ opened.inSession) ∧ (State.reset.admits 1 ∧ ¬ State.reset.inSession) ∧
      (let e : HistoryEntry := ⟨1, ⟨0x82, 1, [0]⟩⟩
       let s := link0 fun k => { k with history := [e] }
       s.link.restarting = false ∧ s.link.replies.length < 4 ∧
         s.link.history.find? (fun x => x.seq == 1) = some e) :=
  ⟨⟨opened_admits 1, rfl⟩, ⟨reset_admits 1, by unfold State.inSession; decide⟩, by decide⟩

theorem witness_LinkStatusAnswers : State.reset.admits 1 ∧ opened.admits 1 := ⟨reset_admits 1, opened_admits 1⟩

/-- The smallest and the largest fields of a HELLO, from CLOSED without an id and in OPEN with another id. -/
theorem witness_HelloOpens :
    (State.reset.admits 1 ∧ (1 : Byte) ≠ 0 ∧ 100 ≤ (100 : Half).toNat ∧ (100 : Half).toNat ≤ 60000 ∧
      20 ≤ (20 : Half).toNat ∧ (20 : Half).toNat ≤ 5000 ∧ 1 ≤ (1 : Byte).toNat ∧ (1 : Byte).toNat ≤ 8 ∧
      State.reset.link.session.id ≠ some 1) ∧
    (opened.admits 1 ∧ (255 : Byte) ≠ 0 ∧ 100 ≤ (60000 : Half).toNat ∧ (60000 : Half).toNat ≤ 60000 ∧
      20 ≤ (5000 : Half).toNat ∧ (5000 : Half).toNat ≤ 5000 ∧ 1 ≤ (8 : Byte).toNat ∧ (8 : Byte).toNat ≤ 8 ∧
      opened.link.session.id ≠ some 255) :=
  ⟨⟨reset_admits 1, by decide⟩, opened_admits 1, by decide⟩

/-- Two reports in flight and one unsent, resumed under window 1. -/
theorem witness_HelloResumes :
    let flying := [stored (.guard true) (some 4) false, stored (.guard false) (some 5) false]
    let waiting := [stored (.guard true) none false]
    let s := store0 fun st => { st with reports := flying ++ waiting, nextNumber := 6 }
    s.admits 1 ∧ (7 : Byte) ≠ 0 ∧ 100 ≤ (100 : Half).toNat ∧ (100 : Half).toNat ≤ 60000 ∧ 20 ≤ (20 : Half).toNat ∧
      (20 : Half).toNat ≤ 5000 ∧ 1 ≤ (1 : Byte).toNat ∧ (1 : Byte).toNat ≤ 8 ∧ s.link.session.id = some 7 ∧
      s.store.reports = flying ++ waiting ∧ (∀ r ∈ flying, r.number.isSome) ∧
      (∀ r ∈ waiting, r.number = none ∧ r.resendDue = false) :=
  ⟨store0_admits _ 1, by decide⟩

theorem witness_RestartWaits :
    (opened.admits 1 ∧ opened.inSession) ∧
      (let s := link0 fun k => { k with restarting := true }
       s.link.restarting = true ∧ (List.replicate 96 (0 : Byte)).length ≤ 96 ∧ s.link.replies = []) :=
  ⟨⟨opened_admits 1, rfl⟩, by decide⟩

/-- A held sequence byte with room in the reply queue, and a full reply queue. -/
theorem witness_HistoryAnswers :
    let e : HistoryEntry := ⟨1, ⟨0x82, 1, [0]⟩⟩
    let m : Message := ⟨0x82, 9, [0]⟩
    let s := link0 fun k => { k with history := [e], replies := [m, m, m] }
    let t := link0 fun k => { k with history := [e], replies := [m, m, m, m] }
    ((0x30 : Byte) ≠ 0x0F ∧ (List.replicate 96 (0 : Byte)).length ≤ 96 ∧ s.link.restarting = false ∧
      s.link.replies.length < 4 ∧ s.link.history.find? (fun x => x.seq == 1) = some e) ∧
    (t.link.restarting = false ∧ t.link.replies = m :: [m, m, m] ∧ 4 ≤ t.link.replies.length) := by decide

/-- A VERDICT payload of 7 bytes, and of 6 and of 8. -/
theorem witness_PayloadLengths :
    (opened.admits 1 ∧ opened.inSession) ∧
      (List.replicate 7 (0 : Byte)).length ∉ RequestKind.verdict.lengths ∧
      (List.replicate 6 (0 : Byte)).length ∈ RequestKind.verdict.lengths ∧
      (List.replicate 8 (0 : Byte)).length ∈ RequestKind.verdict.lengths ∧
      (List.replicate 96 (0 : Byte)).length ≤ 96 :=
  ⟨⟨opened_admits 1, rfl⟩, by decide⟩

/-- The first field out of its range, at the ends of the ranges (R3, R64, R157, R159 to R161). -/
theorem test_fields :
    let bad (k : RequestKind) (p : List Byte) : Option Byte := (k.fields.find? fun f => !f.2 p).map Prod.fst
    let pulse (width : List Byte) : List Byte :=
      [0, 0, 1, 0, 0, 1, 0xFF, 0xFF, 0xFF] ++ width ++ [0x0F, 0x42, 0x40, 1, 0xFF, 0xFF, 0, 0xFF, 1, 0, 0, 0, 0, 0]
    [bad .hello [0, 0, 100, 0, 20, 1], bad .hello [1, 0, 99, 0, 20, 1], bad .hello [1, 0xEA, 0x61, 0, 20, 1],
        bad .hello [1, 0, 100, 0, 19, 1], bad .hello [1, 0, 100, 0, 20, 9],
        bad .hello [255, 0xEA, 0x60, 0x13, 0x88, 8]] = [some 1, some 2, some 2, some 3, some 4, none] ∧
    [bad .laneConfig [0, 0, 0, 0, 3, 0, 0, 16, 15, 3, 0, 0, 0, 0, 0],
        bad .laneConfig [0, 0, 0, 0, 4, 0, 0, 17, 15, 3, 0, 0, 0, 0, 0],
        bad .laneConfig [0, 0, 0, 0, 4, 0, 0, 16, 15, 3, 0, 0, 0, 0, 0],
        bad .laneConfig [0, 0, 0, 0, 4, 0, 0, 16, 16, 3, 0, 0, 0, 0, 0],
        bad .laneConfig [0, 0, 0, 0, 4, 0, 0, 16, 16, 2, 2, 2, 1, 1, 1]] = [some 4, some 6, some 7, some 8, none] ∧
    [bad .stageStation (pulse [0, 0, 99]), bad .stageStation (pulse [0, 0, 100]),
        bad .stageStation (pulse [0x0F, 0x42, 0x41])] = [some 6, none, some 6] ∧
    [bad .verdict [0, 0, 0, 0, 0, 9], bad .verdict [0, 0, 0, 0, 1, 8], bad .disable [3, 2], bad .disable [4, 2],
        bad .force [0, 6, 2], bad .force [0, 5, 2], bad .queryLane [0, 3], bad .queryProfile [0, 3, 7],
        bad .queryProfile [0, 2, 7], bad .commit [0, 3, 0, 0, 0, 0]] =
      [some 2, some 3, some 2, some 1, some 2, some 3, some 2, some 2, some 3, some 2] := by decide

theorem witness_EarlyRefusals :
    (RequestKind.ping ≠ .hello ∧ RequestKind.ping ≠ .linkStatus ∧ State.reset.admits 1 ∧ ¬ State.reset.inSession) ∧
    ((∀ k : RequestKind, k.code ≠ 0x55) ∧ (0x55 : Byte) ≠ 0x0F ∧ State.reset.admits 1) ∧
    (RequestKind.enable.namesLane = true ∧ ([0] : List Byte).length + 1 ∈ RequestKind.enable.lengths ∧
      4 ≤ (4 : Byte).toNat ∧ 4 ≤ (255 : Byte).toNat ∧ opened.admits 1 ∧ opened.inSession) ∧
    ((RequestKind.force.fields.find? fun f => !f.2 [0, 6, 2]).map Prod.fst = some 2 ∧
      ([0, 6, 2] : List Byte).length ∈ RequestKind.force.lengths ∧ opened.admits 1 ∧ opened.inSession) := by
  refine ⟨⟨by decide, by decide, reset_admits 1, by unfold State.inSession; decide⟩, ⟨?_, by decide, reset_admits 1⟩,
    ⟨by decide, by decide, by decide, by decide, opened_admits 1, rfl⟩, by decide, by decide, opened_admits 1, rfl⟩
  intro k
  cases k <;> decide

/-- An ACK of the second of three reports in flight, and one of no report in flight. -/
theorem witness_AckRemoves :
    let older := [stored (.guard true) (some 4) false]
    let r := stored (.guard false) (some 5) false
    let newer := [stored (.guard true) (some 6) false]
    let s := store0 fun st => { st with reports := older ++ r :: newer, nextNumber := 7 }
    (s.link.restarting = false ∧ s.store.reports = older ++ r :: newer ∧ r.number = some 5 ∧
      (∀ x ∈ older, x.number.isSome ∧ x.number ≠ some 5) ∧ s.store.reports.length ≤ 48) ∧
    (∀ x ∈ s.store.reports, x.number ≠ some 7) ∧ (List.replicate 96 (0 : Byte)).length ≤ 96 := by decide

theorem witness_OversizeDiscards :
    97 ≤ (97 : Byte).toNat ∧ 97 ≤ (255 : Byte).toNat ∧ 97 ≤ (0xC5 : Byte).toNat ∧
      (link0 fun k => { k with receiver := .length }).link.receiver = .length ∧
      opened.link.receiver = .hunt ∧ (0xC4 : Byte) ≠ 0xC5 := by decide

theorem witness_DiscardsCount :
    opened.link.restarting = false ∧ (link0 fun k => { k with receiver := .length }).link.receiver ≠ .hunt ∧
      opened.link.receiver = .hunt := by decide

/-- Every row of the receiver's table, with the last payload byte and the one before it. -/
theorem witness_ReceiverTable :
    let at_ (r : Receiver) : State := link0 fun k => { k with receiver := r }
    ((at_ .hunt).link.receiver = .hunt ∧ (0xC5 : Byte) = 0xC5) ∧
    ((at_ .length).link.receiver = .length ∧ (96 : Byte).toNat ≤ 96 ∧ (0 : Byte).toNat ≤ 96) ∧
    (at_ (.kind 2)).link.receiver = .kind 2 ∧
    ((at_ (.seq 0 2)).link.receiver = .seq 0 2 ∧ (0 : Byte) = 0) ∧
    ((at_ (.seq 2 2)).link.receiver = .seq 2 2 ∧ (2 : Byte) ≠ 0) ∧
    ((at_ (.payload 2 2 1 [])).link.receiver = .payload 2 2 1 [] ∧ ([] : List Byte).length + 1 < (2 : Byte).toNat) ∧
    ((at_ (.payload 2 2 1 [7])).link.receiver = .payload 2 2 1 [7] ∧ ([7] : List Byte).length + 1 = (2 : Byte).toNat) ∧
    (at_ (.crcHi 0 2 1 [])).link.receiver = .crcHi 0 2 1 [] ∧
    (at_ (.crcLo 0 2 1 [] 9)).link.receiver = .crcLo 0 2 1 [] 9 := by decide

/-- The shortest and the longest payload; the first bytes of a CRC that is not the frame's. -/
theorem witness_FrameBytesAreTheCommand :
    opened.link.receiver = .hunt ∧ ([] : List Byte).length ≤ 96 ∧ (List.replicate 96 (0 : Byte)).length ≤ 96 ∧
      (0 : Byte) ++ (0 : Byte) ≠ crc16 (natByte ([] : List Byte).length :: 2 :: 1 :: []) := by decide +kernel

/-- A resend; a loss at the limit that drains no lane; one that drains one lane; one that drains two, one of them with a
commit that waits. -/
theorem witness_TimersRunOut :
    (let s := store0 fun st => { st with timer := some 0, retry := 3 }
     s.inSession ∧ s.store.timer.isSome ∧ s.store.retry < 4) ∧
    (let s := store0 fun st => { st with timer := some 0, retry := 4 }
     s.inSession ∧ s.store.timer.isSome ∧ 4 ≤ s.store.retry ∧ ∀ l : LaneId, (s.lane l).state ≠ .draining) ∧
    (let s := lane0 fun L => { L with state := .running, config := { L.config with linkPolicy := .drain } }
     let t := lane0 fun L => { L with state := .draining, config := { L.config with linkPolicy := .drain } }
     s.inSession ∧ s.link.linkTimer.isSome ∧ s.mapLanes Lane.linkLoss = t ∧
       ((t.lane 0).state = .draining ∧ (t.lane 0).queue = [] ∧ (t.lane 0).blind = [] ∧ (t.lane 0).detector = .clear) ∧
       (∀ j : LaneId, j ≠ 0 → (t.lane j).state ≠ .draining) ∧ (t.lane 0).noCommit) ∧
    (let runs (L : Lane) : Lane := { L with state := .running, config := { L.config with linkPolicy := .drain } }
     let s := (lane0 fun L =>
      { runs L with staging := .committing sorting sorting.derive (.pending (.atSerial 9)) }).updLane 2 runs
     s.inSession ∧ s.link.linkTimer.isSome ∧
       ∀ l : LaneId, l = 0 ∨ l = 2 → ((s.mapLanes Lane.linkLoss).lane l).state = .draining ∧ (s.lane l).queue = [] ∧
         (s.lane l).blind = [] ∧ (s.lane l).detector = .clear) := by
  refine ⟨⟨rfl, by decide⟩, ⟨rfl, by decide⟩, ⟨rfl, by decide, by decide, by decide, by decide,
    noCommit_of_absent (by decide)⟩, rfl, by decide, by decide⟩

/-- A reply left to send; a report due for resending; an unsent report within the window; none; no session. -/
theorem witness_TransmitterTakes :
    let m : Message := ⟨0x82, 1, [0]⟩
    let x : Transmission := { message := m, isReply := true, left := 0 }
    let y : Transmission := { message := m, isReply := false, left := 0 }
    let due := stored (.guard true) (some 4) true
    let sent := stored (.guard true) (some 4) false
    let unsent := stored (.guard false) none false
    let sending (t : Transmission) (rs : List StoredReport) : State :=
      { opened with
        link := { opened.link with transmitter := some t, replies := if t.isReply then [m] else [] }
        store := { opened.store with reports := rs, nextNumber := 5 } }
    (let s : State := { opened with link := { opened.link with transmitter := some x, replies := [m, m] } }
     s.link.transmitter = some x ∧ s.link.replies.tail = m :: []) ∧
    (let s := sending x [due, unsent]
     s.link.transmitter = some x ∧ s.link.replies.tail = [] ∧ s.link.session.state = .opened ∧
       s.link.restarting = false ∧ s.store.reports = [] ++ due :: [unsent] ∧ due.number = some 4 ∧
       due.resendDue = true) ∧
    (let s := sending y [sent, unsent]
     s.link.transmitter = some y ∧ s.link.replies = [] ∧ s.store.reports = [sent] ++ unsent :: [] ∧
       (∀ z ∈ [sent], z.number.isSome ∧ z.resendDue = false) ∧ (∀ z ∈ [unsent], z.number = none) ∧
       [sent].length < s.link.session.window.toNat) ∧
    (let s := sending y [sent]
     s.link.transmitter = some y ∧ s.store.reports = [sent] ++ [] ∧
       (∀ z ∈ [sent], z.number.isSome ∧ z.resendDue = false)) ∧
    (let s : State := { State.reset with link := { State.reset.link with transmitter := some y } }
     s.link.transmitter = some y ∧ s.link.replies = [] ∧ ¬ s.link.session.state = .opened ∧
       s.link.restarting = false) := by decide

/-- A store with room, a full one for a ROUTINE report, one with an unsent ROUTINE report for a NOTICE, one without. -/
theorem witness_FullStore :
    let notice := stored (.guard true) none false
    let routine := stored (.glitch 0 1 2) none false
    let full := store0 fun st => { st with reports := List.replicate 48 notice }
    let mixed := store0 fun st => { st with reports := List.replicate 46 notice ++ routine :: [notice] }
    (store0 fun st => { st with reports := List.replicate 47 notice }).store.reports.length < 48 ∧
    (48 ≤ full.store.reports.length ∧ (Report.glitch 0 1 2).isRoutine = true) ∧
    (mixed.store.reports = List.replicate 46 notice ++ routine :: [notice] ∧ 48 ≤ mixed.store.reports.length ∧
      (Report.guard true).isRoutine = false ∧ routine.number = none ∧ routine.report.isRoutine = true ∧
      (∀ y ∈ [notice], y.number = none → y.report.isRoutine = false)) ∧
    (∀ y ∈ full.store.reports, y.number = none → y.report.isRoutine = false) := by decide

/-- The smallest and largest fields; a total of 64, and of 65 with 49 tickets in the queue of lane 1. -/
theorem witness_LaneConfigReplaces :
    let c : LaneConfig := { LaneConfig.reset with tickInterval := 4, reserve := 16, limit := 64 }
    let others (s : State) : Nat :=
      ((allLanes.filter fun j => j ≠ 0).map fun j =>
        Nat.max (s.lane j).config.reserve.toNat (s.lane j).queue.length).sum
    let holding (n : Nat) : State :=
      opened.updLane 1 fun L => { L with queue := List.replicate n (ticket 1 0 .undecided) }
    ((holding 40).admits 1 ∧ (holding 41).admits 1 ∧ (holding 40).inSession ∧ (holding 41).inSession) ∧
      ((holding 40).lane 0).state = .disabled ∧ ((holding 41).lane 0).state = .disabled ∧
      4 ≤ c.tickInterval.toNat ∧ c.reserve.toNat ≤ 16 ∧ 1 ≤ c.limit.toNat ∧ c.limit.toNat ≤ 64 ∧
      c.reserve.toNat ≤ c.limit.toNat ∧ c.reserve.toNat + others (holding 40) ≤ 64 ∧
      64 < c.reserve.toNat + others (holding 41) :=
  ⟨⟨opened_admits 1, opened_admits 1, rfl, rfl⟩, by decide⟩

/-- A session and a DISABLED lane: ENABLE, FORCE; with the other lane states, the lane-state refusals. -/
theorem witness_EnableStarts : opened.admits 1 ∧ opened.inSession ∧ (opened.lane 0).state = .disabled :=
  ⟨opened_admits 1, rfl, by decide⟩

/-- The hold range [6460, 6640) of station 2 of the sorting profile at the interval [5000, 5100), and the open range from
6460 on, at their ends; the sources of an output one by one, and the guard (R109, R111). -/
theorem witness_ForceSets :
    (opened.admits 1 ∧ opened.inSession ∧ (opened.lane 3).state = .disabled) ∧
    (let held (stop : Option Pos) (reach : Pos) : Bool :=
      ((lane0 fun L => { L with
        active := ⟨0, sorting, ⟨1400, 2101⟩⟩, blind := [⟨5000, stop⟩], reach := reach }).lane 0).flushHold 2
     [held (some 5100) 6459, held (some 5100) 6460, held (some 5100) 6639, held (some 5100) 6640, held none 6459,
       held none 6460, held none 2147490107, held none 2147490108] =
       [false, true, true, false, false, true, true, false]) ∧
    (let output (guard : Bool) (S : Station) : Bool :=
      { lane0 fun L => L.setStation 2 S with guardAsserted := guard }.outputLevel 0 2
     [output false Station.reset, output false { Station.reset with forced := true },
       output false { Station.reset with pulse := .pulsing 9 0 }, output false { Station.reset with pulse := .rearming 9 },
       output false { Station.reset with spanEnd := some 0 }, output true ⟨.pulsing 9 0, [], some 0, true⟩] =
       [false, true, true, false, true, false]) := by
  refine ⟨⟨opened_admits 1, rfl, by decide⟩, by decide, by decide⟩

theorem witness_LaneStateRefuses :
    let halted := lane0 fun L => { L with state := .halted }
    (opened.admits 1 ∧ opened.inSession ∧ (opened.lane 0).state = .disabled ∧ (1 : Serial) ≠ 0) ∧
    (halted.admits 1 ∧ halted.inSession ∧ (halted.lane 0).state = .halted ∧ (halted.lane 0).state ≠ .disabled) ∧
    (let p : List Byte := [0, 0, 0, 0, 4, 0, 64, 4, 16, 0, 0, 0, 1, 1, 1]
     p.length = 15 ∧ parseLaneConfig p = .ok (0, { LaneConfig.reset with tickInterval := 4 })) :=
  ⟨⟨opened_admits 1, rfl, by decide, by decide⟩, ⟨lane0_admits _ 1, rfl, by decide, by decide⟩, by decide, rfl⟩

theorem witness_DisableEnds :
    let busy := lane0 fun L => { L with state := .running, queue := [ticket 5 0 .undecided] }
    let free := lane0 fun L => { L with state := .running }
    let waits := lane0 fun L =>
      { L with state := .running, staging := .committing sorting sorting.derive (.pending (.atSerial 9)) }
    let drains := lane0 fun L => { L with state := .draining, queue := [ticket 5 0 .undecided] }
    (busy.admits 1 ∧ busy.inSession ∧ (busy.lane 0).state = .running ∧ ¬ (busy.lane 0).queue = [] ∧
      (busy.lane 0).tracking = true ∧ (busy.lane 0).noCommit) ∧
    (free.admits 1 ∧ free.inSession ∧ (free.lane 0).state = .running ∧ (free.lane 0).queue = [] ∧
      (free.lane 0).blind = [] ∧ (free.lane 0).detector = .clear ∧ (free.lane 0).noCommit) ∧
    (waits.admits 1 ∧ waits.inSession ∧ (waits.lane 0).state = .running ∧ (waits.lane 0).queue = [] ∧
      (waits.lane 0).blind = [] ∧ (waits.lane 0).detector = .clear ∧ (waits.lane 0).tracking = true ∧
      (waits.lane 0).staging = .committing sorting sorting.derive (.pending (.atSerial 9))) ∧
    (drains.admits 1 ∧ drains.inSession ∧ (drains.lane 0).state = .draining) :=
  ⟨⟨lane0_admits _ 1, rfl, by decide, by decide, by decide, noCommit_of_absent (by decide)⟩,
    ⟨lane0_admits _ 1, rfl, by decide, by decide, by decide, by decide, noCommit_of_absent (by decide)⟩,
    ⟨lane0_admits _ 1, rfl, by decide⟩, lane0_admits _ 1, rfl, by decide⟩

theorem witness_DisableLeavesHalted :
    let s := lane0 fun L => { L with state := .halted, stops := ⟨true, true, false, true⟩ }
    s.admits 1 ∧ s.inSession ∧ (s.lane 0).state = .halted := ⟨lane0_admits _ 1, rfl, by decide⟩

theorem witness_ClearStopClears :
    (let s := lane0 fun L => { L with state := .halted, stops := ⟨true, true, true, true⟩ }
     s.admits 1 ∧ s.inSession ∧ (s.lane 0).LaneLaw) ∧
    ([⟨true, false, false, false⟩, ⟨false, true, false, false⟩, ⟨false, false, true, false⟩, ⟨false, false, false, true⟩,
        ⟨false, false, false, false⟩].map fun stops => (lane0 fun L => { L with stops := stops }).stopOutput 0) =
      [true, true, true, true, false] := by
  refine ⟨⟨lane0_admits _ 1, rfl, ?_⟩, by decide⟩
  rw [lane0_lane]
  refine ⟨fun _ => ⟨rfl, rfl, rfl, noCommit_of_absent rfl⟩, by decide, ?_, ?_, ?_⟩
  · intro t h; cases h
  · intro p h; cases h
  · intro b d h; cases h

/-- A STAGE_LANE and a STAGE_STATION payload, in each staging status. -/
theorem witness_StagingEdits :
    let editing := lane0 fun L => { L with staging := .editing sorting }
    let committing := lane0 fun L => { L with staging := .committing sorting sorting.derive .held }
    let p : List Byte := [0, 0, 4, 1, 0x2C, 0, 20, 0, 100, 0, 0, 40]
    let q : List Byte := [0, 5] ++ (StationRecord.reset).bytes
    (opened.admits 1 ∧ opened.inSession ∧ (opened.lane 0).staging = .absent) ∧
    (editing.admits 1 ∧ editing.inSession ∧ (editing.lane 0).staging = .editing sorting) ∧
    (committing.admits 1 ∧ committing.inSession ∧
      (committing.lane 0).staging = .committing sorting sorting.derive .held) ∧
    (p.length = 12 ∧ parseStageLane p = .ok (0, sorting.fields)) ∧
    (q.length = 26 ∧ parseStageStation q = .ok (0, 5, StationRecord.reset)) :=
  ⟨⟨opened_admits 1, rfl, by decide⟩, ⟨lane0_admits _ 1, rfl, by decide⟩, ⟨lane0_admits _ 1, rfl, by decide⟩,
    ⟨by decide, rfl⟩, by decide, rfl⟩

/-- The ends of the ranges of a STAGE_LANE and a STAGE_STATION. -/
theorem witness_StagingLayouts :
    1 ≤ (1 : Half).toNat ∧ 1 ≤ (65535 : Half).toNat ∧ 1 ≤ (1 : Triple).toNat ∧ 100 ≤ (100 : Triple).toNat ∧
      (1000000 : Triple).toNat ≤ 1000000 ∧ (0 : Triple).toNat ≤ 1000000 := by decide

theorem witness_DiscardStaged :
    let editing := lane0 fun L => { L with staging := .editing sorting }
    let committing := lane0 fun L => { L with staging := .committing sorting sorting.derive .held }
    (opened.admits 1 ∧ opened.inSession ∧ (opened.lane 0).staging = .absent) ∧
    (editing.admits 1 ∧ editing.inSession ∧ (editing.lane 0).staging = .editing sorting) ∧
    (committing.admits 1 ∧ committing.inSession ∧
      (committing.lane 0).staging = .committing sorting sorting.derive .held) :=
  ⟨⟨opened_admits 1, rfl, by decide⟩, ⟨lane0_admits _ 1, rfl, by decide⟩, lane0_admits _ 1, rfl, by decide⟩

/-- A profile that fails validation; a commit PENDING at the next serial but one and at the last serial that lies ahead; a
commit beside a retiring profile; the serials that do not lie ahead: 0, the next serial, and one too far; ABSENT and
COMMITTING; the first boundary byte that is none. -/
theorem witness_CommitOutcomes :
    let bad : ProfileBody := { sorting with fields := { sorting.fields with lmax := 3 } }
    let fails := lane0 fun L => { L with staging := .editing bad }
    let waits := lane0 fun L => { L with state := .running, staging := .editing sorting }
    let beside := lane0 fun L =>
      { L with
        state := .running, staging := .editing sorting, retiring := some Profile.reset
        active := { Profile.reset with generation := 1 }, queue := [ticket 5 0 .undecided] }
    let committing := lane0 fun L => { L with staging := .committing sorting sorting.derive .held }
    let ahead (next n : Serial) : Prop := n ≠ 0 ∧ ∃ j : Nat, 1 ≤ j ∧ j ≤ 2147483646 ∧ previousSerial^[j] n = next
    3 ≤ (3 : Byte).toNat ∧ (opened.lane 0).nextSerial = 1 ∧ (opened.lane 0).staging = .absent ∧
    (¬ ahead 1 0 ∧ ¬ ahead 1 1 ∧ ¬ ahead 1 2147483648 ∧ ahead 1 2 ∧ ahead 1 2147483647) ∧
    (fails.admits 1 ∧ fails.inSession ∧ (fails.lane 0).staging = .editing bad ∧
      bad.invalid = some (.lengths, 255)) ∧
    (waits.admits 1 ∧ waits.inSession ∧ (waits.lane 0).staging = .editing sorting ∧ sorting.invalid = none ∧
      (waits.lane 0).nextSerial = 1 ∧ (waits.lane 0).retiring = none ∧
      (waits.lane 0).queue = [] ∧ (waits.lane 0).detector = .clear ∧
      ¬ ((waits.lane 0).state = .disabled ∨ (waits.lane 0).state = .halted ∨ Boundary.atSerial 2 = .now ∨
        Boundary.atSerial 2 = .whenClear)) ∧
    (beside.admits 1 ∧ beside.inSession ∧ (beside.lane 0).staging = .editing sorting ∧
      (beside.lane 0).retiring.isSome) ∧
    (committing.lane 0).staging = .committing sorting sorting.derive .held := by
  have h : ∀ n : Serial, n ≠ 0 → (_ ↔ _) := fun n hn => serialsAhead_iff 1 n 2147483646 (by decide) hn (by decide)
  refine ⟨by decide, rfl, rfl, ⟨fun e => e.1 rfl, fun e => ?_, fun e => ?_, ⟨by decide, ?_⟩, by decide, ?_⟩,
    ⟨lane0_admits _ 1, rfl, by decide⟩, ⟨lane0_admits _ 1, rfl, by decide⟩, ⟨lane0_admits _ 1, rfl, by decide⟩,
    by decide⟩
  · exact absurd ((h 1 e.1).mpr e.2) (by decide)
  · exact absurd ((h 2147483648 e.1).mpr e.2) (by decide)
  · exact (h 2 (by decide)).mp (by decide)
  · exact (h 2147483647 (by decide)).mp (by decide)

/-- Each condition of R67 at the value that meets it, with the station named, and at the next value, which passes. -/
theorem witness_ValidationConditions :
    let fields (f : LaneFields) : Option (InvalidReason × Byte) := { sorting with fields := f }.invalid
    let station (k : StationId) (r : StationRecord) : Option (InvalidReason × Byte) :=
      { sorting with stations := sorting.stations.set k r }.invalid
    let camera (on : Triple) : StationAct := .pulse on 2000 500 .drop .always false
    let ejector (w : ConfirmSpan) : StationRecord := ⟨.pulse 1500 40000 20000 (.defer 30) (.onClass 0x0C) true, some w⟩
    let diverter (off : Triple) : StationRecord := ⟨.span 1800 off (.onClass 0x20) false, none⟩
    [fields { sorting.fields with lmax := 3 }, fields { sorting.fields with lmax := 4 }] = [some (.lengths, 255), none] ∧
    [station 0 ⟨camera 320, none⟩, station 0 ⟨camera 321, none⟩] = [some (.tooClose, 0), none] ∧
    [station 3 (diverter 1800), station 3 (diverter 1801)] = [some (.spanOrder, 3), none] ∧
    [station 2 (ejector ⟨200, 200⟩), station 2 (ejector ⟨199, 200⟩)] = [some (.windowOrder, 2), none] ∧
    [station 0 ⟨camera 400, some ⟨0, 1⟩⟩, station 5 ⟨.off, some ⟨0, 1⟩⟩] = [some (.twoConfirm, 2), some (.twoConfirm, 5)] ∧
    ({ sorting with stations := (sorting.stations.set 2 ⟨.off, none⟩).set 1 ⟨.off, some ⟨0, 1⟩⟩ }.invalid =
      some (.confirmKind, 1)) ∧
    [fields { sorting.fields with verdictMargin := 1180 }, fields { sorting.fields with verdictMargin := 1179 }] =
      [some (.margin, 2), none] ∧
    [station 3 (diverter 16777215), station 3 (diverter 16777214)] = [some (.spanLimit, 3), none] := by decide

/-- A valid profile with CLASS stations, and one without. -/
theorem witness_DerivedValues :
    (sorting.invalid = none ∧ sorting.stations[2].act = .pulse 1500 40000 20000 (.defer 30) (.onClass 0x0C) true ∧
      sorting.stations[3].act = .span 1800 2100 (.onClass 0x20) false) ∧
    (Profile.reset.body.invalid = none ∧ ∀ k : StationId, Profile.reset.body.stations[k] = ⟨.off, none⟩) := by decide

theorem witness_CancelWithdraws :
    let committing := lane0 fun L => { L with staging := .committing sorting sorting.derive .held }
    (opened.admits 1 ∧ opened.inSession ∧ (opened.lane 0).noCommit) ∧
    (committing.admits 1 ∧ committing.inSession ∧
      (committing.lane 0).staging = .committing sorting sorting.derive .held) :=
  ⟨⟨opened_admits 1, rfl, noCommit_of_absent (by decide)⟩, lane0_admits _ 1, rfl, by decide⟩

/-- An OPEN, a DECIDED and a FINAL ticket, with the smallest and the largest serial. -/
theorem witness_VerdictBinds :
    let s := lane0 fun L =>
      { L with
        state := .running
        queue := [ticket 1 0 .undecided, ticket 2 9 (.decided 3 none), ticket 4294967295 20 (.final 7 .host none)] }
    (s.admits 1 ∧ s.inSession ∧ (s.lane 0).tracking = true ∧ (1 : Serial) ≠ 0 ∧ (4294967295 : Serial) ≠ 0) ∧
      (s.lane 0).queue.find? (fun u => u.serial == 1) = some (ticket 1 0 .undecided) ∧
      (s.lane 0).queue.find? (fun u => u.serial == 2) = some (ticket 2 9 (.decided 3 none)) ∧
      (s.lane 0).queue.find? (fun u => u.serial == 4294967295) = some (ticket 4294967295 20 (.final 7 .host none)) :=
  ⟨⟨lane0_admits _ 1, rfl, by decide⟩, by decide⟩

/-- A serial just issued, one not yet issued, and the last one before the wrap. -/
theorem witness_MissingSerial :
    let s := lane0 fun L => { L with state := .running, nextSerial := 501 }
    let w := lane0 fun L => { L with state := .running, nextSerial := 1, wrapped := true }
    (s.admits 1 ∧ s.inSession ∧ (500 : Serial) ≠ 0 ∧ (s.lane 0).nextSerial = 501 ∧ (501 : Serial) ≠ 0 ∧
      (∀ u ∈ (s.lane 0).queue, u.serial ≠ 500) ∧ (s.lane 0).tracking = true ∧ previousSerial^[1] 501 = 500 ∧
      (500 : Serial).toNat < (501 : Serial).toNat ∧ (s.lane 0).wrapped = false ∧
      ¬ (501 : Serial).toNat < (501 : Serial).toNat) ∧
    (w.admits 1 ∧ w.inSession ∧ (w.lane 0).wrapped = true ∧ previousSerial^[1] 1 = 4294967295) :=
  ⟨⟨lane0_admits _ 1, rfl, by decide⟩, lane0_admits _ 1, rfl, by decide⟩

theorem witness_QueryTicketReads :
    let s := lane0 fun L => { L with queue := [ticket 5 0 .undecided] }
    s.admits 1 ∧ s.inSession ∧ (5 : Serial) ≠ 0 ∧
      (s.lane 0).queue.find? (fun u => u.serial == 5) = some (ticket 5 0 .undecided) :=
  ⟨lane0_admits _ 1, rfl, by decide⟩

theorem witness_QueryLaneReads : opened.admits 1 ∧ opened.inSession := ⟨opened_admits 1, rfl⟩

/-- Each copy that exists and each that does not. -/
theorem witness_QueryProfileReads :
    let retiring := lane0 fun L => { L with retiring := some Profile.reset }
    let editing := lane0 fun L => { L with staging := .editing sorting }
    let committing := lane0 fun L => { L with staging := .committing sorting sorting.derive .held }
    (opened.admits 1 ∧ opened.inSession ∧ (opened.lane 0).retiring = none ∧ (opened.lane 0).staging = .absent) ∧
    (retiring.admits 1 ∧ retiring.inSession ∧ (retiring.lane 0).retiring = some Profile.reset) ∧
    (editing.admits 1 ∧ editing.inSession ∧ (editing.lane 0).staging = .editing sorting) ∧
    (committing.admits 1 ∧ committing.inSession ∧
      (committing.lane 0).staging = .committing sorting sorting.derive .held) :=
  ⟨⟨opened_admits 1, rfl, by decide, by decide⟩, ⟨lane0_admits _ 1, rfl, by decide⟩,
    ⟨lane0_admits _ 1, rfl, by decide⟩, lane0_admits _ 1, rfl, by decide⟩

/-- Lane 0 RUNNING at a reach, with the position `d` counts behind it. -/
def runs (reach d : Pos) (f : Lane → Lane) : State :=
  lane0 fun L => f { L with state := .running, position := reach - d, reach := reach }

theorem runs_noCommit (reach d : Pos) (f : Lane → Lane) (h : ∀ L, (f L).staging = L.staging) :
    ((runs reach d f).lane 0).noCommit := by
  refine noCommit_of_absent ?_
  rw [runs, lane0_lane, h]
  rfl

/-- A CLOCK lane; no step; an illegal transition at rest; forward steps at depth 2 and at 1, there with the level last taken
and with another; reverse steps at the limit and at the largest depth. -/
theorem witness_EncoderSteps :
    let clock := lane0 fun L => { L with config := { L.config with source := .clock } }
    let table (s : State) (a b : Bool) : QuadStep :=
      quadratureTable ((s.lane 0).encoder.a, (s.lane 0).encoder.b) (a, b)
    let deep := lane0 fun L => { L with position := 0, reach := 65536 }
    let left := runs 1000 1 fun L => { L with entryLevel := true }
    (clock.lane 0).config.source = .clock ∧
    ((opened.lane 0).config.source = .encoder ∧ (opened.lane 0).config.swap = false ∧ table opened false false = .none ∧
      table opened true true = .illegal ∧ (opened.lane 0).tracking = false) ∧
    (table (runs 1000 2 id) true false = .forward ∧ 2 ≤ ((runs 1000 2 id).lane 0).depth.toNat) ∧
    (((runs 1000 1 id).lane 0).depth = 1 ∧
      ((runs 1000 1 id).lane 0).entryLevel = ((runs 1000 1 id).laneInputs 0).entry) ∧
    ((left.lane 0).depth = 1 ∧ table left true false = .forward ∧
      (left.lane 0).entryLevel ≠ (left.laneInputs 0).entry) ∧
    (table (runs 1000 63 id) false true = .reverse ∧ ((runs 1000 63 id).lane 0).depth.toNat < 65536 ∧
      ((runs 1000 63 id).lane 0).depth.toNat + 1 ≤ ((runs 1000 63 id).lane 0).config.reverseLimit.toNat) ∧
    (table deep false true = .reverse ∧ (deep.lane 0).depth.toNat = 65536 ∧ (deep.lane 0).tracking = false) := by decide

/-- A reverse step past the limit 64 and an illegal transition, without and with a waiting commit. -/
theorem witness_EncoderHalts :
    let s := runs 1000 64 id
    let c := runs 1000 64 fun L => { L with staging := .committing sorting sorting.derive (.pending .whenClear) }
    ((s.lane 0).config.source = .encoder ∧ (s.lane 0).tracking = true ∧
      quadratureTable ((s.lane 0).encoder.a, (s.lane 0).encoder.b) (true, true) = .illegal ∧
      quadratureTable ((s.lane 0).encoder.a, (s.lane 0).encoder.b) (false, true) =
        (if (s.lane 0).config.swap then .forward else .reverse) ∧
      (s.lane 0).depth.toNat < 65536 ∧ (s.lane 0).config.reverseLimit.toNat < (s.lane 0).depth.toNat + 1 ∧
      (s.lane 0).noCommit) ∧
    ((c.lane 0).staging = .committing sorting sorting.derive (.pending .whenClear) ∧ (c.lane 0).tracking = true) :=
  ⟨⟨by decide, by decide, by decide, by decide, by decide, by decide, runs_noCommit _ _ _ fun _ => rfl⟩, by decide⟩

/-- A profile with a PULSE station 0 (ALWAYS, DROP), 1 (ALWAYS, DEFER 0), 2 (ALWAYS, DEFER 30), a SPAN station 3 (ALWAYS)
and a PULSE station 4 (CLASS 5). -/
def stationsOn : Lane → Lane := fun L =>
  { L with
    active :=
      { L.active with
        body :=
          { L.active.body with
            stations :=
              #v[⟨.pulse 1500 2000 500 .drop .always false, none⟩,
                ⟨.pulse 1500 2000 500 (.defer 0) .always false, none⟩,
                ⟨.pulse 1500 2000 500 (.defer 30) .always false, none⟩, ⟨.span 1500 2100 .always false, none⟩,
                ⟨.pulse 1500 2000 500 .drop (.onClass 0x20) false, none⟩, ⟨.off, none⟩] } } }

/-- A tick and a forward step, a stopped timer; a lane that holds a deadline, a retire point, a due point, a tolerance end,
a span end, a window end, a passed interval and the detector's two limits, and one that holds none. -/
theorem witness_ReachAdvances :
    let t : Ticket := { ticket 5 1000 .undecided with outcomes := [(2, .pending)] }
    let clock := lane0 fun L => { L with config := { L.config with source := .clock }, tickTimer := some 0 }
    let M : Lane :=
      { stationsOn (opened.lane 0) with
        reach := 2500, queue := [t], windows := [⟨5, 2, 2400, 2500⟩], blind := [⟨0, some 1479⟩]
        stations :=
          let S : Station := { Station.reset with deferred := [⟨5, 2500⟩], spanEnd := some 2500 }
          #v[S, S, S, S, S, S] }
    let points (d : Triple) : Lane := { M with active := { M.active with derived := ⟨d, d⟩ } }
    let lim : Limits := { lmin := 4, lmax := 300, gap := 20 }
    ((clock.lane 0).tickTimer.isSome ∧ (clock.lane 0).depth = 0 ∧ (opened.lane 0).tickTimer = none) ∧
    ((opened.lane 0).config.source = .encoder ∧ (opened.lane 0).depth = 0 ∧
      quadratureTable ((opened.lane 0).encoder.a, (opened.lane 0).encoder.b) (true, false) =
        (if (opened.lane 0).config.swap then .reverse else .forward)) ∧
    (M.Holds (.due 2 5) ∧ M.Holds (.tolerance 0 5) ∧ M.Holds (.spanEnd 0) ∧ M.Holds (.windowEnd 5) ∧ M.Holds .blind ∧
      (points 1500).Holds (.deadline 5) ∧ (points 1500).Holds (.retire 5) ∧
      ({ M with detector := .inItem 2200 lim } : Lane).Holds .detector ∧
      ({ M with detector := .gapWait 2300 2480 lim } : Lane).Holds .detector) ∧
    ∀ act, ¬ (opened.lane 0).Holds act := by
  intro t clock M points lim
  refine ⟨by decide, by decide, ⟨⟨t, .head _, rfl, by decide, 1500, by decide, by decide⟩, ⟨_, .head _, rfl, rfl⟩, rfl,
    ⟨_, .head _, rfl, rfl⟩, ⟨_, .head _, by decide⟩, ⟨t, .head _, rfl, by decide⟩, ⟨t, .head _, rfl, by decide⟩,
    .inl ⟨2200, lim, rfl, by decide⟩, .inr ⟨2300, 2480, lim, rfl, by decide⟩⟩, ?_⟩
  have hk : ∀ k, ((opened.lane 0).station k).deferred = [] ∧ ((opened.lane 0).station k).spanEnd = none := by decide
  rintro (_ | _ | _ | _ | _ | _ | k | _) h
  · rcases h with ⟨_, _, h, _⟩ | ⟨_, _, _, h, _⟩ <;> cases h
  · obtain ⟨_, h, _⟩ := h; cases h
  · obtain ⟨_, h, _⟩ := h; cases h
  · obtain ⟨_, h, _⟩ := h; cases h
  · obtain ⟨_, h, _⟩ := h; cases h
  · obtain ⟨_, h, _⟩ := h
    rw [(hk _).1] at h
    cases h
  · have h : ((opened.lane 0).station k).spanEnd = _ := h
    rw [(hk k).2] at h
    cases h
  · obtain ⟨_, h, _⟩ := h; cases h

/-- No edge; a presence edge in CLEAR and in GAP_WAIT below and at Lmax; a clearing edge in CLEAR, at Lmin with a gap and
without, below Lmin and in BLOCKED. -/
theorem witness_EntryEdges :
    let lim : Limits := { lmin := 4, lmax := 300, gap := 20 }
    let at_ (level : Bool) (d : Detector) : State := runs 1000 0 fun L => { L with entryLevel := level, detector := d }
    let edge (s : State) (present : Bool) (d : Detector) : Prop :=
      (s.lane 0).tracking = true ∧ (s.lane 0).depth = 0 ∧ (s.lane 0).entryLevel ≠ present ∧ (s.lane 0).detector = d
    ((opened.lane 0).tracking = false ∧ ((runs 1000 1 id).lane 0).depth ≠ 0 ∧ (opened.lane 0).entryLevel = false) ∧
    edge (at_ false .clear) true .clear ∧
    (edge (at_ false (.gapWait 701 990 lim)) true (.gapWait 701 990 lim) ∧
      (((at_ false .clear).lane 0).position - 701).toNat < lim.lmax.toNat) ∧
    (edge (at_ false (.gapWait 700 990 lim)) true (.gapWait 700 990 lim) ∧
      lim.lmax.toNat ≤ (((at_ false .clear).lane 0).position - 700).toNat) ∧
    edge (at_ true .clear) false .clear ∧
    (edge (at_ true (.inItem 996 lim)) false (.inItem 996 lim) ∧
      lim.lmin.toNat ≤ (((at_ true .clear).lane 0).position - 996).toNat ∧ lim.gap ≠ 0) ∧
    edge (at_ true (.inItem 996 { lim with gap := 0 })) false (.inItem 996 { lim with gap := 0 }) ∧
    (edge (at_ true (.inItem 997 lim)) false (.inItem 997 lim) ∧
      (((at_ true .clear).lane 0).position - 997).toNat < lim.lmin.toNat) ∧
    edge (at_ true (.blocked 900 lim)) false (.blocked 900 lim) := by decide

theorem witness_DetectorAdmits :
    let lim : Limits := { lmin := 4, lmax := 300, gap := 20 }
    let gap := runs 1000 0 fun L => { L with detector := .gapWait 900 980 lim }
    let long := runs 1000 0 fun L => { L with detector := .inItem 700 lim }
    ((gap.lane 0).tracking = true ∧ (gap.lane 0).detector = .gapWait 900 980 lim ∧
      (gap.lane 0).reach = 980 + lim.gap.setWidth 32) ∧
    ((long.lane 0).tracking = true ∧ (long.lane 0).detector = .inItem 700 lim ∧
      (long.lane 0).reach = 700 + lim.lmax.setWidth 32) := by decide

/-- A refusal in DRAINING, at the limit 16 and with no shared record, each drop policy, a full blind list, a commit PENDING at
the new next serial, and a grant of index 63 within the reserve. -/
theorem witness_PoolAnswers :
    let drains := lane0 fun L => { L with state := .draining }
    let limit := runs 0 0 fun L =>
      { L with
        queue := List.replicate 16 (ticket 1 0 .undecided), config := { L.config with dropPolicy := .stop }
        blind := List.replicate 4 ⟨0, some 9⟩ }
    let empty := runs 0 0 fun L =>
      { L with
        config := { L.config with limit := 64, dropPolicy := .halt }
        queue := List.replicate 52 (ticket 1 0 .undecided)
        staging := .committing sorting sorting.derive (.pending (.atSerial 2)) }
    let free := runs 0 0 id
    let shared (s : State) : Nat :=
      64 - (allLanes.map fun j => (s.lane j).queue.length).sum -
        (allLanes.map fun j => (s.lane j).config.reserve.toNat - (s.lane j).queue.length).sum
    ((drains.lane 0).state = .draining ∧ (drains.lane 0).config.dropPolicy = .report) ∧
    ((limit.lane 0).state = .running ∧ (limit.lane 0).queue.length = (limit.lane 0).config.limit.toNat ∧
      (limit.lane 0).config.dropPolicy = .stop ∧ (limit.lane 0).blind.length = 4) ∧
    ((empty.lane 0).state = .running ∧ (empty.lane 0).queue.length ≠ (empty.lane 0).config.limit.toNat ∧
      (empty.lane 0).config.reserve.toNat ≤ (empty.lane 0).queue.length ∧ shared empty = 0 ∧
      (empty.lane 0).config.dropPolicy = .halt ∧ (empty.lane 0).nextSerial + 1 = 2) ∧
    ((free.lane 0).state = .running ∧
      (free.lane 0).queue.length ≠ (free.lane 0).config.limit.toNat ∧
      (free.lane 0).queue.length < (free.lane 0).config.reserve.toNat ∧ 0 < shared free ∧
      (∀ (j : LaneId), ∀ t ∈ (free.lane j).queue, t.index ≠ 63) ∧
      (∀ higher : TicketIndex, 63 < higher → ∃ (j : LaneId), ∃ t ∈ (free.lane j).queue, t.index = higher)) := by
  refine ⟨by decide, by decide, by decide, by decide, by decide, by decide, by decide, by decide, ?_⟩
  intro higher h
  exact absurd h (by have := higher.isLt; simp only [Fin.lt_def]; omega)

/-- A deadline and a retire point; a retirement of the retiring generation's last ticket without and with a HELD commit, and
of one that is not the last; a WHEN_CLEAR boundary and a drain that it lets complete; an interval passed by the removal
distance 1,021. -/
theorem witness_DeadlineAndRetirement :
    let t := ticket 5 1000 (.decided 3 none)
    let u : Ticket := { ticket 6 1500 .undecided with index := 62 }
    let queued (q : List Ticket) (f : Lane → Lane) : State := runs 2021 0 fun L => f { L with queue := q }
    let old (L : Lane) : Lane := { L with active := { L.active with generation := 1 }, retiring := some L.active }
    let held := queued [t] fun L => { old L with staging := .committing sorting sorting.derive .held }
    let clears := queued [t] fun L => { L with staging := .committing sorting sorting.derive (.pending .whenClear) }
    let drains := lane0 fun L => { L with state := .draining, position := 2021, reach := 2021, queue := [t] }
    let point (s : State) : Prop :=
      (s.lane 0).queue.find? (fun v => v.serial == t.serial) = some t ∧
        (s.lane 0).reach = t.entry + ((s.lane 0).profileOf t.generation).derived.retireSpan.setWidth 32 ∧
        (s.lane 0).reach = t.entry + ((s.lane 0).profileOf t.generation).derived.decisionOffset.setWidth 32
    let rest (s : State) : List Ticket := (s.lane 0).queue.filter fun v => v.serial != t.serial
    (point (queued [t] id) ∧ ((queued [t] id).lane 0).retiring = none) ∧
    (point (queued [t] old) ∧ ((queued [t] old).lane 0).retiring = some Profile.reset ∧ rest (queued [t] old) = [] ∧
      ((queued [t] old).lane 0).staging = .absent) ∧
    (point (queued [t, u] old) ∧ ∃ v ∈ rest (queued [t, u] old), v.generation = Profile.reset.generation) ∧
    (point held ∧ (held.lane 0).staging = .committing sorting sorting.derive .held ∧
      (held.lane 0).retiring = some Profile.reset ∧ rest held = []) ∧
    (point clears ∧ (clears.lane 0).retiring = none ∧ rest clears = [] ∧ (clears.lane 0).detector = .clear) ∧
    (point drains ∧ (drains.lane 0).retiring = none ∧ rest drains = []) ∧
    (⟨0, some 1000⟩ : Machine.Interval).passed 2021 1021 = true ∧
    (⟨0, some 1001⟩ : Machine.Interval).passed 2021 1021 = false := by decide

/-- The due point 2,500 of a ticket: FINAL with a class that is not in the mask of station 4; DECIDED and FINAL with class 5,
which is; UNDECIDED at an ALWAYS station, with the guard asserted and released, IDLE and busy, with a deferred list between
whose entries it comes, and at a span; a tolerance end and a span end. -/
theorem witness_DuePoints :
    let pending (t : Ticket) : Ticket := { t with outcomes := allStations.map fun k => (k, .pending) }
    let t (d : Decision) : Ticket := pending (ticket 5 1000 d)
    let s (d : Decision) : State := runs 2500 0 fun L => stationsOn { L with nextSerial := 8, queue := [t d] }
    let waits : Station := { Station.reset with pulse := .rearming 9, deferred := [⟨4, 2510⟩, ⟨7, 2530⟩] }
    let busy := runs 2500 0 fun L =>
      { stationsOn { L with nextSerial := 8, queue := [t .undecided] } with
        stations := #v[waits, waits, waits, waits, waits, waits] }
    let ends := runs 2530 0 fun L =>
      { stationsOn { L with queue := [ticket 7 1000 .undecided] } with
        stations :=
          let S : Station := { waits with spanEnd := some 2530 }
          #v[S, S, S, S, S, S] }
    let p := ((s .undecided).lane 0).profileOf 0
    let back (n : Nat) : Nat := (8 + 4294967295 - n) % 4294967295
    (∀ k : Fin 5, (p.station k.castSucc).act.on? = some 1500) ∧
    ((s .undecided).lane 0).queue.find? (fun u => u.serial == 5) = some (t .undecided) ∧
    ((s .undecided).lane 0).reach = (t .undecided).entry + (1500 : Triple).setWidth 32 ∧
    (t .undecided).outcomes.find? (fun e => e.1 == 4) = some (4, .pending) ∧
    ((p.station 4).act.rule? = some (.onClass 0x20) ∧ (0x20 : Byte).getLsbD (2 : ClassId).val = false ∧
      (0x20 : Byte).getLsbD p.body.fields.defaultClass.val = false ∧ (0x20 : Byte).getLsbD (5 : ClassId).val = true) ∧
    ((s (.decided 5 none)).lane 0).queue.find? (fun u => u.serial == 5) = some (t (.decided 5 none)) ∧
    ((s (.final 5 .host none)).lane 0).queue.find? (fun u => u.serial == 5) = some (t (.final 5 .host none)) ∧
    ((p.station 0).act.rule? = some .always ∧ (s .undecided).guardAsserted = true ∧
      ({ s .undecided with guardAsserted := false } : State).guardAsserted = false) ∧
    ((p.station 0).act = .pulse 1500 2000 500 .drop .always false ∧
      (p.station 1).act = .pulse 1500 2000 500 (.defer 0) .always false ∧
      (p.station 2).act = .pulse 1500 2000 500 (.defer 30) .always false ∧
      (p.station 3).act = .span 1500 2100 .always false) ∧
    (((s .undecided).lane 0).station 0).pulse = .idle ∧ ((busy.lane 0).station 0).pulse ≠ .idle ∧
    (((busy.lane 0).station 2).deferred = [⟨4, 2510⟩] ++ [⟨7, 2530⟩] ∧ back 5 ≤ back 4 ∧ back 7 < back 5) ∧
    (((s .undecided).lane 0).station 3).spanEnd = none ∧
    ((ends.lane 0).queue.find? (fun u => u.serial == 7) = some (ticket 7 1000 .undecided) ∧
      (∃ d ∈ ((ends.lane 0).station 2).deferred, d.serial = 7 ∧ d.toleranceEnd = (ends.lane 0).reach) ∧
      ((ends.lane 0).station 3).spanEnd = some (ends.lane 0).reach) := by decide

/-- A pulse that ends into a rearm time; one that ends into IDLE under the guard; one after which a deferred ticket fires;
a pulse state that the event does not concern. -/
theorem witness_PulseTimer :
    let t := ticket 5 1000 .undecided
    let pulses (p : Pulse) : State := lane0 fun L => L.setStation 2 { Station.reset with pulse := p }
    let fires : State :=
      { runs 2510 0 fun L =>
          Lane.setStation (stationsOn { L with queue := [t] }) 2
            { Station.reset with pulse := .rearming 0, deferred := [⟨5, 2530⟩] } with
        guardAsserted := false }
    (((pulses (.pulsing 0 20000)).lane 0).station 2).pulse = .pulsing 0 20000 ∧ (20000 : Triple) ≠ 0 ∧
    ((((pulses (.pulsing 0 0)).lane 0).station 2).pulse = .pulsing 0 0 ∧ (pulses (.pulsing 0 0)).guardAsserted = true) ∧
    (((fires.lane 0).station 2).pulse = .rearming 0 ∧ fires.guardAsserted = false ∧
      ((fires.lane 0).station 2).deferred = ⟨5, 2530⟩ :: [] ∧
      (fires.lane 0).queue.find? (fun u => u.serial == 5) = some t ∧
      (((fires.lane 0).profileOf t.generation).station 2).act = .pulse 1500 2000 500 (.defer 30) .always false) ∧
    ((opened.lane 0).station 2).pulse = .idle := by decide

theorem witness_GuardChanges :
    let released : State := { opened with guardAsserted := false }
    let waits := lane0 fun L => L.setStation 2 { Station.reset with deferred := [⟨5, 2530⟩] }
    let both := waits.updLane 0 fun L => L.setStation 4 { Station.reset with deferred := [⟨6, 2600⟩] }
    let fires (s : State) (l : LaneId) (k : StationId) : Prop :=
      ((s.lane l).station k).pulse = .idle ∧ ((s.lane l).station k).deferred ≠ []
    opened.guardAsserted = !false ∧ released.guardAsserted = false ∧
    (opened.guardAsserted = true ∧ ∀ l k, ¬ fires opened l k) ∧
    (waits.guardAsserted = true ∧ fires waits 0 2 ∧ ∀ l k, fires waits l k → l = 0 ∧ k = 2) ∧
    (both.guardAsserted = true ∧ fires both 0 2 ∧ fires both 0 4) := by
  refine ⟨by decide, by decide, ⟨by decide, ?_⟩, ⟨by decide, ⟨by decide, by decide⟩, ?_⟩, by decide,
    ⟨by decide, by decide⟩, by decide, by decide⟩ <;> decide

/-- Each clause of the confirm monitor: at rest, above depth 0, a clearing edge, a held confirm station, the first and the
last position of a window, and no window. -/
theorem witness_ConfirmEdges :
    let w : Window := ⟨5, 2, 1000, 1100⟩
    let at_ (reach : Pos) : State := runs reach 0 fun L => { L with windows := [w] }
    let held := runs 6600 0 fun L =>
      { L with active := ⟨0, sorting, ⟨1400, 2101⟩⟩, blind := [⟨5000, some 5100⟩] }
    (opened.lane 0).tracking = false ∧ ((runs 1000 1 id).lane 0).depth ≠ 0 ∧
    (((at_ 1000).lane 0).tracking = true ∧ ((at_ 1000).lane 0).depth = 0 ∧ ((at_ 1000).lane 0).confirmLevel = false) ∧
    ((held.lane 0).flushHold 2 = true ∧ (held.lane 0).active.body.confirmStation = some 2) ∧
    (((at_ 1000).lane 0).windows = [] ++ w :: [] ∧ ((at_ 1000).lane 0).active.body.confirmStation = none ∧
      ((at_ 1000).lane 0).retiring = none ∧ ((at_ 1000).lane 0).reach - w.start < w.stop - w.start) ∧
    ((at_ 1099).lane 0).reach - w.start < w.stop - w.start ∧
    (∀ v ∈ ((at_ 1100).lane 0).windows, ¬ ((at_ 1100).lane 0).reach - v.start < v.stop - v.start) := by decide

/-- A station without confirm and the confirm station of the sorting profile; its window [2560, 2700) one count ahead of
the reach, between two open windows, and one at it; an open window that the reach attains. -/
theorem witness_ConfirmWindows :
    let t := ticket 5 1000 .undecided
    let w (n : Serial) : Window := ⟨n, 2, 2560, 2700⟩
    let s (reach : Pos) (ws : List Window) : State := runs reach 0 fun L =>
      { L with nextSerial := 8, active := ⟨0, sorting, ⟨1400, 2101⟩⟩, queue := [t], windows := ws }
    let p := ((s 2699 []).lane 0).profileOf t.generation
    let back (n : Nat) : Nat := (8 + 4294967295 - n) % 4294967295
    (p.station 0).confirm = none ∧
    ((p.station 2).confirm = some ⟨60, 200⟩ ∧ (∀ j : StationId, (p.station j).confirm.isSome → j = 2) ∧
      (p.station 2).act.on? = some 1500) ∧
    (2147483648 ≤ (((s 2699 []).lane 0).reach - 2700).toNat ∧
      ((s 2699 [w 4, w 7]).lane 0).windows = [w 4] ++ [w 7] ∧ back 5 ≤ back 4 ∧ back 7 < back 5) ∧
    (((s 2700 []).lane 0).reach - 2700).toNat < 2147483648 ∧
    (((s 2700 [w 5]).lane 0).windows.find? (fun v => v.serial == 5) = some (w 5) ∧
      ((s 2700 [w 5]).lane 0).reach = (w 5).stop) := by decide

theorem fin4 : ∀ l : LaneId, l = 0 ∨ l = 1 ∨ l = 2 ∨ l = 3 := by decide

/-- The state after reset keeps every law, and a step from it answers a next state (LinkLawKept, StoreLawKept,
TravelLawKept, LaneLawKept, BlindLawKept, PoolLawKept). -/
theorem witness_LawsKept :
    State.reset.LinkLaw ∧ State.reset.StoreLaw ∧ State.reset.TravelLaw ∧ State.reset.LaneLaw ∧ State.reset.BlindLaw ∧
      State.reset.PoolLaw ∧ ∃ t, step { State.reset with pending := [.encoderChange 0 true false] } = .next t := by
  have hl : ∀ l, State.reset.lane l = Lane.reset ⟨false, false, false, false⟩ := by
    intro l
    rcases fin4 l with rfl | rfl | rfl | rfl <;> rfl
  refine ⟨⟨by decide, by decide, by decide⟩, ⟨⟨[], [], rfl, by simp, by decide, by simp⟩, by decide⟩, fun l => ?_,
    fun l => ?_, fun l => ?_, ⟨by decide, fun l => ?_, by decide, fun l => ?_⟩, _, rfl⟩ <;> rw [hl l]
  · exact ⟨by decide, by decide, fun h => (by cases h), fun _ => rfl⟩
  · refine ⟨fun _ => ⟨rfl, rfl, rfl, noCommit_of_absent rfl⟩, by decide, ?_, ?_, ?_⟩
    · intro t h; cases h
    · intro p h; cases h
    · intro b d h; cases h
  · exact ⟨by decide, by simp [Lane.reset], by rintro ⟨i, h, _⟩; cases h⟩
  · intro t h; cases h
  · decide

theorem witness_LanesAreSeparate :
    (∃ k, Instr.pulseEnd 0 2 = .pulseEnd 0 k) ∧ (1 : LaneId) ≠ 0 ∧
      ∃ t, exec (.pulseEnd 0 2) (lane0 fun L => L.setStation 2 { Station.reset with pulse := .pulsing 0 0 }) = .next t :=
  ⟨⟨2, rfl⟩, by decide, _, rfl⟩

/-- A lane at rest and one that tracks, without and with a commit; a boundary beside a retiring profile and without one; a
drain that is not complete and one that is; the detector's return with a boundary, and with a boundary and a drain. -/
theorem witness_LaneEvents :
    let commit (state : LaneState) (c : Commit) (retiring : Option Profile) : State :=
      lane0 fun L => { L with state := state, staging := .committing sorting sorting.derive c, retiring := retiring }
    let drains := lane0 fun L => { L with state := .draining }
    let drained (L : Lane) : Prop := L.state = .draining ∧ L.queue = [] ∧ L.blind = [] ∧ L.detector = .clear
    ((opened.lane 0).tracking = false ∧ ¬ drained (opened.lane 0) ∧ (opened.lane 0).staging = .absent) ∧
    (((runs 0 0 id).lane 0).tracking = true ∧ ((runs 0 0 id).lane 0).staging = .absent) ∧
    (((commit .running .held none).lane 0).tracking = true ∧
      ((commit .running .held none).lane 0).staging = .committing sorting sorting.derive .held) ∧
    (((commit .running (.pending .now) (some Profile.reset)).lane 0).staging =
        .committing sorting sorting.derive (.pending .now) ∧
      ((commit .running (.pending .now) (some Profile.reset)).lane 0).retiring.isSome ∧
      ((commit .running (.pending .now) none).lane 0).retiring = none) ∧
    (drained (drains.lane 0) ∧ (drains.lane 0).staging = .absent) ∧
    (((commit .running (.pending .whenClear) none).lane 0).staging =
        .committing sorting sorting.derive (.pending .whenClear) ∧
      ((commit .running (.pending .whenClear) none).lane 0).queue = [] ∧
      ((commit .running (.pending .whenClear) none).lane 0).detector = .clear ∧
      ¬ drained ((commit .running (.pending .whenClear) none).lane 0)) ∧
    (((commit .draining (.pending .whenClear) none).lane 0).staging =
        .committing sorting sorting.derive (.pending .whenClear) ∧
      drained ((commit .draining (.pending .whenClear) none).lane 0)) := by decide


end Sys2Proof.Tests
end

section
/-! PROOF. DISABLE of either mode in HALTED (R11, R159). -/

namespace Sys2Proof.Machine

/-- R159: the two bytes of a DISABLE name their lane and mode. -/
@[simp] theorem parseDisable_bytes (l : LaneId) (mode : DisableMode) :
    parseDisable [laneByte l, mode.code] = .ok (l, mode) := by
  have hl : field 1 (finOf 4 (byteAt [laneByte l, mode.code] 0)) = .ok l := by simp [byteAt]
  have hm : field 2 (modeOf (byteAt [laneByte l, mode.code] 1)) = .ok mode := by simp [byteAt]
  simp only [parseDisable, hl, hm]
  rfl

theorem serveDisable_bytes (s : State) (l : LaneId) (mode : DisableMode) :
    serve .disable [laneByte l, mode.code] s = s.performDisable (l, mode) :=
  checked_ok rfl (parseDisable_bytes l mode)

/-- R11: in HALTED both modes leave to DISABLED and remove the HALT reason alone. -/
theorem State.performDisable_halted {s : State} {l : LaneId} (h : (s.lane l).state = .halted) (mode : DisableMode) :
    s.performDisable (l, mode) = (.ok [], s.setLane l
      { s.lane l with state := .disabled, stops := { (s.lane l).stops with halt := false } }) := by
  simp only [State.performDisable, h, State.updLane_eq]

end Sys2Proof.Machine

open Sys2Proof Sys2Proof.Machine in
/-- Settles O26: the request is admitted, its two bytes are good, and HALTED takes the same branch in either mode. -/
theorem disableLeavesHalted : Obligations.DisableLeavesHalted := by
  unfold Obligations.DisableLeavesHalted
  intro s seq l mode hadmits hsession hhalted
  have hserve : serve .disable [laneByte l, mode.code] s.heard = (.ok [], (s.setLane l
      { s.lane l with state := .disabled, stops := { (s.lane l).stops with halt := false } }).heard) := by
    have hheard : (s.heard.lane l).state = .halted := hhalted
    rw [serveDisable_bytes, State.performDisable_halted hheard, State.heard_lane, State.heard_setLane]
  have hlength : [laneByte l, mode.code].length ≤ 96 := by simp
  rw [exec_disable]
  exact requestCommand_answered hadmits (.inl hsession) hlength hserve rfl rfl

end

section
/-! PROOF. DISCARD_STAGED by staging status (R65). -/

namespace Sys2Proof.Machine

/-- R159, R160: the one byte of a request that carries only a lane. -/
@[simp] theorem parseLane_laneByte (l : LaneId) : parseLane [laneByte l] = .ok l := by
  simp [parseLane, byteAt]

theorem serveDiscardStaged_laneByte (s : State) (l : LaneId) :
    serve .discardStaged [laneByte l] s = s.performDiscard l :=
  checked_ok rfl (parseLane_laneByte l)

theorem State.performDiscard_editing {s : State} {l : LaneId} {body : ProfileBody}
    (h : (s.lane l).staging = .editing body) :
    s.performDiscard l = (.ok [], s.setLane l { s.lane l with staging := .absent }) := by
  simp only [State.performDiscard, h, State.setStaging, State.updLane_eq]

theorem State.performDiscard_absent {s : State} {l : LaneId} (h : (s.lane l).staging = .absent) :
    s.performDiscard l = (.nothingStaged, s) := by
  simp only [State.performDiscard, h]

theorem State.performDiscard_committing {s : State} {l : LaneId} {body : ProfileBody} {derived : Derived} {c : Commit}
    (h : (s.lane l).staging = .committing body derived c) : s.performDiscard l = (.stagingBusy, s) := by
  simp only [State.performDiscard, h]

/-- An admitted DISCARD_STAGED of a lane answers what the staging status of the lane decides. -/
theorem exec_discardStaged_answered {s t : State} {seq : Byte} {l : LaneId} {a : Answer} {bytes : List Byte}
    (hadmits : s.admits seq) (hsession : s.inSession) (ha : s.heard.performDiscard l = (a, t.heard))
    (hb : a.payload = bytes) : exec (.discardStaged seq [laneByte l]) s = .next (t.answered 0x22 seq bytes) := by
  have hlength : [laneByte l].length ≤ 96 := by simp
  rw [exec_discardStaged]
  exact requestCommand_answered hadmits (.inl hsession) hlength ((serveDiscardStaged_laneByte _ l).trans ha) rfl hb

end Sys2Proof.Machine

open Sys2Proof Sys2Proof.Machine in
/-- Settles O31: the request is admitted, its lane byte is good, and each staging status has its own outcome, whatever
the lane state; hearing the frame leaves the lane as it was. -/
theorem discardStaged : Obligations.DiscardStaged := by
  unfold Obligations.DiscardStaged
  intro s seq l hadmits hsession
  refine ⟨fun body hediting => ?_, fun habsent => ?_, fun body derived c hcommitting => ?_⟩
  · have hheard : (s.heard.lane l).staging = .editing body := hediting
    have hdiscard := State.performDiscard_editing hheard
    rw [State.heard_lane, State.heard_setLane] at hdiscard
    exact exec_discardStaged_answered hadmits hsession hdiscard rfl
  · exact exec_discardStaged_answered hadmits hsession (State.performDiscard_absent (s := s.heard) habsent) rfl
  · exact exec_discardStaged_answered hadmits hsession (State.performDiscard_committing (s := s.heard) hcommitting) rfl

end

section
/-! PROOF. A length byte of 97 to 255 discards its frame (R135), and HUNT waits for a start byte (R134). -/

namespace Sys2Proof.Machine

theorem exec_characterReceived (b : Byte) (s : State) : exec (.characterReceived b) s = .next (s.receive b) := rfl

theorem lengthOversize_of_le {n : Byte} (h : 97 ≤ n.toNat) : lengthOversize n = true := decide_eq_true h

/-- R135: the discard of an oversize frame is a command for the length bytes above the largest payload. -/
theorem exec_frameOversize {n : Byte} (h : 97 ≤ n.toNat) (s : State) :
    exec (.frameOversize n) s = .next s.discardOversize :=
  if_pos (lengthOversize_of_le h)

/-- R134, R135: the receiver that waits for a length byte discards the frame at one above the largest payload, the value
of the start byte included. -/
theorem State.receive_length_oversize {s : State} {n : Byte} (hlength : s.link.receiver = .length)
    (h : 97 ≤ n.toNat) : s.receive n = s.discardOversize := by
  have hlong : ¬ n.toNat ≤ maxPayload := Nat.not_le.mpr h
  simp only [State.receive, hlength, if_neg hlong]

/-- R134: in HUNT only a start byte is taken. -/
theorem State.receive_hunt_ignored {s : State} {b : Byte} (hhunt : s.link.receiver = .hunt) (h : b ≠ startByte) :
    s.receive b = s := by
  simp only [State.receive, hhunt, if_neg h]

end Sys2Proof.Machine

open Sys2Proof Sys2Proof.Machine in
/-- Settles O15: the command and the length byte are the same discard, and HUNT takes nothing but a start byte. -/
theorem oversizeDiscards : Obligations.OversizeDiscards := by
  unfold Obligations.OversizeDiscards
  refine ⟨fun s n hn => ⟨?_, fun hlength => ?_⟩, fun s b hhunt hb => ?_⟩
  · exact exec_frameOversize hn s
  · rw [exec_characterReceived, State.receive_length_oversize hlength hn, exec_frameOversize hn]
  · rw [exec_characterReceived, State.receive_hunt_ignored hhunt hb]

end

section
/-! PROOF. A request whose sequence byte the history holds, and one that finds the reply queue full (R140, R143). -/

namespace Sys2Proof.Machine

/-- R137, R139: with no RESTART waiting, a valid frame of any kind but ACK is heard and taken as a request; then a free
transmitter takes its next frame. -/
theorem State.validFrame_takeRequest {s : State} (hrestart : s.link.restarting = false) {kind : Byte}
    (hkind : kind ≠ ackKind) (seq : Byte) (payload : List Byte) :
    s.validFrame kind seq payload = (s.heard.takeRequest kind seq payload).transmitNext := by
  have hwaits : ¬ s.toHunt.link.restarting = true := by simp [State.toHunt, hrestart]
  simp only [State.validFrame, if_neg hwaits, if_neg hkind, State.toHunt_restartLinkTimer]

/-- R143: with room in the reply queue, a request of the history is answered with its stored reply, unchecked. -/
theorem State.takeRequest_stored {s : State} {seq : Byte} {e : HistoryEntry} (hroom : s.link.replies.length < 4)
    (hstored : s.link.history.find? (fun x => x.seq == seq) = some e) (kind : Byte) (payload : List Byte) :
    s.takeRequest kind seq payload = s.queueReply e.reply := by
  have hfull : ¬ replyCapacity ≤ s.link.replies.length := Nat.not_le.mpr hroom
  simp only [State.takeRequest, if_neg hfull, hstored]

/-- R140, R143: a full reply queue discards a request before the history is searched. -/
theorem State.takeRequest_full {s : State} (hfull : 4 ≤ s.link.replies.length) (kind seq : Byte)
    (payload : List Byte) :
    s.takeRequest kind seq payload = s.updCounters fun c => { c with overrun := saturatingSucc c.overrun } :=
  if_pos hfull

/-- R137, R143: a valid frame that is heard and only queues a reply repeats that reply. -/
theorem State.heard_queueReply_transmitNext (s : State) (m : Message) :
    (s.heard.queueReply m).transmitNext = s.repeated m :=
  State.queueReply_transmitNext s.heard m

/-- R141: with a reply queued, the transmitter sends on or, if free, begins the oldest reply. -/
theorem State.transmitNext_replies_cons {s : State} {m : Message} {rest : List Message}
    (hreplies : s.link.replies = m :: rest) :
    s.transmitNext = { s with link := { s.link with transmitter := s.link.sending m } } := by
  rcases htransmitter : s.link.transmitter with _ | x
  · simp [State.transmitNext, Link.sending, Link.begin, Message.lineTime, htransmitter, hreplies]
  · have hbusy : s.transmitNext = s := by simp only [State.transmitNext, htransmitter]
    have hsending : s.link.sending m = s.link.transmitter := by simp only [Link.sending, htransmitter]
    rw [hbusy, hsending]

end Sys2Proof.Machine

open Sys2Proof Sys2Proof.Machine in
/-- Settles O11: the frame of any request kind is taken as a request, and both the full queue and the history are looked
at before its kind, session and payload. -/
theorem historyAnswers : Obligations.HistoryAnswers := by
  unfold Obligations.HistoryAnswers
  intro s kind seq payload hkind hpayload hrestart
  have htaken : exec (frameInstr kind seq payload) s = .next (s.heard.takeRequest kind seq payload).transmitNext := by
    rw [exec_frame kind seq hpayload, State.validFrame_takeRequest hrestart hkind]
  rw [htaken]
  refine ⟨fun e hroom hstored => ?_, fun m rest hreplies hfull => ?_⟩
  · rw [State.takeRequest_stored (s := s.heard) hroom hstored, State.heard_queueReply_transmitNext]
  · rw [State.takeRequest_full (s := s.heard) hfull]
    exact congrArg Host.Outcome.next (State.transmitNext_replies_cons hreplies)

end

section
/-! PROOF. PING (R162): its answer in and out of a session, and the stored one. -/

namespace Sys2Proof.Machine

theorem servePing_checked (p : List Byte) (s : State) :
    serve .ping p s = checked s (p.length == 0) (.ok ()) fun _ => (.ok [], s) := rfl

/-- R162: a PING without payload is answered OK and changes nothing. -/
theorem servePing_nil (s : State) : serve .ping [] s = (.ok [], s) := by
  rw [servePing_checked]
  exact checked_ok rfl rfl

/-- R145, R155 step 4: outside OPEN an admitted request of a kind that needs a session changes nothing but the link that
answers it. -/
theorem requestCommand_noSession {s : State} {seq : Byte} {k : RequestKind} {payload : List Byte}
    (hadmits : s.admits seq) (hsession : ¬ s.inSession) (hk : k.anySession = false) (hp : payload.length ≤ 96) :
    requestCommand k seq payload s = .next (s.answered k.code seq [0x10]) := by
  have hanswer : s.heard.answer k.code payload = (.noSession, s.heard) :=
    State.answer_noSession (s := s.heard) hsession hk payload
  rw [requestCommand, frameCommand, if_pos (payloadOk_of_le hp),
    State.validFrame_answered hadmits k.code_ne_ack hanswer]
  rfl

end Sys2Proof.Machine

open Sys2Proof Sys2Proof.Machine in
/-- Settles O6: an admitted PING is served in OPEN and refused at the session check elsewhere; for a sequence byte of
the history it is an instance of the answer that R143 gives to a request of any kind. -/
theorem pingAnswers : Obligations.PingAnswers := by
  unfold Obligations.PingAnswers
  intro s seq
  have hlength : ([] : List Byte).length ≤ 96 := Nat.zero_le _
  refine ⟨fun hadmits hsession => ?_, fun hadmits hsession => ?_, fun e hrestart hroom hstored => ?_⟩
  · rw [exec_ping]
    exact requestCommand_answered hadmits (.inl hsession) hlength (servePing_nil _) rfl rfl
  · rw [exec_ping]
    exact requestCommand_noSession hadmits hsession rfl hlength
  · exact (historyAnswers s 0x02 seq [] (by decide) hlength hrestart).1 e hroom hstored

end

section
/-! PROOF. LINK_STATUS (R163). -/

namespace Sys2Proof.Machine

theorem serveLinkStatus_checked (p : List Byte) (s : State) :
    serve .linkStatus p s = checked s (p.length == 0) (.ok ()) fun _ => (.ok s.linkStatusFields, s) := rfl

/-- R163: a LINK_STATUS without payload is answered with the fields of the link and the store, and changes nothing. -/
theorem serveLinkStatus_nil (s : State) : serve .linkStatus [] s = (.ok s.linkStatusFields, s) := by
  rw [serveLinkStatus_checked]
  exact checked_ok rfl rfl

/-- R163: LINK_STATUS reads nothing of what the hearing of its own frame changes. -/
@[simp] theorem State.heard_linkStatusFields (s : State) : s.heard.linkStatusFields = s.linkStatusFields := rfl

end Sys2Proof.Machine

open Sys2Proof Sys2Proof.Machine in
/-- Settles O7: LINK_STATUS passes the session check in every session state, and the bytes it answers are those of the
state before its frame. -/
theorem linkStatusAnswers : Obligations.LinkStatusAnswers := by
  unfold Obligations.LinkStatusAnswers
  intro s seq hadmits
  have hserve : serve .linkStatus [] s.heard = (.ok s.linkStatusFields, s.heard) := by
    rw [serveLinkStatus_nil, State.heard_linkStatusFields]
  rw [exec_linkStatus]
  exact requestCommand_answered hadmits (.inr rfl) (Nat.zero_le _) hserve rfl rfl

end

section
/-! PROOF. The payload lengths of the request kinds (R156). -/

namespace Sys2Proof.Machine

theorem serveRestart_checked (p : List Byte) (s : State) :
    serve .restart p s = checked s (p.length == 0) (.ok ()) fun _ =>
      (.ok [], { s with link := { s.link with linkTimer := none, restarting := true } }) := rfl

/-- R156: the length test of each kind's meaning refuses every length that the table does not give the kind, and the
payload is not read. -/
theorem serve_wrongLength {k : RequestKind} {p : List Byte} (h : p.length ∉ k.lengths) (s : State) :
    serve k p s = (.badLength, s) := by
  have hone : ∀ {n : Nat}, p.length ∉ [n] → (p.length == n) = false := fun hn => by simpa using hn
  cases k
  case ping => rw [servePing_checked]; exact checked_length (hone h)
  case linkStatus => rw [serveLinkStatus_checked]; exact checked_length (hone h)
  case restart => rw [serveRestart_checked]; exact checked_length (hone h)
  case verdict => exact checked_length (by simpa [RequestKind.lengths] using h)
  all_goals exact checked_length (hone h)

/-- R158: no status but BAD_LENGTH is sent with its code. -/
theorem Answer.payload_eq_badLength {a : Answer} (h : a.payload = [0x11]) : a = .badLength := by
  cases a <;> simp_all [Answer.payload]

@[simp] theorem State.reply_replies (s : State) (kind seq : Byte) (a : Answer) :
    (s.reply kind seq a).link.replies = s.link.replies ++ [⟨kind + 0x80, seq, a.payload⟩] := rfl

/-- R139, R155: an admitted request past the session check is served, and what it leaves replies. -/
theorem requestCommand_served {s : State} {seq : Byte} {k : RequestKind} {payload : List Byte}
    (hadmits : s.admits seq) (hsession : s.inSession ∨ k.anySession = true) (hp : payload.length ≤ 96) :
    requestCommand k seq payload s = .next
      ((serve k payload s.heard).2.reply k.code seq (serve k payload s.heard).1).transmitNext := by
  rw [requestCommand, frameCommand, if_pos (payloadOk_of_le hp), State.validFrame_admitted hadmits _ k.code_ne_ack,
    State.answer_passes (s := s.heard) hsession]

end Sys2Proof.Machine

open Sys2Proof Sys2Proof.Machine in
/-- Settles O12: the length test of every kind agrees with the table, and no later check or effect of a request answers
BAD_LENGTH. -/
theorem payloadLengths : Obligations.PayloadLengths := by
  unfold Obligations.PayloadLengths
  intro s k seq payload hpayload hadmits hsession
  rw [exec_frameInstr]
  refine ⟨fun hwrong => ?_, fun hgood => ?_⟩
  · exact requestCommand_answered hadmits (.inl hsession) hpayload (serve_wrongLength hwrong _) rfl rfl
  · refine ⟨_, ⟨k.code + 0x80, seq, (serve k payload s.heard).1.payload⟩,
      requestCommand_served hadmits (.inl hsession) hpayload, ?_, rfl, rfl, fun hrefused => ?_⟩
    · rw [State.transmitNext_replies, State.reply_replies, serve_replies, State.heard_link, Link.heard_replies]
    · exact serve_notLength k payload s.heard hgood (Answer.payload_eq_badLength hrefused)

end

section
/-! PROOF. A report produced at a store with room and at a full store (R171, R174). -/

namespace Sys2Proof.Machine

theorem StoredReport.expendable_eq_true_iff (x : StoredReport) :
    x.expendable = true ↔ x.number = none ∧ x.report.isRoutine = true := by
  simp [StoredReport.expendable]

theorem StoredReport.expendable_eq_false_iff (x : StoredReport) :
    x.expendable = false ↔ (x.number = none → x.report.isRoutine = false) := by
  simp [StoredReport.expendable]

/-- R174: the newest element that satisfies p is the one behind which none does. -/
theorem removeNewest_append_cons {α : Type} {p : α → Bool} {x : α} {after : List α} (before : List α)
    (hx : p x = true) (hafter : ∀ y ∈ after, p y = false) :
    removeNewest p (before ++ x :: after) = before ++ after := by
  have hnewer : ∀ y ∈ after.reverse, ¬ p y = true := fun y hy => by simp [hafter y (List.mem_reverse.mp hy)]
  have htail : removeNewest p (x :: after) = after := by
    simp [removeNewest, List.eraseP_append_right [x] hnewer, hx]
  rw [removeNewest_append p before (x :: after) (by simp [hx]), htail]

/-- R174: with room the report becomes the newest one, without a number. -/
theorem Store.append_room {st : Store} (h : st.reports.length < 48) (now : BitVec 32) (r : Report) :
    st.append now r = { st with
      reports := st.reports ++ [{ report := r, timestamp := now, number := none, resendDue := false }] } :=
  if_pos h

/-- R174: at a full store a report is lost if it may replace none or there is none that it may replace. -/
theorem Store.append_loses {st : Store} (hfull : 48 ≤ st.reports.length) (now : BitVec 32) {r : Report}
    (h : r.isRoutine = true ∨ ∀ y ∈ st.reports, y.expendable = false) :
    st.append now r = { st with lost := saturatingSucc st.lost } := by
  have hroom : ¬ st.reports.length < storeCapacity := Nat.not_lt.mpr hfull
  have hkeeps : ¬ (!r.isRoutine && st.reports.any StoredReport.expendable) = true := by
    rcases h with hroutine | hnone
    · simp [hroutine]
    · simpa using fun _ => hnone
  simp only [Store.append, if_neg hroom, if_neg hkeeps]

/-- R174: at a full store a NOTICE is appended in place of the newest expendable report, which is lost. -/
theorem Store.append_replaces {st : Store} (hfull : 48 ≤ st.reports.length) (now : BitVec 32) {r : Report}
    (hnotice : r.isRoutine = false) {before after : List StoredReport} {x : StoredReport}
    (hreports : st.reports = before ++ x :: after) (hx : x.expendable = true)
    (hafter : ∀ y ∈ after, y.expendable = false) :
    st.append now r = { st with
      reports := before ++ after ++ [{ report := r, timestamp := now, number := none, resendDue := false }]
      lost := saturatingSucc st.lost } := by
  have hroom : ¬ st.reports.length < storeCapacity := Nat.not_lt.mpr hfull
  have htakes : (!r.isRoutine && st.reports.any StoredReport.expendable) = true := by
    simp [hnotice, hreports, hx]
  have hremoved : removeNewest StoredReport.expendable st.reports = before ++ after := by
    rw [hreports, removeNewest_append_cons before hx hafter]
  simp only [Store.append, if_neg hroom, if_pos htakes, hremoved]

/-- R174: producing a report changes the store alone, stamped with the report clock. -/
theorem State.produce_of_append {s : State} {r : Report} {st : Store} (h : s.store.append s.clock r = st) :
    s.produce r = { s with store := st } :=
  congrArg (fun st => { s with store := st }) h

end Sys2Proof.Machine

open Sys2Proof Sys2Proof.Machine in
/-- Settles O21: a report that is produced only passes through `Store.append`, whose three outcomes are room, loss and
replacement; the unsent ROUTINE reports are the expendable ones. -/
theorem fullStore : Obligations.FullStore := by
  unfold Obligations.FullStore
  intro s r
  refine ⟨fun hroom => ?_, fun hfull hroutine => ?_,
    fun before x after hreports hfull hnotice hunsent hroutine hafter => ?_, fun hfull hnone => ?_⟩
  · exact State.produce_of_append (Store.append_room hroom s.clock r)
  · exact State.produce_of_append (Store.append_loses hfull s.clock (.inl hroutine))
  · have hx : x.expendable = true := x.expendable_eq_true_iff.mpr ⟨hunsent, hroutine⟩
    have hnewer : ∀ y ∈ after, y.expendable = false := fun y hy => y.expendable_eq_false_iff.mpr (hafter y hy)
    exact State.produce_of_append (Store.append_replaces hfull s.clock hnotice hreports hx hnewer)
  · have hnoneExpendable : ∀ y ∈ s.store.reports, y.expendable = false :=
      fun y hy => y.expendable_eq_false_iff.mpr (hnone y hy)
    exact State.produce_of_append (Store.append_loses hfull s.clock (.inr hnoneExpendable))

end

section
/-! PROOF. What a command that is executed does, by its kind of meaning: the laws that every step keeps, the queue of
commands and the separation of the lanes are read off these cases. -/

namespace Sys2Proof.Machine

/-- What the events on one lane's lines and timers do, before the transmitter takes its next frame (R17). -/
inductive State.LaneEvent (l : LaneId) (s : State) : State → Prop where
  | encoder (a b : Bool) : LaneEvent l s (s.encoderChange l a b)
  | tick : LaneEvent l s (s.clockTick l)
  | entry (present : Bool) :
    LaneEvent l s ((s.setLaneInputs l { s.laneInputs l with entry := present }).entryEdge l present)
  | confirm (present : Bool) :
    LaneEvent l s ((s.setLaneInputs l { s.laneInputs l with confirm := present }).confirmEdge l present)
  | pulse (k : StationId) : LaneEvent l s (s.pulseEnd l k)
  | rearm (k : StationId) : LaneEvent l s (s.rearmEnd l k)

/-- What an executed command does: a reset, an act of the host link, a lane's event, or a change of the guard. A byte of
the line and the end of a sent frame are each one of several such acts. -/
inductive State.Does (s : State) : State → Prop where
  | nothing : Does s s
  | reset (boot : BootReason) (levels : Inputs) (n : Nat) :
    Does s (State.afterReset { s with freeIndex := n } boot levels)
  | taken (r : Receiver) : Does s (s.inFrame r)
  | frame (kind seq : Byte) (payload : List Byte) : Does s (s.validFrame kind seq payload)
  | oversize : Does s s.discardOversize
  | badCrc : Does s s.discardCrc
  | gap : Does s s.gapTimeout
  | linkTimer : Does s s.linkTimeout.transmitNext
  | reportTimer : Does s s.reportTimeout.transmitNext
  | sent (rest : List Message) (h : rest.length ≤ s.link.replies.length) :
    Does s { s with link := { s.link with transmitter := none, replies := rest } }.transmitNext
  | guard (energised : Bool) : Does s (s.guardChange energised).transmitNext
  | lane {l : LaneId} {t : State} (h : State.LaneEvent l s t) : Does s t.transmitNext

/-- R134: a byte is ignored, taken into the frame, discards the frame, or completes it. -/
theorem State.receive_does (s : State) (b : Byte) : s.Does (s.receive b) := by
  unfold State.receive
  split
  · split
    · exact .taken _
    · exact .nothing
  · split
    · exact .taken _
    · exact .oversize
  · exact .taken _
  · split
    · exact .taken _
    · exact .taken _
  · split
    · exact .taken _
    · exact .taken _
  · exact .taken _
  · split
    · exact .frame ..
    · exact .badCrc

/-- R141, R151: the end of a sent frame frees the transmitter, or ends a RESTART. -/
theorem State.transmitComplete_does (s : State) : s.Does s.transmitComplete := by
  unfold State.transmitComplete
  split
  · exact .nothing
  · split
    · simp only
      split
      · exact .reset ..
      · exact .sent _ (by simp)
    · exact .sent s.link.replies le_rfl

theorem frameCommand_does {kind seq : Byte} {payload : List Byte} {s t : State}
    (h : frameCommand kind seq payload s = .next t) : s.Does t := by
  unfold frameCommand at h
  split at h
  · cases h; exact .frame ..
  · cases h

theorem exec_does {c : Instr} {s t : State} (h : exec c s = .next t) : s.Does t := by
  cases c
  case powerOn levels => cases h; exact .reset .power levels s.freeIndex
  case resetInput levels => cases h; exact .reset .pin levels s.freeIndex
  case unknownKindRequest kind seq payload =>
    simp only [exec, execUnknownKindRequest] at h
    split at h
    · exact frameCommand_does h
    · cases h
  case frameOversize n =>
    simp only [exec, execFrameOversize] at h
    split at h
    · cases h; exact .oversize
    · cases h
  case frameCrcFail => cases h; exact .badCrc
  case gapTimeout => cases h; exact .gap
  case linkTimeout => cases h; exact .linkTimer
  case reportTimeout => cases h; exact .reportTimer
  case transmitComplete => cases h; exact s.transmitComplete_does
  case characterReceived b => cases h; exact s.receive_does b
  case guardChange energised => cases h; exact .guard energised
  case encoderChange l a b => cases h; exact .lane (.encoder a b)
  case clockTick l => cases h; exact .lane (.tick (l := l))
  case entrySensorEdge l present => cases h; exact .lane (.entry present)
  case confirmSensorEdge l present => cases h; exact .lane (.confirm present)
  case pulseEnd l k => cases h; exact .lane (.pulse k)
  case rearmEnd l k => cases h; exact .lane (.rearm k)
  all_goals exact frameCommand_does h

/-- A step lets time pass or does what the command at the front does, on the queue's rest. -/
theorem step_cases {s t : State} (h : step s = .next t) :
    t = s.elapse ∨ ∃ rest : List Instr, State.Does { s with pending := rest } t := by
  unfold step at h
  split at h
  · cases h; exact .inl rfl
  · exact .inr ⟨_, exec_does h⟩

/-! ## The events of one lane -/

theorem State.setLaneInputs_self (s : State) (l : LaneId) : s.setLaneInputs l (s.laneInputs l) = s := by
  simp [State.setLaneInputs, State.laneInputs]

theorem State.encoderChange_onLane (s : State) (l : LaneId) (a b : Bool) :
    State.OnLane l (s.setLaneInputs l { s.laneInputs l with encoderA := a, encoderB := b }) (s.encoderChange l a b) := by
  unfold State.encoderChange
  simp only
  split
  · exact State.decodePair_onLane ..
  · exact .refl l _

/-- A lane's event changes the levels of its own lines, and then what acts on that lane can change. -/
theorem State.LaneEvent.onLane {l : LaneId} {s t : State} (h : State.LaneEvent l s t) :
    ∃ x, State.OnLane l (s.setLaneInputs l x) t := by
  cases h
  case encoder a b => exact ⟨_, s.encoderChange_onLane l a b⟩
  case tick => exact ⟨s.laneInputs l, by rw [State.setLaneInputs_self]; exact State.clockTick_onLane s l⟩
  case entry present => exact ⟨_, (State.entryEdge_acts _ l present).toOnLane⟩
  case confirm present => exact ⟨_, (State.confirmEdge_acts _ l present).toOnLane⟩
  case pulse k => exact ⟨s.laneInputs l, by rw [State.setLaneInputs_self]; exact (State.pulseEnd_acts s l k).toOnLane⟩
  case rearm k => exact ⟨s.laneInputs l, by rw [State.setLaneInputs_self]; exact (State.rearmEnd_acts s l k).toOnLane⟩

theorem State.LaneEvent.link {l : LaneId} {s t : State} (h : State.LaneEvent l s t) : t.link = s.link := by
  obtain ⟨x, hx⟩ := h.onLane
  exact hx.link

theorem State.LaneEvent.pending {l : LaneId} {s t : State} (h : State.LaneEvent l s t) : t.pending = s.pending := by
  obtain ⟨x, hx⟩ := h.onLane
  exact hx.pending

end Sys2Proof.Machine
end

section
/-! PROOF. The acts on several lanes (R17, R117, R150): what they can change besides the lanes. -/

namespace Sys2Proof.Machine

/-- `t` is `s` after acts on any of its lanes, each with its reports. -/
structure State.ActsOnLanes (s t : State) : Prop where
  pending : t.pending = s.pending
  link : t.link = s.link
  clock : t.clock = s.clock
  store : ∀ P : Store → Prop, (∀ st r, P st → P (st.append s.clock r)) → P s.store → P t.store
  acted : ∀ l, Lane.Acted (s.lane l) (t.lane l)

theorem State.ActsOnLanes.refl (s : State) : State.ActsOnLanes s s :=
  ⟨rfl, rfl, rfl, fun _ _ h => h, fun _ => .refl _⟩

theorem State.ActsOnLanes.trans {s t u : State} (h : State.ActsOnLanes s t) (k : State.ActsOnLanes t u) :
    State.ActsOnLanes s u where
  pending := k.pending.trans h.pending
  link := k.link.trans h.link
  clock := k.clock.trans h.clock
  store := fun P hP hs => k.store P (h.clock ▸ hP) (h.store P hP hs)
  acted := fun l => (h.acted l).trans (k.acted l)

theorem State.Acts.onLanes {l : LaneId} {s t : State} (h : State.Acts l s t) : State.ActsOnLanes s t where
  pending := h.pending
  link := h.link
  clock := h.clock
  store := h.store
  acted := fun j => by
    by_cases e : j = l
    · subst e; exact h.acted
    · rw [h.others j e]; exact .refl _

theorem foldl_actsOnLanes {α : Type} {f : State → α → State} (h : ∀ s a, State.ActsOnLanes s (f s a)) (as : List α)
    (s : State) : State.ActsOnLanes s (as.foldl f s) := by
  induction as generalizing s with
  | nil => exact .refl s
  | cons a as ih => exact (h s a).trans (ih _)

theorem State.mapLanes_actsOnLanes (s : State) {f : Lane → Lane} (h : ∀ L, Lane.Acted L (f L)) :
    State.ActsOnLanes s (s.mapLanes f) where
  pending := rfl
  link := rfl
  clock := rfl
  store := fun _ _ hs => hs
  acted := fun l => by rw [State.lane_mapLanes]; exact h _

theorem State.releaseStation_actsOnLanes (s : State) (x : LaneId × StationId) :
    State.ActsOnLanes s (s.releaseStation x) := by
  unfold State.releaseStation
  split
  · exact (State.deferredFire_acts s x.1 x.2).onLanes
  · exact .refl s

theorem Lane.mapStations_acted (L : Lane) (f : Station → Station) : Lane.Acted L (L.mapStations f) :=
  ⟨rfl, rfl, rfl, rfl, rfl, id⟩

/-- R116, R117: a change of the guard sets its level and then acts on the lanes. -/
theorem State.guardChange_actsOnLanes (s : State) (energised : Bool) :
    State.ActsOnLanes
      { s with inputs := { s.inputs with guardLine := energised }, guardAsserted := !energised }
      (s.guardChange energised) := by
  unfold State.guardChange
  simp only
  split
  · rename_i h
    rw [← h]
    exact .refl _
  · refine State.ActsOnLanes.trans (State.produce_acts _ 0 (.guard (!energised))).onLanes ?_
    split
    · exact State.ActsOnLanes.trans (State.ordered_acts _ 0 _).onLanes
        (foldl_actsOnLanes State.releaseStation_actsOnLanes _ _)
    · exact State.mapLanes_actsOnLanes _ fun L => L.mapStations_acted _

theorem Lane.linkLoss_acted (L : Lane) : Lane.Acted L L.linkLoss := by
  unfold Lane.linkLoss
  split
  · exact .refl L
  · exact ⟨rfl, rfl, rfl, rfl, rfl, id⟩
  · split
    · rename_i h
      exact ⟨rfl, rfl, rfl, rfl, rfl, fun _ => by simp [Lane.tracking, h]⟩
    · exact .refl L

/-- The session is LOST and its timers are stopped (R150). -/
def State.lost (s : State) : State :=
  { s with
    link := { s.link with session := { s.link.session with state := .lost }, linkTimer := none }
    store := { s.store with timer := none } }

theorem State.loseSession_actsOnLanes (s : State) : State.ActsOnLanes s.lost s.loseSession := by
  unfold State.loseSession
  exact ((State.mapLanes_actsOnLanes s.lost Lane.linkLoss_acted).trans (State.ordered_acts _ 0 _).onLanes).trans
    (foldl_actsOnLanes (fun t l => (State.testDrain_acts t l).onLanes) _ _)

theorem State.linkTimeout_cases (s : State) : s.linkTimeout = s ∨ s.linkTimeout = s.loseSession := by
  unfold State.linkTimeout
  split
  · exact .inr rfl
  · exact .inl rfl

/-- R181: a report timer that runs out has no effect, makes the reports in flight due, or loses the session. -/
theorem State.reportTimeout_cases (s : State) :
    s.reportTimeout = s ∨ s.reportTimeout = s.loseSession ∨
      s.store.retry < 4 ∧ s.reportTimeout = { s with
        store :=
          { s.store with
            reports := s.store.reports.map StoredReport.markDue, retry := s.store.retry + 1, timer := none } } := by
  unfold State.reportTimeout
  split
  · split
    · rename_i h
      exact .inr (.inr ⟨h, rfl⟩)
    · exact .inr (.inl rfl)
  · exact .inl rfl

/-! ## Time -/

theorem State.ordered_of_pair {α : Type} {s t : State} {gs : List (List α)} {as : List α}
    (h : s.ordered gs = (as, t)) : t = s ∨ t = { s with freeIndex := s.freeIndex + 1 } := by
  have ht := s.ordered_snd gs
  rw [h] at ht
  exact ht

/-- With no command waiting, a microsecond passes or an event joins the queue of commands. -/
theorem State.elapse_cases (s : State) :
    s.elapse = s.microsecond ∨ ∃ n pending, s.elapse = { s with freeIndex := n, pending := pending } := by
  unfold State.elapse
  split
  · exact .inl rfl
  · rename_i h
    rcases State.ordered_of_pair h with rfl | rfl
    · exact .inr ⟨_, _, rfl⟩
    · exact .inr ⟨_, _, rfl⟩

theorem State.microsecond_lane (s : State) (l : LaneId) : s.microsecond.lane l = (s.lane l).countDown := by
  have hclock : s.tickClock.lane l = s.lane l := by
    unfold State.tickClock
    split <;> rfl
  have hmap : s.microsecond.lane l = (s.tickClock.mapLanes Lane.countDown).lane l := rfl
  rw [hmap, State.lane_mapLanes, hclock]

theorem State.microsecond_link (s : State) : s.microsecond.link =
    { s.link with
      gapTimer := Machine.countDown s.link.gapTimer
      linkTimer := Machine.countDown s.link.linkTimer
      transmitter := s.link.transmitter.map (Transmission.countDown s.link.lineRate) } := by
  unfold State.microsecond State.tickClock
  split <;> rfl

theorem State.microsecond_store (s : State) :
    s.microsecond.store = { s.store with timer := Machine.countDown s.store.timer } := by
  unfold State.microsecond State.tickClock
  split <;> rfl

end Sys2Proof.Machine
end

section
/-! PROOF. Every step keeps the bounds of the reply queue and of the reply history (R140, R142). -/

namespace Sys2Proof.Machine

theorem State.LinkLaw.of_eq {s t : State} (h : s.LinkLaw) (hr : t.link.replies.length ≤ s.link.replies.length)
    (hh : t.link.history = s.link.history) : t.LinkLaw := by
  obtain ⟨hreplies, hhistory, hseqs⟩ := h
  exact ⟨hr.trans hreplies, by rw [hh]; exact hhistory, by rw [hh]; exact hseqs⟩

theorem State.LinkLaw.of_link {s t : State} (h : s.LinkLaw) (hl : t.link = s.link) : t.LinkLaw :=
  h.of_eq (by rw [hl]) (by rw [hl])

theorem State.LinkLaw.transmitNext {s : State} (h : s.LinkLaw) : s.transmitNext.LinkLaw :=
  h.of_eq (by rw [State.transmitNext_replies]) s.transmitNext_history

theorem serveRestart_cases (p : List Byte) (s : State) :
    (serve .restart p s).2 = s ∨
      (serve .restart p s).2 = { s with link := { s.link with linkTimer := none, restarting := true } } := by
  rw [serveRestart_checked]
  rcases checked_cases s (p.length == 0) (.ok ()) fun _ =>
    (Answer.ok [], { s with link := { s.link with linkTimer := none, restarting := true } }) with e | ⟨_, _, e⟩
  · exact .inl e
  · exact .inr (congrArg Prod.snd e)

/-- Of the requests only a HELLO changes the history, which it can empty (R147). -/
theorem serve_history (k : RequestKind) (p : List Byte) (s : State) :
    (serve k p s).2.link.history = s.link.history ∨ (serve k p s).2.link.history = [] := by
  by_cases hh : k = .hello
  · subst hh
    rcases checked_cases s (p.length == 6) (parseHello p) s.performHello with e | ⟨x, _, e⟩
    · exact .inl (congrArg (·.link.history) e)
    · have hkept : (serve .hello p s).2.link.history = if s.link.session.id = some x.id then s.link.history else [] := by
        simp only [serve, serveHello, e, State.performHello, State.mapLanes_link, decide_eq_true_eq]
      rw [hkept]
      split
      · exact .inl rfl
      · exact .inr rfl
  · by_cases hr : k = .restart
    · subst hr
      rcases serveRestart_cases p s with e | e <;> exact .inl (congrArg (·.link.history) e)
    · obtain ⟨l, h⟩ := serve_onLane k hh hr p s
      exact .inl (by rw [h.link])

theorem State.answer_snd_cases (s : State) (kind : Byte) (payload : List Byte) :
    (s.answer kind payload).2 = s ∨ ∃ k, (s.answer kind payload).2 = (serve k payload s).2 := by
  unfold State.answer
  split
  · exact .inl rfl
  · split
    · exact .inr ⟨_, rfl⟩
    · exact .inl rfl

theorem State.answer_link (s : State) (kind : Byte) (payload : List Byte) :
    (s.answer kind payload).2.link.replies = s.link.replies ∧
      ((s.answer kind payload).2.link.history = s.link.history ∨ (s.answer kind payload).2.link.history = []) := by
  rcases s.answer_snd_cases kind payload with e | ⟨k, e⟩
  · exact ⟨by rw [e], .inl (by rw [e])⟩
  · rw [e]
    exact ⟨serve_replies k payload s, serve_history k payload s⟩

/-- R142: the history stays within 8 entries and its sequence bytes stay distinct when an entry with a new one joins. -/
theorem addEntry_bounds {h : List HistoryEntry} {e : HistoryEntry} (hlength : h.length ≤ 8)
    (hseqs : (h.map HistoryEntry.seq).Nodup) (hnew : ∀ x ∈ h, x.seq ≠ e.seq) :
    (addEntry h e).length ≤ 8 ∧ ((addEntry h e).map HistoryEntry.seq).Nodup := by
  have hjoin : ∀ {older : List HistoryEntry}, older.Sublist h → older.length ≤ 7 →
      (older ++ [e]).length ≤ 8 ∧ ((older ++ [e]).map HistoryEntry.seq).Nodup := by
    intro older hsub hlen
    refine ⟨by simp; omega, ?_⟩
    rw [List.map_append, List.nodup_append]
    refine ⟨hseqs.sublist (hsub.map _), by simp, ?_⟩
    intro x hx y hy
    obtain ⟨z, hz, rfl⟩ := List.mem_map.mp hx
    obtain rfl : y = e.seq := by simpa using hy
    exact hnew z (hsub.subset hz)
  rw [addEntry_eq]
  split
  · exact hjoin (List.Sublist.refl h) (by omega)
  · exact hjoin (List.tail_sublist h) (by simp; omega)

theorem State.takeRequest_linkLaw {s : State} (h : s.LinkLaw) (kind seq : Byte) (payload : List Byte) :
    (s.takeRequest kind seq payload).LinkLaw := by
  obtain ⟨hreplies, hhistory, hseqs⟩ := h
  unfold State.takeRequest
  split
  · exact ⟨hreplies, hhistory, hseqs⟩
  · rename_i hroom
    have hone : s.link.replies.length + 1 ≤ 4 := by simp only [replyCapacity] at hroom; omega
    split
    · exact ⟨by simpa [State.queueReply] using hone, hhistory, hseqs⟩
    · rename_i hnone
      have hnew : ∀ x ∈ s.link.history, x.seq ≠ seq := by simpa using hnone
      obtain ⟨hkept, hheld⟩ := s.answer_link kind payload
      refine ⟨by rw [State.reply_replies, hkept]; simpa using hone, ?_⟩
      rcases hheld with e | e
      · simp only [State.reply, State.queueReply, e]
        exact addEntry_bounds hhistory hseqs hnew
      · simp only [State.reply, State.queueReply, e]
        exact addEntry_bounds (by simp) (by simp) (by simp)

theorem State.takeAck_replies (s : State) (n : Byte) : (s.takeAck n).link.replies = s.link.replies := by
  unfold State.takeAck
  split <;> rfl

theorem State.takeAck_history (s : State) (n : Byte) : (s.takeAck n).link.history = s.link.history := by
  unfold State.takeAck
  split <;> rfl

theorem State.validFrame_linkLaw {s : State} (h : s.LinkLaw) (kind seq : Byte) (payload : List Byte) :
    (s.validFrame kind seq payload).LinkLaw := by
  unfold State.validFrame
  simp only
  split
  · exact h
  · rw [State.toHunt_restartLinkTimer]
    have hheard : s.heard.LinkLaw := h
    split
    · exact (hheard.of_eq (le_of_eq (by rw [State.takeAck_replies])) (s.heard.takeAck_history seq)).transmitNext
    · exact (State.takeRequest_linkLaw hheard kind seq payload).transmitNext

theorem State.loseSession_linkLaw {s : State} (h : s.LinkLaw) : s.loseSession.LinkLaw :=
  State.LinkLaw.of_link (s := s.lost) h s.loseSession_actsOnLanes.link

theorem State.LinkLaw.of_empty {s : State} (hr : s.link.replies = []) (hh : s.link.history = []) : s.LinkLaw := by
  simp [State.LinkLaw, hr, hh]

theorem State.discardCrc_linkLaw {s : State} (h : s.LinkLaw) : s.discardCrc.LinkLaw := by
  unfold State.discardCrc
  split <;> exact h

theorem State.gapTimeout_linkLaw {s : State} (h : s.LinkLaw) : s.gapTimeout.LinkLaw := by
  unfold State.gapTimeout
  split <;> exact h

theorem State.Does.linkLaw {s t : State} (h : s.Does t) (hs : s.LinkLaw) : t.LinkLaw := by
  cases h
  case nothing => exact hs
  case reset => exact .of_empty rfl rfl
  case taken => exact hs
  case frame kind seq payload => exact State.validFrame_linkLaw hs kind seq payload
  case oversize => exact hs
  case badCrc => exact State.discardCrc_linkLaw hs
  case gap => exact State.gapTimeout_linkLaw hs
  case linkTimer =>
    rcases s.linkTimeout_cases with e | e <;> rw [e]
    · exact hs.transmitNext
    · exact (State.loseSession_linkLaw hs).transmitNext
  case reportTimer =>
    rcases s.reportTimeout_cases with e | e | ⟨_, e⟩ <;> rw [e]
    · exact hs.transmitNext
    · exact (State.loseSession_linkLaw hs).transmitNext
    · exact State.LinkLaw.transmitNext (hs.of_link rfl)
  case sent rest hrest => exact State.LinkLaw.transmitNext (hs.of_eq hrest rfl)
  case guard energised => exact State.LinkLaw.transmitNext (hs.of_link (s.guardChange_actsOnLanes energised).link)
  case lane hevent => exact State.LinkLaw.transmitNext (hs.of_link hevent.link)

theorem State.elapse_linkLaw {s : State} (h : s.LinkLaw) : s.elapse.LinkLaw := by
  rcases s.elapse_cases with e | ⟨n, pending, e⟩ <;> rw [e]
  · exact h.of_eq (by rw [State.microsecond_link]) (by rw [State.microsecond_link])
  · exact h

end Sys2Proof.Machine

open Sys2Proof Sys2Proof.Machine in
/-- Settles O53: only a request lengthens the reply queue, where there is room, or the history, with a sequence byte that
it does not hold. -/
theorem linkLawKept : Obligations.LinkLawKept := by
  unfold Obligations.LinkLawKept
  intro s t hs hstep
  rcases step_cases hstep with rfl | ⟨rest, hdoes⟩
  · exact State.elapse_linkLaw hs
  · exact hdoes.linkLaw hs

end

section
/-! PROOF. Every step keeps the law of the report store (R173 to R178, R181, R183, R184). -/

namespace Sys2Proof.Machine

theorem Store.Kept.timer {w : Byte} {st : Store} (h : Store.Kept w st) (t : Option Nat) :
    Store.Kept w { st with timer := t } := h

theorem Store.reset_kept : Store.Kept 4 Store.reset :=
  ⟨⟨[], [], rfl, by simp, by simp, by simp⟩, by decide, by decide, by simp [Store.reset],
    fun h => absurd rfl h, by simp [Store.reset]⟩

theorem StoredReport.markDue_number (reports : List StoredReport) :
    (reports.map StoredReport.markDue).map StoredReport.number = reports.map StoredReport.number := by
  simp [StoredReport.markDue]

theorem State.StoreLaw.of_eq {s t : State} (h : s.StoreLaw) (hse : t.link.session.window = s.link.session.window)
    (hst : Store.Kept s.link.session.window s.store → Store.Kept s.link.session.window t.store) : t.StoreLaw := by
  rw [State.storeLaw_iff, hse]
  exact hst (s.storeLaw_iff.mp h)

theorem State.StoreLaw.transmitNext {s : State} (h : s.StoreLaw) : s.transmitNext.StoreLaw := by
  refine h.of_eq (by rw [State.transmitNext_session]) fun hkept => ?_
  rcases s.transmitNext_store with e | ⟨m, e⟩
  · rw [e]; exact hkept
  · exact hkept.offer e

/-- Reports that are produced keep the law of the store. -/
theorem State.OnLane.storeLaw {l : LaneId} {s t : State} (h : State.OnLane l s t) (hs : s.StoreLaw) : t.StoreLaw :=
  hs.of_eq (by rw [h.link]) fun hkept => h.store _ (fun _ r hst => hst.append s.clock r) hkept

theorem State.ActsOnLanes.storeLaw {s t : State} (h : State.ActsOnLanes s t) (hs : s.StoreLaw) : t.StoreLaw :=
  hs.of_eq (by rw [h.link]) fun hkept => h.store _ (fun _ r hst => hst.append s.clock r) hkept

/-! ## Requests -/

/-- R183, R184: a HELLO returns every report to unsent, or those beyond its window. -/
theorem State.performHello_storeLaw {s : State} (hs : s.StoreLaw) {h : Hello} (hlo : 1 ≤ h.window.toNat)
    (hhi : h.window.toNat ≤ 8) : (s.performHello h).2.StoreLaw := by
  have hkept := s.storeLaw_iff.mp hs
  have hafter : Store.Kept h.window
      (if decide (s.link.session.id = some h.id) = true then s.store.resume h.window else s.store.newSession) := by
    split
    · exact hkept.resume h.window hlo hhi
    · exact hkept.newSession h.window hlo hhi
  exact hafter

theorem serve_storeLaw (k : RequestKind) (p : List Byte) {s : State} (hs : s.StoreLaw) : (serve k p s).2.StoreLaw := by
  by_cases hh : k = .hello
  · subst hh
    rcases checked_cases s (p.length == 6) (parseHello p) s.performHello with e | ⟨x, hx, e⟩
    · have hserve : (serve .hello p s).2 = s := e
      rw [hserve]
      exact hs
    · obtain ⟨hlo, hhi⟩ := parseHello_window hx
      have hserve : serve .hello p s = s.performHello x := e
      rw [hserve]
      exact State.performHello_storeLaw hs hlo hhi
  · by_cases hr : k = .restart
    · subst hr
      rcases serveRestart_cases p s with e | e <;> rw [e] <;> exact hs
    · obtain ⟨l, h⟩ := serve_onLane k hh hr p s
      exact h.storeLaw hs

theorem State.takeRequest_storeLaw {s : State} (hs : s.StoreLaw) (kind seq : Byte) (payload : List Byte) :
    (s.takeRequest kind seq payload).StoreLaw := by
  unfold State.takeRequest
  split
  · exact hs
  · split
    · exact hs
    · have hanswer : (s.answer kind payload).2.StoreLaw := by
        rcases s.answer_snd_cases kind payload with e | ⟨k, e⟩ <;> rw [e]
        · exact hs
        · exact serve_storeLaw k payload hs
      exact hanswer

theorem State.takeAck_storeLaw {s : State} (hs : s.StoreLaw) (n : Byte) : (s.takeAck n).StoreLaw := by
  unfold State.takeAck
  split
  · exact hs
  · rename_i rs hrs
    exact hs.of_eq rfl fun hkept => hkept.ack _ s.clock hrs

theorem State.validFrame_storeLaw {s : State} (hs : s.StoreLaw) (kind seq : Byte) (payload : List Byte) :
    (s.validFrame kind seq payload).StoreLaw := by
  unfold State.validFrame
  simp only
  split
  · exact hs
  · rw [State.toHunt_restartLinkTimer]
    have hheard : s.heard.StoreLaw := hs
    split
    · exact (State.takeAck_storeLaw hheard seq).transmitNext
    · exact (State.takeRequest_storeLaw hheard kind seq payload).transmitNext

/-! ## Timers -/

theorem State.lost_storeLaw {s : State} (hs : s.StoreLaw) : s.lost.StoreLaw := hs

theorem State.loseSession_storeLaw {s : State} (hs : s.StoreLaw) : s.loseSession.StoreLaw :=
  s.loseSession_actsOnLanes.storeLaw (State.lost_storeLaw hs)

/-- R181: below the retry limit the count rises to 4 at most, and a report due for resending keeps its number. -/
theorem State.reportTimeout_storeLaw {s : State} (hs : s.StoreLaw) : s.reportTimeout.StoreLaw := by
  rcases s.reportTimeout_cases with e | e | ⟨hretry, e⟩ <;> rw [e]
  · exact hs
  · exact State.loseSession_storeLaw hs
  · exact hs.of_eq rfl fun hkept => hkept.same (StoredReport.markDue_number _) rfl rfl (Nat.succ_le_of_lt hretry)

theorem State.linkTimeout_storeLaw {s : State} (hs : s.StoreLaw) : s.linkTimeout.StoreLaw := by
  rcases s.linkTimeout_cases with e | e <;> rw [e]
  · exact hs
  · exact State.loseSession_storeLaw hs

theorem State.discardCrc_storeLaw {s : State} (hs : s.StoreLaw) : s.discardCrc.StoreLaw := by
  unfold State.discardCrc
  split <;> exact hs

theorem State.gapTimeout_storeLaw {s : State} (hs : s.StoreLaw) : s.gapTimeout.StoreLaw := by
  unfold State.gapTimeout
  split <;> exact hs

theorem State.LaneEvent.storeLaw {l : LaneId} {s t : State} (h : State.LaneEvent l s t) (hs : s.StoreLaw) :
    t.StoreLaw := by
  obtain ⟨x, hx⟩ := h.onLane
  exact hx.storeLaw hs

theorem State.Does.storeLaw {s t : State} (h : s.Does t) (hs : s.StoreLaw) : t.StoreLaw := by
  cases h
  case nothing => exact hs
  case reset => exact Store.reset_kept
  case taken => exact hs
  case frame kind seq payload => exact State.validFrame_storeLaw hs kind seq payload
  case oversize => exact hs
  case badCrc => exact State.discardCrc_storeLaw hs
  case gap => exact State.gapTimeout_storeLaw hs
  case linkTimer => exact (State.linkTimeout_storeLaw hs).transmitNext
  case reportTimer => exact (State.reportTimeout_storeLaw hs).transmitNext
  case sent => exact State.StoreLaw.transmitNext hs
  case guard energised => exact ((s.guardChange_actsOnLanes energised).storeLaw hs).transmitNext
  case lane hevent => exact (hevent.storeLaw hs).transmitNext

theorem State.elapse_storeLaw {s : State} (hs : s.StoreLaw) : s.elapse.StoreLaw := by
  rcases s.elapse_cases with e | ⟨n, pending, e⟩ <;> rw [e]
  · refine hs.of_eq (by rw [State.microsecond_link]) fun hkept => ?_
    rw [State.microsecond_store]
    exact hkept.timer _
  · exact hs

end Sys2Proof.Machine

open Sys2Proof Sys2Proof.Machine in
/-- Settles O54: a lane's events only append reports, and each operation of the host link on the store keeps its law. -/
theorem storeLawKept : Obligations.StoreLawKept := by
  unfold Obligations.StoreLawKept
  intro s t hs hstep
  rcases step_cases hstep with rfl | ⟨rest, hdoes⟩
  · exact State.elapse_storeLaw hs
  · exact hdoes.storeLaw hs

end

section
/-! PROOF. Every step keeps the laws of the lanes, of the blind lists and of the ticket pool. -/

namespace Sys2Proof.Machine

theorem Lane.reset_laneLaw (levels : LaneInputs) : (Lane.reset levels).LaneLaw :=
  Lane.ended_law rfl rfl rfl rfl (fun _ _ _ h => by cases h) (by simp [Lane.reset, StopReasons.none])

theorem State.afterReset_lane (s : State) (boot : BootReason) (levels : Inputs) (l : LaneId) :
    (s.afterReset boot levels).lane l = Lane.reset levels.lanes[l] := by
  rcases laneCases l with rfl | rfl | rfl | rfl <;> rfl

/-! Resets establish the laws (R21, R38, R54). -/

theorem State.afterReset_laneLaw (s : State) (boot : BootReason) (levels : Inputs) :
    (s.afterReset boot levels).LaneLaw := fun l => by
  rw [State.afterReset_lane]
  exact Lane.reset_laneLaw _

theorem State.afterReset_blindLaw (s : State) (boot : BootReason) (levels : Inputs) :
    (s.afterReset boot levels).BlindLaw := fun l => by
  rw [State.afterReset_lane]
  exact Lane.BlindLaw.of_nil rfl

theorem State.afterReset_poolLaw (s : State) (boot : BootReason) (levels : Inputs) :
    (s.afterReset boot levels).PoolLaw := by
  have hqueue : ∀ l, ((s.afterReset boot levels).lane l).queue = [] := fun l => by rw [State.afterReset_lane]; rfl
  have hconfig : ∀ l, ((s.afterReset boot levels).lane l).config = LaneConfig.reset :=
    fun l => by rw [State.afterReset_lane]; rfl
  refine ⟨?_, fun l t ht => ?_, ?_, fun l => by simp [hqueue]⟩
  · simp only [State.usedIndices, hqueue]; decide
  · rw [hqueue] at ht; cases ht
  · simp only [hqueue, hconfig]; decide

theorem State.afterReset_sound (s : State) (boot : BootReason) (levels : Inputs) :
    State.Sound s (s.afterReset boot levels) :=
  ⟨fun _ => s.afterReset_laneLaw boot levels, fun _ _ => s.afterReset_blindLaw boot levels,
    fun _ _ => s.afterReset_poolLaw boot levels⟩

theorem State.LaneEvent.sound {l : LaneId} {s t : State} (h : State.LaneEvent l s t) : State.Sound s t := by
  cases h
  case encoder a b =>
    refine .trans (s.setLaneInputs_sound l { s.laneInputs l with encoderA := a, encoderB := b }) ?_
    unfold State.encoderChange
    simp only
    split
    · exact .of_keeps (State.decodePair_onLane ..) (State.decodePair_keeps ..)
    · exact .refl _
  case tick => exact .of_keeps (s.clockTick_onLane l) (s.clockTick_keeps l)
  case entry present =>
    exact (s.setLaneInputs_sound l _).trans (.of_keeps (State.entryEdge_acts _ l present).toOnLane
      (State.entryEdge_keeps _ l present))
  case confirm present =>
    exact (s.setLaneInputs_sound l _).trans (.of_acts (State.confirmEdge_acts _ l present)
      (State.confirmEdge_kept _ l present))
  case pulse k => exact .of_acts (s.pulseEnd_acts l k) (s.pulseEnd_kept l k)
  case rearm k => exact .of_acts (s.rearmEnd_acts l k) (s.rearmEnd_kept l k)

theorem State.Does.sound {s t : State} (h : s.Does t) : State.Sound s t := by
  cases h
  case nothing => exact .refl s
  case reset boot levels n =>
    exact .trans (t := { s with freeIndex := n }) (.of_lane rfl) (State.afterReset_sound _ boot levels)
  case taken => exact .of_lane rfl
  case frame kind seq payload => exact s.validFrame_sound kind seq payload
  case oversize => exact .of_lane rfl
  case badCrc =>
    unfold State.discardCrc
    split <;> exact .of_lane rfl
  case gap =>
    unfold State.gapTimeout
    split <;> exact .of_lane rfl
  case linkTimer => exact s.linkTimeout_sound.trans (State.transmitNext_sound _)
  case reportTimer => exact s.reportTimeout_sound.trans (State.transmitNext_sound _)
  case sent => exact .of_lane (State.transmitNext_lanes _)
  case guard energised => exact (s.guardChange_sound energised).trans (State.transmitNext_sound _)
  case lane hevent => exact hevent.sound.trans (State.transmitNext_sound _)

theorem step_sound {s t : State} (h : step s = .next t) : State.Sound s t := by
  rcases step_cases h with rfl | ⟨rest, hdoes⟩
  · exact s.elapse_sound
  · exact .trans (t := { s with pending := rest }) (.of_lane rfl) hdoes.sound

end Sys2Proof.Machine

open Sys2Proof Sys2Proof.Machine in
/-- Settles O56: resets establish the law of the lane, and every other effect of a step keeps it. -/
theorem laneLawKept : Obligations.LaneLawKept := by
  unfold Obligations.LaneLawKept
  exact fun _ _ hlane hstep => (step_sound hstep).law hlane

open Sys2Proof Sys2Proof.Machine in
/-- Settles O57: as for the law of the lane, on which the bounds of the blind list rest. -/
theorem blindLawKept : Obligations.BlindLawKept := by
  unfold Obligations.BlindLawKept
  exact fun _ _ hlane hblind hstep => (step_sound hstep).blind hlane hblind

open Sys2Proof Sys2Proof.Machine in
/-- Settles O58: as for the law of the lane; only a granted admission adds a ticket, under a free index and with room. -/
theorem poolLawKept : Obligations.PoolLawKept := by
  unfold Obligations.PoolLawKept
  exact fun _ _ hlane hpool hstep => (step_sound hstep).pool hlane hpool

end

section
/-! PROOF. Every step keeps the law of travel (R14 to R16, R20). -/

namespace Sys2Proof.Machine

/-- What acts on a lane leave of its travel keeps the law: no act moves the lane or starts it. -/
theorem Lane.Acted.travelLaw {L M : Lane} (h : Lane.Acted L M) (hL : L.TravelLaw) : M.TravelLaw := by
  obtain ⟨hdepth, hlimit, hclock, hencoder⟩ := hL
  have hsame : M.depth = L.depth := by simp [Lane.depth, h.position, h.reach]
  refine ⟨by rw [hsame]; exact hdepth, fun ht => ?_, fun hc => ?_, fun he => ?_⟩
  · rw [hsame, h.config]; exact hlimit (h.tracking ht)
  · rw [hsame, h.tickTimer]; exact hclock (h.config ▸ hc)
  · rw [h.tickTimer]; exact hencoder (h.config ▸ he)

theorem State.ActsOnLanes.travelLaw {s t : State} (h : State.ActsOnLanes s t) (hs : s.TravelLaw) : t.TravelLaw :=
  fun l => (h.acted l).travelLaw (hs l)

theorem State.TravelLaw.of_lanes {s t : State} (hs : s.TravelLaw) (h : ∀ l, t.lane l = s.lane l) : t.TravelLaw :=
  fun l => by rw [h l]; exact hs l

theorem State.TravelLaw.transmitNext {s : State} (hs : s.TravelLaw) : s.transmitNext.TravelLaw :=
  hs.of_lanes s.transmitNext_lane

/-- A change of one lane keeps the law on every lane if it keeps it there. -/
theorem State.OnLane.travelLaw {l : LaneId} {s t : State} (h : State.OnLane l s t) (hs : s.TravelLaw)
    (hl : (t.lane l).TravelLaw) : t.TravelLaw := fun j => by
  by_cases e : j = l
  · subst e; exact hl
  · rw [h.others j e]; exact hs j

/-- A lane that stands at its reach keeps the law if its tick timer goes with its source. -/
theorem Lane.TravelLaw.at_reach {L : Lane} (hd : L.depth = 0) (hclock : L.config.source = .clock → L.tickTimer.isSome)
    (hencoder : L.config.source = .encoder → L.tickTimer = none) : L.TravelLaw := by
  refine ⟨by simp [hd], fun _ => by simp [hd], fun h => ⟨hd, hclock h⟩, hencoder⟩

/-! ## Steps -/

theorem Lane.depth_back_one (L : Lane) (h : L.depth ≠ 0) : (L.reach - (L.position + 1)).toNat + 1 = L.depth.toNat := by
  simp only [Lane.depth] at *
  bv_omega

theorem Lane.depth_on_one (L : Lane) (h : L.depth.toNat ≤ 65536) :
    (L.reach - (L.position - 1)).toNat = L.depth.toNat + 1 := by
  simp only [Lane.depth] at *
  bv_omega

/-- R14: a forward step at the reach moves both, and one behind it lowers the depth. -/
theorem State.forwardStep_travelLaw {s : State} {l : LaneId} (hs : (s.lane l).TravelLaw) :
    ((s.forwardStep l).lane l).TravelLaw := by
  obtain ⟨hdepth, hlimit, hclock, hencoder⟩ := hs
  unfold State.forwardStep
  simp only
  split
  · rename_i hzero
    refine (State.advance_acts _ l).acted.travelLaw ?_
    rw [State.lane_setLane_same]
    exact Lane.TravelLaw.at_reach (by simp [Lane.depth]) (fun h => (hclock h).2) hencoder
  · rename_i hback
    have hone := (s.lane l).depth_back_one hback
    have hmoved : Lane.TravelLaw { s.lane l with position := (s.lane l).position + 1 } := by
      refine ⟨?_, fun ht => ?_, fun h => absurd (hclock h).1 hback, hencoder⟩
      · simp only [Lane.depth] at *; omega
      · have := hlimit ht
        simp only [Lane.depth] at *; omega
    split
    · refine (State.rereadSensors_acts _ l).acted.travelLaw ?_
      rw [State.lane_setLane_same]; exact hmoved
    · rw [State.lane_setLane_same]; exact hmoved

theorem State.haltLane_tracking {s : State} {l : LaneId} (reason : HaltReason) :
    ((s.haltLane l reason).lane l).tracking = false := by
  by_cases ht : (s.lane l).tracking = true
  · have hstate : ((s.haltLane l reason).lane l).state = .halted := by
      simp only [State.haltLane, if_pos ht, State.lane_produce, State.updStops_eq, State.lane_setLane_same]
      rw [(State.install_stays _ l).1, State.updLane_eq, State.lane_setLane_same]
    simp [Lane.tracking, hstate]
  · rw [State.haltLane_other s l reason (by simpa using ht)]
    simpa using ht

/-- R15, R16: a reverse step of an ENCODER lane that would pass the largest depth takes the reach with it, and one that
passes the reverse limit halts a lane that tracks. -/
theorem State.reverseStep_travelLaw {s : State} {l : LaneId} (hs : (s.lane l).TravelLaw)
    (hsource : (s.lane l).config.source = .encoder) : ((s.reverseStep l).lane l).TravelLaw := by
  obtain ⟨hdepth, -, -, hencoder⟩ := hs
  have hchecked : ∀ M : Lane, M.config = (s.lane l).config → M.tickTimer = (s.lane l).tickTimer →
      M.depth.toNat ≤ 65536 →
      (((if M.tracking = true ∧ M.config.reverseLimit.toNat < M.depth.toNat then
        (s.setLane l M).haltLane l .reverse else s.setLane l M)).lane l).TravelLaw := by
    intro M hconfig htimer hM
    have hkind : M.config.source = .encoder := by rw [hconfig]; exact hsource
    have htimer' : M.tickTimer = none := by rw [htimer]; exact hencoder hsource
    split
    · have hacted := (State.haltLane_acts (s.setLane l M) l .reverse).acted
      rw [State.lane_setLane_same] at hacted
      have hsame : (((s.setLane l M).haltLane l .reverse).lane l).depth = M.depth := by
        simp only [Lane.depth, hacted.position, hacted.reach]
      refine ⟨by rw [hsame]; exact hM, fun ht => ?_, fun h => ?_, fun _ => by rw [hacted.tickTimer]; exact htimer'⟩
      · rw [State.haltLane_tracking] at ht; cases ht
      · rw [hacted.config, hkind] at h; cases h
    · rename_i hwithin
      rw [State.lane_setLane_same]
      refine ⟨hM, fun ht => ?_, fun h => absurd (hkind.symm.trans h) (by decide), fun _ => htimer'⟩
      exact Nat.le_of_not_lt fun hlt => hwithin ⟨ht, hlt⟩
  unfold State.reverseStep
  simp only
  split
  · have hsame : (s.lane l).reach - 1 - ((s.lane l).position - 1) = (s.lane l).depth := by
      simp only [Lane.depth]; bv_omega
    simp only [State.lane_setLane_same]
    exact hchecked _ rfl rfl (by simp only [Lane.depth, hsame] at *; exact hdepth)
  · rename_i hroom
    have hone := (s.lane l).depth_on_one hdepth
    simp only [State.lane_setLane_same]
    refine hchecked _ rfl rfl ?_
    simp only [Lane.depth, maxDepth] at *
    omega

theorem State.decodePair_travelLaw {s : State} {l : LaneId} (new : EncoderPair) (hs : (s.lane l).TravelLaw)
    (hsource : (s.lane l).config.source = .encoder) : ((s.decodePair l new).lane l).TravelLaw := by
  have hheld : ((s.setLane l { s.lane l with encoder := new }).lane l).TravelLaw := by
    rw [State.lane_setLane_same]; exact hs
  unfold State.decodePair
  simp only
  split
  · exact hheld
  · exact State.forwardStep_travelLaw hheld
  · exact State.reverseStep_travelLaw hheld (by rw [State.lane_setLane_same]; exact hsource)
  · exact (State.haltLane_acts _ l .encoder).acted.travelLaw hheld

theorem State.clockTick_travelLaw {s : State} {l : LaneId} (hs : (s.lane l).TravelLaw) :
    ((s.clockTick l).lane l).TravelLaw := by
  obtain ⟨hdepth, hlimit, hclock, hencoder⟩ := hs
  unfold State.clockTick
  simp only
  split
  · rename_i hticks
    refine State.forwardStep_travelLaw ?_
    rw [State.lane_setLane_same]
    exact ⟨hdepth, hlimit, fun h => ⟨(hclock h).1, rfl⟩, fun h => by rw [hencoder h] at hticks; cases hticks⟩
  · exact ⟨hdepth, hlimit, hclock, hencoder⟩

theorem State.LaneEvent.travelLaw {l : LaneId} {s t : State} (h : State.LaneEvent l s t) (hs : s.TravelLaw) :
    t.TravelLaw := by
  have hheard : ∀ x, (s.setLaneInputs l x).TravelLaw := fun x => hs.of_lanes fun j => s.lane_setLaneInputs l j x
  cases h
  case encoder a b =>
    refine (s.encoderChange_onLane l a b).travelLaw (hheard _) ?_
    unfold State.encoderChange
    simp only
    split
    · rename_i hsource
      exact State.decodePair_travelLaw _ (hheard _ l) hsource
    · exact hheard _ l
  case tick => exact (s.clockTick_onLane l).travelLaw hs (State.clockTick_travelLaw (hs l))
  case entry present => exact (State.entryEdge_acts _ l present).onLanes.travelLaw (hheard _)
  case confirm present => exact (State.confirmEdge_acts _ l present).onLanes.travelLaw (hheard _)
  case pulse k => exact (s.pulseEnd_acts l k).onLanes.travelLaw hs
  case rearm k => exact (s.rearmEnd_acts l k).onLanes.travelLaw hs

/-! ## Requests -/

/-- R3, R20: the configured lane stands at its reach, with a tick timer for a CLOCK source only. -/
theorem Lane.configure_travelLaw (L : Lane) (c : LaneConfig) (levels : LaneInputs) :
    (L.configure c levels).TravelLaw := by
  unfold Lane.configure
  split
  · rename_i hsource
    exact Lane.TravelLaw.at_reach (by simp [Lane.depth]) (fun h => by simp [hsource] at h) fun _ => rfl
  · rename_i hsource
    exact Lane.TravelLaw.at_reach (by simp [Lane.depth]) (fun _ => rfl) fun h => by simp [hsource] at h

theorem Lane.enable_travelLaw {L : Lane} (hL : L.TravelLaw) (clear : Bool) (levels : LaneInputs) :
    (L.enable clear levels).TravelLaw :=
  Lane.TravelLaw.at_reach (by simp [Lane.depth, Lane.enable, Lane.mapStations]) (fun h => (hL.2.2.1 h).2) hL.2.2.2

theorem State.updLane_travelLaw {s : State} {l : LaneId} {f : Lane → Lane} (hs : s.TravelLaw)
    (hl : (f (s.lane l)).TravelLaw) : (s.updLane l f).TravelLaw := by
  rw [State.updLane_eq]
  exact (State.setLane_onLane s l _).travelLaw hs (by rw [State.lane_setLane_same]; exact hl)

theorem State.performLaneConfig_travelLaw {s : State} (hs : s.TravelLaw) (x : LaneId × LaneConfig) :
    (s.performLaneConfig x).2.TravelLaw := by
  unfold State.performLaneConfig
  split
  · exact hs
  · split
    · exact hs
    · exact State.updLane_travelLaw hs (Lane.configure_travelLaw ..)

theorem State.performEnable_travelLaw {s : State} (hs : s.TravelLaw) (x : LaneId × Bool) :
    (s.performEnable x).2.TravelLaw := by
  unfold State.performEnable
  split
  · exact hs
  · exact State.updLane_travelLaw hs (Lane.enable_travelLaw (hs x.1) ..)

theorem State.performHello_travelLaw {s : State} (hs : s.TravelLaw) (h : Hello) : (s.performHello h).2.TravelLaw :=
  fun l => by
    simp only [State.performHello, State.lane_mapLanes]
    exact hs l

theorem serve_travelLaw (k : RequestKind) (p : List Byte) {s : State} (hs : s.TravelLaw) :
    (serve k p s).2.TravelLaw := by
  have hchecked : ∀ {α : Type} (b : Bool) (fields : Except Byte α) (act : α → Answer × State),
      (∀ x, (act x).2.TravelLaw) → (checked s b fields act).2.TravelLaw := by
    intro α b fields act h
    rcases checked_cases s b fields act with e | ⟨x, _, e⟩ <;> rw [e]
    · exact hs
    · exact h x
  have hacts : ∀ {l : LaneId} {t : State}, State.Acts l s t → t.TravelLaw := fun a => a.onLanes.travelLaw hs
  cases k
  case hello => exact hchecked _ _ _ fun x => State.performHello_travelLaw hs x
  case ping => exact hchecked _ _ _ fun _ => hs
  case linkStatus => exact hchecked _ _ _ fun _ => hs
  case restart => rcases serveRestart_cases p s with e | e <;> rw [e] <;> exact hs
  case laneConfig => exact hchecked _ _ _ fun x => State.performLaneConfig_travelLaw hs x
  case enable => exact hchecked _ _ _ fun x => State.performEnable_travelLaw hs x
  case disable => exact hchecked _ _ _ fun x => hacts (s.performDisable_acts x)
  case clearStop => exact hchecked _ _ _ fun x => hacts (s.performClearStop_acts x)
  case force => exact hchecked _ _ _ fun x => hacts (s.performForce_acts x)
  case stageLane => exact hchecked _ _ _ fun x => hacts (s.stage_acts x.1 _)
  case stageStation => exact hchecked _ _ _ fun x => hacts (s.stage_acts x.1 _)
  case discardStaged => exact hchecked _ _ _ fun x => hacts (s.performDiscard_acts x)
  case commit => exact hchecked _ _ _ fun x => hacts (s.performCommit_acts x)
  case cancelCommit => exact hchecked _ _ _ fun x => hacts (s.performCancel_acts x)
  case verdict => exact hchecked _ _ _ fun x => hacts (s.performVerdict_acts x)
  case queryLane => exact hchecked _ _ _ fun _ => hs
  case queryTicket => exact hchecked _ _ _ fun x => by rw [State.performQueryTicket_snd]; exact hs
  case queryProfile => exact hchecked _ _ _ fun x => by rw [State.performQueryProfile_snd]; exact hs

theorem State.takeRequest_travelLaw {s : State} (hs : s.TravelLaw) (kind seq : Byte) (payload : List Byte) :
    (s.takeRequest kind seq payload).TravelLaw := by
  unfold State.takeRequest
  split
  · exact hs
  · split
    · exact hs
    · have hanswer : (s.answer kind payload).2.TravelLaw := by
        rcases s.answer_snd_cases kind payload with e | ⟨k, e⟩ <;> rw [e]
        · exact hs
        · exact serve_travelLaw k payload hs
      exact hanswer

theorem State.validFrame_travelLaw {s : State} (hs : s.TravelLaw) (kind seq : Byte) (payload : List Byte) :
    (s.validFrame kind seq payload).TravelLaw := by
  unfold State.validFrame
  simp only
  split
  · exact hs
  · rw [State.toHunt_restartLinkTimer]
    have hheard : s.heard.TravelLaw := hs
    split
    · refine State.TravelLaw.transmitNext (hheard.of_lanes fun l => ?_)
      unfold State.takeAck
      split <;> rfl
    · exact (State.takeRequest_travelLaw hheard kind seq payload).transmitNext

/-! ## Steps of the block -/

theorem State.loseSession_travelLaw {s : State} (hs : s.TravelLaw) : s.loseSession.TravelLaw :=
  s.loseSession_actsOnLanes.travelLaw (s := s.lost) hs

theorem State.afterReset_travelLaw (s : State) (boot : BootReason) (levels : Inputs) :
    (s.afterReset boot levels).TravelLaw := fun l => by
  rw [State.afterReset_lane]
  exact Lane.TravelLaw.at_reach (by simp [Lane.depth, Lane.reset]) (fun h => by cases h) fun _ => rfl

theorem State.Does.travelLaw {s t : State} (h : s.Does t) (hs : s.TravelLaw) : t.TravelLaw := by
  cases h
  case nothing => exact hs
  case reset boot levels n => exact State.afterReset_travelLaw _ boot levels
  case taken => exact hs
  case frame kind seq payload => exact State.validFrame_travelLaw hs kind seq payload
  case oversize => exact hs
  case badCrc =>
    unfold State.discardCrc
    split <;> exact hs
  case gap =>
    unfold State.gapTimeout
    split <;> exact hs
  case linkTimer =>
    rcases s.linkTimeout_cases with e | e <;> rw [e]
    · exact hs.transmitNext
    · exact (State.loseSession_travelLaw hs).transmitNext
  case reportTimer =>
    rcases s.reportTimeout_cases with e | e | ⟨_, e⟩ <;> rw [e]
    · exact hs.transmitNext
    · exact (State.loseSession_travelLaw hs).transmitNext
    · exact State.TravelLaw.transmitNext hs
  case sent => exact State.TravelLaw.transmitNext hs
  case guard energised => exact State.TravelLaw.transmitNext ((s.guardChange_actsOnLanes energised).travelLaw hs)
  case lane hevent => exact (hevent.travelLaw hs).transmitNext

theorem Lane.countDown_travelLaw {L : Lane} (h : L.TravelLaw) : L.countDown.TravelLaw := by
  obtain ⟨hdepth, hlimit, hclock, hencoder⟩ := h
  exact ⟨hdepth, hlimit, fun h => ⟨(hclock h).1, by simpa [Lane.countDown, Machine.countDown] using (hclock h).2⟩,
    fun h => by simpa [Lane.countDown, Machine.countDown] using hencoder h⟩

theorem State.elapse_travelLaw {s : State} (hs : s.TravelLaw) : s.elapse.TravelLaw := by
  rcases s.elapse_cases with e | ⟨n, pending, e⟩ <;> rw [e]
  · exact fun l => by rw [State.microsecond_lane]; exact Lane.countDown_travelLaw (hs l)
  · exact hs

end Sys2Proof.Machine

open Sys2Proof Sys2Proof.Machine in
/-- Settles O55: only steps, LANE_CONFIG, ENABLE and the tick timers touch what the law speaks of. -/
theorem travelLawKept : Obligations.TravelLawKept := by
  unfold Obligations.TravelLawKept
  intro s t hs hstep
  rcases step_cases hstep with rfl | ⟨rest, hdoes⟩
  · exact State.elapse_travelLaw hs
  · exact hdoes.travelLaw hs

end

section
/-! PROOF. The queue of commands: what is executed, and what a command leaves of it (assumption log 12). -/

namespace Sys2Proof.Machine

theorem serve_pending (k : RequestKind) (p : List Byte) (s : State) : (serve k p s).2.pending = s.pending := by
  by_cases hh : k = .hello
  · subst hh
    rcases checked_cases s (p.length == 6) (parseHello p) s.performHello with e | ⟨x, _, e⟩
    · exact congrArg (·.pending) e
    · exact congrArg (·.2.pending) e
  · by_cases hr : k = .restart
    · subst hr
      rcases serveRestart_cases p s with e | e <;> rw [e]
    · obtain ⟨l, h⟩ := serve_onLane k hh hr p s
      exact h.pending

theorem State.takeRequest_pending (s : State) (kind seq : Byte) (payload : List Byte) :
    (s.takeRequest kind seq payload).pending = s.pending := by
  unfold State.takeRequest
  split
  · rfl
  · split
    · rfl
    · rcases s.answer_snd_cases kind payload with e | ⟨k, e⟩
      · exact congrArg (·.pending) e
      · exact (congrArg (·.pending) e).trans (serve_pending k payload s)

theorem State.takeAck_pending (s : State) (n : Byte) : (s.takeAck n).pending = s.pending := by
  unfold State.takeAck
  split <;> rfl

theorem State.validFrame_pending (s : State) (kind seq : Byte) (payload : List Byte) :
    (s.validFrame kind seq payload).pending = s.pending := by
  unfold State.validFrame
  simp only
  split
  · rfl
  · rw [State.toHunt_restartLinkTimer, State.transmitNext_pending]
    split
    · exact State.takeAck_pending ..
    · exact State.takeRequest_pending ..

/-- No command touches the commands that wait behind it. -/
theorem State.Does.pending {s t : State} (h : s.Does t) : t.pending = s.pending := by
  cases h
  case nothing => rfl
  case reset => rfl
  case taken => rfl
  case frame kind seq payload => exact s.validFrame_pending kind seq payload
  case oversize => rfl
  case badCrc =>
    unfold State.discardCrc
    split <;> rfl
  case gap =>
    unfold State.gapTimeout
    split <;> rfl
  case linkTimer =>
    rw [State.transmitNext_pending]
    rcases s.linkTimeout_cases with e | e <;> rw [e]
    exact s.loseSession_actsOnLanes.pending
  case reportTimer =>
    rw [State.transmitNext_pending]
    rcases s.reportTimeout_cases with e | e | ⟨_, e⟩ <;> rw [e]
    exact s.loseSession_actsOnLanes.pending
  case sent => exact State.transmitNext_pending _
  case guard energised => exact (State.transmitNext_pending _).trans (s.guardChange_actsOnLanes energised).pending
  case lane hevent => exact (State.transmitNext_pending _).trans hevent.pending

theorem frameCommand_ok {p : List Byte} (h : payloadOk p = true) (kind seq : Byte) (s : State) :
    frameCommand kind seq p s = .next (s.validFrame kind seq p) := if_pos h

theorem frameCommand_long {p : List Byte} (h : payloadOk p = false) (kind seq : Byte) (s : State) :
    frameCommand kind seq p s = .refused .illFormed := if_neg (by simp [h])

theorem exec_wf {c : Instr} (h : c.wf = true) (s : State) : ∃ t, exec c s = .next t := by
  cases c
  case unknownKindRequest kind seq p =>
    obtain ⟨hkind, hp⟩ : kindUnknown kind = true ∧ payloadOk p = true := by simpa [Instr.wf] using h
    exact ⟨_, (if_pos hkind).trans (frameCommand_ok hp kind seq s)⟩
  case frameOversize n => exact ⟨_, if_pos h⟩
  case powerOn | resetInput | frameCrcFail | gapTimeout | linkTimeout | reportTimeout | transmitComplete
    | encoderChange | clockTick | entrySensorEdge | confirmSensorEdge | guardChange | pulseEnd | rearmEnd
    | characterReceived => exact ⟨_, rfl⟩
  all_goals exact ⟨_, frameCommand_ok h _ _ s⟩

theorem exec_not_wf {c : Instr} (h : c.wf = false) (s : State) : exec c s = .refused .illFormed := by
  cases c
  case unknownKindRequest kind seq p =>
    by_cases hkind : kindUnknown kind = true
    · have hp : payloadOk p = false := by simpa [Instr.wf, hkind] using h
      exact (if_pos hkind).trans (frameCommand_long hp kind seq s)
    · exact if_neg hkind
  case frameOversize n => exact if_neg (by simpa [Instr.wf] using h)
  case powerOn | resetInput | frameCrcFail | gapTimeout | linkTimeout | reportTimeout | transmitComplete
    | encoderChange | clockTick | entrySensorEdge | confirmSensorEdge | guardChange | pulseEnd | rearmEnd
    | characterReceived => cases h
  all_goals exact frameCommand_long h _ _ s

end Sys2Proof.Machine

open Sys2Proof Sys2Proof.Machine in
/-- Settles O3: the meanings that check their operands accept the well-formed ones, and no effect reaches the queue. -/
theorem commandsComplete : Obligations.CommandsComplete := by
  unfold Obligations.CommandsComplete
  refine fun c s => ⟨fun hwf => ?_, fun hwf => exec_not_wf hwf s⟩
  obtain ⟨t, ht⟩ := exec_wf hwf s
  exact ⟨t, ht, (exec_does ht).pending⟩

open Sys2Proof Sys2Proof.Machine in
/-- Settles O1: `step` by its second equation. -/
theorem stepTakesFront : Obligations.StepTakesFront := by
  unfold Obligations.StepTakesFront
  intro c rest s hpending
  simp only [step, hpending]

end

section
/-! PROOF. The three resets and the start state (R21, R144, R151; section 8.11). -/

namespace Sys2Proof.Machine

theorem Lane.reset_fresh (levels : LaneInputs) : Lane.Fresh levels (Lane.reset levels) := by
  have hstations : ∀ k : StationId, (Lane.reset levels).stations[k] = ⟨.idle, [], none, false⟩ := by
    intro k
    fin_cases k <;> rfl
  have hrecords : ∀ k : StationId, (Lane.reset levels).active.body.stations[k] = ⟨.off, none⟩ := by
    intro k
    fin_cases k <;> rfl
  exact ⟨rfl, rfl, rfl, rfl, rfl, rfl, rfl, rfl, rfl, rfl, rfl, rfl, rfl, rfl, rfl, rfl, hrecords, rfl, rfl, rfl,
    hstations, rfl, rfl, rfl⟩

theorem State.afterReset_fresh (s : State) (boot : BootReason) (levels : Inputs) :
    (s.afterReset boot levels).Fresh boot levels := by
  refine ⟨rfl, fun l => ?_, rfl, rfl, rfl, rfl, rfl, rfl, rfl, rfl, rfl, rfl, rfl, rfl, rfl⟩
  have hlane := s.afterReset_lane boot levels l
  rw [State.lane] at hlane
  rw [hlane]
  exact Lane.reset_fresh _

/-- The start state is a power-on with every input line de-energised. -/
theorem State.reset_eq : State.reset = State.reset.afterReset .power Inputs.deenergised := rfl

/-- R151: the last byte of the only reply left ends a RESTART with a reset. -/
theorem State.transmitComplete_restart {s : State} {x : Transmission} {m : Message} (hx : s.link.transmitter = some x)
    (hreply : x.isReply = true) (hrestart : s.link.restarting = true) (hone : s.link.replies = [m]) :
    s.transmitComplete = State.afterReset { s with freeIndex := s.freeIndex + 1 } .restart
      { s.inputs with rateSwitch := Config.rateSwitch s.freeIndex } := by
  have hlast : s.link.replies.tail = [] := by rw [hone]; rfl
  simp only [State.transmitComplete, hx, hreply, if_true, hrestart, hlast, and_self]
  rfl

end Sys2Proof.Machine

open Sys2Proof Sys2Proof.Machine in
/-- Settles O4: each of the three is `State.afterReset` with its boot reason. -/
theorem threeResets : Obligations.ThreeResets := by
  unfold Obligations.ThreeResets
  refine ⟨fun levels s => ⟨_, rfl, s.afterReset_fresh .power levels⟩,
    fun levels s => ⟨_, rfl, s.afterReset_fresh .pin levels⟩, fun s x m hx hreply hrestart hone => ?_⟩
  refine ⟨_, congrArg Host.Outcome.next (State.transmitComplete_restart hx hreply hrestart hone), ?_⟩
  exact State.afterReset_fresh _ .restart _

open Sys2Proof Sys2Proof.Machine in
/-- Settles O5: the start state is the state after a power-on, and a reset establishes every law. -/
theorem resetState : Obligations.ResetState := by
  unfold Obligations.ResetState
  rw [State.reset_eq]
  exact ⟨State.afterReset_fresh .., rfl, .of_empty rfl rfl, Store.reset_kept,
    State.afterReset_travelLaw _ .power Inputs.deenergised, State.afterReset_laneLaw _ .power Inputs.deenergised,
    State.afterReset_blindLaw _ .power Inputs.deenergised, State.afterReset_poolLaw ..⟩

end

section
/-! PROOF. Steps with no command waiting (assumption logs 3 and 4). -/

namespace Sys2Proof.Machine

theorem step_idle {s : State} (h : s.pending = []) : step s = .next s.elapse := by
  simp only [step, h]

/-- R20, R94: one microsecond of a lane, field by field. -/
theorem Lane.countDown_eq (L : Lane) : L.countDown =
    { L with
      tickTimer := L.tickTimer.map (· - 1)
      stations := L.stations.map fun S =>
        { S with
          pulse :=
            match S.pulse with
            | .idle => .idle
            | .pulsing left rearm => .pulsing (left - 1) rearm
            | .rearming left => .rearming (left - 1) } } := by
  have hpulse : ∀ p : Pulse, p.countDown =
      match p with
      | .idle => .idle
      | .pulsing left rearm => .pulsing (left - 1) rearm
      | .rearming left => .rearming (left - 1) := fun p => by cases p <;> rfl
  simp only [Lane.countDown, Lane.mapStations_eq, Machine.countDown, hpulse]

theorem Transmission.countDown_eq (rate : LineRate) : Transmission.countDown rate = fun x : Transmission =>
    { x with left := x.left -
      match rate with
      | .baud115200 => 115200
      | .baud230400 => 230400
      | .baud460800 => 460800
      | .baud921600 => 921600 } := by
  cases rate <;> rfl

theorem State.microsecond_eq (s : State) : s.microsecond =
    { s.mapLanes Lane.countDown with
      clock := if s.clockPhase + 1 < 1000 then s.clock else s.clock + 1
      clockPhase := if s.clockPhase + 1 < 1000 then s.clockPhase + 1 else 0
      link :=
        { s.link with
          gapTimer := s.link.gapTimer.map (· - 1)
          linkTimer := s.link.linkTimer.map (· - 1)
          transmitter := s.link.transmitter.map (Transmission.countDown s.link.lineRate) }
      store := { s.store with timer := s.store.timer.map (· - 1) } } := by
  by_cases h : s.clockPhase + 1 < 1000
  · simp only [State.microsecond, State.tickClock, if_pos h]
    rfl
  · simp only [State.microsecond, State.tickClock, if_neg h]
    rfl

theorem State.elapse_quiet {s : State} (h : ∀ g ∈ s.expiries, g = []) : s.elapse = s.microsecond := by
  simp only [State.elapse, State.ordered_nil s _ h]

/-- Of several timers that have run out one gives its event, and a free value is taken for the choice. -/
theorem State.elapse_event {s : State} {e : Instr} (h : ∃ g ∈ s.expiries, e ∈ g) :
    ∃ event taken, (∃ g ∈ s.expiries, event ∈ g) ∧
      s.elapse = { s with pending := s.pending ++ [event], freeIndex := taken } ∧
      (taken = s.freeIndex ∨ taken = s.freeIndex + 1 ∧ ∃ other, (∃ g ∈ s.expiries, other ∈ g) ∧ other ≠ event) := by
  obtain ⟨hmem, -, htaken⟩ := s.ordered_spec s.expiries
  have hnodup : (s.ordered s.expiries).1.Nodup := (s.ordered_perm s.expiries).nodup_iff.mpr (expiries_nodup s)
  rcases hordered : s.ordered s.expiries with ⟨events, t⟩
  rw [hordered] at hmem htaken hnodup
  rcases events with _ | ⟨event, later⟩
  · cases (hmem e).mpr h
  · refine ⟨event, t.freeIndex, (hmem event).mp (by simp), ?_, ?_⟩
    · simp only [State.elapse, hordered]
      rcases htaken with rfl | ⟨rfl, -⟩ <;> rfl
    · rcases htaken with rfl | ⟨rfl, htwo⟩
      · exact .inl rfl
      · rcases later with _ | ⟨other, rest⟩
        · simp at htwo
        · refine .inr ⟨rfl, other, (hmem other).mp (by simp), ?_⟩
          rintro rfl
          simp at hnodup

end Sys2Proof.Machine

open Sys2Proof Sys2Proof.Machine in
/-- Settles O2: the groups of `State.expiries` hold the events of the timers that have run out, each once. -/
theorem idleStep : Obligations.IdleStep := by
  unfold Obligations.IdleStep
  intro s hpending runOut later sent
  have hrunOut : ∀ e, runOut e ↔ ∃ g ∈ s.expiries, e ∈ g := fun e => (mem_expiries s e).symm
  rw [step_idle hpending]
  refine ⟨fun hnone => ?_, fun ⟨e, he⟩ => ?_⟩
  · have hquiet : ∀ g ∈ s.expiries, g = [] := fun g hg =>
      List.eq_nil_iff_forall_not_mem.mpr fun e he => hnone e ((hrunOut e).mpr ⟨g, hg, he⟩)
    have hlanes : Lane.countDown = _ := funext Lane.countDown_eq
    rw [State.elapse_quiet hquiet, State.microsecond_eq, hlanes, Transmission.countDown_eq] <;> rfl
  · obtain ⟨event, taken, hevent, helapse, hchoice⟩ := State.elapse_event ((hrunOut e).mp he)
    refine ⟨event, taken, (hrunOut event).mpr hevent, ?_, ?_⟩
    · rw [helapse, hpending]
      rfl
    · rcases hchoice with h | ⟨h, other, hother, hne⟩
      · exact .inl h
      · exact .inr ⟨h, other, (hrunOut other).mpr hother, hne⟩

end

section
/-! PROOF. The receiver: discards, the table of R134, and the bytes of a whole frame (R133 to R137). -/

namespace Sys2Proof.Machine

theorem State.discardCrc_counts {s : State} (h : s.link.restarting = false) :
    s.discardCrc = s.toHunt.updCounters fun c => { c with crc := saturatingSucc c.crc } :=
  if_neg (by simp [h])

theorem State.discardCrc_restarting {s : State} (h : s.link.restarting = true) : s.discardCrc = s.toHunt := if_pos h

theorem State.gapTimeout_hunt {s : State} (h : s.link.receiver = .hunt) : s.gapTimeout = s := by
  simp only [State.gapTimeout, h]

theorem State.gapTimeout_frame {s : State} (h : s.link.receiver ≠ .hunt) :
    s.gapTimeout = s.toHunt.updCounters fun c => { c with gap := saturatingSucc c.gap } := by
  unfold State.gapTimeout
  split
  · rename_i hhunt
    exact absurd hhunt h
  · rfl

theorem State.discardCrc_hunt (s : State) :
    s.discardCrc.link.receiver = .hunt ∧ s.discardCrc.link.gapTimer = none := by
  unfold State.discardCrc
  split <;> exact ⟨rfl, rfl⟩

/-- A discarded frame leaves no trace of what the receiver held. -/
theorem State.discardCrc_inFrame (s : State) (r : Receiver) : (s.inFrame r).discardCrc = s.discardCrc := rfl

/-- R134, R137: the last byte of a frame completes it, validly or not. -/
theorem State.receive_last {s : State} {len kind seq hi : Byte} {taken : List Byte}
    (h : s.link.receiver = .crcLo len kind seq taken hi) (b : Byte) :
    s.receive b = if crc16 (crcCover len kind seq taken) = hi ++ b then s.validFrame kind seq taken
      else s.discardCrc := by
  simp only [State.receive, h]

/-- R134: from CRC_HI on, the two CRC bytes decide between the frame and its discard. -/
theorem receiveAll_crc (s : State) (len kind seq hi lo : Byte) (taken : List Byte) :
    receiveAll [hi, lo] (s.inFrame (.crcHi len kind seq taken)) = .next
      (if crc16 (crcCover len kind seq taken) = hi ++ lo then s.validFrame kind seq taken else s.discardCrc) := by
  have hfirst : (s.inFrame (.crcHi len kind seq taken)).receive hi = s.inFrame (.crcLo len kind seq taken hi) := by
    simp only [State.receive, State.inFrame_receiver, State.inFrame_inFrame]
  rw [receiveAll_cons, receiveAll_cons, hfirst, State.receive_last rfl, State.validFrame_inFrame,
    State.discardCrc_inFrame]
  rfl

/-- R133, R134: the bytes of a frame from HUNT on, with any CRC bytes. -/
theorem receiveAll_frame {s : State} (hhunt : s.link.receiver = .hunt) {p : List Byte} (hp : p.length ≤ 96)
    (kind seq hi lo : Byte) :
    receiveAll (0xC5 :: natByte p.length :: kind :: seq :: (p ++ [hi, lo])) s = .next
      (if crc16 (natByte p.length :: kind :: seq :: p) = hi ++ lo then s.validFrame kind seq p else s.discardCrc) := by
  rw [receiveAll_head s kind seq p [hi, lo] hhunt hp, receiveAll_crc]
  rfl

end Sys2Proof.Machine

open Sys2Proof Sys2Proof.Machine in
/-- Settles O16: the two discards by the receiver's state and by a waiting RESTART. -/
theorem discardsCount : Obligations.DiscardsCount := by
  unfold Obligations.DiscardsCount
  refine fun s => ⟨fun hrestart => ?_, fun hframe => ?_, fun hhunt => ?_⟩
  · exact congrArg Host.Outcome.next (State.discardCrc_counts hrestart)
  · exact congrArg Host.Outcome.next (State.gapTimeout_frame hframe)
  · exact congrArg Host.Outcome.next (State.gapTimeout_hunt hhunt)

open Sys2Proof Sys2Proof.Machine in
/-- Settles O17: the rows are the branches of `State.receive`. -/
theorem receiverTable : Obligations.ReceiverTable := by
  unfold Obligations.ReceiverTable
  intro s b len kind seq hi taken goes
  have hgoes : ∀ {r : Receiver}, s.receive b = s.inFrame r → goes r := fun h => congrArg Host.Outcome.next h
  refine ⟨fun h hb => hgoes ?_, fun h hb => hgoes ?_, fun h => hgoes ?_, fun h hlen => hgoes ?_,
    fun h hlen => hgoes ?_, fun h hmore => hgoes ?_, fun h hlast => hgoes ?_, fun h => hgoes ?_, fun h => ?_⟩
  · simp only [State.receive, h, startByte]
    exact if_pos hb
  · simp only [State.receive, h, maxPayload]
    exact if_pos hb
  · simp only [State.receive, h]
  · simp only [State.receive, h, if_pos hlen]
  · simp only [State.receive, h, if_neg hlen]
  · simp only [State.receive, h, if_neg (Nat.not_le.mpr hmore)]
  · simp only [State.receive, h, if_pos (le_of_eq hlast.symm)]
  · simp only [State.receive, h]
  · refine ⟨_, rfl, ?_⟩
    rw [State.receive_last h]
    split
    · exact s.validFrame_hunt kind seq taken
    · exact s.discardCrc_hunt

open Sys2Proof Sys2Proof.Machine in
/-- Settles O18: the bytes of any frame reach the two CRC bytes, which tell the valid frame from the failed one. -/
theorem frameBytesAreTheCommand : Obligations.FrameBytesAreTheCommand := by
  unfold Obligations.FrameBytesAreTheCommand
  intro s kind seq payload hhunt hp
  refine ⟨?_, fun hi lo hcrc => ?_⟩
  · have hbytes : Message.frame ⟨kind, seq, payload⟩ =
        0xC5 :: natByte payload.length :: kind :: seq :: (payload ++
          be16 (crc16 (natByte payload.length :: kind :: seq :: payload))) := rfl
    rw [hbytes, be16, receiveAll_frame hhunt hp, be16_join, if_pos rfl, exec_frame kind seq hp]
  · rw [receiveAll_frame hhunt hp, if_neg (Ne.symm hcrc)]
    rfl

end

section
/-! PROOF. HELLO: a new session and a resumed one (R146 to R148, R177, R183, R184). -/

namespace Sys2Proof.Machine

theorem serveHello_checked (p : List Byte) (s : State) :
    serve .hello p s = checked s (p.length == 6) (parseHello p) s.performHello := rfl

/-- The payload of a HELLO (R146). -/
def Hello.bytes (h : Hello) : List Byte := [h.id] ++ be16 h.linkTimeout ++ be16 h.reportTimeout ++ [h.window]

theorem Hello.bytes_length (h : Hello) : h.bytes.length = 6 := rfl

/-- R146, R159: fields within their ranges are read back as written. -/
theorem parseHello_bytes {h : Hello} (hid : h.id ≠ 0) (hlink : 100 ≤ h.linkTimeout.toNat)
    (hlink' : h.linkTimeout.toNat ≤ 60000) (hreport : 20 ≤ h.reportTimeout.toNat)
    (hreport' : h.reportTimeout.toNat ≤ 5000) (hwindow : 1 ≤ h.window.toNat) (hwindow' : h.window.toNat ≤ 8) :
    parseHello h.bytes = .ok h := by
  have hid' : 1 ≤ h.id.toNat := by bv_omega
  have h1 : within 1 255 (byteAt h.bytes 0) = some h.id := within_of_le hid' (Nat.le_of_lt_succ h.id.isLt)
  have h2 : within 100 60000 (half h.bytes 1) = some h.linkTimeout := by
    rw [half_eq (x := h.linkTimeout) rfl rfl]; exact within_of_le hlink hlink'
  have h3 : within 20 5000 (half h.bytes 3) = some h.reportTimeout := by
    rw [half_eq (x := h.reportTimeout) rfl rfl]; exact within_of_le hreport hreport'
  have h4 : within 1 8 (byteAt h.bytes 5) = some h.window := within_of_le hwindow hwindow'
  simp only [parseHello, h1, h2, h3, h4, field_some]
  rfl

/-- R146: an admitted HELLO whose fields are in range is answered by its effect on the session, in every session state. -/
theorem exec_hello_answered {s t : State} {seq : Byte} {h : Hello} {a : Answer} {bytes : List Byte}
    (hadmits : s.admits seq) (hparse : parseHello h.bytes = .ok h) (ha : s.heard.performHello h = (a, t.heard))
    (hb : a.payload = bytes) : exec (.hello seq h.bytes) s = .next (t.answered 0x01 seq bytes) := by
  have hserve : serve .hello h.bytes s.heard = (a, t.heard) := by
    rw [serveHello_checked, checked_ok (beq_iff_eq.mpr h.bytes_length) hparse, ha]
  have hlength : h.bytes.length ≤ 96 := by rw [h.bytes_length]; decide
  rw [exec_hello]
  exact requestCommand_answered hadmits (.inr rfl) hlength hserve rfl hb

/-- R148, R177, R184: a resumed session at a store whose first reports are those in flight. -/
theorem Store.resume_eq {st : Store} {flying waiting : List StoredReport} (hreports : st.reports = flying ++ waiting)
    (hflying : ∀ r ∈ flying, r.number.isSome) (hwaiting : ∀ r ∈ waiting, r.number = none ∧ r.resendDue = false)
    (window : Byte) :
    st.resume window = { st with
      reports :=
        (flying.take window.toNat).map (fun r => { r with resendDue := true }) ++
        (flying.drop window.toNat).map (fun r => { r with number := none, resendDue := false }) ++ waiting
      nextNumber :=
        if window.toNat < flying.length then ((flying.head?.bind StoredReport.number).getD 0) + window
        else st.nextNumber
      retry := 0 } := by
  have hinFlight : st.inFlight = flying.length :=
    Store.inFlight_eq hreports (fun r hr => (hwaiting r hr).1) hflying
  have hmarked := keepWindow_due flying waiting window.toNat hflying hwaiting
  rw [← hreports] at hmarked
  simp only [Store.resume, hinFlight, hmarked]
  split
  · rename_i hshrinks
    rcases flying with _ | ⟨r, rest⟩
    · simp at hshrinks
    · obtain ⟨n, hn⟩ := Option.isSome_iff_exists.mp (hflying r (by simp))
      have holdest : st.oldestNumber = some n := by simp [Store.oldestNumber, hreports, hn]
      simp [holdest, hn]
  · rfl

end Sys2Proof.Machine

open Sys2Proof Sys2Proof.Machine in
/-- Settles O8: the fields are in range, and the record holds another id. -/
theorem helloOpens : Obligations.HelloOpens := by
  unfold Obligations.HelloOpens
  intro s seq id window link report hadmits hid hlink hlink' hreport hreport' hwindow hwindow' hother
  have hparse := parseHello_bytes (h := ⟨id, link, report, window⟩) hid hlink hlink' hreport hreport' hwindow hwindow'
  refine exec_hello_answered (h := ⟨id, link, report, window⟩) hadmits hparse (a := .ok (be16 familyCode ++
    [revision, s.link.session.bootReason.code, boolByte false])) ?_ rfl
  have hnew : decide (s.heard.link.session.id = some id) = false := decide_eq_false hother
  simp only [State.performHello, hnew]
  rfl

open Sys2Proof Sys2Proof.Machine in
/-- Settles O9: the fields are in range, and the record holds the same id. -/
theorem helloResumes : Obligations.HelloResumes := by
  unfold Obligations.HelloResumes
  intro s seq id window link report flying waiting hadmits hid hlink hlink' hreport hreport' hwindow hwindow' hsame
    hreports hflying hwaiting
  have hparse := parseHello_bytes (h := ⟨id, link, report, window⟩) hid hlink hlink' hreport hreport' hwindow hwindow'
  refine exec_hello_answered (h := ⟨id, link, report, window⟩) hadmits hparse (a := .ok (be16 familyCode ++
    [revision, s.link.session.bootReason.code, boolByte true])) ?_ rfl
  have hresumed : decide (s.heard.link.session.id = some id) = true := decide_eq_true hsame
  have hstore := Store.resume_eq (st := s.heard.store) hreports hflying hwaiting window
  simp only [State.performHello, hresumed, if_true, hstore]
  rfl

end

section
/-! PROOF. RESTART waits for its reply (R151, R185). -/

namespace Sys2Proof.Machine

theorem serveRestart_nil (s : State) :
    serve .restart [] s = (.ok [], { s with link := { s.link with linkTimer := none, restarting := true } }) := by
  rw [serveRestart_checked]
  exact checked_ok rfl rfl

/-- R151: while a RESTART waits a valid frame of any kind only returns the receiver to HUNT. -/
theorem State.validFrame_restarting {s : State} (h : s.link.restarting = true) (kind seq : Byte)
    (payload : List Byte) : s.validFrame kind seq payload = s.toHunt := by
  have hwaits : s.toHunt.link.restarting = true := h
  simp only [State.validFrame, hwaits, if_true]

/-- R151, R185: with its own reply under way the module offers no further report. -/
theorem State.transmitNext_restarting {s : State} (h : s.link.restarting = true) (hreplies : s.link.replies = []) :
    s.transmitNext = s := by
  have hoffers : ¬ (s.link.session.state = .opened ∧ s.link.restarting = false) := by simp [h]
  unfold State.transmitNext
  split
  · rfl
  · simp only [hreplies, if_neg hoffers]

/-- R141: queuing a reply and sending on does not look at whether a RESTART waits or the link timer runs. -/
theorem State.reply_restarting_transmitNext (s : State) (kind seq : Byte) (a : Answer) :
    (State.reply { s.heard with link := { s.heard.link with linkTimer := none, restarting := true } }
      kind seq a).transmitNext =
      { s with link := { (s.answered kind seq a.payload).link with linkTimer := none, restarting := true } } := by
  simp only [State.reply, State.queueReply_transmitNext, State.answered, addEntry_eq]
  rfl

end Sys2Proof.Machine

open Sys2Proof Sys2Proof.Machine in
/-- Settles O10: the request's own effect, then the discards and the silent store of its wait. -/
theorem restartWaits : Obligations.RestartWaits := by
  unfold Obligations.RestartWaits
  refine ⟨fun s seq hadmits hsession => ?_, fun s kind seq payload hrestart hlength => ?_, fun s hrestart => ?_,
    fun s hrestart hreplies => State.transmitNext_restarting hrestart hreplies⟩
  · rw [exec_restart, requestCommand_served hadmits (.inl hsession) (Nat.zero_le _), serveRestart_nil,
      State.reply_restarting_transmitNext]
    rfl
  · rw [exec_frame kind seq hlength, State.validFrame_restarting hrestart]
    rfl
  · exact congrArg Host.Outcome.next (State.discardCrc_restarting hrestart)

end

section
/-! PROOF. The checks before a request itself (R139, R145, R155, R157). -/

namespace Sys2Proof.Machine

/-- R156: no payload length of a request passes what a frame carries. -/
theorem RequestKind.lengths_le {k : RequestKind} {n : Nat} (h : n ∈ k.lengths) : n ≤ 96 := by
  cases k <;> simp only [RequestKind.lengths, List.mem_cons, List.not_mem_nil, or_false] at h <;> omega

theorem RequestKind.anySession_eq_false {k : RequestKind} (hhello : k ≠ .hello) (hstatus : k ≠ .linkStatus) :
    k.anySession = false := by
  cases k
  case hello | linkStatus => contradiction
  all_goals rfl

/-- R139: a kind that is neither ACK nor of a request is answered UNKNOWN_KIND before the session is looked at. -/
theorem exec_unknownKind {s : State} {kind seq : Byte} {payload : List Byte} (hunknown : ∀ k : RequestKind, k.code ≠ kind)
    (hack : kind ≠ ackKind) (hlength : payload.length ≤ 96) (hadmits : s.admits seq) :
    exec (.unknownKindRequest kind seq payload) s = .next (s.answered kind seq [0x13]) := by
  have hnone := RequestKind.ofCode_eq_none hunknown
  have hkind : kindUnknown kind = true := by simp [kindUnknown, hnone, hack]
  have hanswer : s.heard.answer kind payload = (.unknownKind, s.heard) := by simp only [State.answer, hnone]
  have hframe := State.validFrame_answered hadmits hack hanswer
  exact (if_pos hkind).trans ((frameCommand_ok (payloadOk_of_le hlength) kind seq s).trans
    (congrArg Host.Outcome.next hframe))

/-- R157: an admitted request of good length is refused for its first field out of range. -/
theorem exec_badField {s : State} {k : RequestKind} {seq n : Byte} {payload : List Byte}
    (hfield : (k.fields.find? fun f => !f.2 payload).map Prod.fst = some n) (hlength : payload.length ∈ k.lengths)
    (hadmits : s.admits seq) (hsession : s.inSession ∨ k.anySession = true) :
    exec (frameInstr k.code seq payload) s = .next (s.answered k.code seq [0x12, n]) := by
  rw [exec_frameInstr]
  exact requestCommand_answered hadmits hsession (k.lengths_le hlength) (serve_bad s.heard hfield hlength) rfl rfl

/-- R159 to R161: a lane number above 3 is the first field of every request that names a lane. -/
theorem RequestKind.first_field_lane {k : RequestKind} (hnames : k.namesLane = true) {lane : Byte}
    (hlane : 4 ≤ lane.toNat) (rest : List Byte) :
    (k.fields.find? fun f => !f.2 (lane :: rest)).map Prod.fst = some 1 := by
  have hbad : ranges 0 1 0 3 (lane :: rest) = false := by
    simp only [ranges, fieldAt_one, byteAt, List.getD_cons_zero, Bool.and_eq_false_iff, decide_eq_false_iff_not]
    omega
  cases k
  case hello | ping | linkStatus | restart => cases hnames
  all_goals simp [RequestKind.fields, hbad]

end Sys2Proof.Machine

open Sys2Proof Sys2Proof.Machine in
/-- Settles O13: session, kind and field checks in turn; the lane number is one of the fields. -/
theorem earlyRefusals : Obligations.EarlyRefusals := by
  unfold Obligations.EarlyRefusals
  refine ⟨fun s k seq payload hhello hstatus hlength hadmits hsession => ?_,
    fun s kind seq payload hunknown hack hlength hadmits => exec_unknownKind hunknown hack hlength hadmits,
    fun s k seq lane rest hnames hlength hlane hadmits hsession => ?_,
    fun s k seq n payload hfield hlength hadmits hsession => ?_⟩
  · rw [exec_frameInstr]
    exact requestCommand_noSession hadmits hsession (k.anySession_eq_false hhello hstatus) hlength
  · exact exec_badField (RequestKind.first_field_lane hnames hlane rest) hlength hadmits (.inl hsession)
  · refine exec_badField hfield hlength hadmits (hsession.imp_right fun h => ?_)
    rw [h]
    rfl

end

section
/-! PROOF. ACKs at the report store (R139, R175, R178). -/

namespace Sys2Proof.Machine

theorem exec_ack (n : Byte) {payload : List Byte} (h : payload.length ≤ 96) (s : State) :
    exec (.ack n payload) s = .next (s.validFrame ackKind n payload) :=
  frameCommand_ok (payloadOk_of_le h) ackKind n s

theorem State.validFrame_ack {s : State} (h : s.link.restarting = false) (n : Byte) (payload : List Byte) :
    s.validFrame ackKind n payload = (s.heard.takeAck n).transmitNext := by
  have hwaits : ¬ s.toHunt.link.restarting = true := by simp [State.toHunt, h]
  simp only [State.validFrame, if_neg hwaits, if_true, State.toHunt_restartLinkTimer]

theorem Store.inFlight_ne_zero (st : Store) : st.inFlight ≠ 0 ↔ ∃ x ∈ st.reports, x.number.isSome := by
  simp only [Store.inFlight, ne_eq, List.countP_eq_zero, not_forall, not_not, exists_prop]

/-- R175: with room, the count of lost reports is told and starts anew. -/
theorem Store.tellGap_room {st : Store} (hroom : st.reports.length < 48) (now : BitVec 32) :
    st.tellGap now = { st with
      reports :=
        if st.lost = 0 then st.reports
        else st.reports ++ [{ report := .gap st.lost, timestamp := now, number := none, resendDue := false }]
      lost := 0 } := by
  by_cases hlost : st.lost = 0
  · have htold : ¬ (st.lost ≠ 0 ∧ st.reports.length < storeCapacity) := fun h => h.1 hlost
    simp only [Store.tellGap, if_neg htold, if_pos hlost]
    rw [← hlost]
  · have htold : st.lost ≠ 0 ∧ st.reports.length < storeCapacity := ⟨hlost, hroom⟩
    simp only [Store.tellGap, if_pos htold, Store.append_room hroom, if_neg hlost]

/-- R178: an ACK of a report in flight leaves the newer ones. -/
theorem State.takeAck_held {s : State} {n : Byte} {older newer : List StoredReport} {r : StoredReport}
    (hreports : s.store.reports = older ++ r :: newer) (hr : r.number = some n)
    (holder : ∀ x ∈ older, x.number.isSome ∧ x.number ≠ some n) (hfull : s.store.reports.length ≤ 48) :
    s.takeAck n = { s with
      store :=
        { s.store with
          reports :=
            if s.store.lost = 0 then newer
            else newer ++ [{ report := .gap s.store.lost, timestamp := s.clock, number := none, resendDue := false }]
          lost := 0
          retry := 0
          timer :=
            if (∃ x ∈ newer, x.number.isSome) ∧ s.link.session.state = .opened then
              some (s.link.session.reportTimeout.toNat * 1000)
            else none } } := by
  have hroom : newer.length < 48 := by
    have hlength := congrArg List.length hreports
    simp only [List.length_append, List.length_cons] at hlength
    omega
  have hnewer := ackThrough_eq n older newer r hr holder
  rw [← hreports] at hnewer
  simp only [State.takeAck, hnewer, Store.inFlight_ne_zero]
  rw [Store.tellGap_room hroom]
  rfl

theorem State.takeAck_unknown {s : State} {n : Byte} (h : ∀ x ∈ s.store.reports, x.number ≠ some n) :
    s.takeAck n = s.updCounters fun c => { c with badAck := saturatingSucc c.badAck } := by
  simp only [State.takeAck, ackThrough_none n s.store.reports h]

end Sys2Proof.Machine

open Sys2Proof Sys2Proof.Machine in
/-- Settles O14: the ACK is handed to the store, by whether a report in flight holds its number. -/
theorem ackRemoves : Obligations.AckRemoves := by
  unfold Obligations.AckRemoves
  intro s n payload hlength hrestart
  rw [exec_ack n hlength, State.validFrame_ack hrestart]
  refine ⟨fun older newer r hreports hr holder hfull => ?_, fun hunknown => ?_⟩
  · rw [State.takeAck_held (s := s.heard) hreports hr holder hfull]
    rfl
  · rw [State.takeAck_unknown (s := s.heard) hunknown]
    rfl

end

section
/-! PROOF. Events inside a lane: halt, installation, boundary, drain and the return to CLEAR (R9, R12, R35, R70 to R75). -/

namespace Sys2Proof.Machine

/-- R57, R71, R72: the lane after an installation, field by field. -/
theorem Lane.install_eq (L : Lane) (body : ProfileBody) (derived : Derived) : L.install body derived =
    { L with
      retiring := if (∃ t ∈ L.queue, t.generation = L.active.generation) then some L.active else none
      active := { generation := L.active.generation + 1, body := body, derived := derived }
      staging := .absent
      blind := L.blind.filter fun i =>
        !i.passed L.reach (derived.retireSpan.toNat + body.fields.flushMargin.toNat) } := by
  simp only [Lane.install, Lane.checkBlind, Lane.removable_eq, List.any_eq_true, beq_iff_eq]

theorem State.reachBoundary_held {s : State} {l : LaneId} {body : ProfileBody} {derived : Derived} {b : Boundary}
    (h : (s.lane l).staging = .committing body derived (.pending b)) (hretiring : (s.lane l).retiring.isSome) :
    s.reachBoundary l = s.setLane l { s.lane l with staging := .committing body derived .held } := by
  simp only [State.reachBoundary, h, if_pos hretiring, State.updLane_eq]

theorem State.reachBoundary_installs {s : State} {l : LaneId} {body : ProfileBody} {derived : Derived} {b : Boundary}
    (h : (s.lane l).staging = .committing body derived (.pending b)) (hretiring : (s.lane l).retiring = none) :
    s.reachBoundary l = (s.install l).testDrain l := by
  simp [State.reachBoundary, h, hretiring]

theorem State.testDrain_false {s : State} {l : LaneId} (h : (s.lane l).drainDone = false) : s.testDrain l = s :=
  if_neg (by simp [h])

/-- R9: a drain that is complete, before the commit that may wait for it. -/
theorem State.testDrain_true {s : State} {l : LaneId} (h : (s.lane l).drainDone = true) :
    s.testDrain l = ((s.setLane l { s.lane l with state := .disabled }).produce (.drained l)).install l := by
  simp only [State.testDrain, if_pos h, State.updLane_eq]

theorem State.testDrain_noCommit {s : State} {l : LaneId} (h : (s.lane l).drainDone = true)
    (hcommit : (s.lane l).noCommit) :
    s.testDrain l = (s.setLane l { s.lane l with state := .disabled }).produce (.drained l) := by
  rw [State.testDrain_true h, State.install_noCommit]
  rw [State.lane_produce, State.lane_setLane_same]
  exact hcommit

/-- R75: the commit that waits installs on the empty lane after the DRAINED report. -/
theorem State.testDrain_commit {s : State} {l : LaneId} (h : (s.lane l).drainDone = true) {body : ProfileBody}
    {derived : Derived} {c : Commit} (hcommit : (s.lane l).staging = .committing body derived c) :
    s.testDrain l = ((s.setLane l
      { s.lane l with
        state := .disabled
        retiring := none
        active := { generation := (s.lane l).active.generation + 1, body := body, derived := derived }
        staging := .absent }).produce (.drained l)).produce
      (.committed l ((s.lane l).active.generation + 1) (s.lane l).nextSerial) := by
  obtain ⟨-, hqueue, hblind, -⟩ := (s.lane l).drainDone_iff.mp h
  have hlane : ((s.setLane l { s.lane l with state := .disabled }).produce (.drained l)).lane l =
      { s.lane l with state := .disabled } := by rw [State.lane_produce, State.lane_setLane_same]
  rw [State.testDrain_true h, State.install_empty _ l body derived c (by rw [hlane]; exact hcommit)
    (by rw [hlane]; exact hqueue) (by rw [hlane]; exact hblind), hlane, ← State.produce_setLane,
    State.setLane_setLane]

end Sys2Proof.Machine

open Sys2Proof Sys2Proof.Machine in
/-- Settles O60: each event by its cases; where the return to CLEAR is read twice, a drain that comes first leaves no
commit for the boundary. -/
theorem laneEvents : Obligations.LaneEvents := by
  unfold Obligations.LaneEvents
  intro s l L drained clear fills committed
  have hdrained : drained ↔ L.drainDone = true := L.drainDone_iff.symm
  have hclear : clear ↔ L.clearBoundary = true := L.clearBoundary_iff.symm
  obtain ⟨hopen, hboundary, hboth⟩ := s.detectorCleared_cases l
  refine ⟨fun reason => ⟨s.haltLane_other l reason, fun ht => (s.haltLane_eq l reason ht).1,
      fun body derived c ht => (s.haltLane_eq l reason ht).2 body derived c⟩,
    fun body derived c h => ?_, fun body derived b h => ⟨State.reachBoundary_held h, State.reachBoundary_installs h⟩,
    fun h => ?_, fun h hcommit => State.testDrain_noCommit (hdrained.mp h) hcommit,
    fun body derived c h hcommit => State.testDrain_commit (hdrained.mp h) hcommit, fun h => ?_, fun h hd => ?_,
    fun h hd => ?_⟩
  · rw [State.install_eq s l body derived c h, Lane.install_eq]
  · exact State.testDrain_false (by simpa using fun hd => h (hdrained.mpr hd))
  · exact hopen (by simpa using fun hc => h (hclear.mpr hc))
  · exact hboundary (hclear.mp h) (by simpa using fun hd' => hd (hdrained.mpr hd'))
  · refine (hboth (hclear.mp h) (hdrained.mp hd)).imp_right fun hfirst => ?_
    have hnone := State.testDrain_ends { s with freeIndex := s.freeIndex + 1 } l (hdrained.mp hd)
    rw [hfirst, State.testWhenClear_noCommit _ l hnone]

end

section
/-! PROOF. DISABLE of a lane that tracks (R7 to R10, R53, R75). -/

namespace Sys2Proof.Machine

/-- An admitted DISABLE answers what the lane's state and the mode decide. -/
theorem exec_disable_answered {s t : State} {seq : Byte} {l : LaneId} {mode : DisableMode} {a : Answer}
    {bytes : List Byte} (hadmits : s.admits seq) (hsession : s.inSession)
    (ha : s.heard.performDisable (l, mode) = (a, t.heard)) (hb : a.payload = bytes) :
    exec (.disable seq [laneByte l, mode.code]) s = .next (t.answered 0x12 seq bytes) := by
  have hlength : [laneByte l, mode.code].length ≤ 96 := by simp
  rw [exec_disable]
  exact requestCommand_answered hadmits (.inl hsession) hlength ((serveDisable_bytes _ l mode).trans ha) rfl hb

theorem State.performDisable_running_drain {s : State} {l : LaneId} (h : (s.lane l).state = .running) :
    s.performDisable (l, .drain) = (.accepted, (s.setLane l { s.lane l with state := .draining }).testDrain l) := by
  simp only [State.performDisable, h, State.updLane_eq]

theorem State.performDisable_draining_drain {s : State} {l : LaneId} (h : (s.lane l).state = .draining) :
    s.performDisable (l, .drain) = (.accepted, s) := by
  simp only [State.performDisable, h]

theorem State.performDisable_abort {s : State} {l : LaneId} (h : (s.lane l).tracking = true) :
    s.performDisable (l, .abort) = (.ok [], s.abortLane l) := by
  have hstate : (s.lane l).state = .running ∨ (s.lane l).state = .draining := by simpa [Lane.tracking] using h
  rcases hstate with e | e <;> simp only [State.performDisable, e]

theorem Lane.abandon_eq (L : Lane) (state : LaneState) : { L.abandon with state := state } = L.abandoned state := by
  simp only [Lane.abandon, Lane.abandoned, Lane.mapStations_eq]
  rfl

/-- R53: the report of the tickets that an abort abandons, if there was one. -/
def State.tellAbandoned (l : LaneId) (queue : List Ticket) (t : State) : State :=
  match queue.head?, queue.getLast? with
  | some first, some last => t.produce (.abandoned l (natByte queue.length) first.serial last.serial)
  | _, _ => t

theorem State.tellAbandoned_setLane (l : LaneId) (queue : List Ticket) (t : State) (x : Lane) :
    (t.setLane l x).tellAbandoned l queue = (t.tellAbandoned l queue).setLane l x := by
  unfold State.tellAbandoned
  split
  · exact State.produce_setLane ..
  · rfl

theorem State.heard_tellAbandoned (l : LaneId) (queue : List Ticket) (t : State) :
    t.heard.tellAbandoned l queue = (t.tellAbandoned l queue).heard := by
  unfold State.tellAbandoned
  split <;> rfl

theorem State.abortLane_eq (s : State) (l : LaneId) :
    s.abortLane l =
      ((s.setLane l ((s.lane l).abandoned .disabled)).tellAbandoned l (s.lane l).queue).install l := by
  rcases hfirst : (s.lane l).queue.head? with _ | first
  · simp only [State.abortLane, State.updLane_eq, Lane.abandon_eq, State.tellAbandoned, abandonedReport, hfirst]
  · rcases hlast : (s.lane l).queue.getLast? with _ | last <;>
      simp only [State.abortLane, State.updLane_eq, Lane.abandon_eq, State.tellAbandoned, abandonedReport, hfirst, hlast]

/-- R10, R53: an abort without a commit. -/
theorem State.abortLane_noCommit {s : State} {l : LaneId} (h : (s.lane l).noCommit) :
    s.abortLane l = (s.setLane l ((s.lane l).abandoned .disabled)).tellAbandoned l (s.lane l).queue := by
  rw [State.abortLane_eq, State.install_noCommit]
  rw [State.tellAbandoned_setLane, State.lane_setLane_same]
  exact h

/-- R10, R75: an abort reaches the boundary of the commit that waits. -/
theorem State.abortLane_commit {s : State} {l : LaneId} {body : ProfileBody} {derived : Derived} {c : Commit}
    (h : (s.lane l).staging = .committing body derived c) :
    s.abortLane l = ((s.setLane l
      { (s.lane l).abandoned .disabled with
        active := { generation := (s.lane l).active.generation + 1, body := body, derived := derived }
        staging := .absent }).tellAbandoned l (s.lane l).queue).produce
      (.committed l ((s.lane l).active.generation + 1) (s.lane l).nextSerial) := by
  have hlane : ((s.setLane l ((s.lane l).abandoned .disabled)).tellAbandoned l (s.lane l).queue).lane l =
      (s.lane l).abandoned .disabled := by rw [State.tellAbandoned_setLane, State.lane_setLane_same]
  rw [State.abortLane_eq, State.install_empty _ l body derived c (by rw [hlane]; exact h) (by rw [hlane]; rfl)
    (by rw [hlane]; rfl), hlane, ← State.tellAbandoned_setLane, State.setLane_setLane]
  rfl

end Sys2Proof.Machine

open Sys2Proof Sys2Proof.Machine in
/-- Settles O25: the mode and the lane state pick the branch; a drain that is complete at once and an abort are the
lane's own events. -/
theorem disableEnds : Obligations.DisableEnds := by
  unfold Obligations.DisableEnds
  constructor
  · intro s seq l hadmits hsession holds
    have hdrain : ∀ {t : State}, (s.lane l).state = .running →
        (s.heard.setLane l { s.lane l with state := .draining }).testDrain l = t.heard →
        exec (.disable seq [laneByte l, 0]) s = .next (t.answered 0x12 seq [0x02]) := fun hrunning ht =>
      exec_disable_answered (mode := .drain) hadmits hsession
        ((State.performDisable_running_drain (s := s.heard) hrunning).trans (congrArg _ ht)) rfl
    have hdone : ((s.heard.setLane l { s.lane l with state := .draining }).lane l).drainDone = true ↔ holds := by
      rw [State.lane_setLane_same, Lane.drainDone_iff]
      exact and_iff_right rfl
    refine ⟨fun hrunning hmore => hdrain hrunning ?_, fun hrunning hholds hcommit => hdrain hrunning ?_,
      fun body derived c hrunning hholds hcommit => hdrain hrunning ?_, fun hdraining => ?_⟩
    · rw [State.testDrain_false (by simpa using fun h => hmore (hdone.mp h))]
      rfl
    · rw [State.testDrain_noCommit (hdone.mpr hholds) (by rw [State.lane_setLane_same]; exact hcommit),
        State.lane_setLane_same, State.setLane_setLane]
      rfl
    · rw [State.testDrain_commit (hdone.mpr hholds) (by rw [State.lane_setLane_same]; exact hcommit),
        State.lane_setLane_same, State.setLane_setLane]
      rfl
    · exact exec_disable_answered (mode := .drain) hadmits hsession
        (State.performDisable_draining_drain (s := s.heard) hdraining) rfl
  · intro s seq l hadmits hsession htracks L told
    have habort : ∀ {t : State}, s.heard.abortLane l = t.heard →
        exec (.disable seq [laneByte l, 1]) s = .next (t.answered 0x12 seq [0x00]) := fun ht =>
      exec_disable_answered (mode := .abort) hadmits hsession
        ((State.performDisable_abort (s := s.heard) htracks).trans (congrArg _ ht)) rfl
    refine ⟨fun hcommit => habort ?_, fun body derived c hcommit => habort ?_⟩
    · rw [State.abortLane_noCommit (s := s.heard) hcommit, State.heard_setLane, State.heard_tellAbandoned]
      rfl
    · rw [State.abortLane_commit (s := s.heard) hcommit, State.heard_setLane, State.heard_tellAbandoned]
      rfl

end

section
/-! PROOF. What the transmitter takes next (R140, R141, R169, R170, R176, R180). -/

namespace Sys2Proof.Machine

/-- R169, R170: a report's message is its layout behind its timestamp. -/
theorem StoredReport.message_layout (r : StoredReport) (number : Byte) : r.message number =
    { kind := r.report.layout.1
      seq := number
      payload := bigEndian 4 r.timestamp.toNat ++ r.report.layout.2 } := by
  rw [layout_code, layout_fields, ← be32_bigEndian]
  rfl

/-- The transmitter is free, and these replies are still to send (R140, R141). -/
def State.freed (s : State) (left : List Message) : State :=
  { s with link := { s.link with transmitter := none, replies := left } }

/-- R141: unless a RESTART ends with it, a frame that is sent makes way for the next one. -/
theorem State.transmitComplete_next {s : State} {x : Transmission} (hx : s.link.transmitter = some x)
    {left : List Message} (hleft : left = if x.isReply then s.link.replies.tail else s.link.replies)
    (hrestart : s.link.restarting = false ∨ left ≠ []) :
    s.transmitComplete = (s.freed left).transmitNext := by
  by_cases hreply : x.isReply = true
  · obtain rfl : left = s.link.replies.tail := by rw [hleft, if_pos hreply]
    have hends : ¬ (s.link.restarting = true ∧ s.link.replies.tail = []) := by
      rintro ⟨h, hnone⟩
      rcases hrestart with h' | h'
      · rw [h] at h'; cases h'
      · exact h' hnone
    simp only [State.transmitComplete, hx, hreply, if_true, if_neg hends]
    rfl
  · obtain rfl : left = s.link.replies := by rw [hleft, if_neg hreply]
    simp only [State.transmitComplete, hx, if_neg hreply]
    rfl

/-- R141, R176: without a reply a free transmitter takes in OPEN what the store offers. -/
theorem State.transmitNext_offer {s : State} (hfree : s.link.transmitter = none) (hreplies : s.link.replies = [])
    (hsession : s.inSession) (hrestart : s.link.restarting = false) {m : Message} {st : Store}
    (hoffer : s.store.offer s.link.session = some (m, st)) :
    s.transmitNext = { s with link := s.link.begin m false, store := st } := by
  have hopen : s.link.session.state = .opened ∧ s.link.restarting = false := ⟨hsession, hrestart⟩
  simp only [State.transmitNext, hfree, hreplies, if_pos hopen, hoffer]

theorem State.transmitNext_noOffer {s : State} (hreplies : s.link.replies = [])
    (hoffer : s.inSession → s.store.offer s.link.session = none) : s.transmitNext = s := by
  unfold State.transmitNext
  split
  · rfl
  · by_cases hopen : s.link.session.state = .opened ∧ s.link.restarting = false
    · simp only [hreplies, if_pos hopen, hoffer hopen.1]
    · simp only [hreplies, if_neg hopen]

/-! ## What the store offers -/

/-- R176 step 1: the oldest report in flight that is due for resending. -/
theorem Store.offer_resend {st : Store} {before after : List StoredReport} {r : StoredReport} {number : Byte}
    (hreports : st.reports = before ++ r :: after) (hbefore : ∀ y ∈ before, y.number.isSome → y.resendDue = false)
    (hnumber : r.number = some number) (hdue : r.resendDue = true) (se : Session) :
    st.offer se = some (r.message number,
      { st with
        reports := before ++ { r with resendDue := false } :: after
        timer := if st.oldestNumber = some number then some (se.reportTimeout.toNat * 1000) else st.timer }) := by
  have hfirst : updateFirst (fun r => r.number.isSome && r.resendDue) (fun r => { r with resendDue := false })
      st.reports = some ({ r with resendDue := false }, before ++ { r with resendDue := false } :: after) := by
    rw [hreports]
    exact updateFirst_eq _ _ before r after (by simpa using hbefore) (by simp [hnumber, hdue])
  have hoffer : st.offerResend se = some (r.message number,
      { st with
        reports := before ++ { r with resendDue := false } :: after
        timer := if st.oldestNumber = some number then some (se.reportTimeout.toNat * 1000) else st.timer }) := by
    simp only [Store.offerResend, hfirst, hnumber, eq_comm (a := some number)]
    rfl
  simp only [Store.offer, hoffer]

theorem Store.offerResend_none {st : Store} (h : ∀ y ∈ st.reports, y.number.isSome → y.resendDue = false)
    (se : Session) : st.offerResend se = none := by
  have hnone : updateFirst (fun r => r.number.isSome && r.resendDue) (fun r => { r with resendDue := false })
      st.reports = none := updateFirst_none _ _ _ (by simpa using h)
  simp only [Store.offerResend, hnone]

/-- The reports in flight with none due, before the unsent ones. -/
theorem Store.none_due {st : Store} {flying waiting : List StoredReport} (hreports : st.reports = flying ++ waiting)
    (hflying : ∀ y ∈ flying, y.number.isSome ∧ y.resendDue = false) (hwaiting : ∀ y ∈ waiting, y.number = none) :
    ∀ y ∈ st.reports, y.number.isSome → y.resendDue = false := by
  intro y hy hsome
  rw [hreports] at hy
  rcases List.mem_append.mp hy with h | h
  · exact (hflying y h).2
  · rw [hwaiting y h] at hsome; cases hsome

/-- R176 step 2: within the window, the oldest unsent report under the next number. -/
theorem Store.offer_unsent {st : Store} {flying waiting : List StoredReport} {r : StoredReport} {se : Session}
    (hreports : st.reports = flying ++ r :: waiting) (hflying : ∀ y ∈ flying, y.number.isSome ∧ y.resendDue = false)
    (hwaiting : ∀ y ∈ r :: waiting, y.number = none) (hwindow : flying.length < se.window.toNat) :
    st.offer se = some (r.message st.nextNumber,
      { st with
        reports := flying ++ { r with number := some st.nextNumber } :: waiting
        nextNumber := st.nextNumber + 1
        timer := if flying = [] then some (se.reportTimeout.toNat * 1000) else st.timer }) := by
  have hinFlight : st.inFlight = flying.length := Store.inFlight_eq hreports hwaiting fun y hy => (hflying y hy).1
  have hfirst : updateFirst (fun r => r.number.isNone) (fun r => { r with number := some st.nextNumber })
      st.reports = some ({ r with number := some st.nextNumber },
        flying ++ { r with number := some st.nextNumber } :: waiting) := by
    rw [hreports]
    refine updateFirst_eq _ _ flying r waiting (fun y hy => ?_) (by simp [hwaiting r (by simp)])
    obtain ⟨n, hn⟩ := Option.isSome_iff_exists.mp (hflying y hy).1
    simp [hn]
  have hresend := Store.offerResend_none (Store.none_due hreports hflying hwaiting) se
  simp only [Store.offer, hresend, Store.offerUnsent, hinFlight, if_pos hwindow, hfirst, List.length_eq_zero_iff]
  rfl

theorem Store.offer_none {st : Store} {flying waiting : List StoredReport} {se : Session}
    (hreports : st.reports = flying ++ waiting) (hflying : ∀ y ∈ flying, y.number.isSome ∧ y.resendDue = false)
    (hwaiting : ∀ y ∈ waiting, y.number = none) (hends : waiting = [] ∨ se.window.toNat ≤ flying.length) :
    st.offer se = none := by
  have hinFlight : st.inFlight = flying.length := Store.inFlight_eq hreports hwaiting fun y hy => (hflying y hy).1
  have hresend := Store.offerResend_none (Store.none_due hreports hflying hwaiting) se
  have hunsent : st.offerUnsent se = none := by
    rcases hends with rfl | hfull
    · have hnone : updateFirst (fun r => r.number.isNone) (fun r => { r with number := some st.nextNumber })
          st.reports = none := by
        rw [hreports, List.append_nil]
        refine updateFirst_none _ _ _ fun y hy => ?_
        obtain ⟨n, hn⟩ := Option.isSome_iff_exists.mp (hflying y hy).1
        simp [hn]
      simp only [Store.offerUnsent, hnone, ite_self]
    · simp only [Store.offerUnsent, hinFlight, if_neg (Nat.not_lt.mpr hfull)]
  simp only [Store.offer, hresend, hunsent]

end Sys2Proof.Machine

open Sys2Proof Sys2Proof.Machine in
/-- Settles O20: the sent frame makes way, and the freed transmitter looks at the replies and then at the store's offer. -/
theorem transmitterTakes : Obligations.TransmitterTakes := by
  unfold Obligations.TransmitterTakes
  refine ⟨StoredReport.message_layout, ?_⟩
  intro s x hx left begins
  have hnext : s.link.restarting = false ∨ left ≠ [] → exec .transmitComplete s =
      .next (s.freed left).transmitNext := fun hrestart =>
    congrArg Host.Outcome.next (State.transmitComplete_next hx rfl hrestart)
  refine ⟨fun m rest hleft => ?_, fun hleft hsession hrestart => ⟨?_, ?_, ?_⟩, fun hleft hsession hrestart => ?_⟩
  · have hfirst : (s.freed left).link.sending m = some
        { message := m, isReply := true, left := (6 + m.payload.length) * 10 * 1000000 } := by
      have hhead : left.headD m = m := by rw [hleft]; rfl
      simp only [Link.sending, State.freed, hhead]
    rw [hnext (.inr (by rw [hleft]; simp)), State.transmitNext_replies_cons (s := s.freed left) hleft, hfirst]
    rfl
  · intro before r after number hreports hbefore hnumber hdue
    rw [hnext (.inl hrestart), State.transmitNext_offer (s := s.freed left) rfl hleft hsession hrestart
      (Store.offer_resend hreports hbefore hnumber hdue _)]
    rfl
  · intro flying r waiting hreports hflying hwaiting hwindow
    rw [hnext (.inl hrestart), State.transmitNext_offer (s := s.freed left) rfl hleft hsession hrestart
      (Store.offer_unsent hreports hflying hwaiting hwindow)]
    rfl
  · intro flying waiting hreports hflying hwaiting hends
    rw [hnext (.inl hrestart), State.transmitNext_noOffer (s := s.freed left) hleft
      fun _ => Store.offer_none hreports hflying hwaiting hends, hleft]
    rfl
  · rw [hnext (.inl hrestart), State.transmitNext_noOffer (s := s.freed left) hleft
      fun hopen => absurd hopen hsession, hleft]
    rfl

end

section
/-! PROOF. The link timer and the report timer run out in OPEN (R149, R150, R181, R182). -/

namespace Sys2Proof.Machine

/-- Acts that come together, one of each kind, are taken in some order; a free value goes to a choice among several. -/
theorem State.ordered_singles {α : Type} (s : State) (xs : List α) : ∃ (order : List α) (taken : Nat),
    order.Perm xs ∧ (taken = s.freeIndex ∨ taken = s.freeIndex + 1 ∧ 2 ≤ order.length) ∧
    s.ordered (xs.map fun x => [x]) = (order, { s with freeIndex := taken }) := by
  have hperm := s.ordered_perm (xs.map fun x => [x])
  obtain ⟨-, -, htaken⟩ := s.ordered_spec (xs.map fun x => [x])
  rw [flatten_each] at hperm
  rcases htaken with h | ⟨h, hlength⟩
  · exact ⟨_, s.freeIndex, hperm, .inl rfl, Prod.ext rfl h⟩
  · exact ⟨_, s.freeIndex + 1, hperm, .inr ⟨rfl, hlength⟩, Prod.ext rfl h⟩

/-- The lanes after their link-loss policies, before any drain completes (R150). -/
def State.lostLanes (s : State) : State := s.lost.mapLanes Lane.linkLoss

/-- R8, R131: the link-loss policy, field by field. -/
theorem Lane.linkLoss_eq (L : Lane) : L.linkLoss =
    match L.config.linkPolicy with
    | .continue_ => L
    | .stop => { L with stops := { L.stops with link := true } }
    | .drain => { L with state := if L.state = .running then .draining else L.state } := by
  rcases hpolicy : L.config.linkPolicy with _ | _ | _
  · simp only [Lane.linkLoss, hpolicy]
  · simp only [Lane.linkLoss, hpolicy]
  · simp only [Lane.linkLoss, hpolicy]
    split <;> rfl

/-- R9, R150: the drains that are complete follow the policies in an open order. -/
theorem State.loseSession_eq (s : State) : s.loseSession =
    (s.lostLanes.ordered ((allLanes.filter fun l => (s.lostLanes.lane l).drainDone).map fun l => [l])).1.foldl
      State.testDrain
      (s.lostLanes.ordered ((allLanes.filter fun l => (s.lostLanes.lane l).drainDone).map fun l => [l])).2 := rfl

theorem State.loseSession_noDrain {s : State} (h : ∀ l, (s.lostLanes.lane l).drainDone = false) :
    s.loseSession = s.lostLanes := by
  have hnone : (allLanes.filter fun l => (s.lostLanes.lane l).drainDone) = [] :=
    List.filter_eq_nil_iff.mpr fun l _ => by simp [h l]
  rw [State.loseSession_eq, hnone, List.map_nil, State.ordered_nil _ _ (by simp)]
  rfl

theorem State.loseSession_oneDrain {s : State} {l : LaneId} (hl : (s.lostLanes.lane l).drainDone = true)
    (hothers : ∀ j, j ≠ l → (s.lostLanes.lane j).drainDone = false) : s.loseSession = s.lostLanes.testDrain l := by
  have hone := filter_one_lane (fun l => (s.lostLanes.lane l).drainDone) l hl hothers
  rw [State.loseSession_eq, hone, List.map_singleton, State.ordered_one _ (g := [l]) (by simp)]
  rfl

theorem State.loseSession_spec (s : State) : ∃ (order : List LaneId) (taken : Nat), order.Nodup ∧
    (∀ l, l ∈ order ↔ (s.lostLanes.lane l).drainDone = true) ∧
    (taken = s.freeIndex ∨ taken = s.freeIndex + 1 ∧ 2 ≤ order.length) ∧
    s.loseSession = order.foldl State.testDrain { s.lostLanes with freeIndex := taken } := by
  obtain ⟨order, taken, hperm, htaken, hordered⟩ :=
    s.lostLanes.ordered_singles (allLanes.filter fun l => (s.lostLanes.lane l).drainDone)
  have hlanes : allLanes.Nodup := by decide
  refine ⟨order, taken, hperm.nodup_iff.mpr (hlanes.filter _), fun l => ?_, htaken, ?_⟩
  · rw [hperm.mem_iff, List.mem_filter]
    exact and_iff_right (mem_allLanes l)
  · rw [State.loseSession_eq, hordered]

end Sys2Proof.Machine

open Sys2Proof Sys2Proof.Machine in
/-- Settles O19: below the retry limit a resend, else the loss of the session, which runs the drains it completes. -/
theorem timersRunOut : Obligations.TimersRunOut := by
  unfold Obligations.TimersRunOut
  refine ⟨fun s hsession htimer hretry => ?_, ?_⟩
  · have hruns : s.link.session.state = .opened ∧ s.store.timer.isSome := ⟨hsession, htimer⟩
    have hresend : s.reportTimeout = { s with
        store :=
          { s.store with
            reports := s.store.reports.map StoredReport.markDue, retry := s.store.retry + 1, timer := none } } := by
      simp only [State.reportTimeout, if_pos hruns]
      exact if_pos hretry
    exact congrArg (fun t => Host.Outcome.next (State.transmitNext t)) hresend
  · intro s c hsession htimer loss lost drained
    have hloss : exec c s = .next s.loseSession.transmitNext := by
      rcases htimer with ⟨rfl, hlink⟩ | ⟨rfl, hreport, hretry⟩
      · have hruns : s.link.session.state = .opened ∧ s.link.linkTimer.isSome := ⟨hsession, hlink⟩
        exact congrArg (fun t => Host.Outcome.next (State.transmitNext t)) (if_pos hruns)
      · have hruns : s.link.session.state = .opened ∧ s.store.timer.isSome := ⟨hsession, hreport⟩
        have hlimit : ¬ s.store.retry < retryLimit := Nat.not_lt.mpr hretry
        exact congrArg (fun t => Host.Outcome.next (State.transmitNext t)) ((if_pos hruns).trans (if_neg hlimit))
    have hlost : s.lostLanes = lost := by
      have hpolicy : Lane.linkLoss = loss := funext Lane.linkLoss_eq
      rw [State.lostLanes, hpolicy]
      rfl
    have hdrained : ∀ l, drained l ↔ (s.lostLanes.lane l).drainDone = true := fun l => by
      rw [hlost]
      exact (lost.lane l).drainDone_iff.symm
    have hnot : ∀ {l}, ¬ drained l → (s.lostLanes.lane l).drainDone = false := fun h => by
      simpa using fun hd => h ((hdrained _).mpr hd)
    rw [hloss]
    refine ⟨fun hnone => ?_, fun l hl hothers hcommit => ?_, ?_⟩
    · rw [State.loseSession_noDrain fun l => hnot (hnone l), hlost]
    · rw [State.loseSession_oneDrain ((hdrained l).mp hl) fun j hj => hnot (hothers j hj), hlost,
        State.testDrain_noCommit (by rw [← hlost]; exact (hdrained l).mp hl) hcommit]
    · obtain ⟨order, taken, hnodup, hmem, htaken, hfold⟩ := s.loseSession_spec
      refine ⟨order, taken, hnodup, fun l => (hmem l).trans (hdrained l).symm, htaken, ?_⟩
      rw [hfold, hlost]

end

section
/-! PROOF. The requests to a lane: LANE_CONFIG, ENABLE, CLEAR_STOP and FORCE, and the lane states that refuse them
(R3 to R6, R84, R114, R132). -/

namespace Sys2Proof.Machine

/-- R155: an admitted request in OPEN whose length and fields are good answers what its own checks and effect decide. -/
theorem requestCommand_checked {α : Type} {s t : State} {seq kind : Byte} {k : RequestKind} {payload bytes : List Byte}
    {good : Bool} {fields : Except Byte α} {act : α → Answer × State} {x : α} {a : Answer} (hadmits : s.admits seq)
    (hsession : s.inSession) (hserve : serve k payload s.heard = checked s.heard good fields act) (hgood : good = true)
    (hlength : payload.length ≤ 96) (hfields : fields = .ok x) (ha : act x = (a, t.heard)) (hk : k.code = kind)
    (hb : a.payload = bytes) : requestCommand k seq payload s = .next (t.answered kind seq bytes) :=
  requestCommand_answered hadmits (.inl hsession) hlength (hserve.trans ((checked_ok hgood hfields).trans ha)) hk hb

/-! ## Payloads read back -/

/-- R3, R159: the fields of a LANE_CONFIG after its lane. -/
def LaneConfig.bytes (c : LaneConfig) : List Byte :=
  [c.source.code, boolByte c.swap] ++ be16 c.tickInterval ++ be16 c.reverseLimit ++
    [c.reserve, c.limit, c.dropPolicy.code, c.confirmPolicy.code, c.linkPolicy.code, boolByte c.maskEntry,
      boolByte c.maskFate, boolByte c.maskGlitch]

theorem parseLaneConfig_bytes (l : LaneId) {c : LaneConfig} (htick : 4 ≤ c.tickInterval.toNat)
    (hreserve : c.reserve.toNat ≤ 16) (hone : 1 ≤ c.limit.toNat) (hlimit : c.limit.toNat ≤ 64)
    (hfits : c.reserve.toNat ≤ c.limit.toNat) : parseLaneConfig (laneByte l :: c.bytes) = .ok (l, c) := by
  have htick' : within 4 65535 (half (laneByte l :: c.bytes) 3) = some c.tickInterval := by
    rw [half_eq (x := c.tickInterval) rfl rfl]; exact within_half htick
  have hreverse : within 0 65535 (half (laneByte l :: c.bytes) 5) = some c.reverseLimit := by
    rw [half_eq (x := c.reverseLimit) rfl rfl]; exact within_half (Nat.zero_le _)
  have hreserve' : within 0 16 c.reserve = some c.reserve := within_of_le (Nat.zero_le _) hreserve
  have hlimit' : within (Nat.max 1 c.reserve.toNat) 64 c.limit = some c.limit :=
    within_of_le (Nat.max_le.mpr ⟨hone, hfits⟩) hlimit
  simp only [parseLaneConfig, htick', hreverse]
  simp only [LaneConfig.bytes, be16, byteAt, List.cons_append, List.nil_append, List.getD_cons_zero,
    List.getD_cons_succ, finOf_laneByte, sourceOf_code, boolOf_boolByte, hreserve', policyOf_code,
    linkPolicyOf_code, field_some, bind, Except.bind, pure, Except.pure, hlimit']

theorem parseEnable_bytes (l : LaneId) (clear : Bool) :
    parseEnable [laneByte l, boolByte clear] = .ok (l, clear) := by
  have hl : field 1 (finOf 4 (byteAt [laneByte l, boolByte clear] 0)) = .ok l := by simp [byteAt]
  have hc : field 2 (boolOf (byteAt [laneByte l, boolByte clear] 1)) = .ok clear := by simp [byteAt]
  simp only [parseEnable, hl, hc]
  rfl

theorem parseForce_bytes (l : LaneId) (k : StationId) (level : Bool) :
    parseForce [laneByte l, stationByte k, boolByte level] = .ok (l, k, level) := by
  have hl : field 1 (finOf 4 (byteAt [laneByte l, stationByte k, boolByte level] 0)) = .ok l := by simp [byteAt]
  have hk : field 2 (finOf 6 (byteAt [laneByte l, stationByte k, boolByte level] 1)) = .ok k := by simp [byteAt]
  have hv : field 3 (boolOf (byteAt [laneByte l, stationByte k, boolByte level] 2)) = .ok level := by simp [byteAt]
  simp only [parseForce, hl, hk, hv]
  rfl

/-- The payload of a VERDICT, of 6 bytes or with its tag of 8 (R83, R161). -/
def Verdict.bytes (v : Verdict) : List Byte :=
  [laneByte v.lane] ++ be32 v.serial ++ [classByte v.cls] ++
    (match v.tag with
      | some x => be16 x
      | none => [])

theorem Verdict.bytes_length (v : Verdict) : v.bytes.length = 6 ∨ v.bytes.length = 8 := by
  rcases v with ⟨l, n, c, _ | x⟩
  · exact .inl rfl
  · exact .inr rfl

theorem parseVerdict_bytes {v : Verdict} (h : v.serial ≠ 0) : parseVerdict v.bytes = .ok v := by
  have hserial : within 1 4294967295 (word v.bytes 1) = some v.serial := by
    rw [word_eq (x := v.serial) rfl rfl rfl rfl]; exact within_serial h
  have hl : finOf 4 (byteAt v.bytes 0) = some v.lane := finOf_laneByte v.lane
  have hc : finOf 8 (byteAt v.bytes 5) = some v.cls := finOf_classByte v.cls
  have htag : (if v.bytes.length = 8 then some (half v.bytes 6) else none) = v.tag := by
    rcases v with ⟨l, n, c, _ | x⟩
    · rfl
    · exact congrArg some (half_eq rfl rfl)
  simp only [parseVerdict, hl, hserial, hc, field_some, bind, Except.bind, pure, Except.pure, htag]

/-! ## LANE_CONFIG -/

/-- R4: the reserve check sums the new reserve and what the other lanes hold or reserve. -/
theorem State.reserveTotal_others (s : State) (l : LaneId) (reserve : Nat) :
    s.reserveTotal l reserve = reserve + ((allLanes.filter fun j => j ≠ l).map fun j =>
      Nat.max (s.lane j).config.reserve.toNat (s.lane j).queue.length).sum := by
  have hfilter : ∀ f : LaneId → Nat, (allLanes.map fun j => if j = l then reserve else f j).sum =
      reserve + ((allLanes.filter fun j => j ≠ l).map f).sum := by
    intro f
    rcases laneCases l with rfl | rfl | rfl | rfl <;> simp [allLanes] <;> omega
  exact hfilter _

/-- R3, R20: the configured lane, field by field. -/
theorem Lane.configure_eq (L : Lane) (c : LaneConfig) (levels : LaneInputs) : L.configure c levels =
    { L with
      config := c
      reach := L.position
      encoder := if c.source = .encoder then ⟨levels.encoderA, levels.encoderB⟩ else L.encoder
      tickTimer := if c.source = .clock then some c.tickInterval.toNat else none } := by
  rcases hsource : c.source with _ | _
  · simp [Lane.configure, hsource]
  · simp [Lane.configure, hsource, LaneConfig.tickMicroseconds]

theorem State.performLaneConfig_exceeds {s : State} {l : LaneId} {c : LaneConfig} (hstate : (s.lane l).state = .disabled)
    (h : 64 < s.reserveTotal l c.reserve.toNat) : s.performLaneConfig (l, c) = (.reserveExceeded, s) := by
  have hstate' : ¬ (s.lane l).state ≠ .disabled := not_not.mpr hstate
  have h' : poolSize < s.reserveTotal l c.reserve.toNat := h
  simp only [State.performLaneConfig, if_neg hstate', if_pos h']

theorem State.performLaneConfig_taken {s : State} {l : LaneId} {c : LaneConfig} (hstate : (s.lane l).state = .disabled)
    (h : s.reserveTotal l c.reserve.toNat ≤ 64) :
    s.performLaneConfig (l, c) = (.ok [], s.setLane l ((s.lane l).configure c (s.laneInputs l))) := by
  have hstate' : ¬ (s.lane l).state ≠ .disabled := not_not.mpr hstate
  have h' : ¬ poolSize < s.reserveTotal l c.reserve.toNat := Nat.not_lt.mpr h
  simp only [State.performLaneConfig, if_neg hstate', if_neg h', State.updLane_eq]

/-! ## ENABLE -/

/-- R5, R6: the enabled lane, field by field. -/
theorem Lane.enable_eq (L : Lane) (clear : Bool) (levels : LaneInputs) : L.enable clear levels =
    { L with
      state := .running
      reach := L.position
      stations := L.stations.map fun S => { S with forced := false }
      blind :=
        if clear then L.blind
        else withInterval L.blind
          { start := L.position - L.active.derived.retireSpan.setWidth 32, stop := some L.position }
      detector := .clear
      entryLevel := levels.entry
      confirmLevel := levels.confirm } := by
  simp only [Lane.enable, Lane.mapStations_eq, addInterval_eq]
  rfl

theorem State.performEnable_taken {s : State} {l : LaneId} (h : (s.lane l).state = .disabled) (clear : Bool) :
    s.performEnable (l, clear) = (.ok [], s.setLane l ((s.lane l).enable clear (s.laneInputs l))) := by
  have h' : ¬ (s.lane l).state ≠ .disabled := not_not.mpr h
  simp only [State.performEnable, if_neg h', State.updLane_eq]

/-! ## Refusals by lane state -/

theorem State.performEnable_refused {s : State} {x : LaneId × Bool} (h : (s.lane x.1).state ≠ .disabled) :
    s.performEnable x = (.laneState, s) := if_pos h

theorem State.performLaneConfig_refused {s : State} {x : LaneId × LaneConfig} (h : (s.lane x.1).state ≠ .disabled) :
    s.performLaneConfig x = (.laneState, s) := if_pos h

theorem State.performForce_refused {s : State} {x : LaneId × StationId × Bool} (h : (s.lane x.1).state ≠ .disabled) :
    s.performForce x = (.laneState, s) := if_pos h

theorem State.performDisable_refused {s : State} {x : LaneId × DisableMode} (h : (s.lane x.1).state = .disabled) :
    s.performDisable x = (.laneState, s) := by
  simp only [State.performDisable, h]

theorem State.performVerdict_refused {s : State} {v : Verdict} (h : (s.lane v.lane).tracking = false) :
    s.performVerdict v = (.laneState, s) := by
  simp [State.performVerdict, h]

/-- An admitted VERDICT with a serial answers what its lane and ticket decide. -/
theorem exec_verdict_answered {s t : State} {seq : Byte} {v : Verdict} {a : Answer} {bytes : List Byte}
    (hadmits : s.admits seq) (hsession : s.inSession) (hserial : v.serial ≠ 0)
    (ha : s.heard.performVerdict v = (a, t.heard)) (hb : a.payload = bytes) :
    exec (.verdict seq v.bytes) s = .next (t.answered 0x30 seq bytes) := by
  have hgood : (v.bytes.length == 6 || v.bytes.length == 8) = true := by
    rcases v.bytes_length with h | h <;> rw [h] <;> rfl
  have hlength : v.bytes.length ≤ 96 := by
    rcases v.bytes_length with h | h <;> rw [h] <;> decide
  rw [exec_verdict]
  exact requestCommand_checked hadmits hsession rfl hgood hlength (parseVerdict_bytes hserial) ha rfl hb

/-! ## CLEAR_STOP and FORCE -/

theorem StopReasons.any_iff (r : StopReasons) :
    r.any = true ↔ r.halt = true ∨ r.confirm = true ∨ r.drop = true ∨ r.link = true := by
  simp [StopReasons.any, or_assoc]

theorem State.performClearStop_eq (s : State) (l : LaneId) :
    s.performClearStop l = (if (s.lane l).state = .halted then .stopHeld else .ok [],
      s.setLane l { s.lane l with stops := ⟨(s.lane l).stops.halt, false, false, false⟩ }) := by
  simp only [State.performClearStop, State.updStops_eq]

theorem State.performForce_taken {s : State} {l : LaneId} (h : (s.lane l).state = .disabled) (k : StationId)
    (level : Bool) :
    s.performForce (l, k, level) = (.ok [], s.setLane l
      { s.lane l with stations := (s.lane l).stations.set k { (s.lane l).station k with forced := level } }) := by
  have h' : ¬ (s.lane l).state ≠ .disabled := not_not.mpr h
  simp only [State.performForce, if_neg h', State.updStation_eq, Lane.setStation]

theorem Pulse.isPulsing_iff (p : Pulse) : p.isPulsing = true ↔ ∃ left rearm, p = .pulsing left rearm := by
  cases p <;> simp [Pulse.isPulsing]

/-- R111: the four sources of an output, under the guard. -/
theorem State.outputLevel_iff (s : State) (l : LaneId) (k : StationId) : s.outputLevel l k = true ↔
    s.guardAsserted = false ∧
      (((s.lane l).station k).forced = true ∨ (∃ left rearm, ((s.lane l).station k).pulse = .pulsing left rearm) ∨
        ((s.lane l).station k).spanEnd.isSome ∨ (s.lane l).flushHold k = true) := by
  simp only [State.outputLevel, Bool.and_eq_true, Bool.not_eq_true', Bool.or_eq_true, Pulse.isPulsing_iff, or_assoc]

theorem State.outputLevel_forced {s : State} {l : LaneId} {k : StationId} (h : ((s.lane l).station k).forced = true) :
    s.outputLevel l k = !s.guardAsserted := by
  simp [State.outputLevel, h]

end Sys2Proof.Machine

open Sys2Proof Sys2Proof.Machine in
/-- Settles O22: the payload is read back, and the reserve check decides. -/
theorem laneConfigReplaces : Obligations.LaneConfigReplaces := by
  unfold Obligations.LaneConfigReplaces
  intro s seq l c hadmits hsession hstate htick hreserve hone hlimit hfits payload others
  have hparse : parseLaneConfig payload = .ok (l, c) := parseLaneConfig_bytes l htick hreserve hone hlimit hfits
  have htotal : s.heard.reserveTotal l c.reserve.toNat = c.reserve.toNat + others :=
    s.heard.reserveTotal_others l c.reserve.toNat
  have hlength : payload.length ≤ 96 := Nat.le_add_left 15 81
  rw [exec_laneConfig]
  refine ⟨fun hmore => ?_, fun hfit => ?_⟩
  · exact requestCommand_checked hadmits hsession rfl rfl hlength hparse
      (State.performLaneConfig_exceeds (s := s.heard) hstate (htotal ▸ hmore)) rfl rfl
  · have htaken := State.performLaneConfig_taken (s := s.heard) (c := c) hstate (htotal ▸ hfit)
    rw [Lane.configure_eq, State.heard_setLane] at htaken
    exact requestCommand_checked hadmits hsession rfl rfl hlength hparse htaken rfl rfl

open Sys2Proof Sys2Proof.Machine in
/-- Settles O23: the payload is read back, and the lane is DISABLED. -/
theorem enableStarts : Obligations.EnableStarts := by
  unfold Obligations.EnableStarts
  intro s seq l clear hadmits hsession hstate interval
  have htaken := State.performEnable_taken (s := s.heard) hstate clear
  rw [Lane.enable_eq, State.heard_setLane] at htaken
  rw [exec_enable]
  exact requestCommand_checked hadmits hsession rfl rfl (Nat.le_add_left 2 94) (parseEnable_bytes l clear) htaken rfl rfl

open Sys2Proof Sys2Proof.Machine in
/-- Settles O24: each payload is read back and meets its lane state check first. -/
theorem laneStateRefuses : Obligations.LaneStateRefuses := by
  unfold Obligations.LaneStateRefuses
  intro s seq l hadmits hsession
  refine ⟨fun hstate => ⟨fun clear => ?_, fun payload x hlength hparse => ?_, fun k level => ?_⟩, fun hstate mode => ?_,
    fun hstate n c hn => ?_⟩
  · rw [exec_enable]
    exact requestCommand_checked hadmits hsession rfl rfl (Nat.le_add_left 2 94) (parseEnable_bytes l clear)
      (State.performEnable_refused (s := s.heard) hstate) rfl rfl
  · rw [exec_laneConfig]
    exact requestCommand_checked hadmits hsession rfl (beq_iff_eq.mpr hlength) (by omega) hparse
      (State.performLaneConfig_refused (s := s.heard) hstate) rfl rfl
  · rw [exec_force]
    exact requestCommand_checked hadmits hsession rfl rfl (Nat.le_add_left 3 93) (parseForce_bytes l k level)
      (State.performForce_refused (s := s.heard) hstate) rfl rfl
  · exact exec_disable_answered hadmits hsession (State.performDisable_refused (s := s.heard) hstate) rfl
  · have htracks : (s.lane l).tracking = false := by
      rcases hstate with h | h <;> simp [Lane.tracking, h]
    exact exec_verdict_answered (v := ⟨l, n, c, none⟩) hadmits hsession hn
      (State.performVerdict_refused (s := s.heard) htracks) rfl

open Sys2Proof Sys2Proof.Machine in
/-- Settles O27: the HALT reason alone stays, and by the law of the lane it is there exactly in HALTED. -/
theorem clearStopClears : Obligations.ClearStopClears := by
  unfold Obligations.ClearStopClears
  intro s l L
  refine ⟨L.stops.any_iff, fun seq hadmits hsession => ?_⟩
  intro t
  refine ⟨?_, fun hlaw => ?_⟩
  · have hreply : (if L.state = .halted then Answer.stopHeld else .ok []).payload =
        [if L.state = .halted then 0x1D else 0x00] := by
      split <;> rfl
    rw [exec_clearStop]
    exact requestCommand_checked hadmits hsession rfl rfl (Nat.le_add_left 1 95) (parseLane_laneByte l)
      (s.heard.performClearStop_eq l) rfl hreply
  · obtain ⟨-, hhalt, -⟩ := hlaw
    rw [← hhalt, State.stopOutput, State.lane_setLane_same, StopReasons.any_iff]
    simp

end

section
/-! PROOF. FORCE, the station outputs and the flush hold (R109, R111, R114). -/

namespace Sys2Proof.Machine

/-- R109: the reach lies in the hold range of an interval for a station with these offsets. -/
def Lane.inHoldRange (L : Lane) (i : Interval) (on off : Triple) : Bool :=
  inHold L.reach (i.start + Triple.pos on - Half.pos L.active.body.fields.flushMargin)
    (i.stop.map fun e => e + Triple.pos off + Half.pos L.active.body.fields.flushMargin)

theorem Lane.flushHold_off {L : Lane} {k : StationId} (h : (L.active.station k).act = .off) :
    L.flushHold k = false := by
  simp only [Lane.flushHold, h, StationAct.on?]

theorem Lane.flushHold_pulse {L : Lane} {k : StationId} {on width rearm : Triple} {busy : BusyPolicy}
    {rule : StationRule} {flush : Bool} (h : (L.active.station k).act = .pulse on width rearm busy rule flush) :
    L.flushHold k = (flush && L.blind.any fun i => L.inHoldRange i on on) := by
  simp only [Lane.flushHold, h, StationAct.on?, StationAct.off?, StationAct.flush]
  rfl

theorem Lane.flushHold_span {L : Lane} {k : StationId} {on off : Triple} {rule : StationRule} {flush : Bool}
    (h : (L.active.station k).act = .span on off rule flush) :
    L.flushHold k = (flush && L.blind.any fun i => L.inHoldRange i on off) := by
  simp only [Lane.flushHold, h, StationAct.on?, StationAct.off?, StationAct.flush]
  rfl

/-- R109: the flush hold needs a station in use with flush yes and an interval whose hold range has the reach. -/
theorem Lane.flushHold_iff (L : Lane) (k : StationId) : L.flushHold k = true ↔
    ∃ i ∈ L.blind,
      (∃ on width rearm busy rule, (L.active.body.stations[k]).act = .pulse on width rearm busy rule true ∧
        L.inHoldRange i on on = true) ∨
      ∃ on off rule, (L.active.body.stations[k]).act = .span on off rule true ∧ L.inHoldRange i on off = true := by
  rcases hact : (L.active.body.stations[k]).act with _ | ⟨on, width, rearm, busy, rule, flush⟩ | ⟨on, off, rule, flush⟩
  · simp [L.flushHold_off hact]
  · rw [L.flushHold_pulse hact]
    simp
    grind
  · rw [L.flushHold_span hact]
    simp
    grind

end Sys2Proof.Machine

open Sys2Proof Sys2Proof.Machine in
/-- Settles O28: the hold ranges are those of `Lane.flushHold`, and the output is read from its four sources. -/
theorem forceSets : Obligations.ForceSets := by
  unfold Obligations.ForceSets
  intro s l k L S holds held
  have hholds : ∀ i on off, holds i on off ↔ L.inHoldRange i on off = true := by
    rintro ⟨start, _ | e⟩ on off <;> exact (@decide_eq_true_iff _ _).symm
  have hheld : L.flushHold k = true ↔ held := by
    rw [L.flushHold_iff]
    simp only [held, hholds]
  refine ⟨hheld, ?_, fun seq level hadmits hsession hstate => ?_⟩
  · rw [State.outputLevel_iff, ← hheld]
  · intro t
    have hforced : ((t.lane l).station k).forced = level := by
      simp only [t, State.lane_setLane_same]
      exact congrArg Station.forced (Lane.station_setStation_same L k { S with forced := level })
    refine ⟨?_, fun hlevel => State.outputLevel_forced (hforced.trans hlevel)⟩
    rw [exec_force]
    exact requestCommand_checked hadmits hsession rfl rfl (Nat.le_add_left 3 93) (parseForce_bytes l k level)
      (State.performForce_taken (s := s.heard) hstate k level) rfl rfl

end

section
/-! PROOF. STAGE_LANE, STAGE_STATION and CANCEL_COMMIT by staging status (R63, R64, R76). -/

namespace Sys2Proof.Machine

theorem State.stage_absent {s : State} {l : LaneId} (h : (s.lane l).staging = .absent) (f : ProfileBody → ProfileBody) :
    s.stage l f = (.ok [], s.setLane l { s.lane l with staging := .editing (f (s.lane l).active.body) }) := by
  simp only [State.stage, h, State.setStaging, State.updLane_eq]

theorem State.stage_editing {s : State} {l : LaneId} {body : ProfileBody} (h : (s.lane l).staging = .editing body)
    (f : ProfileBody → ProfileBody) :
    s.stage l f = (.ok [], s.setLane l { s.lane l with staging := .editing (f body) }) := by
  simp only [State.stage, h, State.setStaging, State.updLane_eq]

theorem State.stage_committing {s : State} {l : LaneId} {body : ProfileBody} {derived : Derived} {c : Commit}
    (h : (s.lane l).staging = .committing body derived c) (f : ProfileBody → ProfileBody) :
    s.stage l f = (.stagingBusy, s) := by
  simp only [State.stage, h]

theorem State.performCancel_committing {s : State} {l : LaneId} {body : ProfileBody} {derived : Derived} {c : Commit}
    (h : (s.lane l).staging = .committing body derived c) :
    s.performCancel l = (.ok [], s.setLane l { s.lane l with staging := .editing body }) := by
  simp only [State.performCancel, h, State.setStaging, State.updLane_eq]

theorem State.performCancel_noCommit {s : State} {l : LaneId} (h : (s.lane l).noCommit) :
    s.performCancel l = (.noCommit, s) := by
  rcases hstaging : (s.lane l).staging with _ | body | ⟨body, derived, c⟩
  · simp only [State.performCancel, hstaging]
  · simp only [State.performCancel, hstaging]
  · exact absurd hstaging (h body derived c)

end Sys2Proof.Machine

open Sys2Proof Sys2Proof.Machine in
/-- Settles O29: both requests stage an edit, which the staging status takes or refuses. -/
theorem stagingEdits : Obligations.StagingEdits := by
  unfold Obligations.StagingEdits
  intro s seq l p c kind edit hadmits hsession hrequest
  have hstage : ∀ {t : State} {a : Answer} {bytes : List Byte}, s.heard.stage l edit = (a, t.heard) →
      a.payload = bytes → exec c s = .next (t.answered kind seq bytes) := by
    intro t a bytes ha hb
    rcases hrequest with ⟨f, rfl, rfl, hlength, hparse, rfl⟩ | ⟨k, r, rfl, rfl, hlength, hparse, rfl⟩
    · rw [exec_stageLane]
      exact requestCommand_checked hadmits hsession rfl (beq_iff_eq.mpr hlength) (by omega) hparse ha rfl hb
    · rw [exec_stageStation]
      exact requestCommand_checked hadmits hsession rfl (beq_iff_eq.mpr hlength) (by omega) hparse ha rfl hb
  refine ⟨fun habsent => ?_, fun body hediting => ?_, fun body derived commit hcommitting => ?_⟩
  · exact hstage (State.stage_absent (s := s.heard) habsent edit) rfl
  · exact hstage (State.stage_editing (s := s.heard) hediting edit) rfl
  · exact hstage (State.stage_committing (s := s.heard) hcommitting edit) rfl

open Sys2Proof Sys2Proof.Machine in
/-- Settles O35: the lane byte is good, and the staging status tells whether a commit waits. -/
theorem cancelWithdraws : Obligations.CancelWithdraws := by
  unfold Obligations.CancelWithdraws
  intro s seq l hadmits hsession
  rw [exec_cancelCommit]
  refine ⟨fun body derived c hcommitting => ?_, fun hnone => ?_⟩
  · exact requestCommand_checked hadmits hsession rfl rfl (Nat.le_add_left 1 95) (parseLane_laneByte l)
      (State.performCancel_committing (s := s.heard) hcommitting) rfl rfl
  · exact requestCommand_checked hadmits hsession rfl rfl (Nat.le_add_left 1 95) (parseLane_laneByte l)
      (State.performCancel_noCommit (s := s.heard) hnone) rfl rfl

end

section
/-! PROOF. VERDICT and QUERY_TICKET by the ticket that carries the serial (R84 to R88, R167). -/

namespace Sys2Proof.Machine

theorem Lane.findTicket_none {L : Lane} {n : Serial} (h : ∀ u ∈ L.queue, u.serial ≠ n) : L.findTicket n = none := by
  simpa [Lane.findTicket] using h

theorem Lane.serial_of_findTicket {L : Lane} {n : Serial} {t : Ticket} (h : L.findTicket n = some t) :
    t.serial = n := by
  simpa using List.find?_some h

/-! R84 to R87: a VERDICT whose ticket is in the queue of a lane that tracks goes by the decision state. -/

theorem State.performVerdict_undecided {s : State} {v : Verdict} {t : Ticket} (htracks : (s.lane v.lane).tracking = true)
    (hfound : (s.lane v.lane).findTicket v.serial = some t) (h : t.decision = .undecided) :
    s.performVerdict v = (.ok [], s.bindVerdict v) := by
  simp only [State.performVerdict, htracks, Bool.not_true, Bool.false_eq_true, if_false, hfound, h]

theorem State.performVerdict_decided {s : State} {v : Verdict} {t : Ticket} (htracks : (s.lane v.lane).tracking = true)
    (hfound : (s.lane v.lane).findTicket v.serial = some t) {c : ClassId} {tag : Option Half}
    (h : t.decision = .decided c tag) : s.performVerdict v = (.revised, s.bindVerdict v) := by
  simp only [State.performVerdict, htracks, Bool.not_true, Bool.false_eq_true, if_false, hfound, h]

theorem State.performVerdict_final {s : State} {v : Verdict} {t : Ticket} (htracks : (s.lane v.lane).tracking = true)
    (hfound : (s.lane v.lane).findTicket v.serial = some t) {c : ClassId} {source : Source} {tag : Option Half}
    (h : t.decision = .final c source tag) : s.performVerdict v = (.late c source, s) := by
  simp only [State.performVerdict, htracks, Bool.not_true, Bool.false_eq_true, if_false, hfound, h]

theorem State.performVerdict_missing {s : State} {v : Verdict} (htracks : (s.lane v.lane).tracking = true)
    (hmissing : (s.lane v.lane).findTicket v.serial = none) :
    s.performVerdict v = ((s.lane v.lane).missingSerial v.serial, s) := by
  simp only [State.performVerdict, htracks, Bool.not_true, Bool.false_eq_true, if_false, hmissing]

theorem State.bindVerdict_eq (s : State) (v : Verdict) : s.bindVerdict v = s.setLane v.lane
    { s.lane v.lane with
      queue := (s.lane v.lane).queue.map fun u =>
        if u.serial = v.serial then { u with decision := .decided v.cls v.tag } else u } := by
  simp only [State.bindVerdict, State.updTicket_eq, Lane.updTicket]

/-! ## QUERY_TICKET -/

/-- The payload of a QUERY_TICKET (R161). -/
def queryTicketBytes (l : LaneId) (n : Serial) : List Byte := [laneByte l] ++ be32 n

theorem parseQueryTicket_bytes (l : LaneId) {n : Serial} (h : n ≠ 0) :
    parseQueryTicket (queryTicketBytes l n) = .ok (l, n) := by
  have hserial : within 1 4294967295 (word (queryTicketBytes l n) 1) = some n := by
    rw [word_eq (x := n) rfl rfl rfl rfl]; exact within_serial h
  have hl : finOf 4 (byteAt (queryTicketBytes l n) 0) = some l := finOf_laneByte l
  simp only [parseQueryTicket, hl, hserial, field_some]
  rfl

/-- An admitted QUERY_TICKET with a serial answers from the lane and changes no state. -/
theorem exec_queryTicket_answered {s : State} {seq : Byte} {l : LaneId} {n : Serial} {a : Answer} {bytes : List Byte}
    (hadmits : s.admits seq) (hsession : s.inSession) (hn : n ≠ 0)
    (ha : s.heard.performQueryTicket (l, n) = (a, s.heard)) (hb : a.payload = bytes) :
    exec (.queryTicket seq (queryTicketBytes l n)) s = .next (s.answered 0x41 seq bytes) := by
  rw [exec_queryTicket]
  exact requestCommand_checked hadmits hsession rfl rfl (Nat.le_add_left 5 91) (parseQueryTicket_bytes l hn) ha rfl hb

theorem State.performQueryTicket_found {s : State} {l : LaneId} {n : Serial} {t : Ticket}
    (h : (s.lane l).findTicket n = some t) : s.performQueryTicket (l, n) = (.ok (t.bytes l), s) := by
  simp only [State.performQueryTicket, h]

theorem State.performQueryTicket_missing {s : State} {l : LaneId} {n : Serial} (h : (s.lane l).findTicket n = none) :
    s.performQueryTicket (l, n) = ((s.lane l).missingSerial n, s) := by
  simp only [State.performQueryTicket, h]

theorem Lane.missingSerial_issued {L : Lane} {n : Serial} (h : countsAsIssued L.nextSerial L.wrapped n = true) :
    L.missingSerial n = .gone := if_pos h

theorem Lane.missingSerial_unissued {L : Lane} {n : Serial} (h : ¬ countsAsIssued L.nextSerial L.wrapped n = true) :
    L.missingSerial n = .unknownSerial := if_neg h

theorem outcomeBytes_length (outcomes : List (StationId × Outcome)) :
    (outcomes.flatMap outcomeBytes).length = 3 * outcomes.length := by
  induction outcomes with
  | nil => rfl
  | cons e es ih =>
    rw [List.flatMap_cons, List.length_append, ih, List.length_cons]
    simp only [outcomeBytes, List.length_cons, List.length_nil]
    omega

theorem Decision.bytes_length (d : Decision) : d.bytes.length = 5 := by
  cases d <;> rfl

/-- R167: 23 bytes of a ticket record and 3 for each outcome entry. -/
theorem Ticket.bytes_length (t : Ticket) (l : LaneId) : (t.bytes l).length = 23 + 3 * t.outcomes.length := by
  simp only [Ticket.bytes, List.length_append, List.length_cons, List.length_nil, be32_length, be16_length,
    Decision.bytes_length, outcomeBytes_length]
  omega

end Sys2Proof.Machine

open Sys2Proof Sys2Proof.Machine in
/-- Settles O36: the ticket's decision state picks the answer. -/
theorem verdictBinds : Obligations.VerdictBinds := by
  unfold Obligations.VerdictBinds
  intro s seq l n c tag t hadmits hsession htracks hn hfound v bound
  have hbound : s.heard.bindVerdict ⟨l, n, c, tag⟩ = bound.heard := State.bindVerdict_eq s.heard ⟨l, n, c, tag⟩
  have hexec : ∀ {u : State} {a : Answer} {bytes : List Byte}, s.heard.performVerdict ⟨l, n, c, tag⟩ = (a, u.heard) →
      a.payload = bytes → exec v s = .next (u.answered 0x30 seq bytes) :=
    exec_verdict_answered (v := ⟨l, n, c, tag⟩) hadmits hsession hn
  refine ⟨fun hopen => ?_, fun c' tag' hdecided => ?_, fun c' source tag' hfinal => ?_⟩
  · have hopened := State.performVerdict_undecided (s := s.heard) (v := ⟨l, n, c, tag⟩) htracks hfound hopen
    exact hexec (hopened.trans (congrArg _ hbound)) rfl
  · have hrevised := State.performVerdict_decided (s := s.heard) (v := ⟨l, n, c, tag⟩) htracks hfound hdecided
    exact hexec (hrevised.trans (congrArg _ hbound)) rfl
  · exact hexec (State.performVerdict_final (s := s.heard) (v := ⟨l, n, c, tag⟩) htracks hfound hfinal) rfl

open Sys2Proof Sys2Proof.Machine in
/-- Settles O37: both requests answer a missing serial by whether it counts as issued. -/
theorem missingSerial : Obligations.MissingSerial := by
  unfold Obligations.MissingSerial
  intro s seq l n hadmits hsession hn hnext hmissing issued q
  have hissued : countsAsIssued (s.lane l).nextSerial (s.lane l).wrapped n = true ↔ issued :=
    countsAsIssued_iff _ n _ hn hnext
  have hgone : issued → (s.lane l).missingSerial n = .gone := fun h => Lane.missingSerial_issued (hissued.mpr h)
  have hunknown : ¬ issued → (s.lane l).missingSerial n = .unknownSerial := fun h =>
    Lane.missingSerial_unissued fun hi => h (hissued.mp hi)
  have hnone := Lane.findTicket_none hmissing
  have hquery := State.performQueryTicket_missing (s := s.heard) hnone
  refine ⟨fun h => ?_, fun h => ?_, fun htracks c => ?_⟩
  · exact exec_queryTicket_answered hadmits hsession hn hquery (congrArg Answer.payload (hgone h))
  · exact exec_queryTicket_answered hadmits hsession hn hquery (congrArg Answer.payload (hunknown h))
  · have hverdict := State.performVerdict_missing (s := s.heard) (v := ⟨l, n, c, none⟩) htracks hnone
    refine ⟨fun h => ?_, fun h => ?_⟩
    · exact exec_verdict_answered (v := ⟨l, n, c, none⟩) hadmits hsession hn hverdict
        (congrArg Answer.payload (hgone h))
    · exact exec_verdict_answered (v := ⟨l, n, c, none⟩) hadmits hsession hn hverdict
        (congrArg Answer.payload (hunknown h))

open Sys2Proof Sys2Proof.Machine in
/-- Settles O38: the record is that of the ticket found, whose serial is the one asked for. -/
theorem queryTicketReads : Obligations.QueryTicketReads := by
  unfold Obligations.QueryTicketReads
  intro s seq l n t hadmits hsession hn hfound decision tag record
  have hrecord : (Answer.ok (t.bytes l)).payload = record := by
    have hserial : t.serial = n := Lane.serial_of_findTicket (L := s.lane l) hfound
    have hentries : t.outcomes.flatMap outcomeBytes =
        t.outcomes.flatMap fun e => [stationByte e.1, e.2.code, e.2.reasonCode] := rfl
    rcases hd : t.decision <;>
      simp [record, decision, tag, Answer.payload, Ticket.bytes, hd, Decision.code, Decision.bytes, tagBytes, hserial,
        hentries]
  refine ⟨exec_queryTicket_answered hadmits hsession hn (State.performQueryTicket_found (s := s.heard) hfound) hrecord,
    ?_⟩
  rw [← hrecord, Answer.payload, List.length_cons, Ticket.bytes_length]
  omega

end

section
/-! PROOF. QUERY_LANE and QUERY_PROFILE (R164 to R166, R168). -/

namespace Sys2Proof.Machine

theorem parseQueryLane_bytes (l : LaneId) (part : LanePart) :
    parseQueryLane [laneByte l, part.code] = .ok (l, part) := by
  have hl : field 1 (finOf 4 (byteAt [laneByte l, part.code] 0)) = .ok l := by simp [byteAt]
  have hp : field 2 (partOf (byteAt [laneByte l, part.code] 1)) = .ok part := by simp [byteAt]
  simp only [parseQueryLane, hl, hp]
  rfl

/-- R164: an admitted QUERY_LANE answers the part named and changes no state. -/
theorem exec_queryLane_answered {s : State} {seq : Byte} {l : LaneId} (hadmits : s.admits seq) (hsession : s.inSession)
    (part : LanePart) : exec (.queryLane seq [laneByte l, part.code]) s =
      .next (s.answered 0x40 seq (0x00 :: s.queryLaneFields l part)) := by
  rw [exec_queryLane]
  exact requestCommand_checked hadmits hsession rfl rfl (Nat.le_add_left 2 94) (parseQueryLane_bytes l part) rfl rfl rfl

theorem serialOr0_eq (t : Option Ticket) : serialOr0 t = (t.map Ticket.serial).getD 0 := by
  cases t <;> rfl

theorem generationOr0_eq (p : Option Profile) : generationOr0 p = (p.map Profile.generation).getD 0 := by
  cases p <;> rfl

theorem intervalEntry_length (i : Interval) : (intervalEntry i).length = 9 := rfl

theorem parseQueryProfile_bytes (l : LaneId) (copy : ProfileCopy) (item : Fin 7) :
    parseQueryProfile [laneByte l, copy.code, natByte item.val] = .ok (l, copy, item) := by
  have hl : field 1 (finOf 4 (byteAt [laneByte l, copy.code, natByte item.val] 0)) = .ok l := by simp [byteAt]
  have hc : field 2 (copyOf (byteAt [laneByte l, copy.code, natByte item.val] 1)) = .ok copy := by simp [byteAt]
  have hi : field 3 (finOf 7 (byteAt [laneByte l, copy.code, natByte item.val] 2)) = .ok item := by
    simp [byteAt, finOf_natByte]
  simp only [parseQueryProfile, hl, hc, hi]
  rfl

/-- R168: an admitted QUERY_PROFILE answers from the copy named and changes no state. -/
theorem exec_queryProfile_answered {s : State} {seq : Byte} {l : LaneId} {copy : ProfileCopy} {item : Fin 7}
    {rest : List Byte} (hadmits : s.admits seq) (hsession : s.inSession)
    (ha : s.heard.performQueryProfile (l, copy, item) =
      (.ok ([laneByte l, copy.code, natByte item.val] ++ rest), s.heard)) :
    exec (.queryProfile seq [laneByte l, copy.code, natByte item.val]) s = .next
      (s.answered 0x42 seq ([0x00, laneByte l, copy.code, natByte item.val] ++ rest)) := by
  rw [exec_queryProfile]
  exact requestCommand_checked hadmits hsession rfl rfl (Nat.le_add_left 3 93) (parseQueryProfile_bytes l copy item) ha
    rfl rfl

theorem State.performQueryProfile_present {s : State} {l : LaneId} {copy : ProfileCopy} {presence : Byte} {g : Half}
    {b : ProfileBody} {d : Derived} (h : (s.lane l).profileCopy copy = some (presence, g, b, d)) (item : Fin 7) :
    s.performQueryProfile (l, copy, item) =
      (.ok ([laneByte l, copy.code, natByte item.val] ++ presence :: profileItem g b d item), s) := by
  simp only [State.performQueryProfile, h]
  rfl

theorem State.performQueryProfile_absent {s : State} {l : LaneId} {copy : ProfileCopy}
    (h : (s.lane l).profileCopy copy = none) (item : Fin 7) :
    s.performQueryProfile (l, copy, item) = (.ok ([laneByte l, copy.code, natByte item.val] ++ [0]), s) := by
  simp only [State.performQueryProfile, h]

end Sys2Proof.Machine

open Sys2Proof Sys2Proof.Machine in
/-- Settles O39: the three parts are those of `State.queryLaneFields`. -/
theorem queryLaneReads : Obligations.QueryLaneReads := by
  unfold Obligations.QueryLaneReads
  intro s seq l hadmits hsession L free shared lane stations blind
  have hlane : 0x00 :: s.queryLaneFields l .lane = lane := by
    simp only [State.queryLaneFields, State.lanePart, serialOr0_eq, generationOr0_eq]
    rfl
  have hblind : ∀ is : List Interval, (is.flatMap intervalEntry).length = 9 * is.length := by
    intro is
    induction is with
    | nil => rfl
    | cons i is ih =>
      rw [List.flatMap_cons, List.length_append, ih, intervalEntry_length, List.length_cons]
      omega
  refine ⟨?_, rfl, exec_queryLane_answered hadmits hsession .stations, rfl,
    exec_queryLane_answered hadmits hsession .blind, ?_⟩
  · rw [← hlane]
    exact exec_queryLane_answered hadmits hsession .lane
  · exact (congrArg (4 + ·) (hblind L.blind)).symm ▸ List.length_append

open Sys2Proof Sys2Proof.Machine in
/-- Settles O40: the copy named is there or not, by the profile store. -/
theorem queryProfileReads : Obligations.QueryProfileReads := by
  unfold Obligations.QueryProfileReads
  intro s seq l copy item hadmits hsession L content answers
  have hpresent : ∀ {presence g b d}, L.profileCopy copy = some (presence, g, b, d) →
      answers (presence :: content g b d) := fun h =>
    exec_queryProfile_answered hadmits hsession (State.performQueryProfile_present (s := s.heard) h item)
  have habsent : L.profileCopy copy = none → answers [0] := fun h =>
    exec_queryProfile_answered hadmits hsession (State.performQueryProfile_absent (s := s.heard) h item)
  refine ⟨?_, ?_, ?_, ?_, ?_, ?_⟩
  · rintro rfl
    exact hpresent rfl
  · rintro p rfl hretiring
    exact hpresent (by simp only [Lane.profileCopy, hretiring])
  · rintro rfl hretiring
    exact habsent (by simp only [Lane.profileCopy, hretiring])
  · rintro rfl hstaging
    exact habsent (by simp only [Lane.profileCopy, hstaging])
  · rintro b rfl hstaging
    exact hpresent (by simp only [Lane.profileCopy, hstaging])
  · rintro b d c rfl hstaging
    exact hpresent (by simp only [Lane.profileCopy, hstaging])

end

section
/-! PROOF. Travel: the decoder's steps, the advance of the reach, the halts of travel, and the separation of the lanes
(R14 to R20, R25, section 0.4). -/

namespace Sys2Proof.Machine

/-- The same effect of a command before the transmitter takes its next frame. -/
theorem next_transmit {s t : State} (h : s = t) :
    (Host.Outcome.next s.transmitNext : Host.Outcome State Fault Refusal) = .next t.transmitNext := by rw [h]

/-! ## Events on other lanes -/

/-- A command on one lane's lines or timers is that lane's event, after which the transmitter may take a frame. -/
theorem exec_laneEvent {s t : State} {l : LaneId} {c : Instr}
    (hc : (∃ a b, c = .encoderChange l a b) ∨ c = .clockTick l ∨ (∃ p, c = .entrySensorEdge l p) ∨
      (∃ p, c = .confirmSensorEdge l p) ∨ (∃ k, c = .pulseEnd l k) ∨ (∃ k, c = .rearmEnd l k))
    (h : exec c s = .next t) : ∃ u, State.LaneEvent l s u ∧ t = u.transmitNext := by
  rcases hc with ⟨a, b, rfl⟩ | rfl | ⟨present, rfl⟩ | ⟨present, rfl⟩ | ⟨k, rfl⟩ | ⟨k, rfl⟩ <;> cases h
  · exact ⟨_, .encoder a b, rfl⟩
  · exact ⟨_, .tick, rfl⟩
  · exact ⟨_, .entry present, rfl⟩
  · exact ⟨_, .confirm present, rfl⟩
  · exact ⟨_, .pulse k, rfl⟩
  · exact ⟨_, .rearm k, rfl⟩

theorem State.OnLane.laneInputs {l : LaneId} {s t : State} (h : State.OnLane l s t) (j : LaneId) :
    t.laneInputs j = s.laneInputs j := by
  simp only [State.laneInputs, h.inputs]

/-! ## Quadrature decoding -/

/-- What a change of the encoder lines to the levels a, b means to a lane (R18, R19). -/
def Lane.quadStep (L : Lane) (a b : Bool) : QuadStep :=
  if L.config.swap then (quadratureTable (L.encoder.a, L.encoder.b) (a, b)).swap
  else quadratureTable (L.encoder.a, L.encoder.b) (a, b)

/-- The state that has the new levels on lane l's encoder lines. -/
def State.hearEncoder (s : State) (l : LaneId) (a b : Bool) : State :=
  s.setLaneInputs l { s.laneInputs l with encoderA := a, encoderB := b }

@[simp] theorem State.hearEncoder_lane (s : State) (l j : LaneId) (a b : Bool) :
    (s.hearEncoder l a b).lane j = s.lane j := State.lane_setLaneInputs ..

/-- The state whose decoder holds the new level pair. -/
def State.holdPair (s : State) (l : LaneId) (a b : Bool) : State :=
  (s.hearEncoder l a b).setLane l { s.lane l with encoder := ⟨a, b⟩ }

@[simp] theorem State.holdPair_lane (s : State) (l : LaneId) (a b : Bool) :
    (s.holdPair l a b).lane l = { s.lane l with encoder := ⟨a, b⟩ } := State.lane_setLane_same ..

theorem exec_encoder_clock {s : State} {l : LaneId} (a b : Bool) (h : (s.lane l).config.source = .clock) :
    exec (.encoderChange l a b) s = .next (s.hearEncoder l a b).transmitNext := by
  have hheard : ((s.hearEncoder l a b).lane l).config.source = .clock := by rw [State.hearEncoder_lane]; exact h
  have hchange : s.encoderChange l a b = s.hearEncoder l a b := by
    unfold State.encoderChange
    simp only
    split
    · rename_i hencoder
      exact absurd (hencoder.symm.trans hheard) (by decide)
    · rfl
  exact next_transmit hchange

theorem State.encoderChange_decodes {s : State} {l : LaneId} (a b : Bool)
    (h : (s.lane l).config.source = .encoder) :
    s.encoderChange l a b = (s.hearEncoder l a b).decodePair l ⟨a, b⟩ := by
  have hheard : ((s.hearEncoder l a b).lane l).config.source = .encoder := by rw [State.hearEncoder_lane]; exact h
  unfold State.encoderChange
  simp only
  split
  · rfl
  · rename_i hclock
    exact absurd (hclock.symm.trans hheard) (by decide)

/-- R18: the decoder holds the new pair and acts on what it means. -/
theorem exec_encoder {s t : State} {l : LaneId} {a b : Bool} (h : (s.lane l).config.source = .encoder)
    (ht : ((s.lane l).quadStep a b = .none ∧ s.holdPair l a b = t) ∨
      ((s.lane l).quadStep a b = .forward ∧ (s.holdPair l a b).forwardStep l = t) ∨
      ((s.lane l).quadStep a b = .reverse ∧ (s.holdPair l a b).reverseStep l = t) ∨
      ((s.lane l).quadStep a b = .illegal ∧ (s.holdPair l a b).haltLane l .encoder = t)) :
    exec (.encoderChange l a b) s = .next t.transmitNext := by
  have hstep : (if (s.lane l).config.swap then ((s.lane l).encoder.step ⟨a, b⟩).swap
      else (s.lane l).encoder.step ⟨a, b⟩) = (s.lane l).quadStep a b := by
    simp only [Lane.quadStep, EncoderPair.step_table]
  have hdecode : (s.hearEncoder l a b).decodePair l ⟨a, b⟩ = t := by
    simp only [State.decodePair, State.hearEncoder_lane, hstep]
    rcases ht with ⟨hs, hd⟩ | ⟨hs, hd⟩ | ⟨hs, hd⟩ | ⟨hs, hd⟩ <;> rw [hs] <;> exact hd
  rw [← hdecode, ← State.encoderChange_decodes a b h]
  rfl

/-! ## Forward and reverse steps -/

theorem State.forwardStep_advances {s : State} {l : LaneId} (h : (s.lane l).depth = 0) :
    s.forwardStep l = (s.setLane l
      { s.lane l with position := (s.lane l).position + 1, reach := (s.lane l).position + 1 }).advance l := if_pos h

theorem State.forwardStep_behind {s : State} {l : LaneId} (h : 2 ≤ (s.lane l).depth.toNat) :
    s.forwardStep l = s.setLane l { s.lane l with position := (s.lane l).position + 1 } := by
  have hback : ¬ (s.lane l).depth = 0 := fun hzero => by rw [hzero] at h; exact absurd h (by decide)
  have hone := (s.lane l).depth_back_one hback
  have hstill : ¬ (s.lane l).reach - ((s.lane l).position + 1) = 0 := fun hzero => by
    rw [hzero] at hone
    have : (s.lane l).depth.toNat = 1 := hone.symm
    omega
  unfold State.forwardStep
  simp only [State.lane_setLane_same]
  rw [if_neg hback]
  exact if_neg hstill

/-- R25: a forward step onto the reach reads the sensors again. -/
theorem State.forwardStep_onto {s : State} {l : LaneId} (h : (s.lane l).depth = 1) :
    s.forwardStep l =
      (s.setLane l { s.lane l with
        position := (s.lane l).position + 1
        confirmLevel := (s.laneInputs l).confirm }).entryEdge l (s.laneInputs l).entry := by
  have hback : ¬ (s.lane l).depth = 0 := by rw [h]; decide
  have honto : (s.lane l).reach - ((s.lane l).position + 1) = 0 := by
    simp only [Lane.depth] at h
    bv_omega
  unfold State.forwardStep
  simp only [State.lane_setLane_same]
  rw [if_neg hback]
  refine (if_pos honto).trans ?_
  simp only [State.rereadSensors, State.updLane_eq, State.lane_setLane_same, State.setLane_setLane,
    State.setLane_laneInputs]

/-- Where a reverse step takes position and reach (R14, R15). -/
theorem State.reverseStep_moves {s : State} {l : LaneId} {M : Lane}
    (hM : ((s.lane l).depth.toNat < 65536 ∧ M = { s.lane l with position := (s.lane l).position - 1 }) ∨
      ((s.lane l).depth.toNat = 65536 ∧
        M = { s.lane l with position := (s.lane l).position - 1, reach := (s.lane l).reach - 1 })) :
    (¬ (M.tracking = true ∧ M.config.reverseLimit.toNat < M.depth.toNat) → s.reverseStep l = s.setLane l M) ∧
      (M.tracking = true → M.config.reverseLimit.toNat < M.depth.toNat →
        s.reverseStep l = (s.setLane l M).haltLane l .reverse) := by
  have hstep : s.reverseStep l = if M.tracking = true ∧ M.config.reverseLimit.toNat < M.depth.toNat then
      (s.setLane l M).haltLane l .reverse else s.setLane l M := by
    unfold State.reverseStep
    rcases hM with ⟨hroom, rfl⟩ | ⟨hfull, rfl⟩
    · simp only [if_neg (Nat.ne_of_lt hroom : ¬ (s.lane l).depth.toNat = maxDepth), State.lane_setLane_same]
    · simp only [if_pos (show (s.lane l).depth.toNat = maxDepth from hfull), State.lane_setLane_same]
  exact ⟨fun h => hstep.trans (if_neg h), fun htracks hpast => hstep.trans (if_pos ⟨htracks, hpast⟩)⟩

/-- An entry level that is not taken or not new has no effect (R24, R25). -/
theorem State.entryEdge_idle {s : State} {l : LaneId} {present : Bool}
    (h : (s.lane l).tracking = false ∨ (s.lane l).depth ≠ 0 ∨ (s.lane l).entryLevel = present) :
    s.entryEdge l present = s := by
  unfold State.entryEdge State.takeEntryLevel
  rcases h with h | h | h
  · exact if_neg fun htakes => by rw [h] at htakes; exact absurd htakes.1 (by decide)
  · exact if_neg fun htakes => h htakes.2
  · rw [if_pos h, ite_self]

theorem exec_entrySensorEdge_same (s : State) (l : LaneId) : exec (.entrySensorEdge l (s.laneInputs l).entry) s =
    .next (s.entryEdge l (s.laneInputs l).entry).transmitNext := by
  have hsame : s.setLaneInputs l { s.laneInputs l with entry := (s.laneInputs l).entry } = s := s.setLaneInputs_self l
  exact congrArg (fun t : State => Host.Outcome.next (t.entryEdge l (s.laneInputs l).entry).transmitNext) hsame

/-! ## The advance of the reach -/

/-- R17: the acts at an advance of the reach that a lane's move has brought about. -/
theorem State.setLane_advance (s : State) (l : LaneId) (M : Lane) : ∃ (acts : List BeltAct) (taken : Nat),
    (∀ act, act ∈ acts ↔ M.Holds act) ∧
    (∀ block ∈ M.blocks, (acts.filter fun act => act ∈ block).Sublist block) ∧
    (taken = s.freeIndex ∨ taken = s.freeIndex + 1 ∧ 2 ≤ acts.length) ∧
    (s.setLane l M).advance l = acts.foldl (State.runAct l) { s.setLane l M with freeIndex := taken } := by
  have hspec := (s.setLane l M).advance_spec l
  rw [State.lane_setLane_same] at hspec
  exact hspec

theorem exec_tick {s : State} {l : LaneId} (hticks : (s.lane l).tickTimer.isSome) (hdepth : (s.lane l).depth = 0) :
    exec (.clockTick l) s = .next (State.transmitNext ((s.setLane l
      { s.lane l with
        tickTimer := some (s.lane l).config.tickInterval.toNat
        position := (s.lane l).position + 1
        reach := (s.lane l).position + 1 }).advance l)) := by
  obtain ⟨left, hleft⟩ := Option.isSome_iff_exists.mp hticks
  have htick : s.clockTick l =
      (s.setLane l { s.lane l with tickTimer := some (s.lane l).config.tickInterval.toNat }).forwardStep l := by
    unfold State.clockTick
    simp only [hleft]
    rfl
  have hlane : ((s.setLane l { s.lane l with tickTimer := some (s.lane l).config.tickInterval.toNat }).lane l).depth =
      0 := by rw [State.lane_setLane_same]; exact hdepth
  rw [State.forwardStep_advances hlane, State.lane_setLane_same, State.setLane_setLane] at htick
  exact next_transmit htick

theorem exec_tick_stopped {s : State} {l : LaneId} (h : (s.lane l).tickTimer = none) :
    exec (.clockTick l) s = .next s.transmitNext := by
  have htick : s.clockTick l = s := by unfold State.clockTick; simp only [h]
  exact next_transmit htick

end Sys2Proof.Machine

open Sys2Proof Sys2Proof.Machine in
/-- Settles O59: a lane's event acts on that lane alone, and the transmitter's next frame leaves the rest. -/
theorem lanesAreSeparate : Obligations.LanesAreSeparate := by
  unfold Obligations.LanesAreSeparate
  intro s t l j c hc hj h
  obtain ⟨u, hevent, rfl⟩ := exec_laneEvent hc h
  obtain ⟨x, honLane⟩ := hevent.onLane
  have hlink := hevent.link
  refine ⟨?_, ?_, ?_, ?_, ?_, ?_, ?_, ?_⟩
  · rw [State.transmitNext_lane, honLane.others j hj, State.lane_setLaneInputs]
  · rw [State.transmitNext_laneInputs, honLane.laneInputs, State.laneInputs_setLaneInputs_ne s hj]
  · rw [State.transmitNext_guardAsserted, honLane.guardAsserted, State.setLaneInputs_guardAsserted]
  · rw [State.transmitNext_session, hlink]
  · rw [State.transmitNext_replies, hlink]
  · rw [State.transmitNext_history, hlink]
  · rw [State.transmitNext_counters, hlink]
  · rw [State.transmitNext_receiver, hlink]

open Sys2Proof Sys2Proof.Machine in
/-- Settles O43: a tick and a forward step at depth 0 both move the lane and advance its reach. -/
theorem reachAdvances : Obligations.ReachAdvances := by
  unfold Obligations.ReachAdvances
  intro s l L moves
  have hmoves : ∀ (c : Instr) (base : State) (M : Lane), base.freeIndex = s.freeIndex →
      exec c s = .next (State.transmitNext ((base.setLane l M).advance l)) → moves c base M := by
    intro c base M hfree hexec
    obtain ⟨acts, taken, hacts, hblocks, htaken, hadvance⟩ := base.setLane_advance l M
    exact ⟨acts, taken, hacts, hblocks, hfree ▸ htaken, by rw [hexec, hadvance]⟩
  refine ⟨fun hticks hdepth => hmoves _ s _ rfl (exec_tick hticks hdepth), exec_tick_stopped,
    fun act h => State.runAct_idle s l act h, fun a b hsource hdepth htable => ?_⟩
  have hstep : L.quadStep a b = .forward := by
    unfold Lane.quadStep
    rw [htable]
    cases L.config.swap <;> rfl
  have hlane : ((s.holdPair l a b).lane l).depth = 0 := by rw [State.holdPair_lane]; exact hdepth
  refine hmoves _ _ _ rfl (exec_encoder hsource (.inr (.inl ⟨hstep, ?_⟩)))
  rw [State.forwardStep_advances hlane, State.holdPair_lane, State.holdPair, State.setLane_setLane]
  rfl

open Sys2Proof Sys2Proof.Machine in
/-- Settles O41: each step of the decoder by the lane's depth and state. -/
theorem encoderSteps : Obligations.EncoderSteps := by
  unfold Obligations.EncoderSteps
  intro s l a b L table step heard K becomes
  have hstep : L.quadStep a b = step := by
    simp only [Lane.quadStep, step, table]
    rcases L.config.swap
    · rfl
    · exact QuadStep.swap_eq _
  have hK : (s.holdPair l a b).lane l = K := s.holdPair_lane l a b
  have hmoved : ∀ M, (s.holdPair l a b).setLane l M = heard.setLane l M := fun M => State.setLane_setLane ..
  refine ⟨exec_encoder_clock a b, fun hsource => ⟨fun h => ?_, fun h htracks => ?_, fun h hdepth => ?_,
    fun h hdepth => ?_, fun h hdepth hlimit => ?_, fun h hdepth htracks => ?_⟩⟩
  · exact exec_encoder hsource (.inl ⟨hstep.trans h, rfl⟩)
  · refine exec_encoder hsource (.inr (.inr (.inr ⟨hstep.trans h, ?_⟩)))
    exact State.haltLane_other _ l _ (by rw [hK]; exact htracks)
  · refine exec_encoder hsource (.inr (.inl ⟨hstep.trans h, ?_⟩))
    rw [State.forwardStep_behind (by rw [hK]; exact hdepth), hK, hmoved]
  · intro M
    have honto : (s.holdPair l a b).forwardStep l = (heard.setLane l M).entryEdge l (s.laneInputs l).entry := by
      have hinputs : (s.holdPair l a b).laneInputs l = { s.laneInputs l with encoderA := a, encoderB := b } := by
        rw [State.holdPair, State.setLane_laneInputs, State.hearEncoder, State.laneInputs_setLaneInputs_same]
      rw [State.forwardStep_onto (by rw [hK]; exact hdepth), hK, hmoved, hinputs]
    have hexec := exec_encoder hsource (.inr (.inl ⟨hstep.trans h, honto⟩))
    refine ⟨fun hidle => ?_, ?_⟩
    · rw [State.entryEdge_idle] at hexec
      · exact hexec
      · rw [State.lane_setLane_same]
        exact hidle.imp_right .inr
    · have hentry : ((heard.setLane l M).laneInputs l).entry = (s.laneInputs l).entry := by
        rw [State.setLane_laneInputs, State.laneInputs_setLaneInputs_same]
      rw [hexec, ← hentry]
      exact (exec_entrySensorEdge_same _ l).symm
  · refine exec_encoder hsource (.inr (.inr (.inl ⟨hstep.trans h, ?_⟩)))
    have hone := L.depth_on_one (Nat.le_of_lt hdepth)
    rw [(State.reverseStep_moves (.inl ⟨by rw [hK]; exact hdepth, rfl⟩)).1, hK, hmoved]
    rw [hK]
    rintro ⟨htracks, hpast⟩
    rcases hlimit with hlimit | hlimit
    · exact absurd (hlimit.symm.trans htracks) (by decide)
    · exact absurd (hone ▸ hpast : L.config.reverseLimit.toNat < L.depth.toNat + 1) (by omega)
  · refine exec_encoder hsource (.inr (.inr (.inl ⟨hstep.trans h, ?_⟩)))
    rw [(State.reverseStep_moves (.inr ⟨by rw [hK]; exact hdepth, rfl⟩)).1, hK, hmoved]
    rw [hK]
    rintro ⟨htracks', -⟩
    exact absurd (htracks.symm.trans htracks') (by decide)

open Sys2Proof Sys2Proof.Machine in
/-- Settles O42: an illegal transition halts the lane where it stands, and a reverse step past the limit after it has
moved. -/
theorem encoderHalts : Obligations.EncoderHalts := by
  unfold Obligations.EncoderHalts
  intro s l a b reason position L table hsource htracks hreason heard H last
  have hK := s.holdPair_lane l a b
  let M : Lane := { L with encoder := ⟨a, b⟩, position := position }
  have hhalt : exec (.encoderChange l a b) s = .next ((heard.setLane l M).haltLane l reason).transmitNext := by
    refine exec_encoder hsource (.inr (.inr ?_))
    rcases hreason with ⟨rfl, htable, rfl⟩ | ⟨rfl, htable, hdepth, hpast, rfl⟩
    · refine .inr ⟨?_, rfl⟩
      simp only [Lane.quadStep]
      rw [show quadratureTable (L.encoder.a, L.encoder.b) (a, b) = .illegal from htable]
      exact ite_self _
    · refine .inl ⟨?_, ?_⟩
      · unfold Lane.quadStep
        rw [show quadratureTable (L.encoder.a, L.encoder.b) (a, b) = _ from htable]
        cases L.config.swap <;> rfl
      · have hone := L.depth_on_one (Nat.le_of_lt hdepth)
        have hmoves := (State.reverseStep_moves (s := s.holdPair l a b) (l := l) (M := M)
          (.inl ⟨by rw [hK]; exact hdepth, by rw [hK]⟩)).2 htracks (hone ▸ hpast)
        rw [hmoves, State.holdPair, State.setLane_setLane]
        rfl
  have hlane : (heard.setLane l M).lane l = M := State.lane_setLane_same ..
  obtain ⟨hfree, hcommits⟩ := (heard.setLane l M).haltLane_eq l reason (by rw [hlane]; exact htracks)
  rw [hlane] at hfree hcommits
  simp only [State.setLane_setLane] at hfree hcommits
  exact ⟨fun hnone => by rw [hhalt, hfree hnone], fun body derived c hc => by
    rw [hhalt, hcommits body derived c hc]⟩
end

section
/-! PROOF. The entry detector: what its edges and its acts at an advance of the reach do (R23 to R35, R56). -/

namespace Sys2Proof.Machine

/-! ## The detector's acts at an advance -/

theorem State.runAct_detector {s : State} {l : LaneId} (h : (s.lane l).Holds .detector) :
    State.runAct l s .detector = s.detectorAdvance l := by
  unfold State.runAct
  simp only [((s.lane l).calls_iff .detector).mpr h]
  rfl

theorem State.detectorAdvance_gapWait {s : State} {l : LaneId} {leading trailing : Pos} {lim : Limits}
    (h : (s.lane l).detector = .gapWait leading trailing lim) :
    s.detectorAdvance l = s.admitMeasured l leading trailing lim := by
  unfold State.detectorAdvance
  simp only [h]

theorem State.detectorAdvance_inItem {s : State} {l : LaneId} {leading : Pos} {lim : Limits}
    (h : (s.lane l).detector = .inItem leading lim) : s.detectorAdvance l = s.admitLong l leading lim := by
  unfold State.detectorAdvance
  simp only [h]

/-! ## Edges of the entry sensor -/

/-- R24: a level that the detector takes is an edge. -/
theorem State.entryEdge_taken {s : State} {l : LaneId} {present : Bool} (ht : (s.lane l).tracking = true)
    (hd : (s.lane l).depth = 0) (hl : (s.lane l).entryLevel ≠ present) :
    s.entryEdge l present =
      if present then (s.setLane l { s.lane l with entryLevel := present }).presenceEdge l
      else (s.setLane l { s.lane l with entryLevel := present }).clearingEdge l := by
  unfold State.entryEdge State.takeEntryLevel
  rw [if_pos ⟨ht, hd⟩, if_neg hl]
  rfl

theorem State.setDetector_eq (s : State) (l : LaneId) (d : Detector) :
    s.setDetector l d = s.setLane l { s.lane l with detector := d } := rfl

theorem State.presenceEdge_clear {s : State} {l : LaneId} (h : (s.lane l).detector = .clear) :
    s.presenceEdge l = s.setDetector l (.inItem (s.lane l).position (s.lane l).latchLimits) := by
  unfold State.presenceEdge
  simp only [h]

theorem State.presenceEdge_gapWait {s : State} {l : LaneId} {leading trailing : Pos} {lim : Limits}
    (h : (s.lane l).detector = .gapWait leading trailing lim) :
    s.presenceEdge l = if ((s.lane l).position - leading).toNat < lim.lmax.toNat then
      s.setDetector l (.inItem leading lim) else s.admitLong l leading lim := by
  unfold State.presenceEdge
  simp only [h]

theorem State.clearingEdge_clear {s : State} {l : LaneId} (h : (s.lane l).detector = .clear) :
    s.clearingEdge l = s := by
  unfold State.clearingEdge
  simp only [h]

theorem State.clearingEdge_inItem {s : State} {l : LaneId} {leading : Pos} {lim : Limits}
    (h : (s.lane l).detector = .inItem leading lim) :
    s.clearingEdge l = if ((s.lane l).position - leading).toNat < lim.lmin.toNat then
        s.glitch l leading (s.lane l).position
      else if lim.gap = 0 then s.admitMeasured l leading (s.lane l).position lim
      else s.setDetector l (.gapWait leading (s.lane l).position lim) := by
  unfold State.clearingEdge
  simp only [h]

/-- R56: the open interval is closed. -/
theorem closeInterval_eq (stop : Pos) (is : List Interval) :
    closeInterval stop is = is.map fun i => if i.stop = none then { i with stop := some stop } else i := by
  simp only [closeInterval, Option.isNone_iff_eq_none]

theorem State.clearingEdge_blocked {s : State} {l : LaneId} {leading : Pos} {lim : Limits}
    (h : (s.lane l).detector = .blocked leading lim) :
    s.clearingEdge l = State.detectorCleared (s.setLane l
      { s.lane l with
        detector := .clear
        blind := (s.lane l).blind.map fun i =>
          if i.stop = none then { i with stop := some ((s.lane l).position + lim.gap.setWidth 32) } else i }) l := by
  rw [← closeInterval_eq]
  unfold State.clearingEdge
  simp only [h]
  rfl

/-- R28: a glitch is counted and, if the mask lets it, told; the detector is CLEAR again. -/
theorem State.glitch_eq {s : State} {l : LaneId} (leading q : Pos) :
    let t := s.setLane l { s.lane l with glitchCount := saturatingSucc (s.lane l).glitchCount }
    let u := if (s.lane l).config.maskGlitch then t.produce (.glitch l leading ((q - leading).setWidth 16)) else t
    s.glitch l leading q = (u.setLane l { u.lane l with detector := .clear }).detectorCleared l := by
  intro t u
  unfold State.glitch
  simp only [State.updLane_eq, State.lane_setLane_same]
  rcases hmask : (s.lane l).config.maskGlitch
  · simp only [u, hmask, Bool.false_eq_true, if_false, t, State.lane_setLane_same, State.setLane_setLane,
      State.produceIf_false]
  · simp only [u, hmask, if_true, t, State.lane_setLane_same, State.produceIf_true,
      State.produce_setLane, State.setLane_setLane]

end Sys2Proof.Machine

open Sys2Proof Sys2Proof.Machine in
/-- Settles O45: the detector has something to do at the reach, and hands its item on. -/
theorem detectorAdmits : Obligations.DetectorAdmits := by
  unfold Obligations.DetectorAdmits
  intro s l leading trailing lim htracks
  constructor
  · intro hdetector hreach t
    rw [State.runAct_detector (.inr ⟨leading, trailing, lim, hdetector, hreach⟩),
      State.detectorAdvance_gapWait hdetector]
    exact s.admitMeasured_eq l leading trailing lim htracks (by rw [hdetector]; exact nofun)
  · intro hdetector hreach t
    rw [State.runAct_detector (.inl ⟨leading, lim, hdetector, hreach⟩), State.detectorAdvance_inItem hdetector]
    exact s.admitLong_eq l leading lim htracks (by rw [hdetector]; exact nofun)

open Sys2Proof Sys2Proof.Machine in
/-- Settles O44: an edge that is taken, by its direction and the detector's state. -/
theorem entryEdges : Obligations.EntryEdges := by
  unfold Obligations.EntryEdges
  intro s l present L heard c taken becomes cleared
  have hL : heard.lane l = L := State.lane_setLaneInputs ..
  have hlane : ∀ M, (taken M).lane l = { M with entryLevel := present } := fun M => State.lane_setLane_same ..
  have hset : ∀ M, (taken L).setLane l M = heard.setLane l M := fun M => State.setLane_setLane ..
  have hexec : ∀ t, heard.entryEdge l present = t → exec c s = .next t.transmitNext := fun t ht => by rw [← ht]; rfl
  refine ⟨fun hidle => hexec heard (State.entryEdge_idle (by rw [hL]; exact hidle)),
    fun htracks hdepth hedge hpresent => ?_, fun htracks hdepth hedge hclearing => ?_⟩
  · have hedge : ∀ t, (taken L).presenceEdge l = t → exec c s = .next t.transmitNext := fun t ht => hexec t <| by
      rw [State.entryEdge_taken (by rw [hL]; exact htracks) (by rw [hL]; exact hdepth) (by rw [hL]; exact hedge), hL,
        if_pos hpresent, ← ht]
    refine ⟨fun hclear => hedge _ ?_, fun leading trailing lim hwait => ?_⟩
    · rw [State.presenceEdge_clear (by rw [hlane]; exact hclear), State.setDetector_eq, hset, hlane]
      rfl
    · have hwaits : ((taken L).lane l).detector = .gapWait leading trailing lim := by rw [hlane]; exact hwait
      have hpresence := State.presenceEdge_gapWait hwaits
      rw [hlane] at hpresence
      refine ⟨fun hbelow => hedge _ ?_, fun habove => hedge _ ?_⟩
      · rw [hpresence, if_pos hbelow, State.setDetector_eq, hset, hlane]
      · rw [hpresence, if_neg (by exact Nat.not_lt.mpr habove)]
        exact State.admitLong_eq _ l leading lim (by rw [hlane]; exact htracks) (by rw [hwaits]; exact nofun)
  · have hedge : ∀ t, (taken L).clearingEdge l = t → exec c s = .next t.transmitNext := fun t ht => hexec t <| by
      rw [State.entryEdge_taken (by rw [hL]; exact htracks) (by rw [hL]; exact hdepth) (by rw [hL]; exact hedge), hL,
        if_neg (by rw [hclearing]; decide), ← ht]
    refine ⟨fun hclear => hedge _ (State.clearingEdge_clear (by rw [hlane]; exact hclear)),
      fun leading lim hitem hlong => ⟨fun hgap => hedge _ ?_, fun hgap => ?_⟩, fun leading lim hitem hshort => ?_,
      fun leading lim hblocked => hedge _ ?_⟩
    · rw [State.clearingEdge_inItem (by rw [hlane]; exact hitem), hlane, if_neg (by exact Nat.not_lt.mpr hlong),
        if_neg hgap, State.setDetector_eq, hset, hlane]
    · intro t
      have hitem' : ((taken L).lane l).detector = .inItem leading lim := by rw [hlane]; exact hitem
      refine hedge _ ?_
      rw [State.clearingEdge_inItem hitem', hlane, if_neg (by exact Nat.not_lt.mpr hlong), if_pos hgap,
        State.admitMeasured_eq _ l leading _ lim (by rw [hlane]; exact htracks) (by rw [hitem']; exact nofun), hgap]
    · intro t
      refine hedge _ ?_
      rw [State.clearingEdge_inItem (by rw [hlane]; exact hitem), hlane, if_pos hshort, State.glitch_eq, hlane, hset]
    · rw [State.clearingEdge_blocked (by rw [hlane]; exact hblocked), hlane, hset]
      simp only [cleared, hlane]
      rw [State.setLane_setLane]
end

section
/-! PROOF. The ticket pool's answer to an admission request (R36 to R47). -/

namespace Sys2Proof.Machine

/-! ## The test of an admission -/

/-- R38, R39: the shared free count, counted out. -/
theorem State.sharedFree_eq (s : State) : s.sharedFree =
    64 - (allLanes.map fun j => (s.lane j).queue.length).sum -
      (allLanes.map fun j => (s.lane j).config.reserve.toNat - (s.lane j).queue.length).sum := rfl

/-- R39: when an admission is refused, and why. -/
theorem State.admissionTest_some {s : State} {l : LaneId} {reason : DropReason}
    (h : reason = .draining ∧ (s.lane l).state = .draining ∨
      reason = .limit ∧ (s.lane l).state = .running ∧ (s.lane l).queue.length = (s.lane l).config.limit.toNat ∨
      reason = .pool ∧ (s.lane l).state = .running ∧ (s.lane l).queue.length ≠ (s.lane l).config.limit.toNat ∧
        (s.lane l).config.reserve.toNat ≤ (s.lane l).queue.length ∧ s.sharedFree = 0) :
    s.admissionTest l = some reason := by
  unfold State.admissionTest Lane.inUse
  rcases h with ⟨rfl, hstate⟩ | ⟨rfl, hstate, hlimit⟩ | ⟨rfl, hstate, hlimit, hreserve, hshared⟩
  · simp [hstate]
  · simp [hstate, hlimit]
  · simp [hstate, hlimit, Nat.not_lt.mpr hreserve, hshared]

/-- R39: when an admission is granted. -/
theorem State.admissionTest_none {s : State} {l : LaneId} (hstate : (s.lane l).state = .running)
    (hlimit : (s.lane l).queue.length ≠ (s.lane l).config.limit.toNat)
    (hroom : (s.lane l).queue.length < (s.lane l).config.reserve.toNat ∨ 0 < s.sharedFree) :
    s.admissionTest l = none := by
  unfold State.admissionTest Lane.inUse
  rcases hroom with hreserve | hshared
  · simp [hstate, hlimit, hreserve]
  · simp [hstate, hlimit, hshared]

theorem State.mem_usedIndices (s : State) (i : TicketIndex) :
    i ∈ s.usedIndices ↔ ∃ (j : LaneId), ∃ t ∈ (s.lane j).queue, t.index = i := by
  simp only [State.usedIndices, List.mem_flatMap, List.mem_map]
  exact ⟨fun ⟨j, _, ht⟩ => ⟨j, ht⟩, fun ⟨j, ht⟩ => ⟨j, mem_allLanes j, ht⟩⟩

/-- R40: the free record with the highest index is taken first. -/
theorem State.freeIndices_highest {s : State} {index : TicketIndex}
    (hfree : ∀ (j : LaneId), ∀ t ∈ (s.lane j).queue, t.index ≠ index)
    (hhigher : ∀ higher : TicketIndex, index < higher → ∃ (j : LaneId), ∃ t ∈ (s.lane j).queue, t.index = higher) :
    ∃ rest, s.freeIndices = index :: rest := by
  refine indicesDown_filter _ index ?_ fun higher h => ?_
  · have hunused : index ∉ s.usedIndices := fun hmem => by
      obtain ⟨j, t, ht, hindex⟩ := (s.mem_usedIndices index).mp hmem
      exact hfree j t ht hindex
    simpa using hunused
  · simpa using (s.mem_usedIndices higher).mpr (hhigher higher h)

/-! ## What a drop and a grant do -/

/-- R42: the next serial and the wrap flag after an admission request. -/
theorem Lane.advanceSerial_eq (L : Lane) : L.advanceSerial =
    { L with
      nextSerial := if L.nextSerial = 4294967295 then 1 else L.nextSerial + 1
      wrapped := L.wrapped || L.nextSerial == 4294967295 } := by
  unfold Lane.advanceSerial
  by_cases h : L.nextSerial = 4294967295
  · simp [h]
  · rw [if_neg h, if_neg h, beq_eq_false_iff_ne.mpr h, Bool.or_false]

theorem Lane.advanceSerial_queue (L : Lane) (queue : List Ticket) :
    { L with queue := queue }.advanceSerial = { L.advanceSerial with queue := queue } := by
  unfold Lane.advanceSerial
  by_cases h : L.nextSerial = 4294967295
  · rw [if_pos h, if_pos h]
  · rw [if_neg h, if_neg h]

theorem StationRecord.inUse_eq (r : StationRecord) : r.inUse = decide (r.act ≠ .off) := by
  rcases r with ⟨act, confirm⟩
  cases act <;> rfl

theorem ProfileBody.freshOutcomes_eq (b : ProfileBody) : b.freshOutcomes =
    (allStations.filter fun k => (b.stations[k]).act ≠ .off).map fun k => (k, .pending) := by
  simp only [ProfileBody.freshOutcomes, StationRecord.inUse_eq]

theorem ProfileBody.confirmStation_isSome (b : ProfileBody) :
    b.confirmStation.isSome = allStations.any fun k => (b.stations[k]).confirm.isSome := by
  rw [Bool.eq_iff_iff, ProfileBody.confirmStation, List.find?_isSome, List.any_eq_true]

theorem State.dropPolicy_eq (s : State) (l : LaneId) :
    ((s.lane l).config.dropPolicy = .report → s.dropPolicy l = s) ∧
    ((s.lane l).config.dropPolicy = .stop → s.dropPolicy l =
      s.setLane l { s.lane l with stops := { (s.lane l).stops with drop := true } }) ∧
    ((s.lane l).config.dropPolicy = .halt → s.dropPolicy l = s.haltLane l .drop) := by
  refine ⟨fun h => ?_, fun h => ?_, fun h => ?_⟩
  · simp only [State.dropPolicy, h]
  · simp only [State.dropPolicy, h, State.updStops_eq]
  · simp only [State.dropPolicy, h]

theorem State.askPool_refused {s : State} {l : LaneId} {reason : DropReason} (h : s.admissionTest l = some reason)
    (entry : Pos) (length gap : Half) (long : Bool) :
    s.askPool l entry length gap long = s.drop l entry length gap long reason := by
  simp only [State.askPool, h]

theorem State.askPool_granted {s : State} {l : LaneId} {index : TicketIndex} {rest : List TicketIndex}
    (h : s.admissionTest l = none) (hfree : s.freeIndices = index :: rest)
    (entry : Pos) (length gap : Half) (long : Bool) :
    s.askPool l entry length gap long = s.grant l index entry length long := by
  simp only [State.askPool, h, hfree]

/-- R45: a refused admission, before the boundary of the next serial and the drop policy. -/
theorem State.drop_eq (s : State) (l : LaneId) (entry : Pos) (length gap : Half) (long : Bool) (reason : DropReason) :
    s.drop l entry length gap long reason =
      (((s.setLane l
        { (s.lane l).advanceSerial with
          dropCount := saturatingSucc (s.lane l).dropCount
          blind := withInterval (s.lane l).blind
            { start := entry
              stop := if long then none else some (entry + length.setWidth 32 + gap.setWidth 32) } }).produce
        (.dropped l (s.lane l).nextSerial entry reason)).serialAdvanced l).dropPolicy l := by
  rw [← addInterval_eq]
  rfl

/-- R44: a granted admission, before the boundary of the next serial. -/
theorem State.grant_eq (s : State) (l : LaneId) (index : TicketIndex) (entry : Pos) (length : Half) (long : Bool) :
    let u := s.setLane l { (s.lane l).advanceSerial with
      queue := (s.lane l).queue ++ [(s.lane l).newTicket l index entry length long] }
    s.grant l index entry length long =
      (if (s.lane l).config.maskEntry then
        u.produce (.entry l (s.lane l).nextSerial index entry length long (s.lane l).active.generation)
      else u).serialAdvanced l := by
  intro u
  unfold State.grant
  simp only [State.updLane_eq, State.lane_setLane_same]
  rcases (s.lane l).config.maskEntry
  · simp only [State.produceIf_false, State.lane_setLane_same, State.setLane_setLane]
    rw [Lane.advanceSerial_queue]
    rfl
  · simp only [State.produceIf_true, State.lane_produce, State.lane_setLane_same, ← State.produce_setLane,
      State.setLane_setLane]
    rw [Lane.advanceSerial_queue]
    rfl

end Sys2Proof.Machine

open Sys2Proof Sys2Proof.Machine in
/-- Settles O46: the test's answer, then a drop or a grant, whose next serial may be a commit's boundary. -/
theorem poolAnswers : Obligations.PoolAnswers := by
  unfold Obligations.PoolAnswers
  intro s l entry length gap long L used short next counted advanced
  have hadvanced : ∀ u : State, (u.lane l).staging = L.staging → (u.lane l).nextSerial = next →
      u.serialAdvanced l = advanced u := by
    intro u hstaging hnext
    unfold State.serialAdvanced
    rw [hstaging, hnext] <;> rfl
  constructor
  · intro reason hreason interval dropped
    set told : State := (s.setLane l
      { counted with
        dropCount := saturatingSucc L.dropCount
        blind := withInterval L.blind interval }).produce (.dropped l L.nextSerial entry reason) with htold
    have hlane : told.lane l =
        { counted with dropCount := saturatingSucc L.dropCount, blind := withInterval L.blind interval } := by
      rw [htold, State.lane_produce, State.lane_setLane_same]
    have hdropped : told.serialAdvanced l = dropped := hadvanced told (by rw [hlane]) (by rw [hlane])
    have hdrop : s.askPool l entry length gap long = dropped.dropPolicy l := by
      rw [State.askPool_refused (State.admissionTest_some (by rw [State.sharedFree_eq]; exact hreason)), State.drop_eq,
        Lane.advanceSerial_eq, ← hdropped]
    have hpolicy : (dropped.lane l).config.dropPolicy = L.config.dropPolicy := by
      rw [← hdropped, (told.serialAdvanced_acts l).acted.config, hlane]
    obtain ⟨hreport, hstop, hhalt⟩ := dropped.dropPolicy_eq l
    rw [hpolicy] at hreport hstop hhalt
    exact ⟨fun h => hdrop.trans (hreport h), fun h => hdrop.trans (hstop h), fun h => hdrop.trans (hhalt h)⟩
  · intro index hrunning hlimit hroom hfree hhigher ticket admitted
    obtain ⟨rest, hindices⟩ := State.freeIndices_highest hfree hhigher
    have htest := State.admissionTest_none hrunning hlimit (by rw [State.sharedFree_eq]; exact hroom)
    have hticket : L.newTicket l index entry length long = ticket := by
      simp only [Lane.newTicket, ProfileBody.freshOutcomes_eq, ProfileBody.confirmStation_isSome, ticket]
    rw [State.askPool_granted htest hindices, State.grant_eq, Lane.advanceSerial_eq]
    rw [show (s.lane l).newTicket l index entry length long = ticket from hticket]
    refine hadvanced _ ?_ ?_ <;> split
    · rw [State.lane_produce, State.lane_setLane_same]
    · rw [State.lane_setLane_same]
    · rw [State.lane_produce, State.lane_setLane_same]
    · rw [State.lane_setLane_same]
end

section
/-! PROOF. The points of a ticket on the belt: its deadline, its retirement and the intervals behind it (R49 to R51, R57,
R78 to R81). -/

namespace Sys2Proof.Machine

/-! ## The acts that a lane has reason for -/

theorem State.runAct_deadline {s : State} {l : LaneId} {n : Serial} (h : (s.lane l).Holds (.deadline n)) :
    State.runAct l s (.deadline n) = s.updTicket l n fun t => t.finalise ((s.lane l).profileOf t.generation) := by
  unfold State.runAct
  simp only [((s.lane l).calls_iff _).mpr h]
  rfl

theorem State.runAct_retire {s : State} {l : LaneId} {n : Serial} {t : Ticket} (h : (s.lane l).Holds (.retire n))
    (ht : (s.lane l).findTicket n = some t) : State.runAct l s (.retire n) = s.retire l t := by
  unfold State.runAct
  simp only [((s.lane l).calls_iff _).mpr h, ht]
  rfl

theorem State.runAct_blind {s : State} {l : LaneId} (h : (s.lane l).Holds .blind) :
    State.runAct l s .blind = (s.setLane l (s.lane l).checkBlind).testDrain l := by
  unfold State.runAct
  simp only [((s.lane l).calls_iff _).mpr h]
  rfl

/-! ## Reports of a lane -/

theorem State.foldl_produce_lane (s : State) (rs : List Report) (l : LaneId) :
    (rs.foldl State.produce s).lane l = s.lane l := by
  induction rs generalizing s with
  | nil => rfl
  | cons r rs ih => rw [List.foldl_cons, ih, State.lane_produce]

theorem State.foldl_produce_setLane (s : State) (rs : List Report) (l : LaneId) (x y : Lane) :
    (rs.foldl State.produce (s.setLane l x)).setLane l y = rs.foldl State.produce (s.setLane l y) := by
  induction rs generalizing s with
  | nil => exact State.setLane_setLane ..
  | cons r rs ih => rw [List.foldl_cons, List.foldl_cons, State.produce_setLane, ih, State.produce_setLane]

/-! ## Decisions and retirement -/

theorem Ticket.finalise_final (t : Ticket) (p : Profile) :
    ∃ c source tag, (t.finalise p).decision = .final c source tag := by
  unfold Ticket.finalise Decision.finalise
  rcases t.decision with _ | ⟨c, tag⟩ | ⟨c, source, tag⟩
  · exact ⟨_, _, _, rfl⟩
  · exact ⟨_, _, _, rfl⟩
  · exact ⟨_, _, _, rfl⟩

/-- R50, R51: the ticket leaves with its FATE report, and the queue acts on what is left. -/
theorem State.retire_eq {s : State} {l : LaneId} {t : Ticket} {c : ClassId} {source : Source} {tag : Option Half}
    (h : (t.finalise ((s.lane l).profileOf t.generation)).decision = .final c source tag) :
    s.retire l t = State.testDrain (State.testWhenClear (State.testRetiring
      ((if (s.lane l).config.maskFate then [Report.fate t.lane t.serial c source tag t.outcomes t.confirm]
        else []).foldl State.produce
        (s.setLane l { s.lane l with queue := (s.lane l).queue.filter fun u => u.serial != t.serial })) l) l) l := by
  have hfate : (t.finalise ((s.lane l).profileOf t.generation)).fate =
      some (.fate t.lane t.serial c source tag t.outcomes t.confirm) := by
    simp only [Ticket.fate, h]
    rfl
  unfold State.retire
  simp only [hfate, State.updLane_eq, State.lane_setLane_same]
  cases (s.lane l).config.maskFate <;> rfl

/-- R73: the retiring profile stays while a ticket has its generation. -/
theorem State.testRetiring_stays {s : State} {l : LaneId}
    (h : (s.lane l).retiring = none ∨
      ∃ p, (s.lane l).retiring = some p ∧ ∃ u ∈ (s.lane l).queue, u.generation = p.generation) :
    s.testRetiring l = s := by
  unfold State.testRetiring
  rcases h with h | ⟨p, h, u, hu, hgeneration⟩
  · simp only [h]
  · simp only [h]
    exact if_pos (List.any_eq_true.mpr ⟨u, hu, by simpa using hgeneration⟩)

/-- R73, R74: the retiring profile goes with its last ticket, and a HELD commit installs. -/
theorem State.testRetiring_discards {s : State} {l : LaneId} {p : Profile} (h : (s.lane l).retiring = some p)
    (hlast : ∀ u ∈ (s.lane l).queue, u.generation ≠ p.generation) :
    ((∀ body derived, (s.lane l).staging ≠ .committing body derived .held) →
      s.testRetiring l = s.setLane l { s.lane l with retiring := none }) ∧
    (∀ body derived, (s.lane l).staging = .committing body derived .held →
      s.testRetiring l = (s.setLane l { s.lane l with retiring := none }).install l) := by
  have hnone : ¬ ((s.lane l).queue.any fun t => t.generation == p.generation) = true := by
    simpa using hlast
  refine ⟨fun hstaging => ?_, fun body derived hstaging => ?_⟩
  · unfold State.testRetiring
    simp only [h, if_neg hnone, State.updLane_eq, State.lane_setLane_same]
  · unfold State.testRetiring
    simp only [h, if_neg hnone, State.updLane_eq, State.lane_setLane_same, hstaging]

/-- R68: only a WHEN_CLEAR boundary on an empty lane is reached. -/
theorem State.testWhenClear_open {s : State} {l : LaneId}
    (h : ¬ ((s.lane l).queue = [] ∧ (s.lane l).detector = .clear ∧
      ∃ body derived, (s.lane l).staging = .committing body derived (.pending .whenClear))) :
    s.testWhenClear l = s := if_neg fun hclear => h ((s.lane l).clearBoundary_iff.mp hclear)

theorem State.testWhenClear_reached {s : State} {l : LaneId}
    (h : (s.lane l).queue = [] ∧ (s.lane l).detector = .clear ∧
      ∃ body derived, (s.lane l).staging = .committing body derived (.pending .whenClear)) :
    s.testWhenClear l = s.reachBoundary l := if_pos ((s.lane l).clearBoundary_iff.mpr h)

/-- R57: the intervals that the reach has passed by the removal distance leave the list. -/
theorem Lane.checkBlind_eq (L : Lane) : L.checkBlind =
    { L with
      blind := L.blind.filter fun i =>
        !i.passed L.reach (L.active.derived.retireSpan.toNat + L.active.body.fields.flushMargin.toNat) } := by
  simp only [Lane.checkBlind, Lane.removable_eq]

end Sys2Proof.Machine

open Sys2Proof Sys2Proof.Machine in
/-- Settles O47: the deadline fixes the decision; a retirement by the retiring profile, the commit and what is left of the
queue; the blind check by the intervals passed. -/
theorem deadlineAndRetirement : Obligations.DeadlineAndRetirement := by
  unfold Obligations.DeadlineAndRetirement
  intro s l L
  refine ⟨?_, ?_⟩
  · intro t hfind fixed fate rest left ends
    have hmem : t ∈ L.queue := List.mem_of_find?_eq_some hfind
    have hfixed : ∀ u : Ticket, u.finalise (L.profileOf u.generation) = { u with decision := fixed u } :=
      fun u => Ticket.finalise_eq u _
    refine ⟨fun hreach => ?_, fun hreach => ?_⟩
    · have hfun : (fun u : Ticket => u.finalise ((s.lane l).profileOf u.generation)) =
          fun u => { u with decision := fixed u } := funext hfixed
      rw [State.runAct_deadline ⟨t, hmem, rfl, hreach⟩, State.updTicket_eq, hfun]
      rfl
    · obtain ⟨c, source, tag, hfinal⟩ := t.finalise_final (L.profileOf t.generation)
      have hfate : fate = if L.config.maskFate then
          [Report.fate t.lane t.serial c source tag t.outcomes t.confirm] else [] := by
        have hdecision : fixed t = .final c source tag := by rw [hfixed] at hfinal; exact hfinal
        simp only [fate, hdecision]
      have hretire : State.runAct l s (.retire t.serial) =
          State.testDrain (State.testWhenClear (State.testRetiring (left L) l) l) l := by
        rw [State.runAct_retire ⟨t, hmem, rfl, hreach⟩ hfind, State.retire_eq hfinal, ← hfate]
      have hleft : ∀ M, (left M).lane l = { M with queue := rest } := fun M =>
        (State.foldl_produce_lane _ fate l).trans (State.lane_setLane_same ..)
      have hends : ∀ M, M.staging = L.staging → M.detector = L.detector →
          ((left M).testWhenClear l).testDrain l = ends (left M) := by
        intro M hstaging hdetector
        refine congrArg (fun u : State => u.testDrain l) ?_
        split
        · rename_i body derived hpending
          by_cases hclear : rest = [] ∧ L.detector = .clear
          · rw [if_pos hclear]
            refine State.testWhenClear_reached ?_
            rw [hleft]
            exact ⟨hclear.1, hdetector.trans hclear.2, body, derived, hstaging.trans hpending⟩
          · rw [if_neg hclear]
            refine State.testWhenClear_open ?_
            rw [hleft]
            exact fun ⟨hempty, hdone, _⟩ => hclear ⟨hempty, hdetector.symm.trans hdone⟩
        · rename_i hother
          refine State.testWhenClear_open ?_
          rw [hleft]
          exact fun ⟨_, _, body, derived, hpending⟩ => hother body derived (hstaging.symm.trans hpending)
      have hdiscard : (left L).setLane l { (left L).lane l with retiring := none } = left { L with retiring := none } := by
        rw [hleft]
        exact State.foldl_produce_setLane ..
      refine ⟨fun hstays => ?_, fun p hretiring hlast => ?_⟩
      · rw [hretire, State.testRetiring_stays (by rw [hleft]; exact hstays)]
        exact hends L rfl rfl
      · obtain ⟨hfree, hheld⟩ := State.testRetiring_discards (s := left L) (l := l) (p := p)
          (by rw [hleft]; exact hretiring) (by rw [hleft]; exact hlast)
        rw [hdiscard, hleft] at hfree hheld
        refine ⟨fun hstaging => ?_, fun body derived hstaging => ?_⟩
        · rw [hretire, hfree hstaging]
          exact hends _ rfl rfl
        · rw [hretire, hheld body derived hstaging, State.testWhenClear_noCommit _ l (State.install_ends _ l)]
  · intro passed hpassed
    rw [State.runAct_blind hpassed, Lane.checkBlind_eq]
end

section
/-! PROOF. The confirm monitor: windows, their ends, and the edges of the confirm sensor (R119 to R126). -/

namespace Sys2Proof.Machine

/-! ## Outcomes of the monitor -/

theorem State.setConfirm_eq (s : State) (l : LaneId) (n : Serial) (c : ConfirmState) :
    s.setConfirm l n c = s.setLane l { s.lane l with
      queue := (s.lane l).queue.map fun u => if u.serial = n then { u with confirm := some c } else u } := rfl

theorem State.confirmPolicy_eq (s : State) (l : LaneId) :
    ((s.lane l).config.confirmPolicy = .report → s.confirmPolicy l = s) ∧
    ((s.lane l).config.confirmPolicy = .stop → s.confirmPolicy l =
      s.setLane l { s.lane l with stops := { (s.lane l).stops with confirm := true } }) ∧
    ((s.lane l).config.confirmPolicy = .halt → s.confirmPolicy l = s.haltLane l .confirm) := by
  refine ⟨fun h => ?_, fun h => ?_, fun h => ?_⟩
  · simp only [State.confirmPolicy, h]
  · simp only [State.confirmPolicy, h, State.updStops_eq]
  · simp only [State.confirmPolicy, h]

/-- R119: only the confirm station of a profile has a span to tell of. -/
theorem Profile.confirmSpan_none {p : Profile} {k : StationId} (h : (p.station k).confirm = none) :
    p.confirmSpan k = none := by
  unfold Profile.confirmSpan
  rw [h, ite_self]

theorem Profile.confirmSpan_some {p : Profile} {k : StationId} {w : ConfirmSpan} (h : (p.station k).confirm = some w)
    (honly : ∀ j : StationId, (p.station j).confirm.isSome → j = k) : p.confirmSpan k = some w := by
  have hstation : p.body.confirmStation = some k :=
    p.body.confirmStation_only k (Option.isSome_iff_exists.mpr ⟨w, h⟩) honly
  unfold Profile.confirmSpan
  rw [if_pos hstation, h]

theorem State.tellFired_none {s : State} {l : LaneId} {k : StationId} {t : Ticket}
    (h : ((s.lane l).profileOf t.generation).confirmSpan k = none) : s.tellFired l k t = s := by
  unfold State.tellFired
  simp only [h]

theorem State.tellFired_some {s : State} {l : LaneId} {k : StationId} {t : Ticket} {w : ConfirmSpan} {on : Triple}
    (h : ((s.lane l).profileOf t.generation).confirmSpan k = some w)
    (hon : (((s.lane l).profileOf t.generation).station k).act.on? = some on) :
    s.tellFired l k t = s.openWindow l (t.window (t.entry + on.setWidth 32) k w) := by
  have hdue : t.duePoint ((s.lane l).profileOf t.generation) k = some (t.entry + on.setWidth 32) := by
    unfold Ticket.duePoint
    rw [hon]
    rfl
  unfold State.tellFired
  simp only [h, hdue]

theorem State.tellNotDue_none {s : State} {l : LaneId} {k : StationId} {t : Ticket}
    (h : ((s.lane l).profileOf t.generation).confirmSpan k = none) : s.tellNotDue l k t = s :=
  if_neg (by rw [h]; exact Bool.false_ne_true)

theorem State.tellNotDue_some {s : State} {l : LaneId} {k : StationId} {t : Ticket} {w : ConfirmSpan}
    (h : ((s.lane l).profileOf t.generation).confirmSpan k = some w) :
    s.tellNotDue l k t = s.setConfirm l t.serial .notDue := if_pos (by rw [h]; rfl)

/-- R120: a window whose end lies ahead opens at its place in serial order. -/
theorem State.openWindow_ahead {s : State} {l : LaneId} {w : Window}
    (h : 2147483648 ≤ ((s.lane l).reach - w.stop).toNat) :
    s.openWindow l w = s.setLane l { s.lane l with
      queue := (s.lane l).queue.map fun u => if u.serial = w.serial then { u with confirm := some .waiting } else u
      windows := insertBySerial (s.lane l).nextSerial Window.serial w (s.lane l).windows } := by
  refine (if_neg (by exact Nat.not_lt.mpr h)).trans ?_
  rw [State.setConfirm_eq, State.updLane_eq, State.lane_setLane_same, State.setLane_setLane]

/-- R120: a window that is over before it opens. -/
theorem State.openWindow_over {s : State} {l : LaneId} {w : Window}
    (h : ((s.lane l).reach - w.stop).toNat < 2147483648) :
    s.openWindow l w = s.unconfirmed l w.serial w.station := if_pos h

theorem State.runAct_windowEnd {s : State} {l : LaneId} {n : Serial} {w : Window}
    (h : (s.lane l).Holds (.windowEnd n)) (hw : (s.lane l).windows.find? (fun v => v.serial == n) = some w) :
    State.runAct l s (.windowEnd n) = s.windowEnd l w := by
  unfold State.runAct
  simp only [((s.lane l).calls_iff _).mpr h, hw]
  rfl

/-! ## Edges of the confirm sensor -/

theorem Window.contains_iff (w : Window) (x : Pos) : w.contains x = true ↔ x - w.start < w.stop - w.start :=
  decide_eq_true_iff

/-- R122: a flush hold on a confirm station of the active or the retiring profile. -/
theorem Lane.confirmHeld_iff (L : Lane) : L.confirmHeld = true ↔ ∃ k : StationId, L.flushHold k = true ∧
    (L.active.body.confirmStation = some k ∨ ∃ p, L.retiring = some p ∧ p.body.confirmStation = some k) := by
  have hheld : ∀ p : Profile, (match p.body.confirmStation with
      | some k => L.flushHold k
      | none => false) = true ↔ ∃ k : StationId, L.flushHold k = true ∧ p.body.confirmStation = some k := by
    intro p
    rcases p.body.confirmStation with _ | k
    · simp
    · simp
  have hretiring : (match L.retiring with
      | some p => (match p.body.confirmStation with
        | some k => L.flushHold k
        | none => false)
      | none => false) = true ↔
        ∃ k : StationId, L.flushHold k = true ∧ ∃ p, L.retiring = some p ∧ p.body.confirmStation = some k := by
    rcases L.retiring with _ | p
    · simp
    · simpa using hheld p
  have hor : L.confirmHeld = true ↔ _ ∨ _ := Bool.or_eq_true_iff
  rw [hor]
  refine (or_congr (hheld L.active) hretiring).trans ⟨?_, ?_⟩
  · rintro (⟨k, hk, ha⟩ | ⟨k, hk, hr⟩)
    · exact ⟨k, hk, .inl ha⟩
    · exact ⟨k, hk, .inr hr⟩
  · rintro ⟨k, hk, ha | hr⟩
    · exact .inl ⟨k, hk, ha⟩
    · exact .inr ⟨k, hk, hr⟩

theorem State.confirmEdge_level {s : State} {l : LaneId} {present : Bool}
    (h : (s.lane l).tracking = false ∨
      (s.lane l).depth = 0 ∧ (present = false ∨ (s.lane l).confirmLevel = true)) :
    s.confirmEdge l present = s.setLane l { s.lane l with confirmLevel := present } := by
  unfold State.confirmEdge
  rcases h with h | ⟨hdepth, h⟩
  · simp [h, State.updLane_eq]
  · have hnone : (present && !(s.lane l).confirmLevel) = false := by rcases h with h | h <;> simp [h]
    simp [hdepth, hnone, State.updLane_eq]

theorem State.confirmEdge_behind {s : State} {l : LaneId} {present : Bool} (ht : (s.lane l).tracking = true)
    (hd : (s.lane l).depth ≠ 0) : s.confirmEdge l present = s := by
  unfold State.confirmEdge
  simp only [ht]
  exact if_pos hd

theorem State.confirmEdge_presence {s : State} {l : LaneId} (ht : (s.lane l).tracking = true)
    (hd : (s.lane l).depth = 0) (hl : (s.lane l).confirmLevel = false) :
    s.confirmEdge l true = (s.setLane l { s.lane l with confirmLevel := true }).confirmPresence l := by
  unfold State.confirmEdge
  simp [ht, hd, hl, State.updLane_eq]

theorem State.confirmPresence_held {s : State} {l : LaneId} (h : (s.lane l).confirmHeld = true) :
    s.confirmPresence l = s := if_pos h

theorem State.confirmPresence_confirms {s : State} {l : LaneId} {w : Window} (h : (s.lane l).confirmHeld = false)
    (hw : (s.lane l).windows.find? (fun v => v.contains (s.lane l).reach) = some w) :
    s.confirmPresence l = s.setLane l { s.lane l with
      queue := (s.lane l).queue.map fun u => if u.serial = w.serial then { u with confirm := some .confirmed } else u
      windows := (s.lane l).windows.filter fun v => v.serial != w.serial } := by
  unfold State.confirmPresence
  simp only [h, hw, State.setConfirm_eq, State.updLane_eq, State.lane_setLane_same, State.setLane_setLane]
  rfl

theorem State.confirmPresence_stray {s : State} {l : LaneId} (h : (s.lane l).confirmHeld = false)
    (hw : (s.lane l).windows.find? (fun v => v.contains (s.lane l).reach) = none) :
    s.confirmPresence l = s.produce (.stray l (s.lane l).reach) := by
  unfold State.confirmPresence
  simp only [h, hw]
  rfl

end Sys2Proof.Machine

open Sys2Proof Sys2Proof.Machine in
/-- Settles O52: the profile's confirm station decides whether the monitor is concerned, and the window's end whether it
opens. -/
theorem confirmWindows : Obligations.ConfirmWindows := by
  unfold Obligations.ConfirmWindows
  intro s l L marks failed back
  have hfailed : ∀ (u : State) (n : Serial) (k : StationId) (windows : List Window),
      u = s.setLane l { L with windows := windows } → u.unconfirmed l n k = failed n k windows := by
    intro u n k windows hu
    have hlane : u.lane l = { L with windows := windows } := by rw [hu, State.lane_setLane_same]
    let t : State := (s.setLane l { L with queue := marks n .unconfirmed, windows := windows }).produce (.unconfirmed l n k)
    have htold : u.unconfirmed l n k = t.confirmPolicy l := by
      unfold State.unconfirmed
      rw [State.setConfirm_eq, hlane, hu, State.setLane_setLane]
    have ht : t.lane l = { L with queue := marks n .unconfirmed, windows := windows } := by
      rw [State.lane_produce, State.lane_setLane_same]
    obtain ⟨hreport, hstop, hhalt⟩ := t.confirmPolicy_eq l
    have hstops : (t.lane l).stops = L.stops := by rw [ht]
    rw [show (t.lane l).config = L.config by rw [ht]] at hreport hstop hhalt
    rw [hstops] at hstop
    rw [htold]
    simp only [failed]
    rcases hpolicy : L.config.confirmPolicy
    · exact hreport hpolicy
    · exact hstop hpolicy
    · exact hhalt hpolicy
  refine ⟨fun k t => ?_, fun w hfind hreach => ?_⟩
  · intro p
    refine ⟨fun hnone => ⟨State.tellFired_none (Profile.confirmSpan_none hnone),
      State.tellNotDue_none (Profile.confirmSpan_none hnone)⟩, fun w hw honly => ?_⟩
    have hspan : p.confirmSpan k = some w := Profile.confirmSpan_some hw honly
    refine ⟨State.tellNotDue_some hspan, fun on hon => ?_⟩
    intro start stop
    let opened : Window := { serial := t.serial, station := k, start := start, stop := stop }
    have hfired : s.tellFired l k t = s.openWindow l opened := State.tellFired_some hspan hon
    refine ⟨fun older newer hahead hwindows holder hnewer => ?_, fun hover => ?_⟩
    · have hplace : insertBySerial L.nextSerial Window.serial opened L.windows = older ++ opened :: newer := by
        rw [hwindows]
        exact insertBySerial_split L.nextSerial Window.serial opened older newer holder hnewer
      rw [hfired, State.openWindow_ahead (w := opened) hahead, hplace]
    · rw [hfired, State.openWindow_over (w := opened) hover]
      exact hfailed s _ k L.windows (s.setLane_self l).symm
  · have hmem : w ∈ L.windows := List.mem_of_find?_eq_some hfind
    rw [State.runAct_windowEnd ⟨w, hmem, rfl, hreach.symm⟩ hfind]
    exact hfailed _ _ _ _ rfl

open Sys2Proof Sys2Proof.Machine in
/-- Settles O51: the level alone, nothing, or a presence edge, which finds the oldest window that contains the reach. -/
theorem confirmEdges : Obligations.ConfirmEdges := by
  unfold Obligations.ConfirmEdges
  intro s l present L heard c K becomes held
  have hL : heard.lane l = L := State.lane_setLaneInputs ..
  have hexec : ∀ t, heard.confirmEdge l present = t → exec c s = .next t.transmitNext := fun t ht => by rw [← ht]; rfl
  have hlevel : L.tracking = false ∨ L.depth = 0 ∧ (present = false ∨ L.confirmLevel = true) → becomes K := fun h =>
    hexec _ (by rw [State.confirmEdge_level (by rw [hL]; exact h), hL])
  refine ⟨fun htracks => hlevel (.inl htracks),
    fun htracks hdepth => hexec _ (State.confirmEdge_behind (by rw [hL]; exact htracks) (by rw [hL]; exact hdepth)),
    fun htracks hdepth => ⟨fun h => hlevel (.inr ⟨hdepth, h⟩), fun hpresent hclear => ?_⟩⟩
  subst hpresent
  have hK : (heard.setLane l K).lane l = K := State.lane_setLane_same ..
  have hheld : K.confirmHeld = true ↔ held := K.confirmHeld_iff
  have hopen : ¬ held → ((heard.setLane l K).lane l).confirmHeld = false := fun h => by
    rw [hK]
    exact Bool.eq_false_iff.mpr fun hheld' => h (hheld.mp hheld')
  have hpresence : ∀ t, (heard.setLane l K).confirmPresence l = t → exec c s = .next t.transmitNext := fun t ht =>
    hexec t (by rw [State.confirmEdge_presence (by rw [hL]; exact htracks) (by rw [hL]; exact hdepth)
      (by rw [hL]; exact hclear), hL, ← ht])
  refine ⟨fun h => hpresence _ (State.confirmPresence_held (by rw [hK]; exact hheld.mpr h)),
    fun older w newer h hwindows holder hw => hpresence _ ?_, fun h hnone => hpresence _ ?_⟩
  · have hfind : K.windows.find? (fun v => v.contains K.reach) = some w := by
      rw [show K.windows = older ++ w :: newer from hwindows, List.find?_append,
        List.find?_eq_none.mpr fun v hv => mt (Window.contains_iff v _).mp (holder v hv)]
      exact List.find?_cons_of_pos (p := fun v : Window => v.contains K.reach) ((Window.contains_iff w _).mpr hw)
    rw [State.confirmPresence_confirms (hopen h) (by rw [hK]; exact hfind), hK, State.setLane_setLane]
  · have hfind : K.windows.find? (fun v => v.contains K.reach) = none :=
      List.find?_eq_none.mpr fun v hv => mt (Window.contains_iff v _).mp (hnone v hv)
    rw [State.confirmPresence_stray (hopen h) (by rw [hK]; exact hfind), hK]
end

section
/-! PROOF. The pulse timer and the guard at the stations (R100, R102, R107, R108, R116, R117). -/

namespace Sys2Proof.Machine

/-! ## One station of a lane -/

@[simp] theorem Lane.setStation_setStation (L : Lane) (k : StationId) (x y : Station) :
    (L.setStation k x).setStation k y = L.setStation k y := by
  simp only [Lane.setStation, Vector.set_set]

@[simp] theorem Lane.setStation_self (L : Lane) (k : StationId) : L.setStation k (L.station k) = L := by
  simp only [Lane.setStation, Lane.station, Fin.getElem_fin, Vector.set_getElem_self]

/-- R99: the station fires a pulse, the ticket's outcome is FIRED, and the monitor is told. -/
theorem State.firePulse_eq (s : State) (l : LaneId) (k : StationId) (t : Ticket) (width rearm : Triple) :
    s.firePulse l k t width rearm = State.tellFired (s.setLane l
      { (s.lane l).setStation k { (s.lane l).station k with pulse := .pulsing width.toNat rearm } with
        queue := (s.lane l).queue.map fun u => if u.serial = t.serial then u.setOutcome k .fired else u }) l k t := by
  unfold State.firePulse
  simp only [State.setOutcome, State.updStation_eq, State.updTicket_eq, State.lane_setLane_same,
    State.setLane_setLane]
  rfl

theorem State.deferredFire_empty {s : State} {l : LaneId} {k : StationId}
    (h : ((s.lane l).station k).deferred = []) : s.deferredFire l k = s := by
  unfold State.deferredFire
  simp only [h]

/-- R102: the oldest deferred ticket leaves the list and is fired for, with the times of its own generation. -/
theorem State.deferredFire_fires {s : State} {l : LaneId} {k : StationId} {d : Deferred} {rest : List Deferred}
    {t : Ticket} {on width rearm : Triple} {busy : BusyPolicy} {rule : StationRule} {flush : Bool}
    (h : ((s.lane l).station k).deferred = d :: rest)
    (ht : (s.lane l).queue.find? (fun u => u.serial == d.serial) = some t)
    (hact : (((s.lane l).profileOf t.generation).station k).act = .pulse on width rearm busy rule flush) :
    s.deferredFire l k =
      (s.setLane l ((s.lane l).setStation k { (s.lane l).station k with deferred := rest })).firePulse l k t width
        rearm := by
  have hprofile : ((s.lane l).setStation k { (s.lane l).station k with deferred := rest }).profileOf t.generation =
      (s.lane l).profileOf t.generation := Lane.profileOf_congr rfl rfl _
  have hfind : ((s.lane l).setStation k { (s.lane l).station k with deferred := rest }).findTicket d.serial = some t :=
    ht
  unfold State.deferredFire
  simp only [h, State.updStation_eq, State.lane_setLane_same, hfind, hprofile, hact]

/-! ## The pulse timer -/

/-- The event of the pulse timer that ends a pulse with no rearm time, or a rearm time. -/
def Station.idlesAt (S : Station) (l : LaneId) (k : StationId) (c : Instr) : Prop :=
  (∃ left, c = .pulseEnd l k ∧ S.pulse = .pulsing left 0) ∨ (∃ left, c = .rearmEnd l k ∧ S.pulse = .rearming left)

theorem exec_idles {s : State} {l : LaneId} {k : StationId} {c : Instr}
    (h : ((s.lane l).station k).idlesAt l k c) : exec c s = .next (s.becomeIdle l k).transmitNext := by
  rcases h with ⟨left, rfl, hpulse⟩ | ⟨left, rfl, hpulse⟩
  · have hend : s.pulseEnd l k = s.becomeIdle l k := by
      unfold State.pulseEnd
      simp only [hpulse, if_true]
    exact next_transmit hend
  · have hend : s.rearmEnd l k = s.becomeIdle l k := by
      unfold State.rearmEnd
      simp only [hpulse]
    exact next_transmit hend

theorem State.pulseEnd_rearms {s : State} {l : LaneId} {k : StationId} {left : Nat} {rearm : Triple}
    (h : ((s.lane l).station k).pulse = .pulsing left rearm) (hrearm : rearm ≠ 0) :
    s.pulseEnd l k = s.setLane l
      ((s.lane l).setStation k { (s.lane l).station k with pulse := .rearming rearm.toNat }) := by
  unfold State.pulseEnd
  simp only [h, if_neg hrearm, State.updStation_eq]

theorem State.pulseEnd_other {s : State} {l : LaneId} {k : StationId}
    (h : ∀ left rearm, ((s.lane l).station k).pulse ≠ .pulsing left rearm) : s.pulseEnd l k = s := by
  unfold State.pulseEnd
  split
  · rename_i left rearm hpulse
    exact absurd hpulse (h left rearm)
  · rfl

theorem State.rearmEnd_other {s : State} {l : LaneId} {k : StationId}
    (h : ∀ left, ((s.lane l).station k).pulse ≠ .rearming left) : s.rearmEnd l k = s := by
  unfold State.rearmEnd
  split
  · rename_i left hpulse
    exact absurd hpulse (h left)
  · rfl

/-- R100, R108: under the guard, and with nothing deferred, the station is IDLE and no more. -/
theorem State.becomeIdle_waits {s : State} {l : LaneId} {k : StationId}
    (h : s.guardAsserted = true ∨ ((s.lane l).station k).deferred = []) :
    s.becomeIdle l k = s.setLane l ((s.lane l).setStation k { (s.lane l).station k with pulse := .idle }) := by
  rcases h with h | h
  · exact if_pos h
  · unfold State.becomeIdle
    simp only [State.updStation_eq]
    rw [State.deferredFire_empty]
    · exact ite_self _
    · rw [State.lane_setLane_same, Lane.station_setStation_same]
      exact h

theorem State.becomeIdle_fires {s : State} {l : LaneId} {k : StationId} (h : s.guardAsserted = false) :
    s.becomeIdle l k =
      (s.setLane l ((s.lane l).setStation k { (s.lane l).station k with pulse := .idle })).deferredFire l k :=
  if_neg (by rw [State.updStation_eq, State.setLane_guardAsserted, h]; exact Bool.false_ne_true)

/-! ## The guard -/

theorem Station.cut_eq (S : Station) : S.cut =
    { S with
      pulse :=
        match S.pulse with
        | .pulsing _ rearm => if rearm = 0 then .idle else .rearming rearm.toNat
        | other => other } := by
  rcases S with ⟨_ | ⟨left, rearm⟩ | left, deferred, spanEnd, forced⟩ <;> rfl

theorem Station.firesOnRelease_iff (S : Station) : S.firesOnRelease = true ↔ S.pulse = .idle ∧ S.deferred ≠ [] := by
  simp [Station.firesOnRelease]

theorem State.releaseStation_eq (s : State) (x : LaneId × StationId) : s.releaseStation x =
    if ((s.lane x.1).station x.2).pulse = .idle ∧ ((s.lane x.1).station x.2).deferred ≠ [] then
      s.deferredFire x.1 x.2 else s := by
  simp only [State.releaseStation, Station.firesOnRelease_iff]

theorem State.mem_releasing (s : State) (quiet : Bool) (x : LaneId × StationId) : x ∈ s.releasing quiet ↔
    ((s.lane x.1).station x.2).firesOnRelease = true ∧ (s.lane x.1).quietFire x.2 = quiet := by
  simp only [State.releasing, List.mem_flatMap, List.mem_map, List.mem_filter, Bool.and_eq_true, beq_iff_eq]
  refine ⟨?_, fun h => ⟨x.1, mem_allLanes x.1, x.2, ⟨mem_allStations x.2, h⟩, rfl⟩⟩
  rintro ⟨l, -, k, ⟨-, h⟩, rfl⟩
  exact h

theorem State.releasing_nodup (s : State) (quiet : Bool) : (s.releasing quiet).Nodup := by
  have hlanes : allLanes.Nodup := by decide
  have hstations : allStations.Nodup := by decide
  refine List.nodup_flatMap.mpr ⟨fun l _ => ?_, hlanes.imp fun {i j} hne => ?_⟩
  · exact (hstations.filter _).map fun k k' h => congrArg Prod.snd h
  · rintro x hi hj
    obtain ⟨k, -, rfl⟩ := List.mem_map.mp hi
    obtain ⟨k', -, h⟩ := List.mem_map.mp hj
    exact hne (congrArg Prod.fst h).symm

/-- R108: at a release every station that has reason to fire does so, each once, in some order. -/
theorem State.releasePulses_order (s : State) : ∃ (order : List (LaneId × StationId)) (taken : Nat),
    order.Nodup ∧ (∀ x, x ∈ order ↔ ((s.lane x.1).station x.2).firesOnRelease = true) ∧
    (taken = s.freeIndex ∨ taken = s.freeIndex + 1 ∧ 2 ≤ order.length) ∧
    s.releasePulses = order.foldl State.releaseStation { s with freeIndex := taken } := by
  obtain ⟨loud, taken, hperm, htaken, hordered⟩ := s.ordered_singles (s.releasing false)
  have hloud : ∀ x, x ∈ loud ↔ _ := fun x => hperm.mem_iff.trans (s.mem_releasing false x)
  refine ⟨s.releasing true ++ loud, taken, ?_, fun x => ?_, ?_, ?_⟩
  · refine List.nodup_append'.mpr ⟨s.releasing_nodup true, hperm.nodup_iff.mpr (s.releasing_nodup false), ?_⟩
    intro x hquiet hx
    have h := ((s.mem_releasing true x).mp hquiet).2
    rw [((hloud x).mp hx).2] at h
    cases h
  · rw [List.mem_append, hloud, s.mem_releasing]
    refine ⟨fun h => h.elim (·.1) (·.1), fun h => ?_⟩
    rcases (s.lane x.1).quietFire x.2
    · exact .inr ⟨h, rfl⟩
    · exact .inl ⟨h, rfl⟩
  · refine htaken.imp_right fun ⟨hnext, hlength⟩ => ⟨hnext, ?_⟩
    rw [List.length_append]
    omega
  · unfold State.releasePulses
    rw [hordered]

theorem State.guardChange_same {s : State} {energised : Bool} (h : s.guardAsserted = !energised) :
    s.guardChange energised = { s with inputs := { s.inputs with guardLine := energised } } := if_pos h

/-- The state that has heard and told a change of the guard. -/
def State.toldGuard (s : State) (energised : Bool) : State :=
  State.produce { s with inputs := { s.inputs with guardLine := energised }, guardAsserted := !energised }
    (.guard (!energised))

theorem State.guardChange_told {s : State} {energised : Bool} (h : s.guardAsserted ≠ !energised) :
    s.guardChange energised =
      if energised then (s.toldGuard energised).releasePulses else (s.toldGuard energised).cutPulses := if_neg h

@[simp] theorem State.toldGuard_lane (s : State) (energised : Bool) (l : LaneId) :
    (s.toldGuard energised).lane l = s.lane l := State.lane_produce ..

end Sys2Proof.Machine

open Sys2Proof Sys2Proof.Machine in
/-- Settles O49: the station's pulse state picks the event's effect; at IDLE the deferred list decides. -/
theorem pulseTimer : Obligations.PulseTimer := by
  unfold Obligations.PulseTimer
  intro s l k c L S becomes idles
  refine ⟨fun left rearm hc hpulse hrearm => ?_, fun hidles hwaits => ?_,
    fun d rest t on width rearm busy rule flush hidles hguard hdeferred hfind hact => ?_, fun hc hother => ?_,
    fun hc hother => ?_⟩
  · refine (congrArg (exec · s) hc).trans ?_
    exact next_transmit (State.pulseEnd_rearms hpulse hrearm)
  · exact (exec_idles hidles).trans
      (next_transmit (State.becomeIdle_waits hwaits))
  · have hlane : (s.setLane l (L.setStation k { S with pulse := .idle })).lane l =
        L.setStation k { S with pulse := .idle } := State.lane_setLane_same ..
    have hstation : (L.setStation k { S with pulse := .idle }).station k = { S with pulse := .idle } :=
      Lane.station_setStation_same ..
    have hprofile : (L.setStation k { S with pulse := .idle }).profileOf t.generation = L.profileOf t.generation :=
      Lane.profileOf_congr rfl rfl _
    have hfires : s.becomeIdle l k = _ := (State.becomeIdle_fires hguard).trans (State.deferredFire_fires
      (by rw [hlane, hstation]; exact hdeferred) (by rw [hlane]; exact hfind)
      (by rw [hlane, hprofile]; exact hact))
    rw [exec_idles hidles, hfires, hlane, hstation, State.setLane_setLane, Lane.setStation_setStation,
      State.firePulse_eq, State.lane_setLane_same, Lane.station_setStation_same, State.setLane_setLane,
      Lane.setStation_setStation]
    rfl
  · refine (congrArg (exec · s) hc).trans ?_
    exact next_transmit (State.pulseEnd_other hother)
  · refine (congrArg (exec · s) hc).trans ?_
    exact next_transmit (State.rearmEnd_other hother)

open Sys2Proof Sys2Proof.Machine in
/-- Settles O50: an assertion cuts at every station; a release fires in some order, of which none and one are the least
cases. -/
theorem guardChanges : Obligations.GuardChanges := by
  unfold Obligations.GuardChanges
  intro s heard told fires
  have hfires : ∀ x : LaneId × StationId,
      (((told true).lane x.1).station x.2).firesOnRelease = true ↔ fires x.1 x.2 := fun x => by
    rw [Station.firesOnRelease_iff, show (told true).lane x.1 = s.lane x.1 from s.toldGuard_lane true x.1]
  have hrelease : s.guardAsserted = true → ∃ (order : List (LaneId × StationId)) (taken : Nat),
      order.Nodup ∧ (∀ l k, (l, k) ∈ order ↔ fires l k) ∧
      (taken = s.freeIndex ∨ taken = s.freeIndex + 1 ∧ 2 ≤ order.length) ∧
      exec (.guardChange true) s = .next (State.transmitNext (order.foldl
        (fun t x =>
          if ((t.lane x.1).station x.2).pulse = .idle ∧ ((t.lane x.1).station x.2).deferred ≠ [] then
            t.deferredFire x.1 x.2
          else t)
        { told true with freeIndex := taken })) := by
    intro hguard
    obtain ⟨order, taken, hnodup, hmem, htaken, hreleased⟩ := (told true).releasePulses_order
    have hchange : s.guardChange true = order.foldl State.releaseStation { told true with freeIndex := taken } :=
      (State.guardChange_told (by rw [hguard]; decide)).trans hreleased
    rw [funext₂ State.releaseStation_eq] at hchange
    exact ⟨order, taken, hnodup, fun l k => (hmem (l, k)).trans (hfires (l, k)), htaken,
      next_transmit hchange⟩
  refine ⟨fun energised hsame => ?_, fun hguard => ?_, fun hguard hnone => ?_, fun l k hguard hone honly => ?_, hrelease⟩
  · exact next_transmit (State.guardChange_same hsame)
  · have hcut : s.guardChange false = (told false).mapLanes fun L => L.mapStations Station.cut :=
      State.guardChange_told (by rw [hguard]; decide)
    rw [funext fun L => Lane.mapStations_eq L Station.cut, funext Station.cut_eq] at hcut
    exact next_transmit hcut
  · obtain ⟨order, taken, -, hmem, htaken, hexec⟩ := hrelease hguard
    obtain rfl : order = [] := List.eq_nil_iff_forall_not_mem.mpr fun x hx => hnone _ _ ((hmem x.1 x.2).mp hx)
    obtain rfl | ⟨-, hlength⟩ := htaken
    · exact hexec
    · exact absurd hlength (by decide)
  · obtain ⟨order, taken, hnodup, hmem, htaken, hexec⟩ := hrelease hguard
    have horder : order = [(l, k)] := by
      refine List.perm_singleton.mp ((List.perm_ext_iff_of_nodup hnodup (List.nodup_singleton _)).mpr fun x => ?_)
      rw [List.mem_singleton]
      refine (hmem x.1 x.2).trans ⟨fun h => Prod.ext (honly _ _ h).1 (honly _ _ h).2, ?_⟩
      rintro rfl
      exact hone
    subst horder
    obtain rfl | ⟨-, hlength⟩ := htaken
    · refine hexec.trans (next_transmit ?_)
      exact if_pos hone
    · exact absurd hlength (by simp)
end

section
/-! PROOF. The points of a ticket at a station: due point, tolerance end, span end (R95 to R106). -/

namespace Sys2Proof.Machine

/-! ## Acts that a lane has reason for -/

theorem State.runAct_due {s : State} {l : LaneId} {k : StationId} {n : Serial} {t : Ticket}
    (h : (s.lane l).Holds (.due k n)) (ht : (s.lane l).findTicket n = some t) :
    State.runAct l s (.due k n) = s.duePoint l k t := by
  unfold State.runAct
  simp only [((s.lane l).calls_iff _).mpr h, ht]
  rfl

theorem State.runAct_tolerance {s : State} {l : LaneId} {k : StationId} {n : Serial} {t : Ticket}
    (h : (s.lane l).Holds (.tolerance k n)) (ht : (s.lane l).findTicket n = some t) :
    State.runAct l s (.tolerance k n) = s.toleranceEnd l k t := by
  unfold State.runAct
  simp only [((s.lane l).calls_iff _).mpr h, ht]
  rfl

theorem State.runAct_spanEnd {s : State} {l : LaneId} {k : StationId} (h : (s.lane l).Holds (.spanEnd k)) :
    State.runAct l s (.spanEnd k) =
      s.setLane l ((s.lane l).setStation k { (s.lane l).station k with spanEnd := none }) := by
  unfold State.runAct
  simp only [((s.lane l).calls_iff _).mpr h]
  rfl

/-! ## Decisions and outcomes of one ticket -/

/-- The ticket n of a queue with its decision changed by f. -/
def withDecision (queue : List Ticket) (n : Serial) (f : Decision → Decision) : List Ticket :=
  queue.map fun u => if u.serial = n then { u with decision := f u.decision } else u

/-- The ticket n of a queue with its decision changed by f and its outcome at station k set. -/
def withOutcome (queue : List Ticket) (n : Serial) (k : StationId) (f : Decision → Decision) (o : Outcome) : List Ticket :=
  queue.map fun u =>
    if u.serial = n then
      { u with decision := f u.decision, outcomes := u.outcomes.map fun e => if e.1 = k then (k, o) else e }
    else u

/-- A lane whose ticket n has its decision changed, and then its outcome at station k set. -/
theorem Lane.setOutcome_decided (L : Lane) (n : Serial) (k : StationId) (f : Decision → Decision) (o : Outcome) :
    { L with queue := withDecision L.queue n f }.updTicket n (Ticket.setOutcome · k o) =
      { L with queue := withOutcome L.queue n k f o } := by
  have hone : ∀ u : Ticket,
      (if (if u.serial = n then { u with decision := f u.decision } else u).serial = n then
        (if u.serial = n then { u with decision := f u.decision } else u).setOutcome k o
      else if u.serial = n then { u with decision := f u.decision } else u) =
      if u.serial = n then
        { u with decision := f u.decision, outcomes := u.outcomes.map fun e => if e.1 = k then (k, o) else e }
      else u := by
    intro u
    by_cases h : u.serial = n
    · simp only [if_pos h]
      rfl
    · simp only [if_neg h]
  simp only [Lane.updTicket, withDecision, withOutcome, List.map_map]
  exact congrArg (fun q => { L with queue := q }) (List.map_congr_left fun u _ => hone u)

theorem withDecision_id (queue : List Ticket) (n : Serial) : withDecision queue n id = queue := by
  have hone : ∀ u : Ticket, (if u.serial = n then { u with decision := id u.decision } else u) = u := fun u => ite_self _
  simp only [withDecision, hone, List.map_id']

/-! ## What the station does -/

/-- The lane after station k of the lane is x and ticket n has been settled there. -/
def State.settled (s : State) (l : LaneId) (k : StationId) (x : Station) (n : Serial) (f : Decision → Decision)
    (o : Outcome) : State :=
  s.setLane l { s.lane l with
    stations := (s.lane l).stations.set k x
    queue := withOutcome (s.lane l).queue n k f o }

/-- The state whose ticket n of lane l has its decision changed by f. -/
def State.decided (s : State) (l : LaneId) (n : Serial) (f : Decision → Decision) : State :=
  s.setLane l { s.lane l with queue := withDecision (s.lane l).queue n f }

@[simp] theorem State.decided_lane (s : State) (l : LaneId) (n : Serial) (f : Decision → Decision) :
    (s.decided l n f).lane l = { s.lane l with queue := withDecision (s.lane l).queue n f } := State.lane_setLane_same ..

theorem State.decided_id (s : State) (l : LaneId) (n : Serial) : s.decided l n id = s := by
  unfold State.decided
  rw [withDecision_id]
  exact s.setLane_self l

theorem State.decided_setOutcome (s : State) (l : LaneId) (k : StationId) (n : Serial) (f : Decision → Decision)
    (o : Outcome) :
    (s.decided l n f).setOutcome l k n o = s.setLane l { s.lane l with queue := withOutcome (s.lane l).queue n k f o } := by
  unfold State.setOutcome
  rw [State.updTicket_eq, State.decided_lane, State.decided, State.setLane_setLane]
  exact congrArg (s.setLane l) (Lane.setOutcome_decided ..)

theorem State.setLane_withOutcome (s : State) (l : LaneId) (k : StationId) (n : Serial) (f : Decision → Decision)
    (o : Outcome) : s.setLane l { s.lane l with queue := withOutcome (s.lane l).queue n k f o } =
      s.settled l k ((s.lane l).station k) n f o := by
  have hself := (s.lane l).setStation_self k
  unfold State.settled
  rw [show (s.lane l).stations.set k ((s.lane l).station k) = (s.lane l).stations from congrArg Lane.stations hself]

/-- A station changed and a ticket's outcome set, after its decision has been made. -/
theorem State.decided_updStation (s : State) (l : LaneId) (k : StationId) (n : Serial) (f : Decision → Decision)
    (o : Outcome) (g : Station → Station) : ((s.decided l n f).updStation l k g).setOutcome l k n o =
      s.settled l k (g ((s.lane l).station k)) n f o := by
  unfold State.setOutcome
  rw [State.updStation_eq, State.updTicket_eq, State.lane_setLane_same, State.decided_lane, State.decided,
    State.setLane_setLane, State.setLane_setLane]
  exact congrArg (s.setLane l)
    (Lane.setOutcome_decided ((s.lane l).setStation k (g ((s.lane l).station k))) n k f o)

/-- R98: a miss after the ticket's decision has been made. -/
theorem State.decided_miss (s : State) (l : LaneId) (k : StationId) (t : Ticket) (f : Decision → Decision)
    (reason : MissReason) : (s.decided l t.serial f).miss l k t reason =
      State.tellNotDue ((s.settled l k ((s.lane l).station k) t.serial f (.missed reason)).produce
        (.missed l k t.serial reason)) l k t := by
  unfold State.miss
  rw [State.decided_setOutcome, State.setLane_withOutcome]

theorem State.guardTest_asserted {s : State} {l : LaneId} {k : StationId} {t : Ticket} {act : StationAct} {due : Pos}
    (h : s.guardAsserted = true) : s.guardTest l k t act due = s.miss l k t .guard := if_pos h

theorem State.guardTest_released {s : State} {l : LaneId} {k : StationId} {t : Ticket} {act : StationAct} {due : Pos}
    (h : s.guardAsserted = false) : s.guardTest l k t act due = s.serveTicket l k t act due :=
  if_neg (by rw [h]; exact Bool.false_ne_true)

section Serve
variable {s : State} {l : LaneId} {k : StationId} {t : Ticket} {due : Pos} {on width rearm : Triple}
  {busy : BusyPolicy} {rule : StationRule} {flush : Bool}

theorem State.serveTicket_idle (h : ((s.lane l).station k).pulse = .idle) :
    s.serveTicket l k t (.pulse on width rearm busy rule flush) due = s.firePulse l k t width rearm := by
  simp only [State.serveTicket, h]

theorem State.serveTicket_drop (h : ((s.lane l).station k).pulse ≠ .idle) :
    s.serveTicket l k t (.pulse on width rearm .drop rule flush) due = s.miss l k t .busy := by
  unfold State.serveTicket
  rcases hpulse : ((s.lane l).station k).pulse with _ | ⟨left, r⟩ | left
  · exact absurd hpulse h
  · rfl
  · rfl

theorem State.serveTicket_defer (h : ((s.lane l).station k).pulse ≠ .idle) (tolerance : Half) :
    s.serveTicket l k t (.pulse on width rearm (.defer tolerance) rule flush) due =
      s.deferTicket l k t due tolerance := by
  unfold State.serveTicket
  rcases hpulse : ((s.lane l).station k).pulse with _ | ⟨left, r⟩ | left
  · exact absurd hpulse h
  · rfl
  · rfl

end Serve

/-! ## The due point -/

/-- A due point with rule ALWAYS goes to the guard test. -/
theorem State.duePoint_always {s : State} {l : LaneId} {k : StationId} {t : Ticket} {on : Triple}
    (hon : (((s.lane l).profileOf t.generation).station k).act.on? = some on)
    (hrule : (((s.lane l).profileOf t.generation).station k).act.rule? = some .always) :
    s.duePoint l k t = s.guardTest l k t (((s.lane l).profileOf t.generation).station k).act
      (t.entry + on.setWidth 32) := by
  have hdue : t.duePoint ((s.lane l).profileOf t.generation) k = some (t.entry + on.setWidth 32) := by
    unfold Ticket.duePoint
    rw [hon]
    rfl
  simp only [State.duePoint, hdue, hrule]

/-- R96: at a CLASS station the decision is made FINAL, and its class is tested. -/
theorem State.duePoint_class {s : State} {l : LaneId} {k : StationId} {t : Ticket} {on : Triple} {mask : Byte}
    {c : ClassId} {source : Source} {tag : Option Half} {f : Decision → Decision}
    (hon : (((s.lane l).profileOf t.generation).station k).act.on? = some on)
    (hrule : (((s.lane l).profileOf t.generation).station k).act.rule? = some (.onClass mask))
    (hf : ∀ u : Ticket, u.finalise ((s.lane l).profileOf t.generation) = { u with decision := f u.decision })
    (hclass : f t.decision = .final c source tag) :
    s.duePoint l k t =
      if mask.getLsbD c.val then
        (s.decided l t.serial f).guardTest l k t (((s.lane l).profileOf t.generation).station k).act
          (t.entry + on.setWidth 32)
      else ((s.decided l t.serial f).setOutcome l k t.serial .passed).tellNotDue l k t := by
  have hdue : t.duePoint ((s.lane l).profileOf t.generation) k = some (t.entry + on.setWidth 32) := by
    unfold Ticket.duePoint
    rw [hon]
    rfl
  have hfinal : (f t.decision).finalClass = some c := by rw [hclass]; rfl
  simp only [State.duePoint, hdue, hrule, State.classTest, hf, hfinal]
  rfl

end Sys2Proof.Machine

open Sys2Proof Sys2Proof.Machine in
/-- Settles O48: the rule decides whether the ticket is served, the guard whether it is missed, and the station's kind and
pulse state what serving it means. -/
theorem duePoints : Obligations.DuePoints := by
  unfold Obligations.DuePoints
  intro s l k t L p act S fixed ruled sets becomes misses back hfind
  have hmem : t ∈ L.queue := List.mem_of_find?_eq_some hfind
  have hfixed : ∀ u : Ticket, u.finalise p = { u with decision := fixed u.decision } := fun u => Ticket.finalise_eq u p
  refine ⟨fun on hon hreach hpending => ?_, fun htolerance => ?_, fun hspan => ?_⟩
  · intro after
    have hafter : after = s.duePoint l k t := State.runAct_due ⟨t, hmem, rfl, hpending, on, hon, hreach⟩ hfind
    refine ⟨fun mask c source tag hrule hclass hmask => ?_, fun hserved => ?_⟩
    · rw [hafter, State.duePoint_class hon hrule hfixed hclass, if_neg (by rw [hmask]; exact Bool.false_ne_true),
        State.decided_setOutcome]
      rfl
    · have hguardTest : after = (s.decided l t.serial ruled).guardTest l k t act (t.entry + on.setWidth 32) := by
        rcases hserved with hrule | ⟨mask, c, source, tag, hrule, hclass, hmask⟩
        · have hruled : ruled = id := by
            funext d
            simp only [ruled, hrule]
            rfl
          rw [hafter, State.duePoint_always hon hrule, hruled, State.decided_id]
        · have hruled : ruled = fixed := by
            funext d
            simp only [ruled, hrule]
          rw [hafter, State.duePoint_class hon hrule hfixed hclass, if_pos hmask, hruled]
      have hstation : ((s.decided l t.serial ruled).lane l).station k = S := by
        rw [State.decided_lane]
        rfl
      refine ⟨fun hguard => ?_, fun hguard => ⟨fun width rearm busy rule flush hact => ?_,
        fun off rule flush hact => ?_⟩⟩
      · rw [hguardTest, State.guardTest_asserted (s := s.decided l t.serial ruled) hguard]
        exact State.decided_miss ..
      · rw [State.guardTest_released (s := s.decided l t.serial ruled) hguard, hact] at hguardTest
        refine ⟨fun hidle => ?_, fun hbusy => ⟨?_, ?_, ?_⟩⟩
        · rw [hguardTest, State.serveTicket_idle (by rw [hstation]; exact hidle), State.firePulse,
            State.decided_updStation]
          rfl
        · rintro rfl
          rw [hguardTest, State.serveTicket_drop (by rw [hstation]; exact hbusy)]
          exact State.decided_miss ..
        · rintro rfl
          have hlate : (s.decided l t.serial ruled).toleranceReason = .late :=
            if_neg (by rw [show (s.decided l t.serial ruled).guardAsserted = false from hguard]; exact Bool.false_ne_true)
          rw [hguardTest, State.serveTicket_defer (by rw [hstation]; exact hbusy), State.deferTicket, if_pos rfl, hlate]
          exact State.decided_miss ..
        · rintro tolerance older newer rfl htolerance hdeferred holder hnewer
          let d : Deferred :=
            { serial := t.serial, toleranceEnd := t.entry + on.setWidth 32 + tolerance.setWidth 32 }
          have hplace : insertBySerial L.nextSerial Deferred.serial d S.deferred = older ++ d :: newer := by
            rw [hdeferred]
            exact insertBySerial_split L.nextSerial Deferred.serial d older newer holder hnewer
          have hsettled := s.decided_updStation l k t.serial ruled .deferred fun x =>
            { x with deferred := insertBySerial L.nextSerial Deferred.serial d x.deferred }
          rw [show (s.lane l).station k = S from rfl, hplace] at hsettled
          rw [hguardTest, State.serveTicket_defer (by rw [hstation]; exact hbusy), State.deferTicket,
            if_neg htolerance]
          simp only [State.decided_lane]
          exact hsettled
      · intro mine
        rw [State.guardTest_released (s := s.decided l t.serial ruled) hguard, hact] at hguardTest
        have hsettled := s.decided_updStation l k t.serial ruled .fired fun x =>
          { x with spanEnd := some (furtherAhead L.reach x.spanEnd mine) }
        have hspan : after = (s.decided l t.serial ruled).fireSpan l k t mine := hguardTest
        rw [hspan, State.fireSpan]
        simp only [State.decided_lane]
        refine (congrArg (fun u : State => u.tellFired l k t) hsettled).trans ?_
        refine congrArg (fun e => State.tellFired
          (s.settled l k { S with spanEnd := some e } t.serial ruled .fired) l k t) ?_
        rcases S.spanEnd with _ | e
        · rfl
        · rfl
  · have hends : State.runAct l s (.tolerance k t.serial) = s.toleranceEnd l k t :=
      State.runAct_tolerance htolerance hfind
    have hsettled := s.decided_updStation l k t.serial id (.missed s.toleranceReason) fun x =>
      { x with deferred := x.deferred.filter fun d => d.serial != t.serial }
    rw [State.decided_id] at hsettled
    rw [hends]
    exact congrArg (fun u : State => (u.produce (.missed l k t.serial s.toleranceReason)).tellNotDue l k t) hsettled
  · rw [State.runAct_spanEnd hspan]
    rfl
end

section
/-! PROOF. The validation of a profile and the values derived from a valid one (R61, R62, R67). -/

namespace Sys2Proof.Machine

/-! ## No condition of the table holds -/

theorem StationRecord.classAt_iff_act (r : StationRecord) (on : Triple) : r.ClassAt on ↔
    ∃ mask : Byte, (∃ off flush, r.act = .span on off (.onClass mask) flush) ∨
      ∃ width rearm busy flush, r.act = .pulse on width rearm busy (.onClass mask) flush := by
  rcases r with ⟨_ | ⟨o, width, rearm, busy, _ | mask, flush⟩ | ⟨o, off, _ | mask, flush⟩, confirm⟩ <;>
    simp [StationRecord.ClassAt]

theorem StationRecord.endsAt_iff_act (r : StationRecord) (e : Nat) : r.EndsAt e ↔
    (∃ on off rule flush, r.act = .span on off rule flush ∧
      (e = off.toNat ∨ ∃ w, r.confirm = some w ∧ e = on.toNat + w.stop.toNat)) ∨
    ∃ on width rearm busy rule flush, r.act = .pulse on width rearm busy rule flush ∧
      (busy = .drop ∧ e = on.toNat ∨ (∃ tolerance, busy = .defer tolerance ∧ e = on.toNat + tolerance.toNat) ∨
        ∃ w, r.confirm = some w ∧ e = on.toNat + w.stop.toNat) := by
  rcases r with ⟨_ | ⟨on, width, rearm, _ | tolerance, rule, flush⟩ | ⟨on, off, rule, flush⟩, confirm⟩ <;>
    simp [StationRecord.EndsAt, StationRecord.OnAt]

namespace ProfileBody
variable (b : ProfileBody)

/-- A profile passes a condition that names no station. -/
theorem fails_none_iff (reason : InvalidReason) : (∀ station, ¬ b.Fails reason station) ↔ b.named reason = none := by
  simp only [b.fails_iff, Option.eq_none_iff_forall_ne_some, ne_eq]

theorem lengths_pass : (∀ station, ¬ b.Fails .lengths station) ↔ b.fields.lmin.toNat ≤ b.fields.lmax.toNat :=
  ⟨fun h => Nat.le_of_not_lt fun hlt => h 255 ⟨hlt, rfl⟩, fun h _ hfails => absurd hfails.1 (Nat.not_lt.mpr h)⟩

theorem tooClose_pass : (∀ station, ¬ b.Fails .tooClose station) ↔
    ∀ (k : StationId) on, (b.stations[k]).OnAt on → b.fields.lmax.toNat + b.fields.gap.toNat < on.toNat := by
  refine (namesFirst_none _).trans ⟨fun h k on hon => Nat.lt_of_not_le fun hle => h k ⟨on, hon, hle⟩, ?_⟩
  rintro h k ⟨on, hon, hle⟩
  exact absurd hle (Nat.not_le.mpr (h k on hon))

theorem spanOrder_pass : (∀ station, ¬ b.Fails .spanOrder station) ↔
    ∀ (k : StationId) on off rule flush, (b.stations[k]).act = .span on off rule flush → on.toNat < off.toNat := by
  refine (namesFirst_none _).trans ⟨fun h k on off rule flush hact => ?_, ?_⟩
  · exact Nat.lt_of_not_le fun hle => h k ⟨on, off, rule, flush, hact, hle⟩
  · rintro h k ⟨on, off, rule, flush, hact, hle⟩
    exact absurd hle (Nat.not_le.mpr (h k on off rule flush hact))

theorem windowOrder_pass : (∀ station, ¬ b.Fails .windowOrder station) ↔
    ∀ (k : StationId) w, (b.stations[k]).confirm = some w → w.start.toNat < w.stop.toNat := by
  refine (namesFirst_none _).trans ⟨fun h k w hw => Nat.lt_of_not_le fun hle => h k ⟨w, hw, hle⟩, ?_⟩
  rintro h k ⟨w, hw, hle⟩
  exact absurd hle (Nat.not_le.mpr (h k w hw))

theorem twoConfirm_pass : (∀ station, ¬ b.Fails .twoConfirm station) ↔
    ∀ j k : StationId, (b.stations[j]).confirm.isSome → (b.stations[k]).confirm.isSome → j = k := by
  refine (namesFirst_none _).trans ⟨fun h j k hj hk => ?_, ?_⟩
  · rcases lt_trichotomy j k with hlt | heq | hlt
    · exact absurd ⟨hk, j, hlt, hj⟩ (h k)
    · exact heq
    · exact absurd ⟨hj, k, hlt, hk⟩ (h j)
  · rintro h k ⟨hk, j, hlt, hj⟩
    exact absurd (h j k hj hk) (ne_of_lt hlt)

theorem confirmKind_pass : (∀ station, ¬ b.Fails .confirmKind station) ↔
    ∀ k : StationId, (b.stations[k]).confirm.isSome → (b.stations[k]).act ≠ .off :=
  (namesFirst_none _).trans ⟨fun h k hk hoff => h k ⟨hk, hoff⟩, fun h k hk => h k hk.1 hk.2⟩

/-- R62, R67: the smallest margin tells for all. -/
theorem margin_pass : (∀ station, ¬ b.Fails .margin station) ↔
    ∀ (k : StationId) on, (b.stations[k]).ClassAt on →
      b.fields.lmax.toNat + b.fields.gap.toNat + b.fields.verdictMargin.toNat < on.toNat := by
  rw [fails_none_iff]
  have hclass : (∀ x ∈ b.margins, (b.fields.nearest : Int) < x.2) ↔
      ∀ (k : StationId) on, (b.stations[k]).ClassAt on →
        b.fields.lmax.toNat + b.fields.gap.toNat + b.fields.verdictMargin.toNat < on.toNat := by
    simp only [b.mem_margins, StationRecord.classAt_iff, LaneFields.nearest]
    constructor
    · rintro h k on ⟨hclass, hon⟩
      have := h (k, (on.toNat : Int) - b.fields.verdictMargin.toNat) ⟨hclass, on, hon, rfl⟩
      push_cast at this
      omega
    · rintro h ⟨k, o⟩ ⟨hclass, on, hon, ho⟩
      have := h k on ⟨hclass, hon⟩
      simp only at ho
      push_cast
      omega
  rw [← hclass]
  simp only [ProfileBody.named, Option.map_eq_none_iff, Option.filter_eq_none_iff, decide_eq_true_eq, not_le]
  refine ⟨fun h x hx => ?_, fun h x hx => h x (smallest_spec _ x hx).1⟩
  rcases hs : smallest b.margins with _ | y
  · rw [(smallest_none _).mp hs] at hx
    cases hx
  · exact lt_of_lt_of_le (h y hs) ((smallest_spec _ y hs).2 x hx)

/-- R61, R67: the largest end point tells for all; Lmax + G is never beyond the limit. -/
theorem spanLimit_pass_iff : (∀ station, ¬ b.Fails .spanLimit station) ↔ b.lastPoint + 1 ≤ 16777215 := by
  rw [fails_none_iff]
  by_cases h : 16777215 < b.retireSpan
  · simp only [ProfileBody.named, if_pos h]
    exact ⟨nofun, fun hle => absurd h (Nat.not_lt.mpr hle)⟩
  · simp only [ProfileBody.named, if_neg h]
    exact ⟨fun _ => Nat.not_lt.mp h, fun _ => trivial⟩

theorem spanLimit_pass : (∀ station, ¬ b.Fails .spanLimit station) ↔
    ∀ (k : StationId) e, (b.stations[k]).EndsAt e → e + 1 ≤ 16777215 := by
  rw [spanLimit_pass_iff]
  obtain ⟨hall, -, hlast⟩ := b.lastPoint_spec
  refine ⟨fun h k e he => le_trans (Nat.succ_le_succ (hall k e he)) h, fun h => ?_⟩
  rcases hlast with hnear | ⟨k, hk⟩
  · rw [hnear, LaneFields.nearest]
    omega
  · exact h k _ hk

/-- R67: a profile passes validation when it passes each condition. -/
theorem invalid_none_iff : b.invalid = none ↔
    (∀ station, ¬ b.Fails .lengths station) ∧ (∀ station, ¬ b.Fails .tooClose station) ∧
    (∀ station, ¬ b.Fails .spanOrder station) ∧ (∀ station, ¬ b.Fails .windowOrder station) ∧
    (∀ station, ¬ b.Fails .twoConfirm station) ∧ (∀ station, ¬ b.Fails .confirmKind station) ∧
    (∀ station, ¬ b.Fails .margin station) ∧ (∀ station, ¬ b.Fails .spanLimit station) := by
  rw [b.invalid_none]
  refine ⟨fun h => ⟨h _, h _, h _, h _, h _, h _, h _, h _⟩, ?_⟩
  rintro ⟨hlengths, hclose, hspan, hwindow, htwo, hkind, hmargin, hlimit⟩ reason
  cases reason
  case lengths => exact hlengths
  case tooClose => exact hclose
  case spanOrder => exact hspan
  case windowOrder => exact hwindow
  case twoConfirm => exact htwo
  case confirmKind => exact hkind
  case margin => exact hmargin
  case spanLimit => exact hlimit

/-! ## Derived values -/

/-- R61: the retire span of a valid profile is one more than its last point. -/
theorem retireSpan_toNat (h : b.invalid = none) : b.derive.retireSpan.toNat = b.lastPoint + 1 := by
  obtain ⟨-, -, -, -, -, -, -, hlimit⟩ := b.invalid_none_iff.mp h
  have hle := b.spanLimit_pass_iff.mp hlimit
  show (BitVec.ofNat 24 (b.lastPoint + 1)).toNat = _
  rw [BitVec.toNat_ofNat, Nat.mod_eq_of_lt (by omega)]

theorem mem_margins_iff (o : Int) : (∃ x ∈ b.margins, x.2 = o) ↔
    ∃ (k : StationId) (on : Triple), (b.stations[k]).ClassAt on ∧ o = (on.toNat : Int) - b.fields.verdictMargin.toNat := by
  simp only [b.mem_margins, StationRecord.classAt_iff]
  constructor
  · rintro ⟨⟨k, o'⟩, ⟨hclass, on, hon, ho⟩, rfl⟩
    exact ⟨k, on, ⟨hclass, hon⟩, ho⟩
  · rintro ⟨k, on, ⟨hclass, hon⟩, ho⟩
    exact ⟨(k, o), ⟨hclass, on, hon, ho⟩, rfl⟩

/-- R62: the decision offset of a valid profile, as a number, is the smallest margin of all. -/
theorem decisionOffset_smallest (h : b.invalid = none) {x : StationId × Int} (hx : smallest b.margins = some x) :
    (b.derive.decisionOffset.toNat : Int) = x.2 ∧ (b.fields.nearest : Int) < x.2 := by
  obtain ⟨-, -, -, -, -, -, hmargin, -⟩ := b.invalid_none_iff.mp h
  obtain ⟨k, on, hclass, ho⟩ := (b.mem_margins_iff x.2).mp ⟨x, (smallest_spec _ x hx).1, rfl⟩
  have hlarge := b.margin_pass.mp hmargin k on hclass
  have hnear : (b.fields.nearest : Int) < x.2 := by
    rw [ho, LaneFields.nearest]
    push_cast
    omega
  refine ⟨?_, hnear⟩
  have hoffset : b.derive.decisionOffset = BitVec.ofInt 24 x.2 := by
    simp only [ProfileBody.derive, ProfileBody.decisionOffset, hx]
  have hon := on.isLt
  rw [hoffset, BitVec.toNat_ofInt, Int.toNat_of_nonneg (Int.emod_nonneg _ (by decide)), Int.emod_eq_of_lt] <;> omega

theorem decisionOffset_none (hx : smallest b.margins = none) : b.derive.decisionOffset = b.derive.retireSpan := by
  simp only [ProfileBody.derive, ProfileBody.decisionOffset, hx]
  exact BitVec.ofInt_natCast ..

end ProfileBody

end Sys2Proof.Machine

open Sys2Proof Sys2Proof.Machine in
/-- Settles O33: each condition passes or names its first station, and validation takes the conditions in order. -/
theorem validationConditions : Obligations.ValidationConditions := by
  unfold Obligations.ValidationConditions
  intro order
  refine ⟨rfl, fun b => ?_⟩
  intro near
  refine ⟨?_, fun reason station => b.invalid_some reason station⟩
  rw [b.invalid_none_iff, b.lengths_pass, b.tooClose_pass, b.spanOrder_pass, b.windowOrder_pass, b.twoConfirm_pass,
    b.confirmKind_pass, b.margin_pass, b.spanLimit_pass]

open Sys2Proof Sys2Proof.Machine in
/-- Settles O34: the retire span follows the last point, and the decision offset is the smallest margin, if there is
one. -/
theorem derivedValues : Obligations.DerivedValues := by
  unfold Obligations.DerivedValues
  intro b hvalid near ends offsets
  have hends : ∀ e, ends e ↔ e = b.fields.nearest ∨ ∃ k : StationId, (b.stations[k]).EndsAt e := fun e =>
    or_congr_right (exists_congr fun k => ((b.stations[k]).endsAt_iff_act e).symm)
  have hoffsets : ∀ o, offsets o ↔ ∃ x ∈ b.margins, x.2 = o := by
    intro o
    rw [b.mem_margins_iff]
    refine exists_congr fun k => exists_congr fun on => ?_
    rw [StationRecord.classAt_iff_act]
    exact ⟨fun ⟨mask, ho, hact⟩ => ⟨⟨mask, hact⟩, ho⟩, fun ⟨⟨mask, hact⟩, ho⟩ => ⟨mask, ho, hact⟩⟩
  obtain ⟨hall, hnear, hlast⟩ := b.lastPoint_spec
  have hspan := b.retireSpan_toNat hvalid
  refine ⟨fun e he => ?_, ⟨b.lastPoint, (hends _).mpr hlast, hspan⟩, fun o ho => ?_, fun ⟨o, ho⟩ => ?_, fun hnone => ?_, ?_⟩
  · rw [hspan]
    rcases (hends e).mp he with rfl | ⟨k, hk⟩
    · exact Nat.lt_succ_of_le hnear
    · exact Nat.lt_succ_of_le (hall k e hk)
  · obtain ⟨x, hx, rfl⟩ := (hoffsets o).mp ho
    rcases hs : smallest b.margins with _ | y
    · rw [(smallest_none _).mp hs] at hx
      cases hx
    · rw [(b.decisionOffset_smallest hvalid hs).1]
      exact (smallest_spec _ y hs).2 x hx
  · obtain ⟨x, hx, rfl⟩ := (hoffsets o).mp ho
    rcases hs : smallest b.margins with _ | y
    · rw [(smallest_none _).mp hs] at hx
      cases hx
    · exact (hoffsets _).mpr ⟨y, (smallest_spec _ y hs).1, (b.decisionOffset_smallest hvalid hs).1.symm⟩
  · refine b.decisionOffset_none ((smallest_none _).mpr (List.eq_nil_iff_forall_not_mem.mpr fun x hx => ?_))
    exact hnone x.2 ((hoffsets _).mpr ⟨x, hx, rfl⟩)
  · rcases hs : smallest b.margins with _ | y
    · rw [b.decisionOffset_none hs, hspan]
      exact Nat.lt_succ_of_le hnear
    · obtain ⟨heq, hlt⟩ := b.decisionOffset_smallest hvalid hs
      rw [← heq] at hlt
      exact Int.ofNat_lt.mp hlt
end

section
/-! PROOF. COMMIT: its boundary, its refusals and what a reached boundary does (R66 to R75). -/

namespace Sys2Proof.Machine

/-! ## What a request finds unchanged by the frame around it -/

theorem State.heard_install (s : State) (l : LaneId) : s.heard.install l = (s.install l).heard := by
  by_cases hnone : (s.lane l).noCommit
  · rw [State.install_noCommit hnone, State.install_noCommit (s := s.heard) hnone]
  · obtain ⟨body, derived, c, hstaging⟩ : ∃ body derived c, (s.lane l).staging = .committing body derived c := by
      simpa only [Lane.noCommit, ne_eq, not_forall, not_not] using hnone
    rw [State.install_eq s l body derived c hstaging, State.install_eq s.heard l body derived c hstaging,
      ← State.heard_produce, ← State.heard_setLane, State.heard_lane]

theorem State.heard_testDrain (s : State) (l : LaneId) : s.heard.testDrain l = (s.testDrain l).heard := by
  rcases hdone : (s.lane l).drainDone
  · rw [State.testDrain_false hdone, State.testDrain_false (s := s.heard) hdone]
  · rw [State.testDrain_true hdone, State.testDrain_true (s := s.heard) hdone, State.heard_setLane,
      State.heard_produce, State.heard_install, State.heard_lane]

/-! ## The payload -/

/-- The payload of a COMMIT (R160). -/
def commitBytes (l : LaneId) (boundary : Byte) (n : Serial) : List Byte := [laneByte l, boundary] ++ be32 n

theorem commitBytes_lane (l : LaneId) (boundary : Byte) (n : Serial) :
    finOf 4 (byteAt (commitBytes l boundary n) 0) = some l := finOf_laneByte l

theorem commitBytes_word (l : LaneId) (boundary : Byte) (n : Serial) : word (commitBytes l boundary n) 2 = n :=
  word_eq rfl rfl rfl rfl

theorem parseCommit_now (next : LaneId → Serial) (l : LaneId) (n : Serial) :
    parseCommit next (commitBytes l 0 n) = .ok (l, .now) := by
  simp only [parseCommit, commitBytes_lane]
  rfl

theorem parseCommit_whenClear (next : LaneId → Serial) (l : LaneId) (n : Serial) :
    parseCommit next (commitBytes l 1 n) = .ok (l, .whenClear) := by
  simp only [parseCommit, commitBytes_lane]
  rfl

theorem parseCommit_atSerial {next : LaneId → Serial} {l : LaneId} {n : Serial}
    (h : boundarySerialOf (next l) n = some n) : parseCommit next (commitBytes l 2 n) = .ok (l, .atSerial n) := by
  simp only [parseCommit, commitBytes_lane, commitBytes_word, field_some, bind, Except.bind, h]
  rfl

theorem parseCommit_badSerial {next : LaneId → Serial} {l : LaneId} {n : Serial}
    (h : boundarySerialOf (next l) n = none) : parseCommit next (commitBytes l 2 n) = .error 3 := by
  simp only [parseCommit, commitBytes_lane, commitBytes_word, field_some, field_none, bind, Except.bind, h]
  rfl

theorem parseCommit_badBoundary (next : LaneId → Serial) (l : LaneId) {boundary : Byte} (n : Serial)
    (h : 3 ≤ boundary.toNat) : parseCommit next (commitBytes l boundary n) = .error 2 := by
  have hne : ∀ k : Byte, k.toNat < 3 → ¬ boundary = k := by
    rintro k hk rfl
    exact absurd h (Nat.not_le.mpr hk)
  have hbyte : byteAt (commitBytes l boundary n) 1 = boundary := rfl
  simp only [parseCommit, commitBytes_lane, field_some, bind, Except.bind, hbyte]
  simp only [if_neg (hne 0 (by decide)), if_neg (hne 1 (by decide)), if_neg (hne 2 (by decide))]
  rfl

/-- R69: which serials an AT_SERIAL boundary may name. -/
theorem boundarySerialOf_some {next n : Serial} (hnext : next ≠ 0) (hn : n ≠ 0)
    (h : ∃ j : Nat, 1 ≤ j ∧ j ≤ 2147483646 ∧ previousSerial^[j] n = next) : boundarySerialOf next n = some n :=
  if_pos ⟨hn, (serialsAhead_iff next n 2147483646 (by decide) hn hnext).mpr h⟩

theorem boundarySerialOf_none {next n : Serial} (hnext : next ≠ 0)
    (h : ¬ (n ≠ 0 ∧ ∃ j : Nat, 1 ≤ j ∧ j ≤ 2147483646 ∧ previousSerial^[j] n = next)) :
    boundarySerialOf next n = none :=
  if_neg fun ⟨hn, hahead⟩ => h ⟨hn, (serialsAhead_iff next n 2147483646 (by decide) hn hnext).mp hahead⟩

/-! ## The staging status and the boundary -/

theorem Lane.reachedAtOnce_iff (L : Lane) (b : Boundary) : L.reachedAtOnce b = true ↔
    L.state = .disabled ∨ L.state = .halted ∨ b = .now ∨ b = .whenClear ∧ L.queue = [] ∧ L.detector = .clear := by
  have htracks : (!L.tracking) = true ↔ L.state = .disabled ∨ L.state = .halted := by
    unfold Lane.tracking
    cases L.state <;> decide
  unfold Lane.reachedAtOnce
  rw [Bool.or_eq_true, htracks, or_assoc]
  cases b <;> simp [Detector.isClear_iff]

section Commit
variable {s : State} {l : LaneId} {b : Boundary} {body : ProfileBody}

theorem State.performCommit_absent (h : (s.lane l).staging = .absent) :
    s.performCommit (l, b) = (.nothingStaged, s) := by
  simp only [State.performCommit, h]

theorem State.performCommit_committing {derived : Derived} {c : Commit}
    (h : (s.lane l).staging = .committing body derived c) : s.performCommit (l, b) = (.stagingBusy, s) := by
  simp only [State.performCommit, h]

theorem State.performCommit_invalid {reason : InvalidReason} {station : Byte}
    (h : (s.lane l).staging = .editing body) (hinvalid : body.invalid = some (reason, station)) :
    s.performCommit (l, b) = (.profileInvalid reason station, s) := by
  simp only [State.performCommit, h, hinvalid]

theorem State.performCommit_waits (h : (s.lane l).staging = .editing body) (hvalid : body.invalid = none)
    (hreached : (s.lane l).reachedAtOnce b = false) : s.performCommit (l, b) =
      (.accepted, s.setLane l { s.lane l with staging := .committing body body.derive (.pending b) }) := by
  simp only [State.performCommit, h, hvalid, hreached]
  rfl

theorem State.performCommit_held (h : (s.lane l).staging = .editing body) (hvalid : body.invalid = none)
    (hreached : (s.lane l).reachedAtOnce b = true) (hretiring : (s.lane l).retiring.isSome) :
    s.performCommit (l, b) =
      (.accepted, s.setLane l { s.lane l with staging := .committing body body.derive .held }) := by
  simp only [State.performCommit, h, hvalid, hreached, if_true, if_pos hretiring, State.setStaging, State.updLane_eq]
  rw [State.reachBoundary_held (by rw [State.lane_setLane_same]) (by rw [State.lane_setLane_same]; exact hretiring),
    State.lane_setLane_same, State.setLane_setLane]

/-- R70, R71: a boundary that is reached with no retiring profile installs the profile. -/
theorem State.performCommit_installs (h : (s.lane l).staging = .editing body) (hvalid : body.invalid = none)
    (hreached : (s.lane l).reachedAtOnce b = true) (hretiring : (s.lane l).retiring = none) :
    s.performCommit (l, b) = (.ok [], State.testDrain (State.produce
      (s.setLane l (Lane.install { s.lane l with staging := .committing body body.derive (.pending b) } body body.derive))
      (.committed l ((s.lane l).active.generation + 1) (s.lane l).nextSerial)) l) := by
  have hnone : ¬ (s.lane l).retiring.isSome = true := by rw [hretiring]; decide
  simp only [State.performCommit, h, hvalid, hreached, if_true, if_neg hnone, State.setStaging, State.updLane_eq]
  rw [State.reachBoundary_installs (by rw [State.lane_setLane_same]) (by rw [State.lane_setLane_same]; exact hretiring),
    State.install_eq _ l body body.derive (.pending b) (by rw [State.lane_setLane_same]), State.lane_setLane_same,
    State.setLane_setLane]

end Commit

end Sys2Proof.Machine

open Sys2Proof Sys2Proof.Machine in
/-- Settles O32: the fields, the staging status, the validation, the boundary and the retiring profile are looked at in
turn. -/
theorem commitOutcomes : Obligations.CommitOutcomes := by
  unfold Obligations.CommitOutcomes
  intro s seq l n hadmits hsession L ahead request
  have hlength : ∀ boundary, (commitBytes l boundary n).length ≤ 96 := fun _ => Nat.le_add_left 6 90
  have hrefused : ∀ {boundary field : Byte},
      parseCommit (fun j => (s.heard.lane j).nextSerial) (commitBytes l boundary n) = .error field →
      exec (request boundary) s = .next (s.answered 0x23 seq [0x12, field]) := fun hparse =>
    (exec_commit ..).trans (requestCommand_answered hadmits (.inl hsession) (hlength _) (checked_field rfl hparse) rfl rfl)
  refine ⟨fun boundary h => hrefused (parseCommit_badBoundary _ l n h),
    fun hnext h => hrefused (parseCommit_badSerial (boundarySerialOf_none hnext h)), fun b hb => ?_⟩
  intro c reached
  have hparse : parseCommit (fun j => (s.heard.lane j).nextSerial) (commitBytes l b.code n) = .ok (l, b) := by
    rcases b with _ | _ | m
    · exact parseCommit_now ..
    · exact parseCommit_whenClear ..
    · obtain ⟨rfl, hnext, hn, hahead⟩ := hb m rfl
      exact parseCommit_atSerial (boundarySerialOf_some hnext hn hahead)
  have hexec : ∀ {t : State} {a : Answer} {bytes : List Byte}, s.heard.performCommit (l, b) = (a, t.heard) →
      a.payload = bytes → exec c s = .next (t.answered 0x23 seq bytes) := fun ha hbytes =>
    (exec_commit ..).trans (requestCommand_checked hadmits hsession rfl rfl (hlength _) hparse ha rfl hbytes)
  have hreached : L.reachedAtOnce b = true ↔ reached := L.reachedAtOnce_iff b
  refine ⟨fun habsent => hexec (State.performCommit_absent (s := s.heard) habsent) rfl,
    fun body derived commit hcommitting => hexec (State.performCommit_committing (s := s.heard) hcommitting) rfl,
    fun body hediting => ?_⟩
  intro installed
  refine ⟨fun reason station hinvalid => hexec (State.performCommit_invalid (s := s.heard) hediting hinvalid) rfl,
    fun hvalid hwaits => ?_, fun hvalid hnow hretiring => ?_, fun hvalid hnow hretiring => ?_⟩
  · exact hexec (State.performCommit_waits (s := s.heard) hediting hvalid
      (Bool.eq_false_iff.mpr fun h => hwaits (hreached.mp h))) rfl
  · exact hexec (State.performCommit_held (s := s.heard) hediting hvalid (hreached.mpr hnow) hretiring) rfl
  · have hinstalls := State.performCommit_installs (s := s.heard) hediting hvalid (hreached.mpr hnow) hretiring
    rw [Lane.install_eq, State.heard_setLane, State.heard_produce, State.heard_testDrain] at hinstalls
    exact hexec hinstalls rfl
end

section
/-! PROOF. The layouts of the staging requests (R154, R157, R160). -/

namespace Sys2Proof.Machine

/-! ## A station record as bytes -/

theorem BusyPolicy.bytes_length (busy : BusyPolicy) : busy.bytes.length = 3 := by cases busy <;> rfl

theorem StationRule.bytes_length (rule : StationRule) : rule.bytes.length = 2 := by cases rule <;> rfl

theorem StationAct.bytes_length (act : StationAct) : act.bytes.length = 19 := by
  rcases act with _ | ⟨on, width, rearm, busy, rule, flush⟩ | ⟨on, off, rule, flush⟩
  · rfl
  · simp [StationAct.bytes, BusyPolicy.bytes_length, StationRule.bytes_length]
  · simp [StationAct.bytes, StationRule.bytes_length]

theorem confirmBytes_length (confirm : Option ConfirmSpan) : (confirmBytes confirm).length = 5 := by
  cases confirm <;> rfl

theorem StationRecord.bytes_length (r : StationRecord) : r.bytes.length = 24 := by
  rw [StationRecord.bytes, List.length_append, StationAct.bytes_length, confirmBytes_length]

/-- The confirm fields stand after the 19 bytes of the kind. -/
theorem byteAt_confirm (a b : Byte) (act : StationAct) (rest : List Byte) (i : Nat) :
    byteAt (a :: b :: (act.bytes ++ rest)) (21 + i) = byteAt rest i := by
  have hpast : act.bytes.length ≤ 19 + i := by rw [StationAct.bytes_length]; exact Nat.le_add_right 19 i
  have hindex : 21 + i = 19 + i + 2 := by omega
  unfold byteAt
  rw [hindex, List.getD_cons_succ, List.getD_cons_succ, List.getD_append_right _ _ _ _ hpast, StationAct.bytes_length,
    Nat.add_sub_cancel_left]

/-! ## A station record read back -/

theorem parseStationAct_pulse {p : List Byte} {on width rearm : Triple} {busy : BusyPolicy} {rule : StationRule}
    {flush : Bool} (hkind : byteAt p 2 = 1) (hon : triple p 3 = on) (hwidth : triple p 9 = width)
    (hrearm : triple p 12 = rearm) (hbusy : busyOf (byteAt p 15) (half p 16) = some busy)
    (hrule : ruleOf (byteAt p 18) (byteAt p 19) = some rule) (hflush : byteAt p 20 = boolByte flush)
    (hon₁ : 1 ≤ on.toNat) (hwidth₁ : 100 ≤ width.toNat) (hwidth₂ : width.toNat ≤ 1000000)
    (hrearm₁ : rearm.toNat ≤ 1000000) : parseStationAct p = .ok (.pulse on width rearm busy rule flush) := by
  unfold parseStationAct
  rw [hkind]
  simp only [hon, hwidth, hrearm, hbusy, hrule, hflush, within_triple hon₁, within_of_le hwidth₁ hwidth₂,
    within_of_le (Nat.zero_le _) hrearm₁, boolOf_boolByte, field_some]
  rfl

theorem parseStationAct_span {p : List Byte} {on off : Triple} {rule : StationRule} {flush : Bool}
    (hkind : byteAt p 2 = 2) (hon : triple p 3 = on) (hoff : triple p 6 = off)
    (hrule : ruleOf (byteAt p 18) (byteAt p 19) = some rule) (hflush : byteAt p 20 = boolByte flush)
    (hon₁ : 1 ≤ on.toNat) (hoff₁ : 1 ≤ off.toNat) : parseStationAct p = .ok (.span on off rule flush) := by
  unfold parseStationAct
  rw [hkind]
  simp only [hon, hoff, hrule, hflush, within_triple hon₁, within_triple hoff₁, boolOf_boolByte, field_some]
  rfl

/-- R64, R160: the kind of a station record within its ranges is read back. -/
theorem parseStationAct_bytes (a b : Byte) (act : StationAct) (rest : List Byte)
    (hpulse : ∀ on width rearm busy rule flush, act = .pulse on width rearm busy rule flush →
      1 ≤ on.toNat ∧ 100 ≤ width.toNat ∧ width.toNat ≤ 1000000 ∧ rearm.toNat ≤ 1000000)
    (hspan : ∀ on off rule flush, act = .span on off rule flush → 1 ≤ on.toNat ∧ 1 ≤ off.toNat) :
    parseStationAct (a :: b :: (act.bytes ++ rest)) = .ok act := by
  rcases act with _ | ⟨on, width, rearm, busy, rule, flush⟩ | ⟨on, off, rule, flush⟩
  · rfl
  · obtain ⟨hon, hwidth, hwidth', hrearm⟩ := hpulse _ _ _ _ _ _ rfl
    refine parseStationAct_pulse rfl (triple_eq rfl rfl rfl) (triple_eq rfl rfl rfl) (triple_eq rfl rfl rfl) ?_ ?_ ?_
      hon hwidth hwidth' hrearm
    · rcases busy with tolerance | _
      · rw [half_eq (x := tolerance) rfl rfl]
        rfl
      · rfl
    · rcases busy <;> rcases rule <;> rfl
    · rcases busy <;> rcases rule <;> rfl
  · obtain ⟨hon, hoff⟩ := hspan _ _ _ _ rfl
    refine parseStationAct_span rfl (triple_eq rfl rfl rfl) (triple_eq rfl rfl rfl) ?_ ?_ hon hoff
    · rcases rule <;> rfl
    · rcases rule <;> rfl

theorem parseStageStation_bytes (l : LaneId) (k : StationId) (r : StationRecord)
    (hpulse : ∀ on width rearm busy rule flush, r.act = .pulse on width rearm busy rule flush →
      1 ≤ on.toNat ∧ 100 ≤ width.toNat ∧ width.toNat ≤ 1000000 ∧ rearm.toNat ≤ 1000000)
    (hspan : ∀ on off rule flush, r.act = .span on off rule flush → 1 ≤ on.toNat ∧ 1 ≤ off.toNat) :
    parseStageStation (laneByte l :: stationByte k :: r.bytes) = .ok (l, k, r) := by
  rcases r with ⟨act, confirm⟩
  have hact := parseStationAct_bytes (laneByte l) (stationByte k) act (confirmBytes confirm) hpulse hspan
  have hconfirm := byteAt_confirm (laneByte l) (stationByte k) act (confirmBytes confirm)
  have hl : byteAt (laneByte l :: stationByte k :: (act.bytes ++ confirmBytes confirm)) 0 = laneByte l := rfl
  have hk : byteAt (laneByte l :: stationByte k :: (act.bytes ++ confirmBytes confirm)) 1 = stationByte k := rfl
  have hflag : byteAt (laneByte l :: stationByte k :: (act.bytes ++ confirmBytes confirm)) 21 =
      boolByte confirm.isSome := (hconfirm 0).trans (by cases confirm <;> rfl)
  unfold parseStageStation StationRecord.bytes
  simp only [hact, hl, hk, hflag, finOf_laneByte, finOf_stationByte, boolOf_boolByte, field_some]
  rcases confirm with _ | w
  · rfl
  · have hstart : half (laneByte l :: stationByte k :: (act.bytes ++ confirmBytes (some w))) 22 = w.start :=
      half_eq (hconfirm 1) (hconfirm 2)
    have hstop : half (laneByte l :: stationByte k :: (act.bytes ++ confirmBytes (some w))) 24 = w.stop :=
      half_eq (hconfirm 3) (hconfirm 4)
    simp only [hstart, hstop]
    rfl

/-- R63, R160: the lane-level fields within their ranges are read back. -/
theorem parseStageLane_bytes (l : LaneId) {f : LaneFields} (hlmin : 1 ≤ f.lmin.toNat) (hlmax : 1 ≤ f.lmax.toNat) :
    parseStageLane ([laneByte l] ++ be16 f.lmin ++ be16 f.lmax ++ be16 f.gap ++ be16 f.verdictMargin ++
      [classByte f.defaultClass] ++ be16 f.flushMargin) = .ok (l, f) := by
  set p := [laneByte l] ++ be16 f.lmin ++ be16 f.lmax ++ be16 f.gap ++ be16 f.verdictMargin ++
      [classByte f.defaultClass] ++ be16 f.flushMargin with hp
  have h0 : byteAt p 0 = laneByte l := rfl
  have h1 : half p 1 = f.lmin := half_eq rfl rfl
  have h3 : half p 3 = f.lmax := half_eq rfl rfl
  have h5 : half p 5 = f.gap := half_eq rfl rfl
  have h7 : half p 7 = f.verdictMargin := half_eq rfl rfl
  have h9 : byteAt p 9 = classByte f.defaultClass := rfl
  have h10 : half p 10 = f.flushMargin := half_eq rfl rfl
  unfold parseStageLane
  simp only [h0, h1, h3, h5, h7, h9, h10, finOf_laneByte, finOf_classByte, within_half hlmin, within_half hlmax,
    within_half (Nat.zero_le _), field_some]
  rfl

end Sys2Proof.Machine

open Sys2Proof Sys2Proof.Machine in
/-- Settles O30: the numbers, the code tables, the record by its kind, and the two payloads read back. -/
theorem stagingLayouts : Obligations.StagingLayouts := by
  unfold Obligations.StagingLayouts
  refine ⟨⟨be16_bigEndian, be24_bigEndian, be32_bigEndian⟩, by decide, fun leading trailing lim left rearm => ⟨rfl, rfl⟩,
    fun body derived n => rfl, fun r => ?_, fun l f => parseStageLane_bytes l, fun l k r hpulse hspan =>
      ⟨r.bytes_length, parseStageStation_bytes l k r hpulse hspan⟩⟩
  intro rule flag record
  refine congrArg₂ (· ++ ·) (?_ : r.act.bytes = record) (?_ : confirmBytes r.confirm = _)
  · simp only [record, ← be24_bigEndian, ← be16_bigEndian]
    rcases r.act with _ | ⟨on, width, rearm, busy, x, flush⟩ | ⟨on, off, x, flush⟩
    · rfl
    · rcases busy <;> rcases x <;> rfl
    · rcases x <;> rfl
  · simp only [← be16_bigEndian]
    rcases r.confirm with _ | w
    · rfl
    · rfl
end
